-- ==== Sys2Proof/Word.lean ====
section
/-! DEFINITION. The plain words of the TE4: bytes and 16-bit fields as they cross a link, and the index types
of its tables. -/
namespace Sys2Proof

/-- One byte of a frame, a record or a payload buffer. -/
abbrev Byte := BitVec 8

/-- A 16-bit field: topic number, version, match, mask, ready sequence (R168). -/
abbrev Word := BitVec 16

/-- A host port, P0 to P3. -/
abbrev Port := Fin 4

/-- A post slot number of one port, 0 to 3 (R37). -/
abbrev SlotNo := Fin 4

/-- The index of a subscription entry, 0 to 63 (R23). -/
abbrev SubIndex := Fin 64

/-- A fetch id, 0 to 15 (R96). -/
abbrev FetchId := Fin 16

/-- The position of a topic record in the directory, internal to it (R1). -/
abbrev RecordNo := Fin 128

/-- The number of a payload buffer, internal to the part (R85). -/
abbrev BufferNo := Fin 256

end Sys2Proof
end

