-- ==== Sys2Proof/Config.lean ====
section
/-! DEFINITION. The numbers the manual fixes for the TE4: capacities, limits, and the defaults of the exchange
parameters. The manual leaves no value of an answer, a flag or a register open after a command, so this file
holds no free value (notes/assumptions/12.md). -/
namespace Sys2Proof.Config

/-- The most deliveries an inbound queue holds (R62). -/
abbrev queueCapacity : Nat := 32

/-- The most ACTIVE subscription entries a port may own (R25). -/
abbrev subscriptionQuota : Nat := 24

/-- The most fetch obligations a port may have (R97). -/
abbrev obligationLimit : Nat := 4

/-- The most topics READ_SOLICITS returns at once (R111). -/
abbrev solicitsPerRead : Nat := 16

/-- The bytes of one payload buffer (R85). -/
abbrev bufferBytes : Nat := 64

/-- The longest argument field of a request frame (R136). -/
abbrev maxArguments : Nat := 72

/-- The most bytes of a frame that the receiver keeps (R144, R147). -/
abbrev receiverBytes : Nat := 76

/-- The last offset of the delivery view (R150). -/
abbrev lastViewOffset : Nat := 71

/-- The length of the view header (R150). -/
abbrev headerBytes : Nat := 8

/-- The most bytes one READ_VIEW asks for (R153). -/
abbrev maxReadCount : Nat := 64

/-- The longest freshness limit of a topic (R11). -/
abbrev maxFreshnessLimit : Nat := 60000

/-- The longest deadline a FETCH may ask for (R99). -/
abbrev maxFetchDeadline : Nat := 1000

/-- What a link fault adds to the fault score (R124). -/
abbrev faultIncrement : Nat := 16

/-- The largest value of the fault score, of the notices-missed count (R124, R72). -/
abbrev byteSaturation : Nat := 255

/-- The largest value of a coalesce count (R69). -/
abbrev coalesceSaturation : Nat := 31

/-- The default of FETCH_DEADLINE, in ms (R164, Table 10-1). -/
abbrev defaultFetchDeadline : Nat := 20

/-- The default of DELIVERY_DEADLINE, in ms (R164, Table 10-1). -/
abbrev defaultDeliveryDeadline : Nat := 50

/-- The default of QUAR_THRESHOLD (R164, Table 10-1). -/
abbrev defaultQuarThreshold : Nat := 128

/-- The default of QUAR_HOLD, in ms (R164, Table 10-1). -/
abbrev defaultQuarHold : Nat := 250

/-- The default of TICK_DIV, in CLKIN periods (R164, Table 10-1). -/
abbrev defaultTickDiv : Nat := 16000

/-- The I2C target address with the A0 strap low (R133). -/
def i2cAddressA0Low : BitVec 7 := 0x38

/-- The I2C target address with the A0 strap high (R133). -/
def i2cAddressA0High : BitVec 7 := 0x39

/-- The byte that opens a response read on SPI (R134). -/
def spiReadByte : Byte := 0xA0

/-- The byte a port drives where a frame or an idle response has nothing to say (R134, R142). -/
def fillerByte : Byte := 0xFF

end Sys2Proof.Config
end

