-- ==== Sys2Proof/Syntax.lean ====
section
/-! DEFINITION. The commands of the TE4: one constructor of Instr per row of the table of operations and events,
with what a sender chooses for each. -/
namespace Sys2Proof

/-- The levels of one port's strap pins as a device reset samples them (R133). -/
structure Strap where
  /-- PSELn: low selects SPI, high selects I2C. -/
  pselHigh : Bool
  /-- A0_n: low selects address 0x38, high selects 0x39. -/
  a0High : Bool
deriving DecidableEq, Repr

/-- One transaction on the serial link of a port, as its master makes it (R134, R135). -/
inductive Transaction where
  /-- SPI: the bits clocked in on MOSI between the falling and the next rising edge of CSn, first bit first. -/
  | spi (mosi : List Bool)
  /-- I2C: a write transfer to an address, with the bytes written before its STOP or repeated START. -/
  | i2cWrite (address : BitVec 7) (bytes : List Byte)
  /-- I2C: a read transfer from an address, with the number of bytes the master clocks out. -/
  | i2cRead (address : BitVec 7) (count : Nat)
deriving DecidableEq, Repr

/-- The twenty-nine requests of Table 8-1. -/
inductive RequestName where
  | join | leave | recover | portStatus
  | exchStatus | setParam | getParam
  | declare | retire | purge | topicInfo
  | subscribe | unsubscribe | listSubs
  | openPost | writePayload | submit | abortPost | slotStatus | releaseSlot
  | setWindow | readView | consume | queueStatus
  | fetch | cancelFetch | readSolicits
  | setAttnMask | attnStatus
deriving DecidableEq, Repr

/-- The commands, in the order of spec/opcode_table.json. The command of a request is the HANDLING of the request
that stands in progress on the port: its tag and its arguments came with the frame that was taken (R138), so the
command names the port alone. An expiry names its timer. -/
inductive Instr where
  /-- Power-on or RSTn low, whole: every block takes its reset values, and the straps are sampled at its end. -/
  | deviceReset (straps : Vector Strap 4)
  /-- The given number of CLKIN periods pass at the timebase divider. -/
  | tick (periods : Nat)
  /-- A transaction on the port's link that carries a request frame ends. -/
  | requestFrame (port : Port) (transaction : Transaction)
  /-- A transaction on the port's link that reads the response buffer ends. -/
  | responseRead (port : Port) (transaction : Transaction)
  | join (port : Port)
  | leave (port : Port)
  | recover (port : Port)
  | portStatus (port : Port)
  | exchStatus (port : Port)
  | setParam (port : Port)
  | getParam (port : Port)
  | declare (port : Port)
  | retire (port : Port)
  | purge (port : Port)
  | topicInfo (port : Port)
  | subscribe (port : Port)
  | unsubscribe (port : Port)
  | listSubs (port : Port)
  | openPost (port : Port)
  | writePayload (port : Port)
  | submit (port : Port)
  | abortPost (port : Port)
  | slotStatus (port : Port)
  | releaseSlot (port : Port)
  | setWindow (port : Port)
  | readView (port : Port)
  | consume (port : Port)
  | queueStatus (port : Port)
  | fetch (port : Port)
  | cancelFetch (port : Port)
  | readSolicits (port : Port)
  | setAttnMask (port : Port)
  | attnStatus (port : Port)
  /-- The dispatcher takes one READY post. -/
  | take
  /-- The freshness timer of a topic expires. -/
  | freshnessExpiry (topic : Word)
  /-- The delivery deadline of a slot expires. -/
  | deliveryDeadlineExpiry (port : Port) (slot : SlotNo)
  /-- The deadline of a waiting fetch expires. -/
  | fetchDeadlineExpiry (id : FetchId)
  /-- The quarantine hold timer of a port expires. -/
  | quarantineHoldExpiry (port : Port)
deriving DecidableEq, Repr

end Sys2Proof
end

