-- ==== Sys2Proof/Decode.lean ====
section
/-! DEFINITION. The command a word of the operation table spells. No row of spec/opcode_table.json gives bits (its rows
are events and requests, and the bytes of a request frame are read in Machine/Link.lean), so no word spells one. -/
namespace Sys2Proof

/-- The command spelled by `nbits` bits of the table with value `w`: the table gives no row any bits. -/
def decodeTableWord (_nbits _w : Nat) : Option Instr := none

end Sys2Proof
end

