-- ==== Sys2Proof/Machine/State.lean ====
section
/-! DEFINITION. The state of the TE4 as plain data: what each block holds (the block table of the introduction), the
reasons a step can stop, and the state after device reset. Every field names the rule that gives it and its reset
value. Counts that the manual derives (FREE records, FREE entries, free buffers, obligations, waiting fetches) are
computed in Machine/Ops.lean and are not stored twice. -/
namespace Sys2Proof.Machine

/-! ## Values shared by the blocks -/

/-- A timer of the timebase (R163). `running n` has `n` ticks to come; `running 0` is due: its `v`th tick has come and
its expiry has not been handled yet. -/
inductive Timer where
  | stopped
  | running (left : Nat)
deriving DecidableEq, Repr

/-- A set of ports: the flag at index `n` says whether P`n` is in it. -/
abbrev PortSet := Vector Bool 4

/-- The empty set of ports. -/
def PortSet.none : PortSet := Vector.replicate 4 false

/-- A reference to a payload buffer with the length of the payload its holder records (R6, R88). -/
structure Payload where
  buffer : BufferNo
  length : Nat
deriving DecidableEq, Repr

/-- A post slot by its owning port and its slot number (R37). -/
structure SlotName where
  owner : Port
  number : SlotNo
deriving DecidableEq, Repr

/-! ## Topic directory -/

/-- The kind of a topic (section 1.1). -/
inductive TopicKind where
  | state | event
deriving DecidableEq, Repr

/-- The state of a topic record (Table 1-2). -/
inductive TopicState where
  | free | declared | orphaned
deriving DecidableEq, Repr

/-- A topic record (Table 1-1). Its waiting fetch count is derived from the fetch table. -/
structure TopicRecord where
  number : Word
  state : TopicState
  kind : TopicKind
  producer : Option Port
  retained : Option Payload
  version : Word
  limit : Nat
  freshness : Timer
  stale : Bool
deriving DecidableEq, Repr

/-- A FREE record with the values of R4. -/
def TopicRecord.reset : TopicRecord where
  number := 0
  state := .free
  kind := .state
  producer := none
  retained := none
  version := 0
  limit := 0
  freshness := .stopped
  stale := false

/-! ## Subscription table -/

/-- A subscription entry (Table 2-1). -/
structure Subscription where
  active : Bool
  owner : Port
  pattern : Word
  mask : Word
  latest : Bool
  staleNotice : Bool
  self : Bool
deriving DecidableEq, Repr

/-- A FREE entry with the values of R24. -/
def Subscription.reset : Subscription where
  active := false
  owner := 0
  pattern := 0
  mask := 0
  latest := false
  staleNotice := false
  self := false

/-! ## Post slots -/

/-- The state of a post slot (R37). -/
inductive SlotState where
  | empty | loading | ready | deferred | done
deriving DecidableEq, Repr

/-- The completion status of a DONE slot (R50). -/
inductive Completion where
  | delivered | partially | aborted | withdrawn
deriving DecidableEq, Repr

/-- A slot record (Table 3-1). -/
structure Slot where
  state : SlotState
  topic : Word
  priority : Nat
  buffer : Option BufferNo
  length : Nat
  readySequence : Word
  version : Option Word
  pending : PortSet
  reached : PortSet
  unreached : PortSet
  status : Option Completion
  deadline : Timer
deriving DecidableEq, Repr

/-- An EMPTY slot with the values of R38. -/
def Slot.reset : Slot where
  state := .empty
  topic := 0
  priority := 0
  buffer := none
  length := 0
  readySequence := 0
  version := none
  pending := PortSet.none
  reached := PortSet.none
  unreached := PortSet.none
  status := none
  deadline := .stopped

/-! ## Delivery queues and deferral lists -/

/-- The status of an answer (Table 6-2). -/
inductive AnswerStatus where
  | retained | fresh | stale | noTopic | timeout | producerGone
deriving DecidableEq, Repr

/-- The kind of a delivery, with the fields that only this kind carries (Table 4-1). -/
inductive DeliveryKind where
  | post (governing : SubIndex) (coalescible : Bool) (count : Nat)
  | answer (status : AnswerStatus)
  | stale (governing : SubIndex)
deriving DecidableEq, Repr

/-- A delivery record (Table 4-1). -/
structure Delivery where
  kind : DeliveryKind
  topic : Word
  version : Word
  payload : Option Payload
  producer : Option Port
  isOpen : Bool
deriving DecidableEq, Repr

/-- An entry of a deferral list (R64): a slot entry with what the take fixed, or an answer entry that holds a
complete ANSWER. -/
inductive DeferralEntry where
  | slot (name : SlotName) (governing : SubIndex) (coalescible : Bool)
  | answer (delivery : Delivery)
deriving DecidableEq, Repr

/-! ## Payload buffer pool -/

/-- A payload buffer with its reference count (R85). -/
structure Buffer where
  bytes : Vector Byte 64
  references : Nat
deriving DecidableEq, Repr

/-- A free buffer. The bytes it is left with at device reset are not given: no port can see them (R86,
notes/assumptions/2.md). -/
def Buffer.reset : Buffer where
  bytes := Vector.replicate 64 0
  references := 0

/-! ## Fetch unit -/

/-- A WAITING entry of the fetch table (Table 6-1); a FREE entry is `none`. -/
structure WaitingFetch where
  requester : Port
  topic : Word
  deadline : Timer
deriving DecidableEq, Repr

/-! ## Port sessions -/

/-- The state of a port (section 7.1). -/
inductive PortState where
  | offline | online | leaving | quarantined
deriving DecidableEq, Repr

/-- The condition of a quarantine hold timer (R117); `running 0` is due and not yet EXPIRED. -/
inductive HoldTimer where
  | stopped
  | running (left : Nat)
  | expired
deriving DecidableEq, Repr

/-- The state of the exchange as a whole (R117, R130). -/
inductive ExchangeState where
  | setup | running
deriving DecidableEq, Repr

/-! ## Host ports -/

/-- The kinds of link fault (R144). -/
inductive FaultKind where
  | crc | length | unknownCode | short | long | busy
deriving DecidableEq, Repr

/-- The result codes of Table 8-2. -/
inductive Result where
  | ok | linkFault | notOnline | notOffline | quarantined | holding | exchangeRunning | badArgument | noTopic
  | topicOwned | kindMismatch | directoryFull | notProducer | topicBusy | notOrphaned | subFull | subQuota | notOwner
  | slotBusy | slotState | noBuffer | tooLate | queueEmpty | fetchFull | fetchLimit | noFetch
deriving DecidableEq, Repr

/-- A response as it was written (R139). -/
structure Response where
  tag : Byte
  result : Result
  body : List Byte
  crc : Byte
deriving DecidableEq, Repr

/-- The condition of a response buffer (R141); `repeated` is the condition of the marker REPEAT. -/
inductive ResponseBuffer where
  | empty
  | notReady
  | ready (response : Response)
  | repeated (response : Response)
deriving DecidableEq, Repr

/-- A request between its take and its completion (R138): what its frame carried, and whether its port has been
quarantined since the take (R128). -/
structure Request where
  name : RequestName
  tag : Byte
  arguments : List Byte
  cut : Bool
deriving DecidableEq, Repr

/-- The link receiver (R147): the complete bytes gathered, up to 76 of them, and the count of all bytes. -/
structure Receiver where
  bytes : List Byte
  count : Nat
deriving DecidableEq, Repr

/-- The receiver between transactions (R147). -/
def Receiver.idle : Receiver where
  bytes := []
  count := 0

/-- What a port drove onto its link in the last transaction there: whether it acknowledged the I2C address, how many
written bytes it acknowledged, and the complete bytes it drove (R134, R135, R142). The MODEL's own field, so that
what a response read presents can be seen in the state (notes/assumptions/6.md). -/
structure LinkOutput where
  addressAcknowledged : Bool
  bytesAcknowledged : Nat
  driven : List Byte
deriving DecidableEq, Repr

/-- Nothing driven. -/
def LinkOutput.none : LinkOutput where
  addressAcknowledged := false
  bytesAcknowledged := 0
  driven := []

/-! ## Delivery view -/

/-- What passing the window end does (R154). -/
inductive ViewMode where
  | hold | advance
deriving DecidableEq, Repr

/-- The state of a delivery view (R151). -/
structure View where
  start : Nat
  stop : Nat
  mode : ViewMode
  cursor : Nat
deriving DecidableEq, Repr

/-- The view after device reset (R151). -/
def View.reset : View where
  start := 0
  stop := Config.lastViewOffset
  mode := .hold
  cursor := 0

/-! ## The port and the exchange -/

/-- All that the part holds for one port. -/
structure PortRecord where
  /-- The straps sampled at the last device reset (R133). -/
  strap : Strap
  /-- The link receiver (R147). -/
  receiver : Receiver
  /-- The request in progress (R138, R140). -/
  inProgress : Option Request
  /-- The response buffer (R141). -/
  response : ResponseBuffer
  /-- The fault score, 0 to 255 (R124). -/
  score : Nat
  /-- The last link fault kind, or none (R124). -/
  lastFault : Option FaultKind
  /-- The port state (R117). -/
  state : PortState
  /-- The quarantine hold timer (R117, R129). -/
  hold : HoldTimer
  /-- The four post slots (R37). -/
  slots : Vector Slot 4
  /-- The inbound queue, head first (R62). -/
  queue : List Delivery
  /-- The deferral list, head first (R64). -/
  deferral : List DeferralEntry
  /-- The notices-missed count, 0 to 255 (R72). -/
  noticesMissed : Nat
  /-- The solicit list, oldest first (R109). -/
  solicits : List Word
  /-- The delivery view (R151). -/
  view : View
  /-- The attention mask, bit by bit as Table 11-1 gives (R160). -/
  mask : Byte
  /-- What the port drove in the last transaction on its link. The model's own field. -/
  output : LinkOutput
deriving DecidableEq, Repr

/-- A port after device reset, with the straps then sampled (R38, R66, R98, R117, R141, R147, R151, R160). -/
def PortRecord.reset (strap : Strap) : PortRecord where
  strap := strap
  receiver := Receiver.idle
  inProgress := none
  response := .empty
  score := 0
  lastFault := none
  state := .offline
  hold := .stopped
  slots := Vector.replicate 4 Slot.reset
  queue := []
  deferral := []
  noticesMissed := 0
  solicits := []
  view := View.reset
  mask := 0
  output := LinkOutput.none

/-- The five exchange parameters (Table 10-1). -/
structure Params where
  fetchDeadline : Nat
  deliveryDeadline : Nat
  quarThreshold : Nat
  quarHold : Nat
  tickDiv : Nat
deriving DecidableEq, Repr

/-- The parameters at their defaults (R164). -/
def Params.reset : Params where
  fetchDeadline := Config.defaultFetchDeadline
  deliveryDeadline := Config.defaultDeliveryDeadline
  quarThreshold := Config.defaultQuarThreshold
  quarHold := Config.defaultQuarHold
  tickDiv := Config.defaultTickDiv

/-- The state of the TE4, and the queue of the commands that wait. -/
structure State where
  /-- The four ports. -/
  ports : Vector PortRecord 4
  /-- The exchange state (R117, R130). -/
  exchange : ExchangeState
  /-- The topic directory (R1). -/
  topics : Vector TopicRecord 128
  /-- The subscription table (R23). -/
  subscriptions : Vector Subscription 64
  /-- The fetch table (R96). -/
  fetches : Vector (Option WaitingFetch) 16
  /-- The payload buffer pool (R85). -/
  pool : Vector Buffer 256
  /-- The exchange parameters (R164). -/
  params : Params
  /-- The dispatcher's ready sequence counter (R38, R41). -/
  readySequence : Word
  /-- The order in which the READY slots were submitted, oldest first, as the dispatcher keeps it (R42, R43). -/
  readyOrder : List SlotName
  /-- The timebase divider's count of CLKIN periods (R162). -/
  divider : Nat
  /-- The commands that wait, first in, first out. The model's own field. -/
  pending : List Instr
deriving DecidableEq, Repr

/-- Straps as the model takes them before any device reset has been commanded: every port SPI, A0 low
(DESIGN CHOICE, notes/assumptions/1.md). -/
def Strap.reset : Strap where
  pselHigh := false
  a0High := false

/-- The part right after device reset (R4, R24, R38, R66, R86, R98, R117, R130, R141, R147, R151, R160, R162, R164). -/
def State.reset : State where
  ports := Vector.replicate 4 (PortRecord.reset Strap.reset)
  exchange := .setup
  topics := Vector.replicate 128 TopicRecord.reset
  subscriptions := Vector.replicate 64 Subscription.reset
  fetches := Vector.replicate 16 none
  pool := Vector.replicate 256 Buffer.reset
  params := Params.reset
  readySequence := 0
  readyOrder := []
  divider := 0
  pending := []

/-- The faults of a step. The manual describes no event that stops the part, so there is none: a link fault is an
event with effects on the port (R145, R146), and a request that is turned away completes with a result code. Safe:
no claim can be proved through a fault. -/
inductive Fault where
deriving DecidableEq, Repr

/-- The refusals of a step. -/
inductive Refusal where
  /-- Raised by an arm of exec whose command has no meaning yet; no arm raises it. Safe: the step stops. -/
  | notModelled (mnemonic : String)
deriving DecidableEq, Repr

end Sys2Proof.Machine
end

