-- ==== Sys2Proof/Machine/Formats.lean ====
section
/-! DEFINITION. How values are written in frames, response bodies and view headers: byte order, the codes of Tables
11-1, 11-3 and 11-4, the argument lengths of Table 8-1, the CRC, and the view header (chapters 8 and 11). -/
namespace Sys2Proof.Machine

/-! ## Byte order (R168) -/

/-- A 16-bit field, least significant byte first. -/
def wordBytes (w : Word) : List Byte := [w.extractLsb' 0 8, w.extractLsb' 8 8]

/-- The 16-bit field whose first byte is `lo` and whose second is `hi`. -/
def wordOf (lo hi : Byte) : Word := hi ++ lo

/-- A one-byte number. -/
def numByte (n : Nat) : Byte := BitVec.ofNat 8 n

/-- A yes or no, as 0x01 or 0x00 (Table 11-6). -/
def flagByte (b : Bool) : Byte := if b then 0x01 else 0x00

/-- A port set: bit `n` stands for P`n` (R168). -/
def PortSet.byte (a : PortSet) : Byte := BitVec.ofBoolListLE [a[0], a[1], a[2], a[3], false, false, false, false]

/-- A byte that names a port, or 0xFF when it names none (R168). -/
def portByte : Option Port → Byte
  | none => 0xFF
  | some p => numByte p.val

/-- A byte read from its eight bits, most significant first (R134). -/
def byteOfBits (bits : List Bool) : Byte := bits.foldl (fun r b => (r <<< 1) ||| (if b then 1 else 0)) 0

/-! ## Codes (Table 11-1) -/

def TopicKind.code : TopicKind → Byte
  | .state => 0x00 | .event => 0x01

/-- The kind a byte names, if Table 11-1 lists it. -/
def topicKindOf (b : Byte) : Option TopicKind :=
  if b = 0x00 then some .state else if b = 0x01 then some .event else none

/-- The code of a record's state; TOPIC_INFO reports no FREE record, and a field absent reads 0x00 (R168). -/
def TopicState.code : TopicState → Byte
  | .free => 0x00 | .declared => 0x01 | .orphaned => 0x02

def ViewMode.code : ViewMode → Byte
  | .hold => 0x00 | .advance => 0x01

/-- The mode a byte names, if Table 11-1 lists it. -/
def viewModeOf (b : Byte) : Option ViewMode :=
  if b = 0x00 then some .hold else if b = 0x01 then some .advance else none

def SlotState.code : SlotState → Byte
  | .empty => 0x00 | .loading => 0x01 | .ready => 0x02 | .deferred => 0x03 | .done => 0x04

/-- The code of a completion status, 0x00 when there is none. -/
def completionCode : Option Completion → Byte
  | none => 0x00
  | some .delivered => 0x01
  | some .partially => 0x02
  | some .aborted => 0x03
  | some .withdrawn => 0x04

def PortState.code : PortState → Byte
  | .offline => 0x00 | .online => 0x01 | .leaving => 0x02 | .quarantined => 0x03

def HoldTimer.code : HoldTimer → Byte
  | .stopped => 0x00 | .running _ => 0x01 | .expired => 0x02

def ExchangeState.code : ExchangeState → Byte
  | .setup => 0x00 | .running => 0x01

def AnswerStatus.code : AnswerStatus → Byte
  | .retained => 0x00 | .fresh => 0x01 | .stale => 0x02 | .noTopic => 0x03 | .timeout => 0x04 | .producerGone => 0x05

def FaultKind.code : FaultKind → Byte
  | .crc => 0x01 | .length => 0x02 | .unknownCode => 0x03 | .short => 0x04 | .long => 0x05 | .busy => 0x06

/-- The code of the last link fault kind, 0x00 for none. -/
def lastFaultCode : Option FaultKind → Byte
  | none => 0x00
  | some k => k.code

/-- The code of a delivery's kind. -/
def DeliveryKind.code : DeliveryKind → Byte
  | .post _ _ _ => 0x01 | .answer _ => 0x02 | .stale _ => 0x03

/-- The options byte of a subscription entry: bit 0 LATEST, bit 1 STALE_NOTICE, bit 2 SELF. -/
def Subscription.options (e : Subscription) : Byte :=
  BitVec.ofBoolListLE [e.latest, e.staleNotice, e.self, false, false, false, false, false]

/-- The result codes (Table 11-4). -/
def Result.code : Result → Byte
  | .ok => 0x00 | .linkFault => 0x01 | .notOnline => 0x02 | .notOffline => 0x03 | .quarantined => 0x04
  | .holding => 0x05 | .exchangeRunning => 0x06 | .badArgument => 0x07 | .noTopic => 0x08 | .topicOwned => 0x09
  | .kindMismatch => 0x0A | .directoryFull => 0x0B | .notProducer => 0x0C | .topicBusy => 0x0D | .notOrphaned => 0x0E
  | .subFull => 0x0F | .subQuota => 0x10 | .notOwner => 0x11 | .slotBusy => 0x12 | .slotState => 0x13
  | .noBuffer => 0x14 | .tooLate => 0x15 | .queueEmpty => 0x16 | .fetchFull => 0x17 | .fetchLimit => 0x18
  | .noFetch => 0x19

/-- The request codes (Table 11-3). -/
def requestCodes : List (Byte × RequestName) :=
  [(0x01, .join), (0x02, .leave), (0x03, .recover), (0x04, .portStatus),
   (0x08, .exchStatus), (0x09, .setParam), (0x0A, .getParam),
   (0x10, .declare), (0x11, .retire), (0x12, .purge), (0x13, .topicInfo),
   (0x18, .subscribe), (0x19, .unsubscribe), (0x1A, .listSubs),
   (0x20, .openPost), (0x21, .writePayload), (0x22, .submit), (0x23, .abortPost), (0x24, .slotStatus),
   (0x25, .releaseSlot),
   (0x28, .setWindow), (0x29, .readView), (0x2A, .consume), (0x2B, .queueStatus),
   (0x30, .fetch), (0x31, .cancelFetch), (0x32, .readSolicits),
   (0x38, .setAttnMask), (0x39, .attnStatus)]

/-- The request a code byte names, if Table 11-3 lists it. -/
def requestOf (b : Byte) : Option RequestName := requestCodes.lookup b

/-- Whether a request admits an argument length (Table 8-1). -/
def admitsLength (c : RequestName) (n : Nat) : Bool :=
  match c with
  | .join | .leave | .recover | .portStatus | .exchStatus | .listSubs | .consume | .queueStatus | .readSolicits
  | .attnStatus => n == 0
  | .getParam | .unsubscribe | .submit | .abortPost | .slotStatus | .releaseSlot | .readView | .cancelFetch
  | .setAttnMask => n == 1
  | .retire | .purge | .topicInfo => n == 2
  | .setParam | .setWindow => n == 3
  | .openPost | .fetch => n == 4
  | .declare | .subscribe => n == 5
  | .writePayload => 3 ≤ n && n ≤ 66

/-! ## CRC (R137) -/

/-- One shift of the CRC register towards its most significant bit. -/
def crcShift (r : Byte) : Byte := if r.msb then (r <<< 1) ^^^ 0x07 else r <<< 1

/-- The register after one byte: exclusive-or, then eight shifts. -/
def crcByte (r b : Byte) : Byte :=
  crcShift (crcShift (crcShift (crcShift (crcShift (crcShift (crcShift (crcShift (r ^^^ b))))))))

/-- The 8-bit CRC of R137: polynomial x⁸ + x² + x + 1, initial value 0xFF, no final inversion. -/
def crc8 (bytes : List Byte) : Byte := bytes.foldl crcByte 0xFF

/-! ## Responses (R139, R141, R142) -/

/-- The bytes of a response that its CRC covers: tag, result, body length, body. -/
def Response.covered (tag : Byte) (result : Result) (body : List Byte) : List Byte :=
  tag :: result.code :: numByte body.length :: body

/-- A response as it is written, with its CRC (R139, R171). -/
def mkResponse (tag : Byte) (result : Result) (body : List Byte) : Response where
  tag := tag
  result := result
  body := body
  crc := crc8 (Response.covered tag result body)

/-- The bytes presented after the marker: tag through CRC (R141). -/
def Response.bytes (r : Response) : List Byte := Response.covered r.tag r.result r.body ++ [r.crc]

/-- What a response read presents from its first byte on, before the 0xFF bytes that follow (R141, R142). -/
def ResponseBuffer.stream : ResponseBuffer → List Byte
  | .empty => [0x01]
  | .notReady => [0x00]
  | .ready r => 0x5A :: r.bytes
  | .repeated r => 0x5B :: r.bytes

/-- The bytes a response read of `n` bytes presents (R142). -/
def ResponseBuffer.presents (b : ResponseBuffer) (n : Nat) : List Byte :=
  (b.stream ++ List.replicate n Config.fillerByte).take n

/-! ## The view header (R150, R169) -/

/-- The payload length of a delivery, 0 when it carries none (R150). -/
def Delivery.payloadLength (d : Delivery) : Nat :=
  match d.payload with
  | none => 0
  | some v => v.length

/-- The coalesce count of a delivery, 0 but for a POST (Table 4-1). -/
def DeliveryKind.count : DeliveryKind → Nat
  | .post _ _ n => n
  | .answer _ | .stale _ => 0

/-- Offset 6 of the header: the governing index, or the answer status (R169). -/
def DeliveryKind.selector : DeliveryKind → Byte
  | .post i _ _ | .stale i => numByte i.val
  | .answer status => status.code

/-- Offset 7 of the header: the producer in bits 5 and 6, or bit 7 when it is absent, and the coalesce count in bits 0
to 4 (R169). -/
def producerByte (producer : Option Port) (count : Nat) : Byte :=
  match producer with
  | none => 0x80 ||| numByte count
  | some p => (numByte p.val <<< 5) ||| numByte count

/-- The eight header bytes of a delivery (Table 11-5). -/
def Delivery.header (d : Delivery) : List Byte :=
  d.kind.code :: wordBytes d.topic ++ wordBytes d.version ++
    [numByte d.payloadLength, d.kind.selector, producerByte d.producer d.kind.count]

end Sys2Proof.Machine
end

