-- ==== Sys2Proof/Machine/Operands.lean ====
section
/-! DEFINITION. The arguments of the requests as their frames carry them (Table 11-3), and the ranges that more than
one owning rule checks. -/
namespace Sys2Proof.Machine

/-- The argument byte at an offset. A taken frame has the length its request admits, so no argument is missing (R149);
beyond the end it is 0. -/
def argByte (args : List Byte) (i : Nat) : Byte := args.getD i 0

/-- The 16-bit argument at an offset, least significant byte first (R168). -/
def argWord (args : List Byte) (i : Nat) : Word := wordOf (argByte args i) (argByte args (i + 1))

/-- A number below `n`, when it is one: an index into a table of `n` records. -/
def indexBelow (n : Nat) (x : Nat) : Option (Fin n) := if h : x < n then some ⟨x, h⟩ else none

/-- Whether a number names a topic: 0 and 65535 name none (section 1.1). -/
def isTopicNumber (t : Word) : Bool := t != 0 && t != 0xFFFF

/-- The slot argument, when it is 0 to 3 (R37). -/
def argSlot (args : List Byte) (p : Port) : Option SlotName :=
  (indexBelow 4 (argByte args 0).toNat).map fun k => { owner := p, number := k }

/-- The five exchange parameters by their ids (Table 10-1). -/
inductive ParamId where
  | fetchDeadline | deliveryDeadline | quarThreshold | quarHold | tickDiv
deriving DecidableEq, Repr

/-- The parameter an id names, 1 to 5 (Table 10-1). -/
def paramOf (b : Byte) : Option ParamId :=
  if b = 1 then some .fetchDeadline
  else if b = 2 then some .deliveryDeadline
  else if b = 3 then some .quarThreshold
  else if b = 4 then some .quarHold
  else if b = 5 then some .tickDiv
  else none

/-- Whether a value lies in the range of a parameter (Table 10-1). -/
def ParamId.inRange (i : ParamId) (v : Nat) : Bool :=
  match i with
  | .fetchDeadline | .deliveryDeadline => 1 ≤ v && v ≤ 1000
  | .quarThreshold => 32 ≤ v && v ≤ 255
  | .quarHold => 10 ≤ v && v ≤ 10000
  | .tickDiv => 1000 ≤ v && v ≤ 50000

/-- The current value of a parameter. -/
def Params.get (a : Params) : ParamId → Nat
  | .fetchDeadline => a.fetchDeadline
  | .deliveryDeadline => a.deliveryDeadline
  | .quarThreshold => a.quarThreshold
  | .quarHold => a.quarHold
  | .tickDiv => a.tickDiv

/-- The parameters with one of them set. -/
def Params.set (a : Params) (i : ParamId) (v : Nat) : Params :=
  match i with
  | .fetchDeadline => { a with fetchDeadline := v }
  | .deliveryDeadline => { a with deliveryDeadline := v }
  | .quarThreshold => { a with quarThreshold := v }
  | .quarHold => { a with quarHold := v }
  | .tickDiv => { a with tickDiv := v }

end Sys2Proof.Machine
end

