-- ==== Sys2Proof/Machine/Ops.lean ====
section
/-! DEFINITION. The shared operations on the tables of the TE4: reading and updating one record, sets of ports, the
references of the payload buffer pool, the records a DEFERRED slot and a DONE slot hold, and the counts the blocks
derive. -/
namespace Sys2Proof.Machine

/-! ## One record of a table -/

/-- The vector with `f` applied to the record at `i`. -/
def update {α : Type} {n : Nat} (v : Vector α n) (i : Fin n) (f : α → α) : Vector α n :=
  v.set i.val (f v[i.val])

/-- The vector with `f` applied to every record. -/
def updateAll {α : Type} {n : Nat} (v : Vector α n) (f : α → α) : Vector α n :=
  ⟨(v.toList.map f).toArray, by simp⟩

/-- The four ports in ascending order (R44, R10). -/
def allPorts : List Port := [0, 1, 2, 3]

/-- What the part holds for a port. -/
def State.port (s : State) (p : Port) : PortRecord := s.ports[p.val]

/-- A post slot by its name (R37). -/
def State.slot (s : State) (x : SlotName) : Slot := (s.port x.owner).slots[x.number.val]

/-- A topic record by its position (R1). -/
def State.topic (s : State) (i : RecordNo) : TopicRecord := s.topics[i.val]

/-- A subscription entry by its index (R23). -/
def State.subscription (s : State) (i : SubIndex) : Subscription := s.subscriptions[i.val]

/-- A fetch table entry by its fetch id: `none` while FREE (R96). -/
def State.fetch (s : State) (i : FetchId) : Option WaitingFetch := s.fetches[i.val]

/-- A payload buffer by its number (R85). -/
def State.buffer (s : State) (b : BufferNo) : Buffer := s.pool[b.val]

/-- Changes what the part holds for one port. -/
def State.modPort (s : State) (p : Port) (f : PortRecord → PortRecord) : State :=
  { s with ports := update s.ports p f }

/-- Changes one post slot. -/
def State.modSlot (s : State) (x : SlotName) (f : Slot → Slot) : State :=
  s.modPort x.owner fun r => { r with slots := update r.slots x.number f }

/-- Changes one topic record. -/
def State.modTopic (s : State) (i : RecordNo) (f : TopicRecord → TopicRecord) : State :=
  { s with topics := update s.topics i f }

/-- Changes one subscription entry. -/
def State.modSubscription (s : State) (i : SubIndex) (f : Subscription → Subscription) : State :=
  { s with subscriptions := update s.subscriptions i f }

/-- Sets one fetch table entry. -/
def State.setFetch (s : State) (i : FetchId) (e : Option WaitingFetch) : State :=
  { s with fetches := update s.fetches i fun _ => e }

/-- Changes one payload buffer. -/
def State.modBuffer (s : State) (b : BufferNo) (f : Buffer → Buffer) : State :=
  { s with pool := update s.pool b f }

/-! ## Sets of ports -/

/-- Whether a port is in the set. -/
def PortSet.has (a : PortSet) (p : Port) : Bool := a[p.val]

/-- The set with a port added. -/
def PortSet.insert (a : PortSet) (p : Port) : PortSet := update a p fun _ => true

/-- The set with a port taken out. -/
def PortSet.erase (a : PortSet) (p : Port) : PortSet := update a p fun _ => false

/-- The ports of either set. -/
def PortSet.union (a b : PortSet) : PortSet :=
  #v[a.has 0 || b.has 0, a.has 1 || b.has 1, a.has 2 || b.has 2, a.has 3 || b.has 3]

/-! ## References on payload buffers (sections 5.2 and 5.4) -/

/-- A holder takes a reference on a buffer (R89). -/
def takeReference (b : BufferNo) (s : State) : State :=
  s.modBuffer b fun x => { x with references := x.references + 1 }

/-- A holder releases its reference; at 0 the buffer is free (R90). -/
def releaseReference (b : BufferNo) (s : State) : State :=
  s.modBuffer b fun x => { x with references := x.references - 1 }

/-- Takes the reference of a holder that carries a value, if it carries one (R89). -/
def takePayload (v : Option Payload) (s : State) : State :=
  match v with
  | none => s
  | some x => takeReference x.buffer s

/-- Releases the reference of a holder that carries a value, if it carries one (R90). -/
def releasePayload (v : Option Payload) (s : State) : State :=
  match v with
  | none => s
  | some x => releaseReference x.buffer s

/-- Releases the reference of a slot, if it holds one (R38, R90). -/
def releaseBuffer (b : Option BufferNo) (s : State) : State :=
  match b with
  | none => s
  | some x => releaseReference x s

/-- Whether a buffer is free: its count is 0 (R85). -/
def Buffer.isFree (b : Buffer) : Bool := b.references == 0

/-- The lowest-numbered free buffer (R87). -/
def lowestFreeBuffer (s : State) : Option BufferNo :=
  (List.finRange 256).find? fun b => (s.buffer b).isFree

/-- The number of free buffers (R92). -/
def freeBuffers (s : State) : Nat := (List.finRange 256).countP fun b => (s.buffer b).isFree

/-- Allocation: the bytes are cleared and the slot becomes the first and only holder (R87). -/
def allocateBuffer (b : BufferNo) (s : State) : State :=
  s.modBuffer b fun _ => { bytes := Vector.replicate 64 0, references := 1 }

/-- The value a slot carries: its buffer with its length (R44, R77). -/
def Slot.value (x : Slot) : Option Payload := x.buffer.map fun b => { buffer := b, length := x.length }

/-! ## Post slots -/

/-- The slot becomes EMPTY with the values of R38, after releasing its buffer reference if it holds one. A slot that
was READY leaves the order of the READY slots. -/
def emptySlot (x : SlotName) (s : State) : State :=
  let s := releaseBuffer (s.slot x).buffer s
  { s.modSlot x (fun _ => Slot.reset) with readyOrder := s.readyOrder.filter (· != x) }

/-- The slot becomes DONE with a completion status: it releases its buffer reference, its delivery deadline stops,
and its pending set is empty (Table 3-2, R45, R47 to R51, R54). A slot that was READY leaves the order of the READY
slots. -/
def finishSlot (x : SlotName) (status : Completion) (s : State) : State :=
  let s := releaseBuffer (s.slot x).buffer s
  { s.modSlot x (fun k => { k with state := .done, buffer := none, pending := PortSet.none, status := some status,
                                   deadline := .stopped }) with
    readyOrder := s.readyOrder.filter (· != x) }

/-- The number of DEFERRED slots of a port, 0 to 4 (R120). -/
def deferredSlots (s : State) (p : Port) : Nat :=
  (List.finRange 4).countP fun k => (s.slot ⟨p, k⟩).state == .deferred

/-- Every post slot of the part (R15, R19). -/
def allSlots : List SlotName :=
  allPorts.flatMap fun p => (List.finRange 4).map fun k => { owner := p, number := k }

/-- Whether some post slot of any port holds the topic in LOADING, READY or DEFERRED (R15, R19). -/
def topicBusy (s : State) (t : Word) : Bool :=
  allSlots.any fun x =>
    let k := s.slot x
    (k.state == .loading || k.state == .ready || k.state == .deferred) && k.topic == t

/-! ## Counts derived from the fetch table and the deferral list -/

/-- Whether a fetch table entry waits on the topic. -/
def waitsOn (t : Word) : Option WaitingFetch → Bool
  | none => false
  | some f => f.topic == t

/-- The number of WAITING entries on a topic (R20, R96). -/
def waitingCount (s : State) (t : Word) : Nat := (List.finRange 16).countP fun i => waitsOn t (s.fetch i)

/-- The number of FREE fetch table entries (R96). -/
def freeFetches (s : State) : Nat := (List.finRange 16).countP fun i => (s.fetch i).isNone

/-- Whether a fetch table entry was made by the port. -/
def requestedBy (p : Port) : Option WaitingFetch → Bool
  | none => false
  | some f => f.requester == p

/-- Whether a deferral entry is an answer entry. -/
def DeferralEntry.isAnswer : DeferralEntry → Bool
  | .answer _ => true
  | .slot _ _ _ => false

/-- The fetch obligations of a port: its WAITING entries and the answer entries in its deferral list (R97). -/
def obligations (s : State) (p : Port) : Nat :=
  ((List.finRange 16).countP fun i => requestedBy p (s.fetch i)) + (s.port p).deferral.countP (·.isAnswer)

/-! ## Session counts -/

/-- Whether a port has a session or is draining one (R130). -/
def PortState.counts : PortState → Bool
  | .online | .leaving => true
  | .offline | .quarantined => false

/-- Whether some port is ONLINE or LEAVING (R130). -/
def anySession (s : State) : Bool := allPorts.any fun p => (s.port p).state.counts

end Sys2Proof.Machine
end

