-- ==== Sys2Proof/Machine/Directory.lean ====
section
/-! DEFINITION. The topic directory's own operations: finding, allocating and freeing a record, the version count,
and the directory's share of a take (chapter 1). -/
namespace Sys2Proof.Machine

/-- Whether a record stands for the topic number: it is not FREE and carries it (R1, R3). -/
def TopicRecord.standsFor (r : TopicRecord) (t : Word) : Bool := r.state != .free && r.number == t

/-- The record of a topic (R3). -/
def findTopic (s : State) (t : Word) : Option RecordNo :=
  (List.finRange 128).find? fun i => (s.topic i).standsFor t

/-- The lowest-numbered FREE record (R3). -/
def lowestFreeRecord (s : State) : Option RecordNo :=
  (List.finRange 128).find? fun i => (s.topic i).state == .free

/-- The number of FREE records (R3). -/
def freeRecords (s : State) : Nat := (List.finRange 128).countP fun i => (s.topic i).state == .free

/-- The record releases its retained value, if it holds one, and becomes FREE with the values of R4. -/
def freeRecord (i : RecordNo) (s : State) : State :=
  (releasePayload (s.topic i).retained s).modTopic i fun _ => TopicRecord.reset

/-- The version after one more taken post: from 65535 it passes to 1 (R5). -/
def nextVersion (v : Word) : Word := if v = 0xFFFF then 1 else v + 1

/-- What a take does to a record (R7): the version advances; a STATE record takes the new value, is no longer stale,
and has its freshness timer started anew when its limit is above 0. -/
def TopicRecord.stamped (r : TopicRecord) (value : Option Payload) : TopicRecord :=
  match r.kind with
  | .event => { r with version := nextVersion r.version }
  | .state =>
    { r with
      version := nextVersion r.version
      retained := value
      stale := false
      freshness := if 0 < r.limit then .running r.limit else r.freshness }

/-- The directory's share of a take (R7, R44 step 1): for a STATE record the old retained value is released, then a
reference on the slot's buffer is taken (R91). -/
def stampRecord (i : RecordNo) (value : Option Payload) (s : State) : State :=
  let s := match (s.topic i).kind with
    | .event => s
    | .state => takePayload value (releasePayload (s.topic i).retained s)
  s.modTopic i fun r => r.stamped value

/-- The version a value carries, or 0 when there is none (R102). -/
def TopicRecord.valueVersion (r : TopicRecord) : Word := if r.retained.isSome then r.version else 0

/-- The numbers of the topics a port produces, in ascending order (R17). -/
def producedTopics (s : State) (p : Port) : List Word :=
  (((List.finRange 128).filter fun i =>
      (s.topic i).state == .declared && (s.topic i).producer == some p).map fun i => (s.topic i).number).insertionSort
    fun a b => a.toNat ≤ b.toNat

end Sys2Proof.Machine
end

