-- ==== Sys2Proof/Machine/Subscriptions.lean ====
section
/-! DEFINITION. The subscription table's own operations: matching a post, matching a stale notice, and the governing
entry of a port (chapter 2). -/
namespace Sys2Proof.Machine

/-- Whether the topic number agrees with the entry's match in every bit set in its mask (R29). -/
def Subscription.covers (e : Subscription) (t : Word) : Bool := t &&& e.mask == e.pattern &&& e.mask

/-- Whether an entry matches a post of topic `t` by port `q` (R29). -/
def Subscription.matchesPost (e : Subscription) (t : Word) (q : Port) : Bool :=
  e.active && e.covers t && (e.owner != q || e.self)

/-- Whether an entry matches a stale notice of topic `t`, with the producer present or absent (R33). -/
def Subscription.matchesNotice (e : Subscription) (t : Word) (producer : Option Port) : Bool :=
  e.active && e.staleNotice && e.covers t &&
    match producer with
    | none => true
    | some q => e.owner != q || e.self

/-- The lowest-indexed entry of a port among those selected: its governing subscription (R30, R33). -/
def governing (s : State) (p : Port) (selects : Subscription → Bool) : Option SubIndex :=
  (List.finRange 64).find? fun i => (s.subscription i).owner == p && selects (s.subscription i)

/-- The number of FREE entries (R24). -/
def freeSubscriptions (s : State) : Nat := (List.finRange 64).countP fun i => !(s.subscription i).active

/-- Whether an entry is ACTIVE and owned by the port. -/
def Subscription.ownedBy (e : Subscription) (p : Port) : Bool := e.active && e.owner == p

/-- The number of ACTIVE entries a port owns (R24). -/
def ownedSubscriptions (s : State) (p : Port) : Nat :=
  (List.finRange 64).countP fun i => (s.subscription i).ownedBy p

/-- The lowest-numbered FREE entry (R26). -/
def lowestFreeSubscription (s : State) : Option SubIndex :=
  (List.finRange 64).find? fun i => !(s.subscription i).active

/-- Every entry the port owns becomes FREE with the values of R24 (R35). -/
def freeSubscriptionsOf (p : Port) (s : State) : State :=
  { s with subscriptions := updateAll s.subscriptions fun e => if e.ownedBy p then Subscription.reset else e }

end Sys2Proof.Machine
end

