-- ==== Sys2Proof/Machine/Queues.lean ====
section
/-! DEFINITION. The delivery queue block: placing posts, answers and notices, coalescing, the removal of the head, the
move of a deferral entry, and the deletion and discarding of slot entries (chapter 4, and chapter 3 for what a slot
learns of it). Operations that can complete a slot answer, beside the state, the owners of the slots that left
DEFERRED, in order: their reports to the session controller (R55). -/
namespace Sys2Proof.Machine

/-! ## Placing -/

/-- The outcome of one POST placement (R44, step 5). -/
inductive Placed where
  | reached | pending
deriving DecidableEq, Repr

/-- Whether the deferral list is empty and the queue has room: the condition for entering the queue. -/
def PortRecord.hasRoom (r : PortRecord) : Bool := r.deferral.isEmpty && r.queue.length < Config.queueCapacity

/-- Appends a delivery at the tail of a port's queue (R62). -/
def appendDelivery (p : Port) (d : Delivery) (s : State) : State :=
  s.modPort p fun r => { r with queue := r.queue ++ [d] }

/-- Appends an entry at the tail of a port's deferral list (R64). -/
def appendDeferral (p : Port) (e : DeferralEntry) (s : State) : State :=
  s.modPort p fun r => { r with deferral := r.deferral ++ [e] }

/-- Whether a delivery is a POST of the topic. -/
def Delivery.isPostOf (d : Delivery) (t : Word) : Bool :=
  match d.kind with
  | .post _ _ _ => d.topic == t
  | .answer _ | .stale _ => false

/-- The position of the newest POST delivery of the topic: the one nearest the tail (R68). -/
def newestPost (t : Word) : List Delivery → Option Nat
  | [] => none
  | d :: rest =>
    match newestPost t rest with
    | some n => some (n + 1)
    | none => if d.isPostOf t then some 0 else none

/-- Whether a delivery may be replaced in place: a coalescible POST that is not open (R68). -/
def Delivery.mayCoalesce (d : Delivery) : Bool :=
  match d.kind with
  | .post _ coalescible _ => coalescible && !d.isOpen
  | .answer _ | .stale _ => false

/-- The position of the delivery into which a post of the topic may be coalesced, with that delivery (R68). -/
def coalescingTarget (t : Word) (queue : List Delivery) : Option (Nat × Delivery) :=
  match newestPost t queue with
  | none => none
  | some n =>
    match queue[n]? with
    | none => none
    | some d => if d.mayCoalesce then some (n, d) else none

/-- A POST delivery rewritten by a later post (R69). -/
def Delivery.coalesced (d : Delivery) (value : Option Payload) (version : Word) (q : Port) (i : SubIndex) : Delivery :=
  { d with
    kind := match d.kind with
      | .post _ coalescible count => .post i coalescible (min Config.coalesceSaturation (count + 1))
      | other => other
    version := version
    payload := value
    producer := some q }

/-- A POST delivery built from a slot (R67 case 3, R77). -/
def postDelivery (k : Slot) (q : Port) (i : SubIndex) (coalescible : Bool) : Delivery where
  kind := .post i coalescible 0
  topic := k.topic
  version := k.version.getD 0
  payload := k.value
  producer := some q
  isOpen := false

/-- The placement of the post in slot `x` at target port `p`, with its governing entry and that entry's LATEST: the
first case of R67 that applies. -/
def placePost (x : SlotName) (p : Port) (i : SubIndex) (latest : Bool) (s : State) : State × Placed :=
  let k := s.slot x
  let r := s.port p
  let defer := (appendDeferral p (.slot x i latest) s, Placed.pending)
  if r.deferral.isEmpty then
    match (if latest then coalescingTarget k.topic r.queue else none) with
    | some (n, old) =>
      let s := takePayload k.value s
      let s := s.modPort p fun r => { r with queue := r.queue.set n (old.coalesced k.value (k.version.getD 0) x.owner i) }
      (releasePayload old.payload s, .reached)
    | none =>
      if r.queue.length < Config.queueCapacity then
        (appendDelivery p (postDelivery k x.owner i latest) (takePayload k.value s), .reached)
      else defer
  else defer

/-- The placement of a complete ANSWER at its requester: in the queue, or as an answer entry (R71). -/
def placeAnswer (p : Port) (d : Delivery) (s : State) : State :=
  if (s.port p).hasRoom then appendDelivery p d s else appendDeferral p (.answer d) s

/-- The placement of a STALE notice: in the queue, or discarded and counted (R72). -/
def placeNotice (p : Port) (d : Delivery) (s : State) : State :=
  if (s.port p).hasRoom then appendDelivery p d s
  else s.modPort p fun r => { r with noticesMissed := min Config.byteSaturation (r.noticesMissed + 1) }

/-- The STALE delivery of a topic (R10). -/
def staleDelivery (t version : Word) (producer : Option Port) (i : SubIndex) : Delivery where
  kind := .stale i
  topic := t
  version := version
  payload := none
  producer := producer
  isOpen := false

/-- The stale notice of a topic at one port, when the port is a target (R10, R33). -/
def noticeAt (t version : Word) (producer : Option Port) (s : State) (p : Port) : State :=
  match governing s p fun e => e.matchesNotice t producer with
  | none => s
  | some i => placeNotice p (staleDelivery t version producer i) s

/-- Stale notices of a topic are issued to their targets in ascending port order (R10). -/
def issueNotices (t version : Word) (producer : Option Port) (s : State) : State :=
  allPorts.foldl (noticeAt t version producer) s

/-! ## What a slot learns -/

/-- The status of a slot whose last pending port was served: DELIVERED when no port is unreached (R47). -/
def servedStatus (k : Slot) : Completion := if k.unreached = PortSet.none then .delivered else .partially

/-- Port `p` has been served: it moves from the slot's pending set to its reached set, and the slot completes when
that empties the pending set (R47). -/
def serveSlot (x : SlotName) (p : Port) (s : State) : State × List Port :=
  let s := s.modSlot x fun k => { k with pending := k.pending.erase p, reached := k.reached.insert p }
  if (s.slot x).pending = PortSet.none then (finishSlot x (servedStatus (s.slot x)) s, [x.owner]) else (s, [])

/-- Port `p` has been torn down: it moves from the slot's pending set to its unreached set, and the slot completes as
PARTIAL when that empties the pending set (R49). -/
def failSlot (x : SlotName) (p : Port) (s : State) : State × List Port :=
  let s := s.modSlot x fun k => { k with pending := k.pending.erase p, unreached := k.unreached.insert p }
  if (s.slot x).pending = PortSet.none then (finishSlot x .partially s, [x.owner]) else (s, [])

/-- Whether a deferral entry stands for the slot. -/
def DeferralEntry.standsFor (e : DeferralEntry) (x : SlotName) : Bool :=
  match e with
  | .slot y _ _ => y == x
  | .answer _ => false

/-- The slot's entry is deleted from one port's deferral list, and the entries behind it close up (R79). -/
def deleteEntryAt (x : SlotName) (s : State) (p : Port) : State :=
  if (s.slot x).pending.has p then
    s.modPort p fun r => { r with deferral := r.deferral.filter fun e => !e.standsFor x }
  else s

/-- The slot's entries are deleted from the deferral list of every port in its pending set (R79). -/
def deleteEntries (x : SlotName) (s : State) : State := allPorts.foldl (deleteEntryAt x) s

/-- A DEFERRED slot ends with its entries deleted: the pending ports join its unreached set, and it becomes DONE with
the status (R48, R51, R56). -/
def endDeferred (x : SlotName) (status : Completion) (s : State) : State :=
  let s := deleteEntries x s
  let s := s.modSlot x fun k => { k with unreached := k.unreached.union k.pending }
  finishSlot x status s

/-! ## Removal and the move of a deferral entry -/

/-- The head leaves the queue and its reference is released (R75). -/
def removeHead (p : Port) (s : State) : State :=
  match (s.port p).queue with
  | [] => s
  | d :: rest => releasePayload d.payload (s.modPort p fun r => { r with queue := rest })

/-- After a removal, the head entry of the deferral list moves into the place made (R76): a slot entry as a new POST
built from its slot, which is then told (R77), an answer entry as the ANSWER it holds (R78). -/
def moveIn (p : Port) (s : State) : State × List Port :=
  if (s.port p).queue.length < Config.queueCapacity then
    match (s.port p).deferral with
    | [] => (s, [])
    | .answer d :: rest => (appendDelivery p d (s.modPort p fun r => { r with deferral := rest }), [])
    | .slot x i coalescible :: rest =>
      let s := s.modPort p fun r => { r with deferral := rest }
      let s := takePayload (s.slot x).value s
      serveSlot x p (appendDelivery p (postDelivery (s.slot x) x.owner i coalescible) s)
  else (s, [])

/-! ## Emptying at teardown -/

/-- The queue is emptied from head to tail, each delivery releasing its reference (R80, step 1). -/
def emptyQueue (p : Port) (s : State) : State :=
  ((s.port p).queue.foldl (fun s d => releasePayload d.payload s) s).modPort p fun r => { r with queue := [] }

/-- One entry of a port's deferral list is discarded: a slot entry fails its slot at the port, an answer entry releases
its reference (R80, step 2). -/
def discardEntry (p : Port) (acc : State × List Port) (e : DeferralEntry) : State × List Port :=
  match e with
  | .answer d => (releasePayload d.payload acc.1, acc.2)
  | .slot x _ _ => let y := failSlot x p acc.1; (y.1, acc.2 ++ y.2)

/-- The deferral list is emptied from head to tail (R80, step 2). -/
def emptyDeferral (p : Port) (s : State) : State × List Port :=
  let entries := (s.port p).deferral
  entries.foldl (discardEntry p) (s.modPort p fun r => { r with deferral := [] }, [])

end Sys2Proof.Machine
end

