-- ==== Sys2Proof/Machine/Fetches.lean ====
section
/-! DEFINITION. The fetch unit: building and placing answers, ending waiting fetches, and the solicit lists
(chapter 6). -/
namespace Sys2Proof.Machine

/-- A complete ANSWER delivery (Table 4-1, R102). -/
def answerDelivery (t : Word) (status : AnswerStatus) (value : Option Payload) (version : Word)
    (producer : Option Port) : Delivery where
  kind := .answer status
  topic := t
  version := version
  payload := value
  producer := producer
  isOpen := false

/-- An answer takes its reference, when it carries a value, and is placed at its requester (R103). -/
def giveAnswer (p : Port) (d : Delivery) (s : State) : State := placeAnswer p d (takePayload d.payload s)

/-- A topic leaves a port's solicit list, which closes up; a topic that does not stand there leaves it unchanged
(R110). -/
def removeSolicit (q : Port) (t : Word) (s : State) : State :=
  s.modPort q fun r => { r with solicits := r.solicits.filter (· != t) }

/-- A topic is appended to a port's solicit list if it is not there already (R101). -/
def addSolicit (q : Port) (t : Word) (s : State) : State :=
  s.modPort q fun r => { r with solicits := if t ∈ r.solicits then r.solicits else r.solicits ++ [t] }

/-- The topic leaves its producer's solicit list if no WAITING entry names it any more (R105, R107, R108). -/
def dropIdleSolicit (t : Word) (s : State) : State :=
  if waitingCount s t = 0 then
    match findTopic s t with
    | none => s
    | some i =>
      match (s.topic i).producer with
      | none => s
      | some q => removeSolicit q t s
  else s

/-- If the entry waits on the topic of the answer, it ends with that answer and becomes FREE (R103). -/
def answerEntry (d : Delivery) (s : State) (i : FetchId) : State :=
  match s.fetch i with
  | none => s
  | some f => if f.topic = d.topic then (giveAnswer f.requester d s).setFetch i none else s

/-- Every fetch waiting on the topic of the answer ends with it, in ascending order of fetch id (R103, R104, R106). -/
def answerAll (d : Delivery) (s : State) : State := (List.finRange 16).foldl (answerEntry d) s

/-- The lowest-numbered FREE fetch table entry (R96). -/
def lowestFreeFetch (s : State) : Option FetchId := (List.finRange 16).find? fun i => (s.fetch i).isNone

/-- A WAITING entry of the port becomes FREE without an answer (R108). -/
def removeFetchOf (p : Port) (s : State) (i : FetchId) : State :=
  match s.fetch i with
  | none => s
  | some f => if f.requester = p then dropIdleSolicit f.topic (s.setFetch i none) else s

/-- Every WAITING entry of the port is removed without an answer (R108). -/
def removeFetches (p : Port) (s : State) : State := (List.finRange 16).foldl (removeFetchOf p) s

end Sys2Proof.Machine
end

