-- ==== Sys2Proof/Machine/Sessions.lean ====
section
/-! DEFINITION. The session controller: the LEAVE effects, teardown and the chain that may follow it, consumption with
the drain it may end, and quarantine (chapter 7, with R18 for the orphaning of one record and R74 for consumption). -/
namespace Sys2Proof.Machine

/-! ## Orphaning and the LEAVE effects -/

/-- One record is orphaned (R18): its waiting fetches are answered PRODUCER_GONE and its solicit goes; a record with a
retained value becomes ORPHANED and stale with notices, any other becomes FREE. -/
def orphanRecord (p : Port) (i : RecordNo) (s : State) : State :=
  let r := s.topic i
  let s := answerAll (answerDelivery r.number .producerGone r.retained r.valueVersion (some p)) s
  let s := removeSolicit p r.number s
  if r.retained.isSome then
    let s := s.modTopic i fun r => { r with state := .orphaned, producer := none, freshness := .stopped, stale := true }
    issueNotices r.number r.version none s
  else freeRecord i s

/-- The topic is orphaned, if the port still produces it. -/
def orphanTopic (p : Port) (s : State) (t : Word) : State :=
  match findTopic s t with
  | none => s
  | some i => orphanRecord p i s

/-- Every topic the port produces is orphaned, one at a time, in ascending order of topic number (R17). -/
def orphanTopics (p : Port) (s : State) : State := (producedTopics s p).foldl (orphanTopic p) s

/-- What a LEAVE does to one slot (R54). -/
def leaveSlot (p : Port) (s : State) (k : SlotNo) : State :=
  match (s.slot ⟨p, k⟩).state with
  | .loading => emptySlot ⟨p, k⟩ s
  | .ready => finishSlot ⟨p, k⟩ .withdrawn s
  | .empty | .deferred | .done => s

/-- What a LEAVE does to the slots of the port (R54). -/
def leaveSlots (p : Port) (s : State) : State := (List.finRange 4).foldl (leaveSlot p) s

/-- The solicit list is cleared (R112). -/
def clearSolicits (p : Port) (s : State) : State := s.modPort p fun r => { r with solicits := [] }

/-- The LEAVE effects, in their order: slots, subscriptions, own fetches, orphaning, solicit list (R120). -/
def leaveEffects (p : Port) (s : State) : State :=
  clearSolicits p (orphanTopics p (removeFetches p (freeSubscriptionsOf p (leaveSlots p s))))

/-! ## Teardown -/

/-- The cursor returns to the window start (R151). -/
def homeCursor (p : Port) (s : State) : State :=
  s.modPort p fun r => { r with view := { r.view with cursor := r.view.start } }

/-- The exchange becomes SETUP if no port is ONLINE or LEAVING (R122 step 7, R130). -/
def judgeExchange (s : State) : State := if anySession s then s else { s with exchange := .setup }

/-- What step 6 of a teardown makes of the port: OFFLINE with score 0, or QUARANTINED with its score kept (R122). -/
def closePort (quarantine : Bool) (p : Port) (s : State) : State :=
  s.modPort p fun r =>
    if quarantine then { r with state := .quarantined } else { r with state := .offline, score := 0 }

/-- Every slot of the port becomes EMPTY (R57). -/
def emptySlots (p : Port) (s : State) : State :=
  (List.finRange 4).foldl (fun s k => emptySlot ⟨p, k⟩ s) s

/-- The teardown of one port, steps 1 to 7 of R122, with the reports its step 2 brought. -/
def teardown (quarantine : Bool) (p : Port) (s : State) : State × List Port :=
  let s := emptyQueue p s
  let y := emptyDeferral p s
  let s := y.1.modPort p fun r => { r with noticesMissed := 0 }
  let s := emptySlots p s
  let s := homeCursor p s
  let s := closePort quarantine p s
  (judgeExchange s, y.2)

/-- Whether a report ends a drain: the port is LEAVING and holds no DEFERRED slot (R55, R121). -/
def drainEnded (s : State) (p : Port) : Bool := (s.port p).state == .leaving && deferredSlots s p == 0

/-- The session controller handles the reports of slots that left DEFERRED, in order. A report that ends a drain brings
the teardown of its port, whose own reports are handled after it (R55, R121, R122). Each report is of one slot that
left DEFERRED, and there are sixteen slots, so the fuel of `endDrains` is never used up. -/
def handleReports : Nat → List Port → State → State
  | 0, _, s => s
  | _ + 1, [], s => s
  | n + 1, q :: rest, s =>
    if drainEnded s q then
      let y := teardown false q s
      handleReports n (rest ++ y.2) y.1
    else handleReports n rest s

/-- Handles the reports that an event brought (R55). -/
def endDrains (y : State × List Port) : State := handleReports 64 y.2 y.1

/-! ## Consumption -/

/-- A consumption: the head is removed, the deferral list is served, the cursor returns to the window start, and the
drains that end bring their teardowns, within one event (R74 to R76, R84, R154). -/
def consumeHead (p : Port) (s : State) : State :=
  let y := moveIn p (removeHead p s)
  endDrains (homeCursor p y.1, y.2)

/-! ## Quarantine -/

/-- Starts the hold timer at QUAR_HOLD (R126, R127, R129). -/
def startHold (p : Port) (s : State) : State := s.modPort p fun r => { r with hold := .running s.params.quarHold }

/-- A request in progress is marked: its port has been quarantined since its take (R128). -/
def cutRequest (p : Port) (s : State) : State :=
  s.modPort p fun r => { r with inProgress := r.inProgress.map fun q => { q with cut := true } }

/-- A DEFERRED slot of a quarantined port is aborted (R56). -/
def abortDeferredSlot (p : Port) (s : State) (k : SlotNo) : State :=
  if (s.slot ⟨p, k⟩).state = .deferred then endDeferred ⟨p, k⟩ .aborted s else s

/-- Every DEFERRED slot of a quarantined port is aborted; none reports (R56, R127 step 2). -/
def abortDeferredSlots (p : Port) (s : State) : State := (List.finRange 4).foldl (abortDeferredSlot p) s

/-- The quarantine of a port that is not QUARANTINED (R126, R127). -/
def quarantine (p : Port) (s : State) : State :=
  let s := cutRequest p s
  match (s.port p).state with
  | .offline => startHold p (closePort true p s)
  | .online => startHold p (endDrains (teardown true p (abortDeferredSlots p (leaveEffects p s))))
  | .leaving => startHold p (endDrains (teardown true p (abortDeferredSlots p s)))
  | .quarantined => startHold p s

end Sys2Proof.Machine
end

