-- ==== Sys2Proof/Machine/Link.lean ====
section
/-! DEFINITION. The host ports: transactions on the two link types, the judging of a frame, the take of a request and
its completion, link faults, response reads, and the port-state check that every request meets (chapter 8, R118,
R124, R125, R128). -/
namespace Sys2Proof.Machine

/-! ## Link type and address (R133) -/

/-- Whether the port is an I2C target: its PSELn strap was high at device reset. -/
def PortRecord.isI2c (r : PortRecord) : Bool := r.strap.pselHigh

/-- The 7-bit target address of an I2C port. -/
def PortRecord.i2cAddress (r : PortRecord) : BitVec 7 :=
  if r.strap.a0High then Config.i2cAddressA0High else Config.i2cAddressA0Low

/-! ## Request and completion -/

/-- Completion: the response is written, marked READY, and the request is no longer in progress (R139). -/
def complete (p : Port) (tag : Byte) (result : Result) (body : List Byte) (s : State) : State :=
  s.modPort p fun r => { r with inProgress := none, response := .ready (mkResponse tag result body) }

/-- The take of a well-formed request: the score falls by 1, the request is in progress, and the response buffer is
NOT_READY (R138, R124). -/
def takeRequest (p : Port) (c : RequestName) (tag : Byte) (args : List Byte) (s : State) : State :=
  s.modPort p fun r =>
    { r with
      score := r.score - 1
      inProgress := some { name := c, tag := tag, arguments := args, cut := false }
      response := .notReady }

/-- What an owning block makes of a request: the state after it, its result and its body. -/
structure Reply where
  state : State
  result : Result
  body : List Byte

/-- A refusal by the owning block: the state as it was, and an empty body (R139, R148). -/
def refuse (result : Result) (s : State) : Reply := { state := s, result := result, body := [] }

/-- An OK without a body (R170). -/
def accept (s : State) : Reply := { state := s, result := .ok, body := [] }

/-- The port states a request is taken in, as rows of Table 7-1 group them. -/
inductive Admission where
  | offlineOnly | onlineOnly | quarantinedOnly | always | unlessQuarantined | onlineOrLeaving
deriving DecidableEq, Repr

/-- The row of Table 7-1 that a request stands in. -/
def admission : RequestName → Admission
  | .join => .offlineOnly
  | .recover => .quarantinedOnly
  | .portStatus => .always
  | .exchStatus | .getParam | .setParam | .topicInfo | .setAttnMask | .attnStatus => .unlessQuarantined
  | .leave | .declare | .retire | .purge | .subscribe | .unsubscribe | .listSubs | .openPost | .writePayload | .submit
  | .fetch | .cancelFetch | .readSolicits => .onlineOnly
  | .abortPost | .slotStatus | .releaseSlot | .setWindow | .readView | .consume | .queueStatus => .onlineOrLeaving

/-- The refusal by port state, or none when the request is taken (R118, Table 7-1). -/
def stateRefusal (c : RequestName) (st : PortState) : Option Result :=
  match admission c, st with
  | .always, _ => none
  | .quarantinedOnly, .quarantined => none
  | .quarantinedOnly, _ => some .notOffline
  | _, .quarantined => some .quarantined
  | .unlessQuarantined, _ => none
  | .offlineOnly, .offline => none
  | .offlineOnly, _ => some .notOffline
  | .onlineOnly, .online => none
  | .onlineOnly, _ => some .notOnline
  | .onlineOrLeaving, .offline => some .notOnline
  | .onlineOrLeaving, _ => none

/-- The handling of the request in progress on a port. A request whose port was quarantined since its take completes
with QUARANTINED and does not act (R128); one that does not suit the port state is refused (R118); any other goes to
its owning block. Either way it completes (R139). Where no such request is in progress the event cannot occur, and
nothing happens (notes/assumptions/4.md). -/
def handleRequest (p : Port) (c : RequestName) (act : List Byte → State → Reply) (s : State) : State :=
  match (s.port p).inProgress with
  | none => s
  | some q =>
    if q.name = c then
      if q.cut then complete p q.tag .quarantined [] s
      else
        match stateRefusal c (s.port p).state with
        | some e => complete p q.tag e [] s
        | none => let y := act q.arguments s; complete p q.tag y.result y.body y.state
    else s

/-! ## Link faults -/

/-- The score after a link fault (R124). -/
def raisedScore (n : Nat) : Nat := min Config.byteSaturation (n + Config.faultIncrement)

/-- What a link fault of any kind does to the port's record and session: the kind is recorded, the score rises, and a
score at or above the threshold quarantines a port that is not QUARANTINED, whose fault restarts the hold (R124, R125,
R129). -/
def scoreFault (p : Port) (kind : FaultKind) (s : State) : State :=
  let s := s.modPort p fun r => { r with lastFault := some kind, score := raisedScore r.score }
  if (s.port p).state = .quarantined then startHold p s
  else if s.params.quarThreshold ≤ (s.port p).score then quarantine p s
  else s

/-- A link fault other than BUSY: the response buffer is overwritten with a LINK_FAULT response first (R145). -/
def linkFault (p : Port) (tag : Byte) (kind : FaultKind) (s : State) : State :=
  scoreFault p kind (s.modPort p fun r => { r with response := .ready (mkResponse tag .linkFault [kind.code]) })

/-- A BUSY fault: the response buffer and the request in progress are left alone (R146). -/
def busyFault (p : Port) (s : State) : State := scoreFault p .busy s

/-! ## Judging a frame -/

/-- What the judging of a frame finds (R144). -/
inductive Judgement where
  | fault (kind : FaultKind)
  | taken (name : RequestName) (tag : Byte) (arguments : List Byte)
deriving DecidableEq, Repr

/-- Gathers the bytes of a transaction: up to 76 are kept, all are counted (R147). -/
def gather (bytes : List Byte) : Receiver where
  bytes := bytes.take Config.receiverBytes
  count := bytes.length

/-- Checks 2 to 8 of R144, in their order. -/
def judgeFrame (x : Receiver) : Judgement :=
  let n := (x.bytes.getD 2 0).toNat
  let covered := x.bytes.take (n + 3)
  if x.count < 3 then .fault .short
  else if Config.maxArguments < n then .fault .length
  else if x.count < n + 4 then .fault .short
  else if n + 4 < x.count then .fault .long
  else if x.bytes.getD (n + 3) 0 ≠ crc8 covered then .fault .crc
  else
    match requestOf (x.bytes.getD 0 0) with
    | none => .fault .unknownCode
    | some c => if admitsLength c n then .taken c (x.bytes.getD 1 0) (covered.drop 3) else .fault .length

/-- The tag received in a frame, or 0 when it ended before its tag byte (R145). -/
def receivedTag (x : Receiver) : Byte := x.bytes.getD 1 0

/-- The end of a request frame, judged from what the receiver holds: check 1 of R144 is BUSY; the receiver returns to
idle (R147). -/
def endFrame (p : Port) (s : State) : State :=
  let x := (s.port p).receiver
  let s := s.modPort p fun r => { r with receiver := Receiver.idle }
  if (s.port p).inProgress.isSome then busyFault p s
  else
    match judgeFrame x with
    | .fault kind => linkFault p (receivedTag x) kind s
    | .taken c tag args => takeRequest p c tag args s

/-- A request frame of the given bytes arrives and ends (R136, R144, R147). -/
def receiveFrame (p : Port) (bytes : List Byte) (s : State) : State :=
  endFrame p (s.modPort p fun r => { r with receiver := gather bytes })

/-! ## Response reads -/

/-- The buffer after a response read of `n` bytes: a complete read of a READY response leaves it REPEAT (R142). -/
def ResponseBuffer.afterRead (b : ResponseBuffer) (n : Nat) : ResponseBuffer :=
  match b with
  | .ready r => if r.body.length + 5 ≤ n then .repeated r else .ready r
  | .empty => .empty
  | .notReady => .notReady
  | .repeated r => .repeated r

/-- A response read in which the master clocks `n` bytes out of the buffer (R142). -/
def readResponse (p : Port) (n : Nat) (s : State) : State :=
  s.modPort p fun r => { r with response := r.response.afterRead n }

/-! ## Transactions -/

/-- The complete bytes of a run of bits, most significant bit first; the bits of an incomplete last byte are discarded
(R134, R147). -/
def completeBytes : List Bool → List Byte
  | b7 :: b6 :: b5 :: b4 :: b3 :: b2 :: b1 :: b0 :: rest =>
    byteOfBits [b7, b6, b5, b4, b3, b2, b1, b0] :: completeBytes rest
  | _ => []

/-- Records what the port drove in a transaction. -/
def setOutput (p : Port) (o : LinkOutput) (s : State) : State := s.modPort p fun r => { r with output := o }

/-- An SPI transaction: no complete byte, no transaction; first byte 0xA0, a response read, with 0xFF driven during that
byte; any other first byte, a request frame, with 0xFF driven for every byte (R134). -/
def spiTransaction (p : Port) (bytes : List Byte) (s : State) : State :=
  match bytes with
  | [] => s
  | b :: rest =>
    if b = Config.spiReadByte then
      readResponse p rest.length (setOutput p
        { addressAcknowledged := false, bytesAcknowledged := 0,
          driven := Config.fillerByte :: (s.port p).response.presents rest.length } s)
    else
      receiveFrame p bytes (setOutput p
        { addressAcknowledged := false, bytesAcknowledged := 0,
          driven := List.replicate bytes.length Config.fillerByte } s)

/-- An I2C write: to the port's own address it is acknowledged, byte by byte, and at least one byte makes it a request
frame; another address is not acknowledged and does not concern the port (R135). -/
def i2cWrite (p : Port) (address : BitVec 7) (bytes : List Byte) (s : State) : State :=
  if address = (s.port p).i2cAddress then
    let s := setOutput p { addressAcknowledged := true, bytesAcknowledged := bytes.length, driven := [] } s
    if bytes.isEmpty then s else receiveFrame p bytes s
  else setOutput p LinkOutput.none s

/-- An I2C read: from the port's own address it is acknowledged and is a response read (R135). -/
def i2cRead (p : Port) (address : BitVec 7) (count : Nat) (s : State) : State :=
  if address = (s.port p).i2cAddress then
    readResponse p count (setOutput p
      { addressAcknowledged := true, bytesAcknowledged := 0, driven := (s.port p).response.presents count } s)
  else setOutput p LinkOutput.none s

/-- A transaction ends on a port's link. The port itself decides what it is; a transaction of the other link type cannot
be formed on its pins and changes nothing (notes/assumptions/5.md). -/
def linkTransaction (p : Port) (t : Transaction) (s : State) : State :=
  match t, (s.port p).isI2c with
  | .spi mosi, false => spiTransaction p (completeBytes mosi) s
  | .i2cWrite address bytes, true => i2cWrite p address bytes s
  | .i2cRead address count, true => i2cRead p address count s
  | _, _ => s

end Sys2Proof.Machine
end

