-- ==== Sys2Proof/Machine/DirectoryRequests.lean ====
section
/-! DEFINITION. The requests of the topic directory: DECLARE, RETIRE, PURGE and TOPIC_INFO (chapter 1). -/
namespace Sys2Proof.Machine

/-- The outcome a successful DECLARE reports (R11). -/
inductive DeclareOutcome where
  | new | redeclared | adopted
deriving DecidableEq, Repr

/-- The code of a DECLARE outcome (Table 11-1). -/
def DeclareOutcome.code : DeclareOutcome → Byte
  | .new => 0x00 | .redeclared => 0x01 | .adopted => 0x02

/-- A new record (R12). -/
def TopicRecord.declared (t : Word) (kind : TopicKind) (p : Port) (limit : Nat) : TopicRecord :=
  { TopicRecord.reset with number := t, state := .declared, kind := kind, producer := some p, limit := limit }

/-- The freshness timer after a re-declaration with a new limit (R13). -/
def TopicRecord.redeclaredTimer (r : TopicRecord) (limit : Nat) : Timer :=
  if limit = 0 then .stopped
  else if r.retained.isSome && !r.stale then .running limit
  else .stopped

/-- A re-declared record (R13). -/
def TopicRecord.redeclared (r : TopicRecord) (limit : Nat) : TopicRecord :=
  { r with limit := limit, freshness := r.redeclaredTimer limit }

/-- An adopted record (R14). -/
def TopicRecord.adopted (r : TopicRecord) (p : Port) (limit : Nat) : TopicRecord :=
  { r with state := .declared, producer := some p, limit := limit }

/-- A successful DECLARE: the record is changed, and the body reports the outcome, the version and staleness after the
request (R11). -/
def declareAs (o : DeclareOutcome) (i : RecordNo) (r : TopicRecord) (s : State) : Reply :=
  { state := s.modTopic i fun _ => r, result := .ok,
    body := o.code :: wordBytes r.version ++ [flagByte r.stale] }

/-- Whether the arguments of a DECLARE are valid beside its kind byte (R11). -/
def declareValid (t : Word) (kind : TopicKind) (limit : Nat) : Bool :=
  isTopicNumber t && limit ≤ Config.maxFreshnessLimit && (kind == .state || limit == 0)

/-- The outcome of a DECLARE with valid arguments, by the record found (R11). -/
def declareTopic (p : Port) (t : Word) (kind : TopicKind) (limit : Nat) (s : State) : Reply :=
  match findTopic s t with
  | none =>
    match lowestFreeRecord s with
    | none => refuse .directoryFull s
    | some i => declareAs .new i (TopicRecord.declared t kind p limit) s
  | some i =>
    let r := s.topic i
    if r.state = .declared then
      if r.producer ≠ some p then refuse .topicOwned s
      else if r.kind = kind then declareAs .redeclared i (r.redeclared limit) s
      else refuse .kindMismatch s
    else
      match kind with
      | .state => declareAs .adopted i (r.adopted p limit) s
      | .event => refuse .kindMismatch s

/-- DECLARE checks its arguments, then acts by the record found (R11). -/
def actDeclare (p : Port) (args : List Byte) (s : State) : Reply :=
  match topicKindOf (argByte args 2) with
  | none => refuse .badArgument s
  | some kind =>
    if declareValid (argWord args 0) kind (argWord args 3).toNat then
      declareTopic p (argWord args 0) kind (argWord args 3).toNat s
    else refuse .badArgument s

/-- DECLARE (R11 to R14). -/
def execDeclare (p : Port) (s : State) : Host.Outcome State Fault Refusal :=
  .next (handleRequest p .declare (actDeclare p) s)

/-- What a RETIRE that passes its checks does (R16): the waiting fetches are answered NO_TOPIC with the retiring
producer, the solicit goes, the value is released and the record becomes FREE. -/
def retireRecord (p : Port) (i : RecordNo) (s : State) : State :=
  let t := (s.topic i).number
  freeRecord i (removeSolicit p t (answerAll (answerDelivery t .noTopic none 0 (some p)) s))

/-- The checks of RETIRE in their order (R15). -/
def actRetire (p : Port) (args : List Byte) (s : State) : Reply :=
  let t := argWord args 0
  if !isTopicNumber t then refuse .badArgument s
  else
    match findTopic s t with
    | none => refuse .noTopic s
    | some i =>
      if (s.topic i).state ≠ .declared ∨ (s.topic i).producer ≠ some p then refuse .notProducer s
      else if topicBusy s t then refuse .topicBusy s
      else accept (retireRecord p i s)

/-- RETIRE (R15, R16). -/
def execRetire (p : Port) (s : State) : Host.Outcome State Fault Refusal :=
  .next (handleRequest p .retire (actRetire p) s)

/-- The checks of PURGE in their order; a purge that passes releases the value and frees the record (R19). -/
def actPurge (args : List Byte) (s : State) : Reply :=
  let t := argWord args 0
  if !isTopicNumber t then refuse .badArgument s
  else
    match findTopic s t with
    | none => refuse .noTopic s
    | some i =>
      if (s.topic i).state = .declared then refuse .notOrphaned s
      else if topicBusy s t then refuse .topicBusy s
      else accept (freeRecord i s)

/-- PURGE (R19). -/
def execPurge (p : Port) (s : State) : Host.Outcome State Fault Refusal :=
  .next (handleRequest p .purge actPurge s)

/-- The retained length TOPIC_INFO reports, or 0xFF when no value is retained (Table 11-6). -/
def retainedLengthByte : Option Payload → Byte
  | none => 0xFF
  | some v => numByte v.length

/-- The body of TOPIC_INFO (R20, Table 11-6). -/
def topicInfoBody (r : TopicRecord) (s : State) : List Byte :=
  [r.state.code, r.kind.code, portByte r.producer] ++ wordBytes r.version ++ [retainedLengthByte r.retained] ++
    wordBytes (BitVec.ofNat 16 r.limit) ++ [flagByte r.stale, numByte (waitingCount s r.number)]

/-- TOPIC_INFO changes nothing (R20). -/
def actTopicInfo (args : List Byte) (s : State) : Reply :=
  let t := argWord args 0
  if !isTopicNumber t then refuse .badArgument s
  else
    match findTopic s t with
    | none => refuse .noTopic s
    | some i => { state := s, result := .ok, body := topicInfoBody (s.topic i) s }

/-- TOPIC_INFO (R20). -/
def execTopicInfo (p : Port) (s : State) : Host.Outcome State Fault Refusal :=
  .next (handleRequest p .topicInfo actTopicInfo s)

end Sys2Proof.Machine
end

