-- ==== Sys2Proof/Machine/Events.lean ====
section
/-! DEFINITION. The events that no request brings: the take, and the four expiries (R9, R44, R48, R105, R129). An
expiry whose timer is not due does not happen (R21, R113, R132; notes/assumptions/3.md). -/
namespace Sys2Proof.Machine

/-! ## The take (R42 to R45) -/

/-- Whether slot `x` is chosen before `y`, when `y` was submitted first: only a higher priority decides (R42). -/
def outranks (s : State) (x y : SlotName) : Bool := (s.slot y).priority < (s.slot x).priority

/-- The better of the choice so far and a slot submitted after it. -/
def betterSlot (s : State) (best : Option SlotName) (x : SlotName) : Option SlotName :=
  match best with
  | none => some x
  | some y => if outranks s x y then some x else some y

/-- The READY slot the dispatcher chooses: the highest priority, and among equals the oldest by the order of the
SUBMITs (R42). -/
def chosenSlot (s : State) : Option SlotName :=
  (s.readyOrder.filter fun x => (s.slot x).state == .ready).foldl (betterSlot s) none

/-- The placements of a take so far: the state, the ports reached and the ports pending (R44, step 5). -/
structure Placements where
  state : State
  reached : PortSet
  pending : PortSet

/-- The placement of the post at one port, when the port is in the target set (R30, R44 step 5). -/
def placeAt (x : SlotName) (t : Word) (y : Placements) (p : Port) : Placements :=
  match governing y.state p fun e => e.matchesPost t x.owner with
  | none => y
  | some i =>
    let z := placePost x p i (y.state.subscription i).latest y.state
    match z.2 with
    | .reached => { y with state := z.1, reached := y.reached.insert p }
    | .pending => { y with state := z.1, pending := y.pending.insert p }

/-- One POST placement for each target port, in ascending port order (R44, steps 4 and 5). -/
def placeAll (x : SlotName) (t : Word) (s : State) : Placements :=
  allPorts.foldl (placeAt x t) { state := s, reached := PortSet.none, pending := PortSet.none }

/-- The slot's outcome at the end of a take: DONE, DELIVERED when no port is pending, or DEFERRED with its deadline
started (R45). -/
def settleSlot (x : SlotName) (y : Placements) : State :=
  let s := y.state.modSlot x fun k =>
    { k with reached := y.reached, pending := y.pending, unreached := PortSet.none }
  if y.pending = PortSet.none then finishSlot x .delivered s
  else s.modSlot x fun k => { k with state := .deferred, deadline := .running s.params.deliveryDeadline }

/-- The slot records the version the directory handed back, and is no longer among the READY slots (R44, step 1). -/
def stampSlot (x : SlotName) (version : Word) (s : State) : State :=
  { s.modSlot x (fun k => { k with version := some version }) with readyOrder := s.readyOrder.filter (· != x) }

/-- The take of the post in a slot, on the record of its topic, in the order of R44. -/
def takePost (x : SlotName) (i : RecordNo) (s : State) : State :=
  let k := s.slot x
  let s := stampRecord i k.value s
  let version := (s.topic i).version
  let s := stampSlot x version s
  let s := removeSolicit x.owner k.topic s
  let s := answerAll (answerDelivery k.topic .fresh k.value version (some x.owner)) s
  settleSlot x (placeAll x k.topic s)

/-- The dispatcher takes the chosen slot's post; with no READY slot there is no take (R43). A READY slot's topic always
has a record (R7). -/
def dispatch (s : State) : State :=
  match chosenSlot s with
  | none => s
  | some x =>
    match findTopic s (s.slot x).topic with
    | none => s
    | some i => takePost x i s

/-- TAKE (R44). -/
def execTake (s : State) : Host.Outcome State Fault Refusal := .next (dispatch s)

/-! ## Expiries -/

/-- The topic becomes stale, its timer stays stopped, and stale notices are issued with the producer present (R9, R10). -/
def lapse (i : RecordNo) (s : State) : State :=
  let r := s.topic i
  issueNotices r.number r.version r.producer
    (s.modTopic i fun r => { r with stale := true, freshness := .stopped })

/-- The freshness timer of a DECLARED topic expires, if it is due (R9). -/
def expireFreshness (t : Word) (s : State) : State :=
  match findTopic s t with
  | none => s
  | some i =>
    if (s.topic i).state = .declared ∧ (s.topic i).freshness = .running 0 then lapse i s else s

/-- FRESHNESS_EXPIRY (R9). -/
def execFreshnessExpiry (t : Word) (s : State) : Host.Outcome State Fault Refusal := .next (expireFreshness t s)

/-- The delivery deadline of a DEFERRED slot expires, if it is due; the slot reports to the session controller (R48,
R55). -/
def expireDelivery (x : SlotName) (s : State) : State :=
  if (s.slot x).state = .deferred ∧ (s.slot x).deadline = .running 0 then
    endDrains (endDeferred x .partially s, [x.owner])
  else s

/-- DELIVERY_DEADLINE_EXPIRY (R48). -/
def execDeliveryDeadlineExpiry (p : Port) (k : SlotNo) (s : State) : Host.Outcome State Fault Refusal :=
  .next (expireDelivery ⟨p, k⟩ s)

/-- The TIMEOUT answer of a topic, built from its record (R102, R105). -/
def timeoutAnswer (t : Word) (s : State) : Delivery :=
  match findTopic s t with
  | none => answerDelivery t .timeout none 0 none
  | some i =>
    answerDelivery t .timeout (s.topic i).retained (s.topic i).valueVersion (s.topic i).producer

/-- The deadline of a waiting fetch expires, if it is due: a TIMEOUT answer, the entry FREE, and the solicit dropped
when no other entry waits on the topic (R105). -/
def expireFetch (i : FetchId) (s : State) : State :=
  match s.fetch i with
  | none => s
  | some f =>
    if f.deadline = .running 0 then
      dropIdleSolicit f.topic ((giveAnswer f.requester (timeoutAnswer f.topic s) s).setFetch i none)
    else s

/-- FETCH_DEADLINE_EXPIRY (R105). -/
def execFetchDeadlineExpiry (i : FetchId) (s : State) : Host.Outcome State Fault Refusal := .next (expireFetch i s)

/-- The quarantine hold of a port becomes EXPIRED, if it is due; the port stays QUARANTINED (R129). -/
def expireHold (p : Port) (s : State) : State :=
  s.modPort p fun r => { r with hold := if r.hold = .running 0 then .expired else r.hold }

/-- QUARANTINE_HOLD_EXPIRY (R129). -/
def execQuarantineHoldExpiry (p : Port) (s : State) : Host.Outcome State Fault Refusal := .next (expireHold p s)

end Sys2Proof.Machine
end

