-- ==== Sys2Proof/Machine/Flags.lean ====
section
/-! DEFINITION. The attention conditions of a port, the attention line they drive, and the byte that reports them
(section 10.1 and 10.2). The conditions are not stored: they are read from their owners as they stand (R159). -/
namespace Sys2Proof.Machine

/-- QUEUE: the inbound queue holds at least one delivery (R159). -/
def PortRecord.attnQueue (r : PortRecord) : Bool := !r.queue.isEmpty

/-- SOLICIT: the solicit list holds at least one topic (R159). -/
def PortRecord.attnSolicit (r : PortRecord) : Bool := !r.solicits.isEmpty

/-- SLOT_DONE: at least one of the port's slots is DONE (R159). -/
def PortRecord.attnSlotDone (r : PortRecord) : Bool := (List.finRange 4).any fun k => r.slots[k.val].state == .done

/-- RESPONSE: the response buffer is READY (R159). -/
def PortRecord.attnResponse (r : PortRecord) : Bool :=
  match r.response with
  | .ready _ => true
  | .empty | .notReady | .repeated _ => false

/-- QUARANTINE: the port is QUARANTINED (R159). -/
def PortRecord.attnQuarantine (r : PortRecord) : Bool := r.state == .quarantined

/-- NOTICE_MISSED: the notices-missed count is above 0 (R159). -/
def PortRecord.attnNoticeMissed (r : PortRecord) : Bool := 0 < r.noticesMissed

/-- The six conditions, bit by bit as Table 11-1 gives them. -/
def PortRecord.conditions (r : PortRecord) : Byte :=
  BitVec.ofBoolListLE
    [r.attnQueue, r.attnSolicit, r.attnSlotDone, r.attnResponse, r.attnQuarantine, r.attnNoticeMissed, false, false]

/-- Whether a mask value names a combination of the six conditions alone (R161). -/
def isAttnMask (b : Byte) : Bool := b &&& 0xC0 == 0

/-- Whether ATTNn is driven low: RSTn is high and at least one condition in the mask is true (R160). While RSTn is held
low every attention output is released. -/
def attnDrivenLow (rstnHigh : Bool) (s : State) (p : Port) : Bool :=
  rstnHigh && ((s.port p).mask &&& (s.port p).conditions != 0)

end Sys2Proof.Machine
end

