-- ==== Sys2Proof/Machine/ExchangeRequests.lean ====
section
/-! DEFINITION. The requests of the parameter store and of the attention unit: EXCH_STATUS, SET_PARAM, GET_PARAM,
SET_ATTN_MASK and ATTN_STATUS (chapter 10). -/
namespace Sys2Proof.Machine

/-- The body of EXCH_STATUS (R166, Table 11-6). -/
def exchStatusBody (s : State) : List Byte :=
  [s.exchange.code, numByte (freeRecords s), numByte (freeSubscriptions s)] ++
    wordBytes (BitVec.ofNat 16 (freeBuffers s)) ++ [numByte (freeFetches s)]

/-- EXCH_STATUS changes nothing (R166). -/
def actExchStatus (_args : List Byte) (s : State) : Reply :=
  { state := s, result := .ok, body := exchStatusBody s }

/-- EXCH_STATUS (R166). -/
def execExchStatus (p : Port) (s : State) : Host.Outcome State Fault Refusal :=
  .next (handleRequest p .exchStatus actExchStatus s)

/-- The parameter takes the value; for TICK_DIV the divider begins its count again (R162, R165). -/
def setParameter (i : ParamId) (v : Nat) (s : State) : State :=
  { s with
    params := s.params.set i v
    divider := if i = .tickDiv then 0 else s.divider }

/-- The checks of SET_PARAM in their order (R165). -/
def actSetParam (args : List Byte) (s : State) : Reply :=
  match paramOf (argByte args 0) with
  | none => refuse .badArgument s
  | some i =>
    if i.inRange (argWord args 1).toNat then
      if s.exchange = .running then refuse .exchangeRunning s
      else accept (setParameter i (argWord args 1).toNat s)
    else refuse .badArgument s

/-- SET_PARAM (R165). -/
def execSetParam (p : Port) (s : State) : Host.Outcome State Fault Refusal :=
  .next (handleRequest p .setParam actSetParam s)

/-- GET_PARAM returns the id and the current value (R165). -/
def actGetParam (args : List Byte) (s : State) : Reply :=
  match paramOf (argByte args 0) with
  | none => refuse .badArgument s
  | some i =>
    { state := s, result := .ok, body := argByte args 0 :: wordBytes (BitVec.ofNat 16 (s.params.get i)) }

/-- GET_PARAM (R165). -/
def execGetParam (p : Port) (s : State) : Host.Outcome State Fault Refusal :=
  .next (handleRequest p .getParam actGetParam s)

/-- SET_ATTN_MASK replaces the mask; the line follows it at once, being read from mask and conditions (R161). -/
def actSetAttnMask (p : Port) (args : List Byte) (s : State) : Reply :=
  if isAttnMask (argByte args 0) then accept (s.modPort p fun r => { r with mask := argByte args 0 })
  else refuse .badArgument s

/-- SET_ATTN_MASK (R161). -/
def execSetAttnMask (p : Port) (s : State) : Host.Outcome State Fault Refusal :=
  .next (handleRequest p .setAttnMask (actSetAttnMask p) s)

/-- ATTN_STATUS reports the mask and the conditions as they stand while this request is in progress (R161). -/
def actAttnStatus (p : Port) (_args : List Byte) (s : State) : Reply :=
  { state := s, result := .ok, body := [(s.port p).mask, (s.port p).conditions] }

/-- ATTN_STATUS (R161). -/
def execAttnStatus (p : Port) (s : State) : Host.Outcome State Fault Refusal :=
  .next (handleRequest p .attnStatus (actAttnStatus p) s)

end Sys2Proof.Machine
end

