-- ==== Sys2Proof/Machine/FetchRequests.lean ====
section
/-! DEFINITION. The requests of the fetch unit: FETCH, CANCEL_FETCH and READ_SOLICITS (chapter 6). -/
namespace Sys2Proof.Machine

/-- A FETCH answered at once: the answer is placed, and the body reports ANSWERED and the status (R100). -/
def answerNow (p : Port) (t : Word) (status : AnswerStatus) (value : Option Payload) (version : Word)
    (producer : Option Port) (s : State) : Reply :=
  { state := giveAnswer p (answerDelivery t status value version producer) s, result := .ok,
    body := [0x00, status.code] }

/-- The wait a FETCH asks for: its deadline argument, or FETCH_DEADLINE when that is 0 (R99, R101). -/
def fetchWait (deadline : Nat) (s : State) : Nat := if deadline = 0 then s.params.fetchDeadline else deadline

/-- The topic stands in its producer's solicit list after a waiting FETCH (R101). -/
def solicit (producer : Option Port) (t : Word) (s : State) : State :=
  match producer with
  | none => s
  | some q => addSolicit q t s

/-- A FETCH that must wait: the lowest FREE entry becomes WAITING and the producer is solicited, or FETCH_FULL (R101). -/
def waitFetch (p : Port) (t : Word) (deadline : Nat) (producer : Option Port) (s : State) : Reply :=
  match lowestFreeFetch s with
  | none => refuse .fetchFull s
  | some i =>
    { state := solicit producer t
        (s.setFetch i (some { requester := p, topic := t, deadline := .running (fetchWait deadline s) }))
      result := .ok, body := [0x01, numByte i.val] }

/-- A FETCH that has passed its checks, by the record found (R99). -/
def fetchTopic (p : Port) (t : Word) (deadline : Nat) (s : State) : Reply :=
  match findTopic s t with
  | none => answerNow p t .noTopic none 0 none s
  | some i =>
    let r := s.topic i
    if r.state = .declared then
      if r.kind = .state ∧ r.retained.isSome ∧ r.stale = false then
        answerNow p t .retained r.retained r.version r.producer s
      else waitFetch p t deadline r.producer s
    else answerNow p t .stale r.retained r.valueVersion none s

/-- The checks of FETCH in their order (R99). -/
def actFetch (p : Port) (args : List Byte) (s : State) : Reply :=
  let t := argWord args 0
  let deadline := (argWord args 2).toNat
  if !isTopicNumber t || Config.maxFetchDeadline < deadline then refuse .badArgument s
  else if Config.obligationLimit ≤ obligations s p then refuse .fetchLimit s
  else fetchTopic p t deadline s

/-- FETCH (R99). -/
def execFetch (p : Port) (s : State) : Host.Outcome State Fault Refusal :=
  .next (handleRequest p .fetch (actFetch p) s)

/-- The checks of CANCEL_FETCH in their order; the entry becomes FREE without an answer (R107). -/
def actCancelFetch (p : Port) (args : List Byte) (s : State) : Reply :=
  match indexBelow 16 (argByte args 0).toNat with
  | none => refuse .badArgument s
  | some i =>
    match s.fetch i with
    | none => refuse .noFetch s
    | some f =>
      if f.requester ≠ p then refuse .notOwner s else accept (dropIdleSolicit f.topic (s.setFetch i none))

/-- CANCEL_FETCH (R107). -/
def execCancelFetch (p : Port) (s : State) : Host.Outcome State Fault Refusal :=
  .next (handleRequest p .cancelFetch (actCancelFetch p) s)

/-- READ_SOLICITS removes and returns the oldest topics, up to 16, and reports how many are left (R111). -/
def actReadSolicits (p : Port) (_args : List Byte) (s : State) : Reply :=
  let all := (s.port p).solicits
  let taken := all.take Config.solicitsPerRead
  let left := all.drop Config.solicitsPerRead
  { state := s.modPort p fun r => { r with solicits := left }, result := .ok,
    body := [numByte taken.length, numByte left.length] ++ taken.flatMap wordBytes }

/-- READ_SOLICITS (R111). -/
def execReadSolicits (p : Port) (s : State) : Host.Outcome State Fault Refusal :=
  .next (handleRequest p .readSolicits (actReadSolicits p) s)

end Sys2Proof.Machine
end

