-- ==== Sys2Proof/Machine/LinkCommands.lean ====
section
/-! DEFINITION. The commands that are no request: device reset, the timebase tick, and the two transactions of a host
port (R133, R142, R144, R162, R163). -/
namespace Sys2Proof.Machine

/-- Every block takes its reset values, and the straps are sampled as the reset ends (R133, R147 and the reset rule of
each block). The commands that wait go on waiting: they are no part of the device. -/
def resetDevice (straps : Vector Strap 4) (s : State) : State :=
  { State.reset with
    ports := #v[PortRecord.reset straps[0], PortRecord.reset straps[1], PortRecord.reset straps[2],
                PortRecord.reset straps[3]]
    pending := s.pending }

/-- DEVICE_RESET (R133). -/
def execDeviceReset (straps : Vector Strap 4) (s : State) : Host.Outcome State Fault Refusal :=
  .next (resetDevice straps s)

/-- A timer after `n` ticks: a running timer counts them and is due when none is left (R163). -/
def Timer.after (n : Nat) : Timer → Timer
  | .stopped => .stopped
  | .running left => .running (left - n)

/-- A quarantine hold timer after `n` ticks (R129, R163). -/
def HoldTimer.after (n : Nat) : HoldTimer → HoldTimer
  | .stopped => .stopped
  | .running left => .running (left - n)
  | .expired => .expired

/-- The timers of a port after `n` ticks: the delivery deadlines of its slots and its quarantine hold (R163). -/
def PortRecord.after (n : Nat) (r : PortRecord) : PortRecord :=
  { r with
    hold := r.hold.after n
    slots := updateAll r.slots fun k => { k with deadline := k.deadline.after n } }

/-- Every timer of the part counts `n` ticks (R163). -/
def countTicks (n : Nat) (s : State) : State :=
  { s with
    ports := updateAll s.ports fun r => r.after n
    topics := updateAll s.topics fun r => { r with freshness := r.freshness.after n }
    fetches := updateAll s.fetches fun e => e.map fun f => { f with deadline := f.deadline.after n } }

/-- The divider counts CLKIN periods and produces one tick for every TICK_DIV of them (R162). -/
def countPeriods (periods : Nat) (s : State) : State :=
  let total := s.divider + periods
  countTicks (total / s.params.tickDiv) { s with divider := total % s.params.tickDiv }

/-- TICK (R162). -/
def execTick (periods : Nat) (s : State) : Host.Outcome State Fault Refusal := .next (countPeriods periods s)

/-- REQUEST_FRAME (R144): a transaction that carries a request frame ends. -/
def execRequestFrame (p : Port) (t : Transaction) (s : State) : Host.Outcome State Fault Refusal :=
  .next (linkTransaction p t s)

/-- RESPONSE_READ (R142): a transaction that reads the response buffer ends. -/
def execResponseRead (p : Port) (t : Transaction) (s : State) : Host.Outcome State Fault Refusal :=
  .next (linkTransaction p t s)

end Sys2Proof.Machine
end

