-- ==== Sys2Proof/Machine/PostRequests.lean ====
section
/-! DEFINITION. The requests of the post slots: OPEN_POST, WRITE_PAYLOAD, SUBMIT, ABORT_POST, SLOT_STATUS and
RELEASE_SLOT (chapter 3). -/
namespace Sys2Proof.Machine

/-- What an accepted OPEN_POST does: the buffer is allocated and the slot becomes LOADING (R39, R87). -/
def openSlot (x : SlotName) (t : Word) (priority : Nat) (b : BufferNo) (s : State) : State :=
  (allocateBuffer b s).modSlot x fun k =>
    { k with state := .loading, topic := t, priority := priority, buffer := some b, length := 0 }

/-- The checks of OPEN_POST after its arguments, in their order (R39). -/
def openPost (x : SlotName) (t : Word) (priority : Nat) (s : State) : Reply :=
  if (s.slot x).state ≠ .empty then refuse .slotBusy s
  else
    match findTopic s t with
    | none => refuse .noTopic s
    | some i =>
      if (s.topic i).state ≠ .declared ∨ (s.topic i).producer ≠ some x.owner then refuse .notProducer s
      else
        match lowestFreeBuffer s with
        | none => refuse .noBuffer s
        | some b => accept (openSlot x t priority b s)

/-- OPEN_POST checks its arguments first (R39). -/
def actOpenPost (p : Port) (args : List Byte) (s : State) : Reply :=
  match argSlot args p with
  | none => refuse .badArgument s
  | some x =>
    if isTopicNumber (argWord args 1) && (argByte args 3).toNat ≤ 3 then
      openPost x (argWord args 1) (argByte args 3).toNat s
    else refuse .badArgument s

/-- OPEN_POST (R39). -/
def execOpenPost (p : Port) (s : State) : Host.Outcome State Fault Refusal :=
  .next (handleRequest p .openPost (actOpenPost p) s)

/-- The bytes of a buffer with data written from an offset on (R40). -/
def writeBytes (v : Vector Byte 64) (offset : Nat) : List Byte → Vector Byte 64
  | [] => v
  | b :: rest => writeBytes (v.setIfInBounds offset b) (offset + 1) rest

/-- Writes data into the buffer of a slot and extends its length (R40). -/
def writePayload (x : SlotName) (offset : Nat) (data : List Byte) (s : State) : State :=
  let s := match (s.slot x).buffer with
    | none => s
    | some b => s.modBuffer b fun y => { y with bytes := writeBytes y.bytes offset data }
  s.modSlot x fun k => { k with length := max k.length (offset + data.length) }

/-- The checks of WRITE_PAYLOAD in their order (R40). -/
def actWritePayload (p : Port) (args : List Byte) (s : State) : Reply :=
  let offset := (argByte args 1).toNat
  let data := args.drop 2
  match argSlot args p with
  | none => refuse .badArgument s
  | some x =>
    if Config.bufferBytes < offset + data.length then refuse .badArgument s
    else if (s.slot x).state ≠ .loading then refuse .slotState s
    else accept (writePayload x offset data s)

/-- WRITE_PAYLOAD (R40). -/
def execWritePayload (p : Port) (s : State) : Host.Outcome State Fault Refusal :=
  .next (handleRequest p .writePayload (actWritePayload p) s)

/-- The slot becomes READY with the counter's value, the counter advances, and the slot joins the order of the READY
slots as the youngest (R41, R42). -/
def submitSlot (x : SlotName) (s : State) : State :=
  { s.modSlot x (fun k => { k with state := .ready, readySequence := s.readySequence }) with
    readySequence := s.readySequence + 1
    readyOrder := s.readyOrder ++ [x] }

/-- The checks of SUBMIT in their order (R41). -/
def actSubmit (p : Port) (args : List Byte) (s : State) : Reply :=
  match argSlot args p with
  | none => refuse .badArgument s
  | some x => if (s.slot x).state ≠ .loading then refuse .slotState s else accept (submitSlot x s)

/-- SUBMIT (R41). -/
def execSubmit (p : Port) (s : State) : Host.Outcome State Fault Refusal :=
  .next (handleRequest p .submit (actSubmit p) s)

/-- ABORT_POST by the state of the slot; the abort of a DEFERRED slot reports to the session controller (R51, R55). -/
def actAbortPost (p : Port) (args : List Byte) (s : State) : Reply :=
  match argSlot args p with
  | none => refuse .badArgument s
  | some x =>
    match (s.slot x).state with
    | .empty => refuse .slotState s
    | .loading => accept (emptySlot x s)
    | .ready => accept (finishSlot x .aborted s)
    | .deferred => accept (endDrains (endDeferred x .aborted s, [p]))
    | .done => refuse .tooLate s

/-- ABORT_POST (R51). -/
def execAbortPost (p : Port) (s : State) : Host.Outcome State Fault Refusal :=
  .next (handleRequest p .abortPost (actAbortPost p) s)

/-- Whether a slot in this state carries a ready sequence (Table 3-2). -/
def SlotState.isSubmitted : SlotState → Bool
  | .ready | .deferred | .done => true
  | .empty | .loading => false

/-- Whether a slot in this state carries pending, reached and unreached sets to report (R52). -/
def SlotState.hasSets : SlotState → Bool
  | .deferred | .done => true
  | .empty | .loading | .ready => false

/-- The body of SLOT_STATUS: the fields present in the slot's state, every other one 0x00 (R52, R168, Table 11-6). -/
def slotStatusBody (k : Slot) : List Byte :=
  if k.state = .empty then List.replicate 13 0x00
  else
    [k.state.code] ++ wordBytes k.topic ++ [numByte k.priority, numByte k.length] ++
      wordBytes (if k.state.isSubmitted then k.readySequence else 0) ++ wordBytes (k.version.getD 0) ++
      (if k.state.hasSets then [k.pending.byte, k.reached.byte, k.unreached.byte] else [0x00, 0x00, 0x00]) ++
      [if k.state = .done then completionCode k.status else 0x00]

/-- SLOT_STATUS changes nothing (R52). -/
def actSlotStatus (p : Port) (args : List Byte) (s : State) : Reply :=
  match argSlot args p with
  | none => refuse .badArgument s
  | some x => { state := s, result := .ok, body := slotStatusBody (s.slot x) }

/-- SLOT_STATUS (R52). -/
def execSlotStatus (p : Port) (s : State) : Host.Outcome State Fault Refusal :=
  .next (handleRequest p .slotStatus (actSlotStatus p) s)

/-- RELEASE_SLOT makes a DONE slot EMPTY (R53). -/
def actReleaseSlot (p : Port) (args : List Byte) (s : State) : Reply :=
  match argSlot args p with
  | none => refuse .badArgument s
  | some x => if (s.slot x).state ≠ .done then refuse .slotState s else accept (emptySlot x s)

/-- RELEASE_SLOT (R53). -/
def execReleaseSlot (p : Port) (s : State) : Host.Outcome State Fault Refusal :=
  .next (handleRequest p .releaseSlot (actReleaseSlot p) s)

end Sys2Proof.Machine
end

