-- ==== Sys2Proof/Machine/SessionRequests.lean ====
section
/-! DEFINITION. The session requests: JOIN, LEAVE, RECOVER and PORT_STATUS (chapter 7, R167). -/
namespace Sys2Proof.Machine

/-- A port in OFFLINE becomes ONLINE, and the exchange becomes RUNNING (R119). -/
def actJoin (p : Port) (_args : List Byte) (s : State) : Reply :=
  accept { s.modPort p (fun r => { r with state := .online }) with exchange := .running }

/-- JOIN (R119). -/
def execJoin (p : Port) (s : State) : Host.Outcome State Fault Refusal :=
  .next (handleRequest p .join (actJoin p) s)

/-- What a LEAVE does to the exchange: the port becomes LEAVING, the LEAVE effects are applied, and the teardown follows
at once when the port then holds no DEFERRED slot (R120, R122). -/
def leavePort (p : Port) (s : State) : State :=
  let s := leaveEffects p (s.modPort p fun r => { r with state := .leaving })
  if deferredSlots s p = 0 then endDrains (teardown false p s) else s

/-- LEAVE reports the port state after the request and the number of the port's DEFERRED slots (R120). -/
def actLeave (p : Port) (_args : List Byte) (s : State) : Reply :=
  let s := leavePort p s
  { state := s, result := .ok, body := [(s.port p).state.code, numByte (deferredSlots s p)] }

/-- LEAVE (R120). -/
def execLeave (p : Port) (s : State) : Host.Outcome State Fault Refusal :=
  .next (handleRequest p .leave (actLeave p) s)

/-- HOLDING until the hold has EXPIRED; then the port becomes OFFLINE with score 0 and the timer STOPPED (R129). -/
def actRecover (p : Port) (_args : List Byte) (s : State) : Reply :=
  if (s.port p).hold = .expired then
    accept (s.modPort p fun r => { r with state := .offline, score := 0, hold := .stopped })
  else refuse .holding s

/-- RECOVER (R129). -/
def execRecover (p : Port) (s : State) : Host.Outcome State Fault Refusal :=
  .next (handleRequest p .recover (actRecover p) s)

/-- The body of PORT_STATUS (R167, Table 11-6). -/
def portStatusBody (p : Port) (s : State) : List Byte :=
  let r := s.port p
  [r.state.code, r.hold.code, numByte r.score, lastFaultCode r.lastFault, numByte r.noticesMissed,
   numByte (obligations s p)]

/-- PORT_STATUS reports, then sets the notices-missed count to 0 (R167). -/
def actPortStatus (p : Port) (_args : List Byte) (s : State) : Reply :=
  { state := s.modPort p fun r => { r with noticesMissed := 0 }, result := .ok, body := portStatusBody p s }

/-- PORT_STATUS (R167). -/
def execPortStatus (p : Port) (s : State) : Host.Outcome State Fault Refusal :=
  .next (handleRequest p .portStatus (actPortStatus p) s)

end Sys2Proof.Machine
end

