-- ==== Sys2Proof/Machine/SubscriptionRequests.lean ====
section
/-! DEFINITION. The requests of the subscription table: SUBSCRIBE, UNSUBSCRIBE and LIST_SUBS (chapter 2). -/
namespace Sys2Proof.Machine

/-- Whether an options value names only LATEST, STALE_NOTICE and SELF (R25). -/
def isOptions (b : Byte) : Bool := b &&& 0xF8 == 0

/-- An ACTIVE entry with the owner, pattern and options of a SUBSCRIBE (R26, Table 11-1). -/
def Subscription.ofRequest (p : Port) (pattern mask : Word) (options : Byte) : Subscription where
  active := true
  owner := p
  pattern := pattern
  mask := mask
  latest := options.getLsbD 0
  staleNotice := options.getLsbD 1
  self := options.getLsbD 2

/-- The checks of SUBSCRIBE in their order; the lowest FREE entry becomes ACTIVE (R25, R26). -/
def actSubscribe (p : Port) (args : List Byte) (s : State) : Reply :=
  if !isOptions (argByte args 4) then refuse .badArgument s
  else if Config.subscriptionQuota ≤ ownedSubscriptions s p then refuse .subQuota s
  else
    match lowestFreeSubscription s with
    | none => refuse .subFull s
    | some i =>
      { state := s.modSubscription i fun _ =>
          Subscription.ofRequest p (argWord args 0) (argWord args 2) (argByte args 4)
        result := .ok, body := [numByte i.val] }

/-- SUBSCRIBE (R25, R26). -/
def execSubscribe (p : Port) (s : State) : Host.Outcome State Fault Refusal :=
  .next (handleRequest p .subscribe (actSubscribe p) s)

/-- The checks of UNSUBSCRIBE in their order; the entry becomes FREE (R27). -/
def actUnsubscribe (p : Port) (args : List Byte) (s : State) : Reply :=
  match indexBelow 64 (argByte args 0).toNat with
  | none => refuse .badArgument s
  | some i =>
    if !(s.subscription i).active then refuse .badArgument s
    else if (s.subscription i).owner ≠ p then refuse .notOwner s
    else accept (s.modSubscription i fun _ => Subscription.reset)

/-- UNSUBSCRIBE (R27). -/
def execUnsubscribe (p : Port) (s : State) : Host.Outcome State Fault Refusal :=
  .next (handleRequest p .unsubscribe (actUnsubscribe p) s)

/-- The indices of the entries a port owns, ascending (R28). -/
def ownIndices (s : State) (p : Port) : List SubIndex :=
  (List.finRange 64).filter fun i => (s.subscription i).ownedBy p

/-- The body of LIST_SUBS (R28, Table 11-6). -/
def listSubsBody (p : Port) (s : State) : List Byte :=
  [numByte (freeSubscriptions s), numByte (ownedSubscriptions s p)] ++
    (ownIndices s p).flatMap fun i => [numByte i.val, (s.subscription i).options]

/-- LIST_SUBS changes no entry (R28). -/
def actListSubs (p : Port) (_args : List Byte) (s : State) : Reply :=
  { state := s, result := .ok, body := listSubsBody p s }

/-- LIST_SUBS (R28). -/
def execListSubs (p : Port) (s : State) : Host.Outcome State Fault Refusal :=
  .next (handleRequest p .listSubs (actListSubs p) s)

end Sys2Proof.Machine
end

