-- ==== Sys2Proof/Machine/ViewOps.lean ====
section
/-! DEFINITION. The delivery view: the bytes it presents, and the reading of one byte after another with the wraps of
the two modes (chapter 9). -/
namespace Sys2Proof.Machine

/-- The view length of a delivery: 8 plus its payload length (R150). -/
def Delivery.viewLength (d : Delivery) : Nat := Config.headerBytes + d.payloadLength

/-- The byte of a payload at a position: from the buffer below the payload length, a fill byte beyond it (R150). -/
def payloadByte (s : State) (d : Delivery) (i : Nat) : Byte :=
  match d.payload with
  | none => 0x00
  | some v => if i < v.length then (s.buffer v.buffer).bytes.toList.getD i 0x00 else 0x00

/-- The byte of the view at an offset: header, payload, or fill byte (R150). -/
def viewByte (s : State) (d : Delivery) (offset : Nat) : Byte :=
  if offset < Config.headerBytes then d.header.getD offset 0x00
  else payloadByte s d (offset - Config.headerBytes)

/-- Sets the open mark of the head (R156). -/
def openHead (p : Port) (s : State) : State :=
  s.modPort p fun r =>
    { r with queue := match r.queue with
      | [] => []
      | d :: rest => { d with isOpen := true } :: rest }

/-- The cursor moves on by one (R153). -/
def advanceCursor (p : Port) (s : State) : State :=
  s.modPort p fun r => { r with view := { r.view with cursor := r.view.cursor + 1 } }

/-- Passing the window end: HOLD returns the cursor on the same head, ADVANCE consumes the head (R154). -/
def wrapView (p : Port) (s : State) : State :=
  match (s.port p).view.mode with
  | .hold => homeCursor p s
  | .advance => consumeHead p s

/-- One byte of the head has been returned: the head is open, and the cursor moves on, and wraps when the byte stood at
the window end (R153). -/
def passByte (p : Port) (s : State) : State :=
  let atEnd := (s.port p).view.cursor == (s.port p).view.stop
  let s := advanceCursor p (openHead p s)
  if atEnd then wrapView p s else s

/-- Returns up to `n` bytes from the head as it stands at each, with the bytes returned so far; the flag says whether
the queue was found empty while bytes were owed (R153, R155). -/
def readBytes (p : Port) : Nat → State → List Byte → State × List Byte × Bool
  | 0, s, got => (s, got, false)
  | n + 1, s, got =>
    match (s.port p).queue with
    | [] => (s, got, true)
    | d :: _ => readBytes p n (passByte p s) (got ++ [viewByte s d (s.port p).view.cursor])

end Sys2Proof.Machine
end

