-- ==== Sys2Proof/Machine/ViewRequests.lean ====
section
/-! DEFINITION. The requests of the delivery view and the delivery queues: SET_WINDOW, READ_VIEW, CONSUME and
QUEUE_STATUS (R74, chapter 9). -/
namespace Sys2Proof.Machine

/-- SET_WINDOW: with valid arguments the view takes the window and mode, and the cursor returns to the new start
(R152). -/
def actSetWindow (p : Port) (args : List Byte) (s : State) : Reply :=
  let start := (argByte args 0).toNat
  let stop := (argByte args 1).toNat
  match viewModeOf (argByte args 2) with
  | none => refuse .badArgument s
  | some mode =>
    if Config.lastViewOffset < stop ∨ stop < start then refuse .badArgument s
    else accept (s.modPort p fun r =>
      { r with view := { start := start, stop := stop, mode := mode, cursor := start } })

/-- SET_WINDOW (R152). -/
def execSetWindow (p : Port) (s : State) : Host.Outcome State Fault Refusal :=
  .next (handleRequest p .setWindow (actSetWindow p) s)

/-- READ_VIEW: the bytes are returned one by one; a queue found empty while bytes are owed gives QUEUE_EMPTY with the
bytes gathered (R153, R155). -/
def actReadView (p : Port) (args : List Byte) (s : State) : Reply :=
  let count := (argByte args 0).toNat
  if count = 0 ∨ Config.maxReadCount < count then refuse .badArgument s
  else
    let y := readBytes p count s []
    { state := y.1, result := if y.2.2 then .queueEmpty else .ok, body := y.2.1 }

/-- READ_VIEW (R153). -/
def execReadView (p : Port) (s : State) : Host.Outcome State Fault Refusal :=
  .next (handleRequest p .readView (actReadView p) s)

/-- CONSUME: the head is consumed, and the body reports the depth and the deferral list after the request (R74). -/
def actConsume (p : Port) (_args : List Byte) (s : State) : Reply :=
  if (s.port p).queue.isEmpty then refuse .queueEmpty s
  else
    let s := consumeHead p s
    { state := s, result := .ok, body := [numByte (s.port p).queue.length, numByte (s.port p).deferral.length] }

/-- CONSUME (R74). -/
def execConsume (p : Port) (s : State) : Host.Outcome State Fault Refusal :=
  .next (handleRequest p .consume (actConsume p) s)

/-- Whether the head is open, and its view length, or 0 when the queue is empty (R157). -/
def headReport : List Delivery → List Byte
  | [] => [0x00, 0x00]
  | d :: _ => [flagByte d.isOpen, numByte d.viewLength]

/-- The body of QUEUE_STATUS (R157, Table 11-6). -/
def queueStatusBody (p : Port) (s : State) : List Byte :=
  let r := s.port p
  [numByte r.queue.length, numByte r.deferral.length, numByte r.view.start, numByte r.view.stop, r.view.mode.code,
   numByte r.view.cursor] ++ headReport r.queue

/-- QUEUE_STATUS changes nothing (R157). -/
def actQueueStatus (p : Port) (_args : List Byte) (s : State) : Reply :=
  { state := s, result := .ok, body := queueStatusBody p s }

/-- QUEUE_STATUS (R157). -/
def execQueueStatus (p : Port) (s : State) : Host.Outcome State Fault Refusal :=
  .next (handleRequest p .queueStatus (actQueueStatus p) s)

end Sys2Proof.Machine
end

