-- ==== Sys2Proof/Machine/Dispatch.lean ====
section
/-! DEFINITION. The meaning of every command: one arm per constructor of Instr. -/
namespace Sys2Proof.Machine

def exec (i : Instr) (s : State) : Host.Outcome State Fault Refusal :=
  match i with
  | .deviceReset straps => Sys2Proof.Machine.execDeviceReset straps s
  | .tick periods => Sys2Proof.Machine.execTick periods s
  | .requestFrame p t => Sys2Proof.Machine.execRequestFrame p t s
  | .responseRead p t => Sys2Proof.Machine.execResponseRead p t s
  | .join p => Sys2Proof.Machine.execJoin p s
  | .leave p => Sys2Proof.Machine.execLeave p s
  | .recover p => Sys2Proof.Machine.execRecover p s
  | .portStatus p => Sys2Proof.Machine.execPortStatus p s
  | .exchStatus p => Sys2Proof.Machine.execExchStatus p s
  | .setParam p => Sys2Proof.Machine.execSetParam p s
  | .getParam p => Sys2Proof.Machine.execGetParam p s
  | .declare p => Sys2Proof.Machine.execDeclare p s
  | .retire p => Sys2Proof.Machine.execRetire p s
  | .purge p => Sys2Proof.Machine.execPurge p s
  | .topicInfo p => Sys2Proof.Machine.execTopicInfo p s
  | .subscribe p => Sys2Proof.Machine.execSubscribe p s
  | .unsubscribe p => Sys2Proof.Machine.execUnsubscribe p s
  | .listSubs p => Sys2Proof.Machine.execListSubs p s
  | .openPost p => Sys2Proof.Machine.execOpenPost p s
  | .writePayload p => Sys2Proof.Machine.execWritePayload p s
  | .submit p => Sys2Proof.Machine.execSubmit p s
  | .abortPost p => Sys2Proof.Machine.execAbortPost p s
  | .slotStatus p => Sys2Proof.Machine.execSlotStatus p s
  | .releaseSlot p => Sys2Proof.Machine.execReleaseSlot p s
  | .setWindow p => Sys2Proof.Machine.execSetWindow p s
  | .readView p => Sys2Proof.Machine.execReadView p s
  | .consume p => Sys2Proof.Machine.execConsume p s
  | .queueStatus p => Sys2Proof.Machine.execQueueStatus p s
  | .fetch p => Sys2Proof.Machine.execFetch p s
  | .cancelFetch p => Sys2Proof.Machine.execCancelFetch p s
  | .readSolicits p => Sys2Proof.Machine.execReadSolicits p s
  | .setAttnMask p => Sys2Proof.Machine.execSetAttnMask p s
  | .attnStatus p => Sys2Proof.Machine.execAttnStatus p s
  | .take => Sys2Proof.Machine.execTake s
  | .freshnessExpiry t => Sys2Proof.Machine.execFreshnessExpiry t s
  | .deliveryDeadlineExpiry p k => Sys2Proof.Machine.execDeliveryDeadlineExpiry p k s
  | .fetchDeadlineExpiry id => Sys2Proof.Machine.execFetchDeadlineExpiry id s
  | .quarantineHoldExpiry p => Sys2Proof.Machine.execQuarantineHoldExpiry p s

end Sys2Proof.Machine
end

