-- ==== Sys2Proof/Safety.lean ====
section
/-! DEFINITION. What the claims speak of: a request that stands in progress, the bytes and bits of a frame on a link,
a port that holds nothing, and the laws of the manual that every command keeps. No meaning uses this file. -/
namespace Sys2Proof.Machine

/-! ## Requests -/

/-- The request with this name, tag and argument bytes stands in progress on the port, and the port has not been
quarantined since its take (R128, R138). -/
def InProgress (s : State) (p : Port) (c : RequestName) (tag : Byte) (args : List Byte) : Prop :=
  (s.port p).inProgress = some { name := c, tag := tag, arguments := args, cut := false }

/-- The command that handles a request on a port. -/
def commandOf (c : RequestName) (p : Port) : Instr :=
  match c with
  | .join => .join p | .leave => .leave p | .recover => .recover p | .portStatus => .portStatus p
  | .exchStatus => .exchStatus p | .setParam => .setParam p | .getParam => .getParam p
  | .declare => .declare p | .retire => .retire p | .purge => .purge p | .topicInfo => .topicInfo p
  | .subscribe => .subscribe p | .unsubscribe => .unsubscribe p | .listSubs => .listSubs p
  | .openPost => .openPost p | .writePayload => .writePayload p | .submit => .submit p | .abortPost => .abortPost p
  | .slotStatus => .slotStatus p | .releaseSlot => .releaseSlot p
  | .setWindow => .setWindow p | .readView => .readView p | .consume => .consume p | .queueStatus => .queueStatus p
  | .fetch => .fetch p | .cancelFetch => .cancelFetch p | .readSolicits => .readSolicits p
  | .setAttnMask => .setAttnMask p | .attnStatus => .attnStatus p

/-- The refusals of Table 7-1, row by row: what a request meets in each port state (R118). -/
def tableSevenOne (c : RequestName) (st : PortState) : Option Result :=
  match c with
  | .join =>
    match st with
    | .offline => none | .online => some .notOffline | .leaving => some .notOffline | .quarantined => some .quarantined
  | .recover =>
    match st with
    | .offline => some .notOffline | .online => some .notOffline | .leaving => some .notOffline | .quarantined => none
  | .portStatus => none
  | .exchStatus | .getParam | .setParam | .topicInfo | .setAttnMask | .attnStatus =>
    match st with
    | .offline => none | .online => none | .leaving => none | .quarantined => some .quarantined
  | .leave | .declare | .retire | .purge | .subscribe | .unsubscribe | .listSubs | .openPost | .writePayload | .submit
  | .fetch | .cancelFetch | .readSolicits =>
    match st with
    | .offline => some .notOnline | .online => none | .leaving => some .notOnline | .quarantined => some .quarantined
  | .abortPost | .slotStatus | .releaseSlot | .setWindow | .readView | .consume | .queueStatus =>
    match st with
    | .offline => some .notOnline | .online => none | .leaving => none | .quarantined => some .quarantined

/-! ## Frames on the link -/

/-- The bytes of a request frame with a correct CRC (R136). -/
def frameBytes (code tag : Byte) (args : List Byte) : List Byte :=
  code :: tag :: numByte args.length :: args ++ [crc8 (code :: tag :: numByte args.length :: args)]

/-- The bits of a run of bytes on a link, most significant bit of each byte first (R134). -/
def bitsOf (bytes : List Byte) : List Bool :=
  bytes.flatMap fun b =>
    [b.getLsbD 7, b.getLsbD 6, b.getLsbD 5, b.getLsbD 4, b.getLsbD 3, b.getLsbD 2, b.getLsbD 1, b.getLsbD 0]

/-- The verdict of checks 2 to 8 of R144 on all the bytes of a frame: the fault of the first check that applies, or
none. -/
def frameFault (bytes : List Byte) : Option FaultKind :=
  let n := (bytes.getD 2 0).toNat
  if bytes.length < 3 then some .short
  else if 72 < n then some .length
  else if bytes.length < n + 4 then some .short
  else if n + 4 < bytes.length then some .long
  else if bytes.getD (n + 3) 0 ≠ crc8 (bytes.take (n + 3)) then some .crc
  else
    match requestOf (bytes.getD 0 0) with
    | none => some .unknownCode
    | some c => if admitsLength c n then none else some .length

/-- The transaction carries a request frame of these bytes to the port: on I2C a write to its address, on SPI their bits and
fewer than eight more, with a first byte that opens no response read (R134, R135, R147). -/
def FrameEnds (s : State) (p : Port) (transaction : Transaction) (bytes : List Byte) : Prop :=
  bytes ≠ [] ∧
    if (s.port p).isI2c then transaction = .i2cWrite (s.port p).i2cAddress bytes
    else bytes.head? ≠ some 0xA0 ∧ ∃ extra : List Bool, extra.length < 8 ∧ transaction = .spi (bitsOf bytes ++ extra)

/-- What a port drives while a frame of `n` bytes comes in: acknowledgements on I2C, 0xFF on SPI (R134, R135). -/
def frameOutput (i2c : Bool) (n : Nat) : LinkOutput :=
  if i2c then { addressAcknowledged := true, bytesAcknowledged := n, driven := [] }
  else { addressAcknowledged := false, bytesAcknowledged := 0, driven := List.replicate n 0xFF }

/-- The transaction is a response read of `n` bytes at the port: on I2C a read from its address, on SPI the byte 0xA0 and `n`
bytes more, whatever they are, with fewer than eight bits behind them (R134, R135, R142). -/
def ReadEnds (s : State) (p : Port) (transaction : Transaction) (n : Nat) : Prop :=
  if (s.port p).isI2c then transaction = .i2cRead (s.port p).i2cAddress n
  else ∃ (mosi : List Byte) (extra : List Bool),
    mosi.length = n ∧ extra.length < 8 ∧ transaction = .spi (bitsOf (0xA0 :: mosi) ++ extra)

/-- What a port drives during a response read that presents these bytes: on SPI, 0xFF comes first, under the byte 0xA0
(R134). -/
def readOutput (i2c : Bool) (presented : List Byte) : LinkOutput :=
  if i2c then { addressAcknowledged := true, bytesAcknowledged := 0, driven := presented }
  else { addressAcknowledged := false, bytesAcknowledged := 0, driven := 0xFF :: presented }

/-- A frame of these bytes is a link fault on the port: a request is in progress there (BUSY), or the frame fails a check of
its own (R144). -/
def Faulted (s : State) (p : Port) (bytes : List Byte) : Prop :=
  (s.port p).inProgress.isSome ∨ (frameFault bytes).isSome

/-! ## Ports that hold nothing (R123) -/

/-- The port holds no subscription, no slot other than EMPTY, no delivery, no deferral entry, no waiting fetch, no
solicit and no produced topic, and has missed no notice. -/
structure HoldsNothing (s : State) (p : Port) : Prop where
  subscriptions : ∀ i, (s.subscription i).active = true → (s.subscription i).owner ≠ p
  slots : ∀ k, s.slot ⟨p, k⟩ = Slot.reset
  queue : (s.port p).queue = []
  deferral : (s.port p).deferral = []
  fetches : ∀ i f, s.fetch i = some f → f.requester ≠ p
  solicits : (s.port p).solicits = []
  topics : ∀ i, (s.topic i).state = .declared → (s.topic i).producer ≠ some p
  noticesMissed : (s.port p).noticesMissed = 0

/-! ## Frames of the events that reach several blocks -/

/-- What a port keeps when posts, answers, notices and slot reports pass through it: all of its record but its slots, its
queue, its deferral list, its notices-missed count and its solicit list. -/
def PortRecord.standing (r : PortRecord) : PortRecord :=
  { r with slots := Vector.replicate 4 Slot.reset, queue := [], deferral := [], noticesMissed := 0, solicits := [] }

/-- From `s` to `t`, outside the ports that `touched` names, the ports keep what `PortRecord.standing` says; and everywhere
no payload byte, no parameter, no count of the divider and no ready sequence changes. -/
structure KeepsStanding (touched : Port → Prop) (s t : State) : Prop where
  ports : ∀ q, ¬ touched q → (t.port q).standing = (s.port q).standing
  bytes : ∀ b, (t.buffer b).bytes = (s.buffer b).bytes
  params : t.params = s.params
  divider : t.divider = s.divider
  readySequence : t.readySequence = s.readySequence

/-! ## Deliveries that fetches and expiries bring -/

/-- An answer has been given to a port: the buffer of its value, when it carries one, has one reference more, and the
answer stands at the tail of the queue, or of the deferral list when the queue cannot take it (R71, R103). -/
def withAnswer (p : Port) (d : Delivery) (s : State) : State :=
  let s := match d.payload with
    | none => s
    | some v => s.modBuffer v.buffer fun x => { x with references := x.references + 1 }
  s.modPort p fun r =>
    if r.deferral = [] ∧ r.queue.length < 32 then { r with queue := r.queue ++ [d] }
    else { r with deferral := r.deferral ++ [.answer d] }

/-- What `k` equal answers, one after another, do to the record of a port: without a deferral list as many as fit stand at
the tail of its queue and the rest are answer entries; with one they all stand at the tail of that (R71). -/
def PortRecord.withAnswers (k : Nat) (d : Delivery) (r : PortRecord) : PortRecord :=
  if r.deferral = [] then
    { r with
      queue := r.queue ++ List.replicate (min k (32 - r.queue.length)) d
      deferral := List.replicate (k - (32 - r.queue.length)) (.answer d) }
  else { r with deferral := r.deferral ++ List.replicate k (.answer d) }

/-- What a stale notice does to the record of a port: it stands at the tail of the queue, or it is discarded and counted
(R72). -/
def PortRecord.withNotice (d : Delivery) (r : PortRecord) : PortRecord :=
  if r.deferral = [] ∧ r.queue.length < 32 then { r with queue := r.queue ++ [d] }
  else { r with noticesMissed := min 255 (r.noticesMissed + 1) }

/-- The number of fetches of a port that wait on a topic. -/
def waitingBy (s : State) (q : Port) (t : Word) : Nat :=
  (List.finRange 16).countP fun i => waitsOn t (s.fetch i) && requestedBy q (s.fetch i)

/-- From `s` to `u`, every fetch waiting on the topic has ended with the answer `d`, which stands in the queue or the
deferral list of its requester, once for each fetch (R71, R103). -/
def AnsweredAll (s u : State) (t : Word) (d : Delivery) : Prop :=
  (∀ i, u.fetch i = if waitsOn t (s.fetch i) then none else s.fetch i) ∧
  ∀ q, (u.port q).queue = ((s.port q).withAnswers (waitingBy s q t) d).queue ∧
    (u.port q).deferral = ((s.port q).withAnswers (waitingBy s q t) d).deferral

/-! ## The orphaning of a departing port's topics -/

/-- The port produces the topic: a DECLARED record carries the number and names the port. -/
abbrev Produces (s : State) (p : Port) (t : Word) : Prop :=
  ∃ i, (s.topic i).state = .declared ∧ (s.topic i).producer = some p ∧ (s.topic i).number = t

/-- These are the topics the port produces, in ascending order (R17). -/
def ProducedInOrder (s : State) (p : Port) (topics : List Word) : Prop :=
  topics.Pairwise (fun a b => a.toNat < b.toNat) ∧ ∀ t, t ∈ topics ↔ Produces s p t

/-- What the orphaning of one topic of port `p` brings to the record of another port `q`: a PRODUCER_GONE answer for each
of its fetches that waits on the topic, with the value the topic holds; then, for a topic with a value, the notice of its
governing entry, with the producer absent (R10, R18, R106, Table 6-2). -/
def orphaningReaches (s : State) (p q : Port) (r : PortRecord) (t : Word) : PortRecord :=
  match findTopic s t with
  | none => r
  | some i =>
    let value := (s.topic i).retained
    let r := r.withAnswers (waitingBy s q t)
      { kind := .answer .producerGone, topic := t, version := if value.isSome then (s.topic i).version else 0
        payload := value, producer := some p, isOpen := false }
    match value, governing s q fun e => e.matchesNotice t none with
    | some _, some j => r.withNotice
      { kind := .stale j, topic := t, version := (s.topic i).version, payload := none, producer := none, isOpen := false }
    | _, _ => r

/-- Whether a deferral entry stands for no slot of the port. -/
def DeferralEntry.isNotOf (p : Port) : DeferralEntry → Bool
  | .slot x _ _ => x.owner != p
  | .answer _ => true

/-- From `s` to `t`, port `p` has left ONLINE: its topics are orphaned in their order, the fetches it made and the fetches
that wait on its topics have ended, and so have the solicits that no fetch waits behind. The queue, the deferral list and
the notices-missed count of every other port are what the orphanings bring to it, but for a LEAVING port whose drain
ended; a deferral list keeps the entries that `kept` names (R17, R18, R106, R108, R120). -/
structure TopicsOrphaned (s t : State) (p : Port) (kept : DeferralEntry → Bool) : Prop where
  records : ∀ i, t.topic i =
    if (s.topic i).state = .declared ∧ (s.topic i).producer = some p then
      if (s.topic i).retained.isSome then
        { (s.topic i) with state := .orphaned, producer := none, freshness := .stopped, stale := true }
      else TopicRecord.reset
    else s.topic i
  fetches : ∀ j, t.fetch j = match s.fetch j with
    | none => none
    | some f => if f.requester = p ∨ Produces s p f.topic then none else some f
  solicits : ∀ q, q ≠ p → (t.port q).solicits =
    (s.port q).solicits.filter fun a => (List.finRange 16).any fun j => waitsOn a (t.fetch j)
  lists : ∀ topics, ProducedInOrder s p topics → ∀ q, q ≠ p →
    (s.port q).state ≠ .leaving ∨ (t.port q).state = .leaving →
    let r := topics.foldl (orphaningReaches s p q) (s.port q)
    (t.port q).queue = r.queue ∧ (t.port q).deferral = r.deferral.filter kept ∧
      (t.port q).noticesMissed = r.noticesMissed

/-! ## The laws -/

/-- Whether a value stands in the buffer. -/
def carries (b : BufferNo) : Option Payload → Bool
  | none => false
  | some v => v.buffer == b

/-- Whether a deferral entry is an answer whose value stands in the buffer. -/
def DeferralEntry.carries (b : BufferNo) : DeferralEntry → Bool
  | .answer d => Machine.carries b d.payload
  | .slot _ _ _ => false

/-- The number of holders of a buffer: slots, retained values, queued deliveries, and answer entries (R85). -/
def holders (s : State) (b : BufferNo) : Nat :=
  allSlots.countP (fun x => (s.slot x).buffer == some b) +
    (List.finRange 128).countP (fun i => carries b (s.topic i).retained) +
    (allPorts.map fun p => (s.port p).queue.countP (fun d => carries b d.payload) +
      (s.port p).deferral.countP (·.carries b)).sum

/-- Every buffer's reference count is the number of its holders, and neither an EMPTY slot nor a FREE record is a
holder (R85, R2, R38). -/
structure PoolLaw (s : State) : Prop where
  references : ∀ b, (s.buffer b).references = holders s b
  emptySlots : ∀ x, (s.slot x).state = .empty → (s.slot x).buffer = none
  freeRecords : ∀ i, (s.topic i).state = .free → (s.topic i).retained = none

/-- A slot's fields are those its state carries (Table 3-2). -/
def Slot.fitsState (k : Slot) : Prop :=
  match k.state with
  | .empty => k = Slot.reset
  | .loading =>
    k.buffer.isSome ∧ k.readySequence = 0 ∧ k.version = none ∧ k.pending = PortSet.none ∧ k.reached = PortSet.none ∧
      k.unreached = PortSet.none ∧ k.status = none ∧ k.deadline = .stopped
  | .ready =>
    k.buffer.isSome ∧ k.version = none ∧ k.pending = PortSet.none ∧ k.reached = PortSet.none ∧
      k.unreached = PortSet.none ∧ k.status = none ∧ k.deadline = .stopped
  | .deferred =>
    k.buffer.isSome ∧ k.version.isSome ∧ k.pending ≠ PortSet.none ∧ k.status = none ∧ k.deadline ≠ .stopped
  | .done => k.buffer = none ∧ k.pending = PortSet.none ∧ k.status.isSome ∧ k.deadline = .stopped

/-- The law of the pending sets (R46), with the fields of each slot state (Table 3-2): a port has one deferral entry for
a slot when it is in the slot's pending set and none when it is not, and the set is non-empty exactly while the slot is
DEFERRED. -/
structure SlotLaw (s : State) : Prop where
  fields : ∀ x, (s.slot x).fitsState
  entries : ∀ x p, (s.port p).deferral.countP (·.standsFor x) = if (s.slot x).pending.has p then 1 else 0

/-- The law of the queues (R62, R65) and of the open mark (R63): at most 32 deliveries, exactly 32 behind a deferral
list that is not empty, no delivery open but the head, and a count of missed notices up to 255 (R72). -/
structure QueueLaw (s : State) : Prop where
  depth : ∀ p, (s.port p).queue.length ≤ 32
  full : ∀ p, (s.port p).deferral ≠ [] → (s.port p).queue.length = 32
  headOpen : ∀ p, ∀ d ∈ (s.port p).queue.tail, d.isOpen = false
  answersClosed : ∀ p d, DeferralEntry.answer d ∈ (s.port p).deferral → d.isOpen = false
  noticesMissed : ∀ p, (s.port p).noticesMissed ≤ 255

/-- The law of the views (R151): the window lies in 0 to 71, the cursor in the window, and the cursor stands at the
window start unless the head is open. -/
structure ViewLaw (s : State) : Prop where
  windowEnd : ∀ p, (s.port p).view.stop ≤ 71
  window : ∀ p, (s.port p).view.start ≤ (s.port p).view.stop
  cursorLow : ∀ p, (s.port p).view.start ≤ (s.port p).view.cursor
  cursorHigh : ∀ p, (s.port p).view.cursor ≤ (s.port p).view.stop
  home : ∀ p, (∀ d ∈ (s.port p).queue.head?, d.isOpen = false) → (s.port p).view.cursor = (s.port p).view.start

/-- The law of the exchange state (R130): RUNNING exactly while some port is ONLINE or LEAVING. -/
def ExchangeLaw (s : State) : Prop :=
  s.exchange = .running ↔ ∃ p, (s.port p).state = .online ∨ (s.port p).state = .leaving

/-- The law of the hold timers (R117): STOPPED exactly while the port is not QUARANTINED. -/
def HoldLaw (s : State) : Prop := ∀ p, (s.port p).hold = .stopped ↔ (s.port p).state ≠ .quarantined

/-- The law of the dispatcher (R42, R43): it keeps the order of the READY slots, each of them once, and no other
slot. -/
structure DispatcherLaw (s : State) : Prop where
  once : s.readyOrder.Nodup
  ready : ∀ x, x ∈ s.readyOrder ↔ (s.slot x).state = .ready

/-- Whether a response is whole: its CRC is that of its tag, result, body length and body, and its body is at most 64
bytes long (R137, R139). -/
def Response.whole (r : Response) : Prop :=
  r.crc = crc8 (r.tag :: r.result.code :: numByte r.body.length :: r.body) ∧ r.body.length ≤ 64

/-- The law of the host ports (R124, R139 to R141, R147, R149), with the quota that bounds the longest list body (R25):
the receiver idles between commands, the score lies in 0 to 255, the buffer is NOT_READY exactly while a request is in
progress, such a request has a length it admits, and a written response is whole. -/
structure LinkLaw (s : State) : Prop where
  receiver : ∀ p, (s.port p).receiver = Receiver.idle
  score : ∀ p, (s.port p).score ≤ 255
  notReady : ∀ p, (s.port p).inProgress.isSome ↔ (s.port p).response = .notReady
  length : ∀ p q, (s.port p).inProgress = some q → admitsLength q.name q.arguments.length = true
  ready : ∀ p r, (s.port p).response = .ready r → r.whole
  repeated : ∀ p r, (s.port p).response = .repeated r → r.whole
  quota : ∀ p, ownedSubscriptions s p ≤ 24

/-- The law of the fetch obligations (R97): at most four a port. -/
def ObligationLaw (s : State) : Prop := ∀ p, obligations s p ≤ 4

/-- The law of the parameters (R164, Table 10-1): each lies in its range. -/
structure ParameterLaw (s : State) : Prop where
  fetchDeadline : 1 ≤ s.params.fetchDeadline ∧ s.params.fetchDeadline ≤ 1000
  deliveryDeadline : 1 ≤ s.params.deliveryDeadline ∧ s.params.deliveryDeadline ≤ 1000
  quarThreshold : 32 ≤ s.params.quarThreshold ∧ s.params.quarThreshold ≤ 255
  quarHold : 10 ≤ s.params.quarHold ∧ s.params.quarHold ≤ 10000
  tickDiv : 1000 ≤ s.params.tickDiv ∧ s.params.tickDiv ≤ 50000
  divider : s.divider < s.params.tickDiv

/-- A topic record's fields are those its state carries (Tables 1-1 and 1-2, R8); `waiting` says whether a fetch waits on
its topic. -/
def TopicRecord.fitsState (r : TopicRecord) (waiting : Prop) : Prop :=
  match r.state with
  | .free => r = TopicRecord.reset
  | .orphaned =>
    r.producer = none ∧ r.kind = .state ∧ r.retained.isSome ∧ r.stale = true ∧ r.freshness = .stopped ∧ ¬ waiting
  | .declared =>
    r.producer.isSome ∧
      match r.kind, r.retained, r.stale with
      | .event, v, stale => v = none ∧ stale = false ∧ r.freshness = .stopped ∧ r.limit = 0
      | .state, none, stale => stale = false ∧ r.freshness = .stopped
      | .state, some _, false => (r.freshness = .stopped ↔ r.limit = 0) ∧ ¬ waiting
      | .state, some _, true => r.freshness = .stopped

/-- The law of the directory (R1, R2), of the posts that wait for it (R7), of the waiting fetches (R97) and of the solicit
lists (R109). -/
structure DirectoryLaw (s : State) : Prop where
  unique : ∀ i j, (s.topic i).state ≠ .free → (s.topic j).state ≠ .free →
    (s.topic i).number = (s.topic j).number → i = j
  numbers : ∀ i, (s.topic i).state ≠ .free → isTopicNumber (s.topic i).number = true
  fields : ∀ i, (s.topic i).fitsState (∃ j f, s.fetch j = some f ∧ f.topic = (s.topic i).number)
  producers : ∀ i p, (s.topic i).state = .declared → (s.topic i).producer = some p → (s.port p).state = .online
  posts : ∀ x, (s.slot x).state = .loading ∨ (s.slot x).state = .ready →
    ∃ i, (s.topic i).state = .declared ∧ (s.topic i).number = (s.slot x).topic ∧ (s.topic i).producer = some x.owner
  fetches : ∀ j f, s.fetch j = some f →
    (s.port f.requester).state = .online ∧ f.deadline ≠ .stopped ∧
      ∃ i, (s.topic i).state = .declared ∧ (s.topic i).number = f.topic
  solicitsOnce : ∀ p, (s.port p).solicits.Nodup
  solicits : ∀ p t, t ∈ (s.port p).solicits →
    (∃ i, (s.topic i).state = .declared ∧ (s.topic i).number = t ∧ (s.topic i).producer = some p) ∧
      ∃ j f, s.fetch j = some f ∧ f.topic = t

/-- The law of the sessions (R35, R121, R123): an OFFLINE or QUARANTINED port holds nothing; a LEAVING port owns no
subscription and holds a DEFERRED slot. -/
structure SessionLaw (s : State) : Prop where
  closed : ∀ p, (s.port p).state = .offline ∨ (s.port p).state = .quarantined → HoldsNothing s p
  leavingSubscriptions : ∀ p, (s.port p).state = .leaving →
    ∀ i, (s.subscription i).active = true → (s.subscription i).owner ≠ p
  draining : ∀ p, (s.port p).state = .leaving → ∃ k, (s.slot ⟨p, k⟩).state = .deferred

/-- Every law that the sessions rest on. -/
structure SessionsLawful (s : State) : Prop where
  slots : SlotLaw s
  queues : QueueLaw s
  directory : DirectoryLaw s
  sessions : SessionLaw s

end Sys2Proof.Machine
end

