-- ==== Sys2Proof/Certificates/Slice0/Obligations.lean ====
section
/-! DEFINITION. The statements for the provers: what each command does, and the laws that every step keeps. -/

open Sys2Proof Sys2Proof.Machine

/-! ## Steps -/

/-- The step of a state with a command at the front of its queue is the command's meaning on the state with the rest.
The queue of commands is the model's own (notes/assumptions/7.md and 11.md). -/
def Obligations.StepRunsFrontCommand : Prop :=
  ∀ (c : Instr) (s : State), step { s with pending := c :: s.pending } = exec c s

/-- Every command completes in every state, and leaves the commands that wait as they are.
What a command does where its event cannot occur is the model's choice (notes/assumptions/3.md, 4.md and 15.md). -/
def Obligations.EveryCommandCompletes : Prop :=
  ∀ (c : Instr) (s : State), ∃ t, exec c s = .next t ∧ t.pending = s.pending

/-! ## Device reset and the timebase -/

/-- The values the reset rules give, in the state after reset (R4, R24, R38, R66, R86, R98, R117, R130, R141, R151, R160,
R164). -/
def Obligations.ResetHoldsTheSpecsValues : Prop :=
  (∀ i, State.reset.topic i =
    { number := 0, state := .free, kind := .state, producer := none, retained := none, version := 0, limit := 0,
      freshness := .stopped, stale := false }) ∧
  (∀ i, State.reset.subscription i =
    { active := false, owner := 0, pattern := 0, mask := 0, latest := false, staleNotice := false, self := false }) ∧
  (∀ x, State.reset.slot x =
    { state := .empty, topic := 0, priority := 0, buffer := none, length := 0, readySequence := 0, version := none,
      pending := #v[false, false, false, false], reached := #v[false, false, false, false],
      unreached := #v[false, false, false, false], status := none, deadline := .stopped }) ∧
  (∀ b, (State.reset.buffer b).references = 0) ∧ freeBuffers State.reset = 256 ∧
  (∀ i, State.reset.fetch i = none) ∧
  (∀ p, let r := State.reset.port p
    r.state = .offline ∧ r.hold = .stopped ∧ r.score = 0 ∧ r.lastFault = none ∧ r.response = .empty ∧
    r.inProgress = none ∧ r.receiver = Receiver.idle ∧ r.queue = [] ∧ r.deferral = [] ∧ r.noticesMissed = 0 ∧
    r.solicits = [] ∧ r.view = { start := 0, stop := 71, mode := .hold, cursor := 0 } ∧ r.mask = 0) ∧
  State.reset.exchange = .setup ∧
  State.reset.params =
    { fetchDeadline := 20, deliveryDeadline := 50, quarThreshold := 128, quarHold := 250, tickDiv := 16000 } ∧
  State.reset.readySequence = 0 ∧ State.reset.divider = 0

/-- DEVICE_RESET brings every block from any state to its reset values, and samples the straps: link type and I2C
address (R133).
That the waiting commands stay, and that the reset is one whole event, is the model's choice (notes/assumptions/8.md), as are
the bytes of a buffer after it (notes/assumptions/2.md). -/
def Obligations.DeviceResetRestoresEveryBlock : Prop :=
  ∀ (straps : Vector Strap 4) (s : State),
    exec (.deviceReset straps) s = .next
      { State.reset with
        ports := Vector.ofFn fun p : Port => { (State.reset.port p) with strap := straps[p.val] }
        pending := s.pending } ∧
    ∀ t, exec (.deviceReset straps) s = .next t → ∀ p : Port,
      (t.port p).isI2c = straps[p.val].pselHigh ∧
      (t.port p).i2cAddress = (if straps[p.val].a0High then 0x39 else 0x38)

/-- TICK: the divider counts the periods, and every timer that runs counts one for each TICK_DIV of them; nothing else
changes (R162, R163).
That one TICK carries several periods, and that a timer that is due stays so until its expiry is handled, is the model's
choice (notes/assumptions/13.md and 3.md). -/
def Obligations.TickCountsEveryTimer : Prop :=
  ∀ (n : Nat) (s : State), ∃ t, exec (.tick n) s = .next t ∧
    t.divider = (s.divider + n) % s.params.tickDiv ∧
    (let k := (s.divider + n) / s.params.tickDiv
     let after : Timer → Timer := fun x => match x with
       | .stopped => .stopped
       | .running left => .running (left - k)
     (∀ i, t.topic i = { (s.topic i) with freshness := after (s.topic i).freshness }) ∧
     (∀ x, t.slot x = { (s.slot x) with deadline := after (s.slot x).deadline }) ∧
     (∀ i, t.fetch i = (s.fetch i).map fun f => { f with deadline := after f.deadline }) ∧
     (∀ p, t.port p = { (s.port p) with
       slots := (t.port p).slots
       hold := match (s.port p).hold with
         | .stopped => .stopped
         | .running left => .running (left - k)
         | .expired => .expired })) ∧
    t.subscriptions = s.subscriptions ∧ t.pool = s.pool ∧ t.exchange = s.exchange ∧ t.params = s.params ∧
    t.readySequence = s.readySequence ∧ t.readyOrder = s.readyOrder ∧ t.pending = s.pending

/-- A timer started at `v` is due at the `v`th tick and not before: after `k` ticks it has `v - k` to come (R163).
That a due timer stands at 0 until its expiry is handled is the model's choice (notes/assumptions/3.md). -/
def Obligations.TimerIsDueAtItsTick : Prop :=
  ∀ (k : Nat) (s : State), 0 < s.params.tickDiv → s.divider < s.params.tickDiv →
    s.pending = List.replicate k (.tick s.params.tickDiv) →
    ∃ t : State, Host.Core.run Sys2Proof.core k s = .next t ∧ t.divider = s.divider ∧
      (∀ i v, (s.topic i).freshness = .running v → (t.topic i).freshness = .running (v - k)) ∧
      (∀ x v, (s.slot x).deadline = .running v → (t.slot x).deadline = .running (v - k)) ∧
      (∀ i f v, s.fetch i = some f → f.deadline = .running v →
        t.fetch i = some { f with deadline := .running (v - k) }) ∧
      (∀ p v, (s.port p).hold = .running v → (t.port p).hold = .running (v - k))

/-! ## Frames -/

/-- A well-formed frame that ends with no request in progress is taken, on either link type: the score falls by 1, the
request is in progress, the buffer is NOT_READY; on I2C the frame is acknowledged, on SPI the port drives 0xFF (R134,
R135, R138, R144). A frame is well formed by the request codes of Table 11-3 and the argument lengths of Table 8-1.
The field `output`, what the port drove, and the receiver idle between commands are the model's own (notes/assumptions/6.md
and 9.md). -/
def Obligations.WellFormedFrameIsTaken : Prop :=
  (∀ (code : Byte) (c : RequestName), requestOf code = some c ↔ (code, c) ∈ ([
    (0x01, .join), (0x02, .leave), (0x03, .recover), (0x04, .portStatus), (0x08, .exchStatus), (0x09, .setParam),
    (0x0A, .getParam), (0x10, .declare), (0x11, .retire), (0x12, .purge), (0x13, .topicInfo), (0x18, .subscribe),
    (0x19, .unsubscribe), (0x1A, .listSubs), (0x20, .openPost), (0x21, .writePayload), (0x22, .submit),
    (0x23, .abortPost), (0x24, .slotStatus), (0x25, .releaseSlot), (0x28, .setWindow), (0x29, .readView),
    (0x2A, .consume), (0x2B, .queueStatus), (0x30, .fetch), (0x31, .cancelFetch), (0x32, .readSolicits),
    (0x38, .setAttnMask), (0x39, .attnStatus)] : List (Byte × RequestName))) ∧
  (∀ (c : RequestName) (n : Nat), admitsLength c n = true ↔ match c with
    | .join => n = 0 | .leave => n = 0 | .recover => n = 0 | .portStatus => n = 0 | .exchStatus => n = 0
    | .setParam => n = 3 | .getParam => n = 1 | .declare => n = 5 | .retire => n = 2 | .purge => n = 2
    | .topicInfo => n = 2 | .subscribe => n = 5 | .unsubscribe => n = 1 | .listSubs => n = 0 | .openPost => n = 4
    | .writePayload => 3 ≤ n ∧ n ≤ 66 | .submit => n = 1 | .abortPost => n = 1 | .slotStatus => n = 1
    | .releaseSlot => n = 1 | .setWindow => n = 3 | .readView => n = 1 | .consume => n = 0 | .queueStatus => n = 0
    | .fetch => n = 4 | .cancelFetch => n = 1 | .readSolicits => n = 0 | .setAttnMask => n = 1 | .attnStatus => n = 0) ∧
  ∀ (p : Port) (s : State) (transaction : Transaction) (code tag : Byte) (c : RequestName) (args : List Byte),
    FrameEnds s p transaction (frameBytes code tag args) → requestOf code = some c →
    admitsLength c args.length = true → (s.port p).inProgress = none →
    exec (.requestFrame p transaction) s = .next (s.modPort p fun r =>
      { r with
        score := r.score - 1
        inProgress := some { name := c, tag := tag, arguments := args, cut := false }
        response := .notReady
        receiver := Receiver.idle
        output := frameOutput r.isI2c (args.length + 4) })

/-- The first check of R144 that a frame fails names its fault, on either link type: the LINK_FAULT response with the tag
received, the last fault kind and the raised score (R144, R145, R124). The fault kinds have the codes of Table 11-1.
The field `output`, what the port drove, and the receiver idle between commands are the model's own (notes/assumptions/6.md
and 9.md). -/
def Obligations.FirstFailedCheckNamesTheFault : Prop :=
  ([.crc, .length, .unknownCode, .short, .long, .busy] : List FaultKind).map FaultKind.code =
    [0x01, 0x02, 0x03, 0x04, 0x05, 0x06] ∧
  ∀ (p : Port) (s : State) (transaction : Transaction) (bytes : List Byte) (kind : FaultKind),
    FrameEnds s p transaction bytes → (s.port p).inProgress = none → frameFault bytes = some kind →
    ∃ t, exec (.requestFrame p transaction) s = .next t ∧
      (t.port p).response = .ready (mkResponse (bytes.getD 1 0) .linkFault [kind.code]) ∧
      (t.port p).lastFault = some kind ∧ (t.port p).score = min 255 ((s.port p).score + 16) ∧
      (t.port p).inProgress = none ∧ (t.port p).receiver = Receiver.idle ∧
      (t.port p).output = frameOutput (s.port p).isI2c bytes.length

/-- The link faults that end no session. A fault that leaves the score of a port below the threshold changes nothing but
the port's response, fault record and score; a BUSY fault, whatever its bytes, leaves the request in progress and the
response buffer alone as well; a fault on a QUARANTINED port starts its hold again and enters no second quarantine (R124,
R125, R129, R145, R146).
The field `output`, what the port drove, and the receiver idle between commands are the model's own (notes/assumptions/6.md
and 9.md). -/
def Obligations.FaultsThatEndNoSession : Prop :=
  ∀ (p : Port) (s : State) (transaction : Transaction) (bytes : List Byte), FrameEnds s p transaction bytes →
    (∀ kind, (s.port p).inProgress = none → frameFault bytes = some kind → (s.port p).state ≠ .quarantined →
      min 255 ((s.port p).score + 16) < s.params.quarThreshold →
      exec (.requestFrame p transaction) s = .next (s.modPort p fun r =>
        { r with
          response := .ready (mkResponse (bytes.getD 1 0) .linkFault [kind.code])
          lastFault := some kind
          score := min 255 (r.score + 16)
          receiver := Receiver.idle
          output := frameOutput r.isI2c bytes.length })) ∧
    (∀ q, (s.port p).inProgress = some q → (s.port p).state ≠ .quarantined →
      min 255 ((s.port p).score + 16) < s.params.quarThreshold →
      exec (.requestFrame p transaction) s = .next (s.modPort p fun r =>
        { r with
          lastFault := some .busy
          score := min 255 (r.score + 16)
          receiver := Receiver.idle
          output := frameOutput r.isI2c bytes.length })) ∧
    (∀ kind, (s.port p).inProgress = none → frameFault bytes = some kind → (s.port p).state = .quarantined →
      exec (.requestFrame p transaction) s = .next (s.modPort p fun r =>
        { r with
          hold := .running s.params.quarHold
          response := .ready (mkResponse (bytes.getD 1 0) .linkFault [kind.code])
          lastFault := some kind
          score := min 255 (r.score + 16)
          receiver := Receiver.idle
          output := frameOutput r.isI2c bytes.length })) ∧
    (∀ q, (s.port p).inProgress = some q → (s.port p).state = .quarantined →
      exec (.requestFrame p transaction) s = .next (s.modPort p fun r =>
        { r with
          hold := .running s.params.quarHold
          lastFault := some .busy
          score := min 255 (r.score + 16)
          receiver := Receiver.idle
          output := frameOutput r.isI2c bytes.length }))

/-- A quarantine entered while the port is OFFLINE makes it QUARANTINED and starts the hold, and does nothing else beside
what the fault itself does; a request in progress, whose fault is BUSY, is cut (R126, with R128).
The field `output`, what the port drove, and the receiver idle between commands are the model's own (notes/assumptions/6.md
and 9.md). -/
def Obligations.QuarantineFromOfflineClearsNothing : Prop :=
  ∀ (p : Port) (s : State) (transaction : Transaction) (bytes : List Byte), FrameEnds s p transaction bytes →
    Faulted s p bytes → (s.port p).state = .offline → s.params.quarThreshold ≤ min 255 ((s.port p).score + 16) →
    ∃ t, exec (.requestFrame p transaction) s = .next t ∧ t.exchange = s.exchange ∧
      (t.port p).attnQuarantine = true ∧
      t = s.modPort p fun r =>
        { r with
          state := .quarantined
          hold := .running s.params.quarHold
          inProgress := r.inProgress.map fun q => { q with cut := true }
          response := match r.inProgress, frameFault bytes with
            | none, some kind => .ready (mkResponse (bytes.getD 1 0) .linkFault [kind.code])
            | _, _ => r.response
          lastFault := if r.inProgress.isSome then some .busy else frameFault bytes
          score := min 255 (r.score + 16)
          receiver := Receiver.idle
          output := frameOutput r.isI2c bytes.length }

/-- A quarantine entered while the port is ONLINE or LEAVING ends its session without a drain: the port is QUARANTINED with
its hold started, holds nothing any more, and keeps its score, its mask and its window. Its topics are orphaned, and the
other ports have the answers and the notices of that; its posts leave their deferral lists unserved. No other port loses a
subscription, and a port that is not LEAVING keeps its session and its view (R10, R18, R56, R106, R123, R127).
The order of the reports of one event is the model's (notes/assumptions/10.md); nothing said here depends on it. -/
def Obligations.QuarantineEndsTheSession : Prop :=
  ∀ (p : Port) (s : State) (transaction : Transaction) (bytes : List Byte), SessionsLawful s →
    FrameEnds s p transaction bytes → Faulted s p bytes → (s.port p).state = .online ∨ (s.port p).state = .leaving →
    s.params.quarThreshold ≤ min 255 ((s.port p).score + 16) →
    ∃ t, exec (.requestFrame p transaction) s = .next t ∧
      (t.port p).state = .quarantined ∧ (t.port p).hold = .running s.params.quarHold ∧ HoldsNothing t p ∧
      (t.port p).score = min 255 ((s.port p).score + 16) ∧ (t.port p).mask = (s.port p).mask ∧
      (t.port p).view = { (s.port p).view with cursor := (s.port p).view.start } ∧
      (∀ i, t.subscription i =
        if (s.subscription i).active = true ∧ (s.subscription i).owner = p then Subscription.reset
        else s.subscription i) ∧
      TopicsOrphaned s t p (·.isNotOf p) ∧ KeepsStanding (fun q => q = p ∨ (s.port q).state = .leaving) s t

/-- A BUSY fault that quarantines the port cuts the request in progress: the request stays in progress, and it completes
with QUARANTINED and does not act (R128). -/
def Obligations.QuarantineCutsTheRequest : Prop :=
  ∀ (p : Port) (s : State) (transaction : Transaction) (bytes : List Byte) (q : Request),
    FrameEnds s p transaction bytes → (s.port p).inProgress = some q → (s.port p).state ≠ .quarantined →
    s.params.quarThreshold ≤ min 255 ((s.port p).score + 16) →
    ∃ t, exec (.requestFrame p transaction) s = .next t ∧
      (t.port p).inProgress = some { q with cut := true } ∧ (t.port p).response = (s.port p).response ∧
      (t.port p).state = .quarantined ∧ (t.port p).lastFault = some .busy ∧
      exec (commandOf q.name p) t = .next (complete p q.tag .quarantined [] t)

/-! ## Responses -/

/-- Completion writes the response with its CRC, marks it READY and ends the request; on either link type, a read of all
its bytes presents it and leaves REPEAT, and a shorter read leaves it READY (R134, R135, R139, R141, R142). The results
have the codes of Table 11-4.
The field `output`, what the port drove, is the model's own (notes/assumptions/6.md). -/
def Obligations.CompletedResponseReadsBack : Prop :=
  ([.ok, .linkFault, .notOnline, .notOffline, .quarantined, .holding, .exchangeRunning, .badArgument, .noTopic,
    .topicOwned, .kindMismatch, .directoryFull, .notProducer, .topicBusy, .notOrphaned, .subFull, .subQuota, .notOwner,
    .slotBusy, .slotState, .noBuffer, .tooLate, .queueEmpty, .fetchFull, .fetchLimit, .noFetch] : List Result).map
      Result.code =
    [0x00, 0x01, 0x02, 0x03, 0x04, 0x05, 0x06, 0x07, 0x08, 0x09, 0x0A, 0x0B, 0x0C, 0x0D, 0x0E, 0x0F, 0x10, 0x11, 0x12,
     0x13, 0x14, 0x15, 0x16, 0x17, 0x18, 0x19] ∧
  ∀ (p : Port) (s : State) (tag : Byte) (result : Result) (body : List Byte),
    let t := complete p tag result body s
    let covered := tag :: result.code :: numByte body.length :: body
    let response : Response := { tag := tag, result := result, body := body, crc := crc8 covered }
    let stream := 0x5A :: covered ++ [crc8 covered]
    t = s.modPort p (fun r => { r with inProgress := none, response := .ready response }) ∧
    ∀ (n : Nat) (transaction : Transaction), ReadEnds t p transaction n →
      (n < body.length + 5 →
        exec (.responseRead p transaction) t = .next (t.modPort p fun r =>
          { r with output := readOutput r.isI2c (stream.take n) })) ∧
      (body.length + 5 ≤ n →
        exec (.responseRead p transaction) t = .next (t.modPort p fun r =>
          { r with
            response := .repeated response
            output := readOutput r.isI2c (stream ++ List.replicate (n - (body.length + 5)) 0xFF) }))

/-- A response read of an EMPTY, NOT_READY or REPEAT buffer, on either link type, presents the marker and what follows it,
and changes nothing else; on SPI the port drives 0xFF under the byte 0xA0 (R134, R135, R142).
The field `output`, what the port drove, is the model's own (notes/assumptions/6.md). -/
def Obligations.ReadsThatChangeNothing : Prop :=
  ∀ (p : Port) (s : State) (n : Nat) (stream : List Byte) (transaction : Transaction), ReadEnds s p transaction n →
    ((s.port p).response = .empty ∧ stream = [0x01]) ∨ ((s.port p).response = .notReady ∧ stream = [0x00]) ∨
      (∃ r, (s.port p).response = .repeated r ∧
        stream = 0x5B :: r.tag :: r.result.code :: numByte r.body.length :: r.body ++ [r.crc]) →
    exec (.responseRead p transaction) s = .next (s.modPort p fun r =>
      { r with output := readOutput r.isI2c (stream.take n ++ List.replicate (n - stream.length) 0xFF) })

/-- The CRC of R137 is the remainder of the bits in the order they are sent by the generator polynomial, taken one bit at a
time from 0xFF; and a change of one covered byte always changes it (R137). -/
def Obligations.CrcIsTheRemainderOfTheBits : Prop :=
  (∀ bytes : List Byte, crc8 bytes = (bitsOf bytes).foldl (fun (r : Byte) (b : Bool) =>
    if r.msb != b then (r <<< 1) ^^^ 0x07 else r <<< 1) 0xFF) ∧
  (∀ (before after : List Byte) (a b : Byte), a ≠ b → crc8 (before ++ a :: after) ≠ crc8 (before ++ b :: after))

/-! ## What every request meets -/

/-- A request that does not suit the state of its port is refused as Table 7-1 gives, and changes nothing but the
response (R118). -/
def Obligations.PortStateRefusesByTable : Prop :=
  ∀ (c : RequestName) (p : Port) (tag : Byte) (args : List Byte) (s : State) (e : Result),
    InProgress s p c tag args → tableSevenOne c (s.port p).state = some e →
    exec (commandOf c p) s = .next (complete p tag e [] s)

/-! ## Sessions and the exchange -/

/-- JOIN on an OFFLINE port, and RECOVER on a QUARANTINED one (R119, R129). -/
def Obligations.JoinAndRecover : Prop :=
  ∀ (p : Port) (tag : Byte) (s : State),
    (InProgress s p .join tag [] → (s.port p).state = .offline →
      exec (.join p) s = .next (complete p tag .ok []
        { s.modPort p (fun r => { r with state := .online }) with exchange := .running })) ∧
    (InProgress s p .recover tag [] → (s.port p).state = .quarantined →
      ((s.port p).hold = .expired → exec (.recover p) s = .next (complete p tag .ok []
        (s.modPort p fun r => { r with state := .offline, score := 0, hold := .stopped }))) ∧
      ((s.port p).hold ≠ .expired → exec (.recover p) s = .next (complete p tag .holding [] s)))

/-- LEAVE. Without a DEFERRED slot the port is torn down and OFFLINE within the event, with score 0, and holds nothing; when
no port is LEAVING, a post of another port deferred there has it unreached, and is DONE and PARTIAL when it was the last.
With DEFERRED slots it is LEAVING; its subscriptions, waiting fetches and solicits are gone, its LOADING slots EMPTY and
its READY slots WITHDRAWN, and its DEFERRED and DONE slots, its queue, its deferral list and its view stand (R49, R54,
R120, R122, R123).
The order of the reports of one event is the model's (notes/assumptions/10.md); nothing said here depends on it. -/
def Obligations.LeaveEndsOrDrainsTheSession : Prop :=
  ∀ (p : Port) (tag : Byte) (s : State), SessionsLawful s → InProgress s p .leave tag [] →
    (s.port p).state = .online →
    ((∀ k, (s.slot ⟨p, k⟩).state ≠ .deferred) →
      ∃ t, exec (.leave p) s = .next t ∧ (t.port p).response = .ready (mkResponse tag .ok [0x00, 0x00]) ∧
        (t.port p).inProgress = none ∧ (t.port p).state = .offline ∧ (t.port p).score = 0 ∧ HoldsNothing t p ∧
        (t.port p).mask = (s.port p).mask ∧ (t.port p).lastFault = (s.port p).lastFault ∧
        (t.port p).view = { (s.port p).view with cursor := (s.port p).view.start } ∧
        ((∀ q, (s.port q).state ≠ .leaving) → ∀ x, x.owner ≠ p → t.slot x =
          let k := s.slot x
          if k.pending.has p then
            if k.pending.erase p = PortSet.none then
              { k with state := .done, buffer := none, pending := PortSet.none, unreached := k.unreached.insert p
                       status := some .partially, deadline := .stopped }
            else { k with pending := k.pending.erase p, unreached := k.unreached.insert p }
          else k) ∧
        KeepsStanding (fun q => q = p ∨ (s.port q).state = .leaving) s t) ∧
    ((∃ k, (s.slot ⟨p, k⟩).state = .deferred) →
      ∃ t, exec (.leave p) s = .next t ∧
        (t.port p).response = .ready (mkResponse tag .ok [0x02, numByte (deferredSlots s p)]) ∧
        (t.port p).inProgress = none ∧ (t.port p).state = .leaving ∧
        (∀ i, (t.subscription i).active = true → (t.subscription i).owner ≠ p) ∧
        (∀ i f, t.fetch i = some f → f.requester ≠ p) ∧ (t.port p).solicits = [] ∧
        (∀ k, t.slot ⟨p, k⟩ = match (s.slot ⟨p, k⟩).state with
          | .loading => Slot.reset
          | .ready => { (s.slot ⟨p, k⟩) with state := .done, buffer := none, status := some .withdrawn }
          | .empty | .deferred | .done => s.slot ⟨p, k⟩) ∧
        (t.port p).queue = (s.port p).queue ∧ (t.port p).deferral = (s.port p).deferral ∧
        (t.port p).view = (s.port p).view ∧ KeepsStanding (fun q => q = p) s t)

/-- The topics of a departing port: each with a value becomes ORPHANED and stale and keeps value, version, kind and limit,
each without becomes FREE, and no record of another port changes. Every fetch that waits on one of them is answered
PRODUCER_GONE, with the value and version the topic holds and the departing producer; every other port with a governing
entry for a topic with a value has its notice, with the producer absent, behind the answers of that topic; and the topics
come in ascending order. A LEAVING port whose drain ends in the event has lost its lists to its teardown (R10, R17, R18,
R106, R108). -/
def Obligations.LeaveOrphansTheTopics : Prop :=
  ∀ (p : Port) (tag : Byte) (s : State), SessionsLawful s → InProgress s p .leave tag [] →
    (s.port p).state = .online →
    ∃ t, exec (.leave p) s = .next t ∧ TopicsOrphaned s t p fun _ => true

/-- The status requests, byte by byte as Table 11-6 gives. PORT_STATUS reports the port and then clears the notices-missed
count; EXCH_STATUS reports the exchange state and the counts of FREE records, FREE entries, free buffers and FREE fetch
entries; QUEUE_STATUS reports queue, list and view; TOPIC_INFO reports the record with its waiting fetch count, or refuses.
The last three change nothing (R20, R157, R166, R167). -/
def Obligations.StatusRequestsReport : Prop :=
  ∀ (p : Port) (tag : Byte) (s : State),
    (InProgress s p .portStatus tag [] →
      exec (.portStatus p) s = .next (complete p tag .ok
        [(match (s.port p).state with
           | .offline => 0x00 | .online => 0x01 | .leaving => 0x02 | .quarantined => 0x03),
         (match (s.port p).hold with | .stopped => 0x00 | .running _ => 0x01 | .expired => 0x02),
         numByte (s.port p).score,
         (match (s.port p).lastFault with
           | none => 0x00 | some .crc => 0x01 | some .length => 0x02 | some .unknownCode => 0x03 | some .short => 0x04
           | some .long => 0x05 | some .busy => 0x06),
         numByte (s.port p).noticesMissed, numByte (obligations s p)]
        (s.modPort p fun r => { r with noticesMissed := 0 }))) ∧
    (InProgress s p .exchStatus tag [] → (s.port p).state ≠ .quarantined →
      exec (.exchStatus p) s = .next (complete p tag .ok
        ([(match s.exchange with | .setup => 0x00 | .running => 0x01), numByte ((List.finRange 128).countP fun i => (s.topic i).state == .free),
          numByte ((List.finRange 64).countP fun i => !(s.subscription i).active)] ++
         wordBytes (BitVec.ofNat 16 ((List.finRange 256).countP fun b => (s.buffer b).references == 0)) ++
         [numByte ((List.finRange 16).countP fun i => (s.fetch i).isNone)]) s)) ∧
    (InProgress s p .queueStatus tag [] → (s.port p).state = .online ∨ (s.port p).state = .leaving →
      exec (.queueStatus p) s = .next (complete p tag .ok
        [numByte (s.port p).queue.length, numByte (s.port p).deferral.length, numByte (s.port p).view.start,
         numByte (s.port p).view.stop, (match (s.port p).view.mode with | .hold => 0x00 | .advance => 0x01),
         numByte (s.port p).view.cursor,
         (match (s.port p).queue with | [] => 0x00 | d :: _ => if d.isOpen then 0x01 else 0x00),
         (match (s.port p).queue with
           | [] => 0
           | d :: _ => numByte (8 + match d.payload with | none => 0 | some v => v.length))] s)) ∧
    (∀ t : Word, InProgress s p .topicInfo tag (wordBytes t) → (s.port p).state ≠ .quarantined →
      (t = 0 ∨ t = 65535 → exec (.topicInfo p) s = .next (complete p tag .badArgument [] s)) ∧
      (t ≠ 0 → t ≠ 65535 → findTopic s t = none → exec (.topicInfo p) s = .next (complete p tag .noTopic [] s)) ∧
      (∀ i, t ≠ 0 → t ≠ 65535 → findTopic s t = some i →
        exec (.topicInfo p) s = .next (complete p tag .ok
          (([(match (s.topic i).state with | .free => 0x00 | .declared => 0x01 | .orphaned => 0x02),
            (match (s.topic i).kind with | .state => 0x00 | .event => 0x01),
            (match (s.topic i).producer with | none => 0xFF | some q => numByte q.val)] : List Byte) ++
           wordBytes (s.topic i).version ++
           [(match (s.topic i).retained with | none => 0xFF | some v => numByte v.length)] ++
           wordBytes (BitVec.ofNat 16 (s.topic i).limit) ++
           [if (s.topic i).stale then 0x01 else 0x00,
            numByte ((List.finRange 16).countP fun j => waitsOn t (s.fetch j))]) s)))

/-- SET_PARAM and GET_PARAM whole: the refusals in their order, the parameter set, the divider begun again for TICK_DIV,
the value read back (R165). -/
def Obligations.ParametersAreSetInSetupAndRead : Prop :=
  ∀ (p : Port) (tag id : Byte) (v : Word) (s : State),
    let inRange : Prop :=
      (id = 1 ∧ 1 ≤ v.toNat ∧ v.toNat ≤ 1000) ∨ (id = 2 ∧ 1 ≤ v.toNat ∧ v.toNat ≤ 1000) ∨
      (id = 3 ∧ 32 ≤ v.toNat ∧ v.toNat ≤ 255) ∨ (id = 4 ∧ 10 ≤ v.toNat ∧ v.toNat ≤ 10000) ∨
      (id = 5 ∧ 1000 ≤ v.toNat ∧ v.toNat ≤ 50000)
    (InProgress s p .setParam tag (id :: wordBytes v) →
      ((s.port p).state = .quarantined → exec (.setParam p) s = .next (complete p tag .quarantined [] s)) ∧
      ((s.port p).state ≠ .quarantined →
        (¬ inRange → exec (.setParam p) s = .next (complete p tag .badArgument [] s)) ∧
        (inRange → s.exchange = .running → exec (.setParam p) s = .next (complete p tag .exchangeRunning [] s)) ∧
        (inRange → ExchangeLaw s → (s.port p).state = .online ∨ (s.port p).state = .leaving →
          exec (.setParam p) s = .next (complete p tag .exchangeRunning [] s)) ∧
        (inRange → s.exchange = .setup → exec (.setParam p) s = .next (complete p tag .ok []
          { s with
            params :=
              { fetchDeadline := if id = 1 then v.toNat else s.params.fetchDeadline
                deliveryDeadline := if id = 2 then v.toNat else s.params.deliveryDeadline
                quarThreshold := if id = 3 then v.toNat else s.params.quarThreshold
                quarHold := if id = 4 then v.toNat else s.params.quarHold
                tickDiv := if id = 5 then v.toNat else s.params.tickDiv }
            divider := if id = 5 then 0 else s.divider })))) ∧
    (InProgress s p .getParam tag [id] →
      ((s.port p).state = .quarantined → exec (.getParam p) s = .next (complete p tag .quarantined [] s)) ∧
      ((s.port p).state ≠ .quarantined →
        (id = 0 ∨ 5 < id.toNat → exec (.getParam p) s = .next (complete p tag .badArgument [] s)) ∧
        (∀ value : Nat,
          (id = 1 ∧ value = s.params.fetchDeadline) ∨ (id = 2 ∧ value = s.params.deliveryDeadline) ∨
          (id = 3 ∧ value = s.params.quarThreshold) ∨ (id = 4 ∧ value = s.params.quarHold) ∨
          (id = 5 ∧ value = s.params.tickDiv) →
          exec (.getParam p) s = .next (complete p tag .ok (id :: wordBytes (BitVec.ofNat 16 value)) s))))

/-! ## Attention -/

/-- Attention. SET_ATTN_MASK replaces the mask by a set of the six conditions and refuses any other value; ATTN_STATUS
reports the mask and the six conditions, RESPONSE always as false, and changes nothing. ATTNn is driven low exactly while
some condition in the mask is true, and is released while RSTn is low (R159 to R161). -/
def Obligations.AttentionMaskStatusAndLine : Prop :=
  ∀ (p : Port) (tag : Byte) (s : State),
    ((s.port p).state ≠ .quarantined → ∀ mask, InProgress s p .setAttnMask tag [mask] →
      (mask.toNat < 64 → exec (.setAttnMask p) s =
        .next (complete p tag .ok [] (s.modPort p fun r => { r with mask := mask }))) ∧
      (64 ≤ mask.toNat → exec (.setAttnMask p) s = .next (complete p tag .badArgument [] s))) ∧
    ((s.port p).state ≠ .quarantined → InProgress s p .attnStatus tag [] → (s.port p).response = .notReady →
      exec (.attnStatus p) s = .next (complete p tag .ok
        [(s.port p).mask,
         (if (s.port p).queue = [] then 0 else 0x01) ||| (if (s.port p).solicits = [] then 0 else 0x02) |||
         (if ∃ k, (s.slot ⟨p, k⟩).state = .done then 0x04 else 0) |||
         (if (s.port p).noticesMissed = 0 then 0 else 0x20)] s)) ∧
    attnDrivenLow false s p = false ∧
    (attnDrivenLow true s p = true ↔
      ((s.port p).mask.getLsbD 0 = true ∧ (s.port p).queue ≠ []) ∨
      ((s.port p).mask.getLsbD 1 = true ∧ (s.port p).solicits ≠ []) ∨
      ((s.port p).mask.getLsbD 2 = true ∧ ∃ k, (s.slot ⟨p, k⟩).state = .done) ∨
      ((s.port p).mask.getLsbD 3 = true ∧ ∃ r, (s.port p).response = .ready r) ∨
      ((s.port p).mask.getLsbD 4 = true ∧ (s.port p).state = .quarantined) ∨
      ((s.port p).mask.getLsbD 5 = true ∧ 0 < (s.port p).noticesMissed))

/-! ## The topic directory -/

/-- The lookups find what the rules say: the record that carries a number; the lowest-numbered FREE record, FREE entry, free
buffer and FREE fetch entry; and the governing subscription of a port, its lowest-indexed entry that matches. For a post
that is an ACTIVE entry in agreement with the topic in every masked bit, of another owner than the poster or with SELF;
for a notice, such an entry with STALE_NOTICE, where an absent producer excludes none (R3, R26, R29, R30, R33, R87, R96). -/
def Obligations.LookupsFindTheLowest : Prop :=
  ∀ (s : State),
    (∀ t i, findTopic s t = some i ↔ ((s.topic i).state ≠ .free ∧ (s.topic i).number = t) ∧
      ∀ j, j < i → ¬ ((s.topic j).state ≠ .free ∧ (s.topic j).number = t)) ∧
    (∀ t, findTopic s t = none ↔ ∀ i, ¬ ((s.topic i).state ≠ .free ∧ (s.topic i).number = t)) ∧
    (∀ i, lowestFreeRecord s = some i ↔ (s.topic i).state = .free ∧ ∀ j, j < i → (s.topic j).state ≠ .free) ∧
    (lowestFreeRecord s = none ↔ ∀ i, (s.topic i).state ≠ .free) ∧
    (∀ i, lowestFreeSubscription s = some i ↔
      (s.subscription i).active = false ∧ ∀ j, j < i → (s.subscription j).active = true) ∧
    (lowestFreeSubscription s = none ↔ ∀ i, (s.subscription i).active = true) ∧
    (∀ b, lowestFreeBuffer s = some b ↔ (s.buffer b).references = 0 ∧ ∀ c, c < b → (s.buffer c).references ≠ 0) ∧
    (lowestFreeBuffer s = none ↔ ∀ b, (s.buffer b).references ≠ 0) ∧
    (∀ i, lowestFreeFetch s = some i ↔ s.fetch i = none ∧ ∀ j, j < i → s.fetch j ≠ none) ∧
    (lowestFreeFetch s = none ↔ ∀ i, s.fetch i ≠ none) ∧
    (∀ (p q : Port) (t : Word) (producer : Option Port),
      let covers (i : SubIndex) : Prop := (s.subscription i).active = true ∧ (s.subscription i).owner = p ∧
        ∀ n, n < 16 → (s.subscription i).mask.getLsbD n = true → t.getLsbD n = (s.subscription i).pattern.getLsbD n
      let matching (i : SubIndex) : Prop := covers i ∧ (p ≠ q ∨ (s.subscription i).self = true)
      let notified (i : SubIndex) : Prop := covers i ∧ (s.subscription i).staleNotice = true ∧
        (producer = some p → (s.subscription i).self = true)
      (∀ i, governing s p (fun e => e.matchesPost t q) = some i ↔ matching i ∧ ∀ j, j < i → ¬ matching j) ∧
      (∀ i, governing s p (fun e => e.matchesNotice t producer) = some i ↔ notified i ∧ ∀ j, j < i → ¬ notified j))

/-- DECLARE by the table of R11: its argument checks, a new record, re-declaration, adoption, and each refusal (R11 to
R14). -/
def Obligations.DeclareFollowsItsTable : Prop :=
  ∀ (p : Port) (tag kindByte : Byte) (t limit : Word) (s : State),
    InProgress s p .declare tag (wordBytes t ++ [kindByte] ++ wordBytes limit) → (s.port p).state = .online →
    let bad : Prop := t = 0 ∨ t = 65535 ∨ (kindByte ≠ 0 ∧ kindByte ≠ 1) ∨ 60000 < limit.toNat ∨
      (kindByte = 1 ∧ limit ≠ 0)
    let kind : TopicKind := if kindByte = 0 then .state else .event
    let refused (e : Result) : Prop := exec (.declare p) s = .next (complete p tag e [] s)
    let accepted (i : RecordNo) (outcome : Byte) (r : TopicRecord) : Prop :=
      exec (.declare p) s = .next (complete p tag .ok
        ([outcome] ++ wordBytes r.version ++ [if r.stale then 0x01 else 0x00]) (s.modTopic i fun _ => r))
    (bad → refused .badArgument) ∧
    (¬ bad → findTopic s t = none → lowestFreeRecord s = none → refused .directoryFull) ∧
    (∀ i, ¬ bad → findTopic s t = none → lowestFreeRecord s = some i → accepted i 0x00
      { number := t, state := .declared, kind := kind, producer := some p, retained := none, version := 0,
        limit := limit.toNat, freshness := .stopped, stale := false }) ∧
    (∀ i, ¬ bad → findTopic s t = some i → (s.topic i).state = .declared → (s.topic i).producer ≠ some p →
      refused .topicOwned) ∧
    (∀ i, ¬ bad → findTopic s t = some i → (s.topic i).state = .declared → (s.topic i).producer = some p →
      (s.topic i).kind ≠ kind → refused .kindMismatch) ∧
    (∀ i, ¬ bad → findTopic s t = some i → (s.topic i).state = .declared → (s.topic i).producer = some p →
      (s.topic i).kind = kind → accepted i 0x01 { (s.topic i) with
        limit := limit.toNat
        freshness := if limit ≠ 0 ∧ (s.topic i).retained.isSome ∧ (s.topic i).stale = false then .running limit.toNat
          else .stopped }) ∧
    (∀ i, ¬ bad → findTopic s t = some i → (s.topic i).state = .orphaned → kindByte = 1 → refused .kindMismatch) ∧
    (∀ i, ¬ bad → findTopic s t = some i → (s.topic i).state = .orphaned → kindByte = 0 → accepted i 0x02
      { (s.topic i) with state := .declared, producer := some p, limit := limit.toNat })

/-- The checks of RETIRE and of PURGE in their order, each refusal leaving everything as it was (R15, R19). -/
def Obligations.RetireAndPurgeRefuseInOrder : Prop :=
  ∀ (p : Port) (tag : Byte) (t : Word) (s : State), (s.port p).state = .online →
    let named : Prop := t ≠ 0 ∧ t ≠ 65535
    let busy : Prop := ∃ x, ((s.slot x).state = .loading ∨ (s.slot x).state = .ready ∨ (s.slot x).state = .deferred) ∧
      (s.slot x).topic = t
    (InProgress s p .retire tag (wordBytes t) →
      (¬ named → exec (.retire p) s = .next (complete p tag .badArgument [] s)) ∧
      (named → findTopic s t = none → exec (.retire p) s = .next (complete p tag .noTopic [] s)) ∧
      (∀ i, named → findTopic s t = some i → (s.topic i).state = .orphaned ∨ (s.topic i).producer ≠ some p →
        exec (.retire p) s = .next (complete p tag .notProducer [] s)) ∧
      (∀ i, named → findTopic s t = some i → (s.topic i).state = .declared → (s.topic i).producer = some p → busy →
        exec (.retire p) s = .next (complete p tag .topicBusy [] s))) ∧
    (InProgress s p .purge tag (wordBytes t) →
      (¬ named → exec (.purge p) s = .next (complete p tag .badArgument [] s)) ∧
      (named → findTopic s t = none → exec (.purge p) s = .next (complete p tag .noTopic [] s)) ∧
      (∀ i, named → findTopic s t = some i → (s.topic i).state = .declared →
        exec (.purge p) s = .next (complete p tag .notOrphaned [] s)) ∧
      (∀ i, named → findTopic s t = some i → (s.topic i).state = .orphaned → busy →
        exec (.purge p) s = .next (complete p tag .topicBusy [] s)))

/-- A RETIRE that passes its checks answers every waiting fetch NO_TOPIC with the retiring producer, drops the solicit,
releases the value and frees the record; a PURGE that passes releases the value and frees the record; nothing else changes
(R16, R19). -/
def Obligations.RetireAndPurgeFreeTheRecord : Prop :=
  ∀ (p : Port) (tag : Byte) (t : Word) (s : State) (i : RecordNo), (s.port p).state = .online →
    t ≠ 0 → t ≠ 65535 → findTopic s t = some i →
    (∀ x, (s.slot x).state = .loading ∨ (s.slot x).state = .ready ∨ (s.slot x).state = .deferred →
      (s.slot x).topic ≠ t) →
    (InProgress s p .retire tag (wordBytes t) → (s.topic i).state = .declared → (s.topic i).producer = some p →
      ∃ u, exec (.retire p) s = .next (complete p tag .ok [] u) ∧
        (∀ j, u.topic j = if j = i then TopicRecord.reset else s.topic j) ∧
        AnsweredAll s u t { kind := .answer .noTopic, topic := t, version := 0, payload := none, producer := some p,
                            isOpen := false } ∧
        (∀ q, (u.port q).solicits = if q = p then (s.port q).solicits.filter (· ≠ t) else (s.port q).solicits) ∧
        (∀ q, (u.port q).noticesMissed = (s.port q).noticesMissed) ∧ (∀ x, u.slot x = s.slot x) ∧
        u.subscriptions = s.subscriptions ∧ u.exchange = s.exchange ∧ u.readyOrder = s.readyOrder ∧
        u.pending = s.pending ∧ KeepsStanding (fun _ => False) s u ∧
        (∀ b, (u.buffer b).references =
          (s.buffer b).references - (if carries b (s.topic i).retained then 1 else 0))) ∧
    (InProgress s p .purge tag (wordBytes t) → (s.topic i).state = .orphaned →
      ∃ u, exec (.purge p) s = .next (complete p tag .ok [] u) ∧
        (∀ j, u.topic j = if j = i then TopicRecord.reset else s.topic j) ∧ u.ports = s.ports ∧
        u.fetches = s.fetches ∧ u.subscriptions = s.subscriptions ∧ u.exchange = s.exchange ∧
        u.readyOrder = s.readyOrder ∧ u.pending = s.pending ∧ KeepsStanding (fun _ => False) s u ∧
        (∀ b, (u.buffer b).references =
          (s.buffer b).references - (if carries b (s.topic i).retained then 1 else 0)))

/-! ## The subscription table -/

/-- SUBSCRIBE: its refusals in their order, and the lowest FREE entry made ACTIVE with the pattern as given and the
options bit by bit (R25, R26). -/
def Obligations.SubscribeTakesTheLowestEntry : Prop :=
  ∀ (p : Port) (tag options : Byte) (pattern mask : Word) (s : State),
    InProgress s p .subscribe tag (wordBytes pattern ++ wordBytes mask ++ [options]) → (s.port p).state = .online →
    (8 ≤ options.toNat → exec (.subscribe p) s = .next (complete p tag .badArgument [] s)) ∧
    (options.toNat < 8 → 24 ≤ ownedSubscriptions s p →
      exec (.subscribe p) s = .next (complete p tag .subQuota [] s)) ∧
    (options.toNat < 8 → ownedSubscriptions s p < 24 → lowestFreeSubscription s = none →
      exec (.subscribe p) s = .next (complete p tag .subFull [] s)) ∧
    (∀ i, options.toNat < 8 → ownedSubscriptions s p < 24 → lowestFreeSubscription s = some i →
      exec (.subscribe p) s = .next (complete p tag .ok [numByte i.val] (s.modSubscription i fun _ =>
        { active := true, owner := p, pattern := pattern, mask := mask, latest := options.getLsbD 0,
          staleNotice := options.getLsbD 1, self := options.getLsbD 2 })))

/-- UNSUBSCRIBE: its checks in their order, and the entry freed; LIST_SUBS: the counts and the port's entries in ascending
order, with nothing changed (R27, R28). -/
def Obligations.UnsubscribeAndListSubs : Prop :=
  ∀ (p : Port) (tag : Byte) (s : State), (s.port p).state = .online →
    (∀ index : Byte, InProgress s p .unsubscribe tag [index] →
      (63 < index.toNat → exec (.unsubscribe p) s = .next (complete p tag .badArgument [] s)) ∧
      (∀ i : SubIndex, index.toNat = i.val →
        ((s.subscription i).active = false → exec (.unsubscribe p) s = .next (complete p tag .badArgument [] s)) ∧
        ((s.subscription i).active = true → (s.subscription i).owner ≠ p →
          exec (.unsubscribe p) s = .next (complete p tag .notOwner [] s)) ∧
        ((s.subscription i).active = true → (s.subscription i).owner = p →
          exec (.unsubscribe p) s = .next (complete p tag .ok [] (s.modSubscription i fun _ =>
            { active := false, owner := 0, pattern := 0, mask := 0, latest := false, staleNotice := false,
              self := false }))))) ∧
    (InProgress s p .listSubs tag [] →
      let own := (List.finRange 64).filter fun i => (s.subscription i).active && (s.subscription i).owner == p
      exec (.listSubs p) s = .next (complete p tag .ok
        ([numByte ((List.finRange 64).countP fun i => !(s.subscription i).active), numByte own.length] ++
         own.flatMap fun i => [numByte i.val,
           (if (s.subscription i).latest then 1 else 0) ||| (if (s.subscription i).staleNotice then 2 else 0) |||
           (if (s.subscription i).self then 4 else 0)]) s))

/-! ## Post slots -/

/-- OPEN_POST: its checks in their order, and the slot LOADING with the lowest free buffer, cleared and held once (R39,
R87). -/
def Obligations.OpenPostChecksThenAllocates : Prop :=
  ∀ (p : Port) (tag slot priority : Byte) (t : Word) (s : State),
    InProgress s p .openPost tag (slot :: wordBytes t ++ [priority]) → (s.port p).state = .online →
    let bad : Prop := 3 < slot.toNat ∨ t = 0 ∨ t = 65535 ∨ 3 < priority.toNat
    let refused (e : Result) : Prop := exec (.openPost p) s = .next (complete p tag e [] s)
    (bad → refused .badArgument) ∧
    (∀ k : SlotNo, slot.toNat = k.val → ¬ bad →
      ((s.slot ⟨p, k⟩).state ≠ .empty → refused .slotBusy) ∧
      ((s.slot ⟨p, k⟩).state = .empty →
        (findTopic s t = none → refused .noTopic) ∧
        (∀ i, findTopic s t = some i →
          ((s.topic i).state ≠ .declared ∨ (s.topic i).producer ≠ some p → refused .notProducer) ∧
          ((s.topic i).state = .declared → (s.topic i).producer = some p →
            (lowestFreeBuffer s = none → refused .noBuffer) ∧
            (∀ b, lowestFreeBuffer s = some b → exec (.openPost p) s = .next (complete p tag .ok []
              ((s.modBuffer b fun _ => { bytes := Vector.replicate 64 0x00, references := 1 }).modSlot ⟨p, k⟩ fun x =>
                { x with state := .loading, topic := t, priority := priority.toNat, buffer := some b,
                         length := 0 })))))))

/-- WRITE_PAYLOAD and SUBMIT of a LOADING slot, and their refusals in their order. WRITE_PAYLOAD puts each data byte in the
buffer at its place, keeps every other byte, and extends the length to one more than the highest position written. SUBMIT
stamps the slot with the ready sequence counter, which advances from 65535 to 0, and the slot joins the order of the READY
slots last (R40 to R42). -/
def Obligations.WriteThenSubmit : Prop :=
  ∀ (p : Port) (tag slot : Byte) (s : State), (s.port p).state = .online →
    (∀ (offset : Byte) (data : List Byte), InProgress s p .writePayload tag (slot :: offset :: data) →
      (3 < slot.toNat ∨ 64 < offset.toNat + data.length →
        exec (.writePayload p) s = .next (complete p tag .badArgument [] s)) ∧
      (∀ k : SlotNo, slot.toNat = k.val → offset.toNat + data.length ≤ 64 →
        ((s.slot ⟨p, k⟩).state ≠ .loading → exec (.writePayload p) s = .next (complete p tag .slotState [] s)) ∧
        (∀ b, (s.slot ⟨p, k⟩).state = .loading → (s.slot ⟨p, k⟩).buffer = some b →
          exec (.writePayload p) s = .next (complete p tag .ok []
            ((s.modBuffer b fun y => { y with bytes := Vector.ofFn fun j : Fin 64 =>
                if offset.toNat ≤ j.val ∧ j.val < offset.toNat + data.length then data.getD (j.val - offset.toNat) 0
                else y.bytes[j.val] }).modSlot ⟨p, k⟩ fun x =>
              { x with length := max x.length (offset.toNat + data.length) }))))) ∧
    (InProgress s p .submit tag [slot] →
      (3 < slot.toNat → exec (.submit p) s = .next (complete p tag .badArgument [] s)) ∧
      (∀ k : SlotNo, slot.toNat = k.val →
        ((s.slot ⟨p, k⟩).state ≠ .loading → exec (.submit p) s = .next (complete p tag .slotState [] s)) ∧
        ((s.slot ⟨p, k⟩).state = .loading → exec (.submit p) s = .next (complete p tag .ok []
          { s.modSlot ⟨p, k⟩ (fun x => { x with state := .ready, readySequence := s.readySequence }) with
            readySequence := if s.readySequence = 65535 then 0 else s.readySequence + 1
            readyOrder := s.readyOrder ++ [⟨p, k⟩] }))))

/-- ABORT_POST of a slot that is not DEFERRED, and RELEASE_SLOT: an EMPTY or DONE slot refused, a LOADING slot EMPTY, a
READY slot DONE and ABORTED, a DONE slot released, with the buffer reference of a LOADING or READY slot given back (R51,
R53). -/
def Obligations.AbortAndReleaseEndASlot : Prop :=
  ∀ (p : Port) (tag slot : Byte) (s : State), (s.port p).state = .online ∨ (s.port p).state = .leaving →
    ∀ k : SlotNo, slot.toNat = k.val →
    let ended (c : Instr) (f : Slot → Slot) : Prop :=
      exec c s = .next (complete p tag .ok []
        { (match (s.slot ⟨p, k⟩).buffer with
            | none => s
            | some b => s.modBuffer b fun x => { x with references := x.references - 1 }).modSlot ⟨p, k⟩ f with
          readyOrder := s.readyOrder.filter fun y => y != ⟨p, k⟩ })
    (InProgress s p .abortPost tag [slot] →
      ((s.slot ⟨p, k⟩).state = .empty → exec (.abortPost p) s = .next (complete p tag .slotState [] s)) ∧
      ((s.slot ⟨p, k⟩).state = .done → exec (.abortPost p) s = .next (complete p tag .tooLate [] s)) ∧
      ((s.slot ⟨p, k⟩).state = .loading → ended (.abortPost p) fun _ => Slot.reset) ∧
      ((s.slot ⟨p, k⟩).state = .ready → ended (.abortPost p) fun x =>
        { x with state := .done, buffer := none, pending := PortSet.none, status := some .aborted,
                 deadline := .stopped })) ∧
    (InProgress s p .releaseSlot tag [slot] →
      ((s.slot ⟨p, k⟩).state = .done → ended (.releaseSlot p) fun _ => Slot.reset) ∧
      ((s.slot ⟨p, k⟩).state ≠ .done → exec (.releaseSlot p) s = .next (complete p tag .slotState [] s)))

/-- The two endings of a DEFERRED slot whose owner is not LEAVING, or LEAVING with another DEFERRED slot: its entries leave the deferral lists of its pending
ports without a move, no queue changes, the pending ports join its unreached set, its buffer reference is released, and it
is DONE with its reached set kept: ABORTED by ABORT_POST, PARTIAL by the expiry of its delivery deadline (R48, R51,
R79). The last DEFERRED slot of a LEAVING port ends its drain: DrainEndsInTeardown. -/
def Obligations.DeferredSlotEndsWithItsEntriesDeleted : Prop :=
  ∀ (s : State) (p : Port) (k : SlotNo), (s.slot ⟨p, k⟩).state = .deferred →
    let ended (status : Completion) (u : State) : Prop :=
      u.slot ⟨p, k⟩ =
        { (s.slot ⟨p, k⟩) with
          state := .done, buffer := none, pending := PortSet.none, status := some status, deadline := .stopped
          unreached := (s.slot ⟨p, k⟩).unreached.union (s.slot ⟨p, k⟩).pending } ∧
      (∀ y, y ≠ ⟨p, k⟩ → u.slot y = s.slot y) ∧
      (∀ q, (u.port q).queue = (s.port q).queue ∧ (u.port q).state = (s.port q).state ∧ (u.port q).deferral =
        if (s.slot ⟨p, k⟩).pending.has q then (s.port q).deferral.filter fun e => !e.standsFor ⟨p, k⟩
        else (s.port q).deferral) ∧
      (∀ b, (u.buffer b).references =
        (s.buffer b).references - (if (s.slot ⟨p, k⟩).buffer = some b then 1 else 0)) ∧
      u.topics = s.topics ∧ u.fetches = s.fetches ∧ u.subscriptions = s.subscriptions ∧
      KeepsStanding (fun _ => False) s u
    let stays : Prop := (s.port p).state = .leaving ∧ ∃ l, l ≠ k ∧ (s.slot ⟨p, l⟩).state = .deferred
    (∀ tag slot : Byte, InProgress s p .abortPost tag [slot] → slot.toNat = k.val →
      (s.port p).state = .online ∨ stays →
      ∃ u, exec (.abortPost p) s = .next (complete p tag .ok [] u) ∧ ended .aborted u) ∧
    ((s.slot ⟨p, k⟩).deadline = .running 0 → (s.port p).state ≠ .leaving ∨ stays →
      ∃ u, exec (.deliveryDeadlineExpiry p k) s = .next u ∧ ended .partially u)

/-- SLOT_STATUS reports the fields present in the slot's state, every other one as 0, and changes nothing; a slot number
above 3 is refused, here and by ABORT_POST and RELEASE_SLOT (R52, Table 11-6). -/
def Obligations.SlotStatusReportsTheSlot : Prop :=
  ∀ (p : Port) (tag slot : Byte) (s : State), (s.port p).state = .online ∨ (s.port p).state = .leaving →
    (3 < slot.toNat →
      (InProgress s p .slotStatus tag [slot] → exec (.slotStatus p) s = .next (complete p tag .badArgument [] s)) ∧
      (InProgress s p .abortPost tag [slot] → exec (.abortPost p) s = .next (complete p tag .badArgument [] s)) ∧
      (InProgress s p .releaseSlot tag [slot] → exec (.releaseSlot p) s = .next (complete p tag .badArgument [] s))) ∧
    (∀ k : SlotNo, slot.toNat = k.val → InProgress s p .slotStatus tag [slot] →
      exec (.slotStatus p) s = .next (complete p tag .ok
        (let x := s.slot ⟨p, k⟩
         let present := wordBytes x.topic ++ [numByte x.priority, numByte x.length]
         let version := wordBytes (match x.version with | none => 0 | some v => v)
         let sets := [x.pending.byte, x.reached.byte, x.unreached.byte]
         match x.state with
         | .empty => List.replicate 13 0x00
         | .loading => [0x01] ++ present ++ [0, 0] ++ version ++ [0, 0, 0, 0]
         | .ready => [0x02] ++ present ++ wordBytes x.readySequence ++ version ++ [0, 0, 0, 0]
         | .deferred => [0x03] ++ present ++ wordBytes x.readySequence ++ version ++ sets ++ [0]
         | .done => [0x04] ++ present ++ wordBytes x.readySequence ++ version ++ sets ++
           [match x.status with
             | none => 0x00 | some .delivered => 0x01 | some .partially => 0x02 | some .aborted => 0x03
             | some .withdrawn => 0x04]) s))

/-! ## The dispatcher -/

/-- The dispatcher chooses a READY slot of the highest priority, and among those the one submitted first; with no READY
slot it chooses none, and a TAKE changes nothing (R42, R43).
A TAKE with no READY slot is an event of the model alone (notes/assumptions/4.md). -/
def Obligations.DispatcherChoosesPriorityThenAge : Prop :=
  ∀ (s : State), DispatcherLaw s →
    (∀ x, chosenSlot s = some x ↔ (s.slot x).state = .ready ∧
      ∀ y, (s.slot y).state = .ready → y ≠ x →
        (s.slot y).priority < (s.slot x).priority ∨
        ((s.slot y).priority = (s.slot x).priority ∧ s.readyOrder.idxOf x < s.readyOrder.idxOf y)) ∧
    ((∀ x, (s.slot x).state ≠ .ready) → chosenSlot s = none ∧ exec .take s = .next s)

/-- The take of the chosen post: the topic's version advances, from 65535 to 1, a STATE topic takes the value, is fresh and
starts its timer; the slot records the version and is DONE, DELIVERED, or DEFERRED with its deadline started; its reached
and pending sets part its target set. Every fetch waiting on the topic has its FRESH answer, with the value, the new version
and the poster, placed at its requester; then, behind the answers, each target port has the placement of R67 for its
governing entry, which says whether it is reached or pending, and every other port has none. Where the references of
the buffers were those of their holders, they are so again. Nothing else of any port, slot, topic, fetch or subscription changes (R5, R7, R30, R44, R45,
R85, R104). -/
def Obligations.TakeStampsAndSettles : Prop :=
  ∀ (s : State) (x : SlotName) (i : RecordNo), chosenSlot s = some x → findTopic s (s.slot x).topic = some i →
    (s.slot x).state = .ready →
    ∃ t, exec .take s = .next t ∧
      (let k := s.slot x
       let version : Word := if (s.topic i).version = 65535 then 1 else (s.topic i).version + 1
       let value : Option Payload := k.buffer.map fun b => { buffer := b, length := k.length }
       let reached := (t.slot x).reached
       let pending := (t.slot x).pending
       (∀ j, t.topic j = if j ≠ i then s.topic j else
         match (s.topic i).kind with
         | .event => { (s.topic i) with version := version }
         | .state => { (s.topic i) with
             version := version, retained := value, stale := false
             freshness := if 0 < (s.topic i).limit then .running (s.topic i).limit else (s.topic i).freshness }) ∧
       (∀ y, y ≠ x → t.slot y = s.slot y) ∧
       (pending = PortSet.none → t.slot x = { k with
         state := .done, version := some version, buffer := none, pending := PortSet.none, reached := reached
         unreached := PortSet.none, status := some .delivered, deadline := .stopped }) ∧
       (pending ≠ PortSet.none → t.slot x = { k with
         state := .deferred, version := some version, pending := pending, reached := reached
         unreached := PortSet.none, deadline := .running s.params.deliveryDeadline }) ∧
       (∀ p, (reached.has p || pending.has p) = (governing s p fun e => e.matchesPost k.topic x.owner).isSome ∧
         (reached.has p && pending.has p) = false) ∧
       (∀ j, t.fetch j = if waitsOn k.topic (s.fetch j) then none else s.fetch j) ∧
       (∀ q, (t.port q).solicits =
         if q = x.owner then (s.port q).solicits.filter (· ≠ k.topic) else (s.port q).solicits) ∧
       (∃ u, AnsweredAll s u k.topic
           { kind := .answer .fresh, topic := k.topic, version := version, payload := value, producer := some x.owner
             isOpen := false } ∧
         u.slot x = { k with version := some version } ∧
         ∀ p, match governing s p fun e => e.matchesPost k.topic x.owner with
           | none => (t.port p).queue = (u.port p).queue ∧ (t.port p).deferral = (u.port p).deferral
           | some j =>
             let placed := placePost x p j (s.subscription j).latest u
             (t.port p).queue = (placed.1.port p).queue ∧ (t.port p).deferral = (placed.1.port p).deferral ∧
               (reached.has p = true ↔ placed.2 = .reached) ∧ (pending.has p = true ↔ placed.2 = .pending)) ∧
       (∀ q, (t.port q).noticesMissed = (s.port q).noticesMissed) ∧
       (PoolLaw s → ∀ b, (t.buffer b).references = holders t b) ∧
       t.readyOrder = s.readyOrder.filter (fun y => y ≠ x)) ∧
      t.subscriptions = s.subscriptions ∧ t.exchange = s.exchange ∧ KeepsStanding (fun _ => False) s t

/-- One POST placement by the first case of R67 that applies: behind a deferral list it is deferred; with LATEST it is
coalesced into the newest POST of the topic when that is coalescible and not open; with room it is appended; else it is
deferred. Only the port's own queue or list changes, and the references of the two payloads (R67 to R69).
The version 0 of a slot that has none, in a state no run reaches, is the model's choice (notes/assumptions/15.md). -/
def Obligations.PlacementFollowsItsCases : Prop :=
  ∀ (x : SlotName) (p : Port) (i : SubIndex) (latest : Bool) (s : State),
    let k := s.slot x
    let queue := (s.port p).queue
    let value : Option Payload := k.buffer.map fun b => { buffer := b, length := k.length }
    let isPost (d : Delivery) : Prop := d.topic = k.topic ∧ ∃ j c n, d.kind = .post j c n
    let newest (n : Nat) (d : Delivery) : Prop :=
      queue[n]? = some d ∧ isPost d ∧ ∀ m e, n < m → queue[m]? = some e → ¬ isPost e
    let coalesces (n : Nat) (d : Delivery) : Prop :=
      latest = true ∧ newest n d ∧ d.isOpen = false ∧ ∃ j c, d.kind = .post j true c
    let deferred : State × Placed :=
      (s.modPort p fun r => { r with deferral := r.deferral ++ [.slot x i latest] }, .pending)
    ((s.port p).deferral ≠ [] → placePost x p i latest s = deferred) ∧
    ((s.port p).deferral = [] → ∀ n d, coalesces n d →
      placePost x p i latest s =
        (releasePayload d.payload ((takePayload value s).modPort p fun r =>
          { r with
            queue := queue.set n
              { kind := .post i true (min 31 (d.kind.count + 1)), topic := d.topic, version := k.version.getD 0,
                payload := value, producer := some x.owner, isOpen := false } }), .reached)) ∧
    ((s.port p).deferral = [] → (∀ n d, ¬ coalesces n d) → queue.length < 32 →
      placePost x p i latest s =
        ((takePayload value s).modPort p fun r => { r with queue := r.queue ++
          [{ kind := .post i latest 0, topic := k.topic, version := k.version.getD 0, payload := value,
             producer := some x.owner, isOpen := false }] }, .reached)) ∧
    ((s.port p).deferral = [] → (∀ n d, ¬ coalesces n d) → 32 ≤ queue.length → placePost x p i latest s = deferred)

/-! ## The delivery queue and its view -/

/-- CONSUME: an empty queue is refused; otherwise the head goes with its reference and the cursor returns to the window
start; an answer entry at the head of the deferral list moves into the place (R74 to R76, R78). -/
def Obligations.ConsumeRemovesTheHead : Prop :=
  ∀ (p : Port) (tag : Byte) (s : State), InProgress s p .consume tag [] →
    (s.port p).state = .online ∨ (s.port p).state = .leaving →
    let released (d : Delivery) : State := match d.payload with
      | none => s
      | some v => s.modBuffer v.buffer fun x => { x with references := x.references - 1 }
    ((s.port p).queue = [] → exec (.consume p) s = .next (complete p tag .queueEmpty [] s)) ∧
    (∀ d rest, (s.port p).queue = d :: rest → (s.port p).deferral = [] →
      exec (.consume p) s = .next (complete p tag .ok [numByte rest.length, 0]
        ((released d).modPort p fun r =>
          { r with queue := rest, view := { r.view with cursor := r.view.start } }))) ∧
    (∀ d rest e entries, (s.port p).queue = d :: rest → rest.length = 31 →
      (s.port p).deferral = .answer e :: entries →
      exec (.consume p) s = .next (complete p tag .ok [32, numByte entries.length]
        ((released d).modPort p fun r =>
          { r with queue := rest ++ [e], deferral := entries, view := { r.view with cursor := r.view.start } })))

/-- A consumption that moves a slot entry in: the entry becomes a POST built from its slot, and the slot counts the port as
reached; when no other port is pending the slot is DONE, DELIVERED or PARTIAL by its unreached set (R47, R76, R77). This
holds unless the slot completes as the last DEFERRED slot of a LEAVING owner, whose drain ends: DrainEndsInTeardown.
The version 0 of a slot that has none, in a state no run reaches, is the model's choice (notes/assumptions/15.md). -/
def Obligations.ConsumeServesADeferredPost : Prop :=
  ∀ (p : Port) (tag : Byte) (s : State) (x : SlotName) (i : SubIndex) (c : Bool) (d : Delivery)
    (rest : List Delivery) (entries : List DeferralEntry), InProgress s p .consume tag [] →
    (s.port p).state = .online ∨ (s.port p).state = .leaving →
    ((s.port x.owner).state ≠ .leaving ∨ (s.slot x).pending.erase p ≠ PortSet.none ∨
      ∃ l, l ≠ x.number ∧ (s.slot ⟨x.owner, l⟩).state = .deferred) →
    (s.port p).queue = d :: rest → rest.length = 31 → (s.port p).deferral = .slot x i c :: entries →
    ∃ u, exec (.consume p) s = .next (complete p tag .ok [32, numByte entries.length] u) ∧
      (u.port p).queue = rest ++ [
        { kind := .post i c 0, topic := (s.slot x).topic, version := (s.slot x).version.getD 0,
          payload := (s.slot x).buffer.map fun b => { buffer := b, length := (s.slot x).length }
          producer := some x.owner, isOpen := false }] ∧
      (u.port p).deferral = entries ∧
      (u.port p).view = { (s.port p).view with cursor := (s.port p).view.start } ∧
      (let left := (s.slot x).pending.erase p
       u.slot x = if left = PortSet.none then { (s.slot x) with
           state := .done, buffer := none, pending := PortSet.none, reached := (s.slot x).reached.insert p
           status := some (if (s.slot x).unreached = PortSet.none then .delivered else .partially)
           deadline := .stopped }
         else { (s.slot x) with pending := left, reached := (s.slot x).reached.insert p }) ∧
      (∀ y, y ≠ x → u.slot y = s.slot y) ∧
      (∀ q, q ≠ p → (u.port q).queue = (s.port q).queue ∧ (u.port q).deferral = (s.port q).deferral) ∧
      u.topics = s.topics ∧ u.fetches = s.fetches ∧ u.subscriptions = s.subscriptions ∧
      KeepsStanding (fun q => q = p) s u

/-- The drain of a LEAVING port ends when its last DEFERRED slot leaves DEFERRED: by its delivery deadline; by an ABORT_POST
of the port itself, which is answered OK; by a CONSUME, of another port or of the port itself through a post of its own,
that moves in the entry of the slot's last pending port; or by the LEAVE or the quarantine of that last pending port. The
port is torn down within the event, is OFFLINE with score 0 and holds nothing. A CONSUME of its own then reports an empty
queue; another port, when it is ONLINE, has the entry in its queue as a POST (R48, R49, R51, R55, R74, R84, R121, R122).
The order of the reports of one event is the model's (notes/assumptions/10.md); nothing said here depends on it. -/
def Obligations.DrainEndsInTeardown : Prop :=
  ∀ (s : State) (p : Port) (k : SlotNo), SessionsLawful s → (s.port p).state = .leaving →
    (s.slot ⟨p, k⟩).state = .deferred → (∀ l, l ≠ k → (s.slot ⟨p, l⟩).state ≠ .deferred) →
    let drained (t : State) (touched : Port → Prop) : Prop :=
      (t.port p).state = .offline ∧ (t.port p).score = 0 ∧ HoldsNothing t p ∧
        KeepsStanding (fun q => (s.port q).state = .leaving ∨ touched q) s t
    let lastAt (c : Port) : Prop := (s.slot ⟨p, k⟩).pending.erase c = PortSet.none
    ((s.slot ⟨p, k⟩).deadline = .running 0 →
      ∃ t, exec (.deliveryDeadlineExpiry p k) s = .next t ∧ drained t fun _ => False) ∧
    (∀ tag slot : Byte, InProgress s p .abortPost tag [slot] → slot.toNat = k.val →
      ∃ t, exec (.abortPost p) s = .next (complete p tag .ok [] t) ∧ drained t fun _ => False) ∧
    (∀ (c : Port) (tag : Byte) (i : SubIndex) (m : Bool) (d : Delivery) (rest : List Delivery)
      (entries : List DeferralEntry), InProgress s c .consume tag [] →
      (s.port c).state = .online ∨ (s.port c).state = .leaving → (s.port c).queue = d :: rest →
      (s.port c).deferral = .slot ⟨p, k⟩ i m :: entries → lastAt c →
      ∃ t body, exec (.consume c) s = .next (complete c tag .ok body t) ∧ drained t (fun q => q = c) ∧
        (c = p → body = [0x00, 0x00]) ∧
        ((s.port c).state = .online →
          body = [0x20, numByte entries.length] ∧ (t.port c).deferral = entries ∧
          (t.port c).view = { (s.port c).view with cursor := (s.port c).view.start } ∧
          (t.port c).queue = rest ++ [
            { kind := .post i m 0, topic := (s.slot ⟨p, k⟩).topic, version := (s.slot ⟨p, k⟩).version.getD 0
              payload := (s.slot ⟨p, k⟩).buffer.map fun b => { buffer := b, length := (s.slot ⟨p, k⟩).length }
              producer := some p, isOpen := false }])) ∧
    (∀ (c : Port) (tag : Byte), InProgress s c .leave tag [] → (s.port c).state = .online →
      (∀ l, (s.slot ⟨c, l⟩).state ≠ .deferred) → lastAt c →
      ∃ t, exec (.leave c) s = .next (complete c tag .ok [0x00, 0x00] t) ∧ drained t (fun q => q = c)) ∧
    (∀ (c : Port) (transaction : Transaction) (bytes : List Byte), c ≠ p → FrameEnds s c transaction bytes →
      Faulted s c bytes → (s.port c).state = .online ∨ (s.port c).state = .leaving →
      s.params.quarThreshold ≤ min 255 ((s.port c).score + 16) → lastAt c →
      ∃ t, exec (.requestFrame c transaction) s = .next t ∧ drained t (fun q => q = c))

/-- SET_WINDOW: the refusal of a window outside 0 to 71 or of a mode that is neither HOLD nor ADVANCE, and the view set
with its cursor at the new start, the queue and the open mark untouched (R152). -/
def Obligations.SetWindowSetsTheView : Prop :=
  ∀ (p : Port) (tag start stop mode : Byte) (s : State), InProgress s p .setWindow tag [start, stop, mode] →
    (s.port p).state = .online ∨ (s.port p).state = .leaving →
    let bad : Prop := 71 < stop.toNat ∨ stop.toNat < start.toNat ∨ (mode ≠ 0 ∧ mode ≠ 1)
    (bad → exec (.setWindow p) s = .next (complete p tag .badArgument [] s)) ∧
    (¬ bad → exec (.setWindow p) s = .next (complete p tag .ok [] (s.modPort p fun r =>
      { r with view := { start := start.toNat, stop := stop.toNat, mode := if mode = 0 then .hold else .advance,
                         cursor := start.toNat } })))

/-- READ_VIEW in HOLD mode returns the bytes of the head round the window, from the cursor on, opens the head and leaves
the cursor where the reading stopped; nothing else changes (R153, R154, R156). -/
def Obligations.HoldReadGoesRoundTheWindow : Prop :=
  ∀ (p : Port) (tag count : Byte) (s : State) (d : Delivery) (rest : List Delivery),
    InProgress s p .readView tag [count] → (s.port p).state = .online ∨ (s.port p).state = .leaving →
    0 < count.toNat → count.toNat ≤ 64 → (s.port p).queue = d :: rest → (s.port p).view.mode = .hold →
    (s.port p).view.start ≤ (s.port p).view.cursor → (s.port p).view.cursor ≤ (s.port p).view.stop →
    let v := (s.port p).view
    let place (n : Nat) : Nat := v.start + (v.cursor - v.start + n) % (v.stop - v.start + 1)
    exec (.readView p) s = .next (complete p tag .ok
      ((List.range count.toNat).map fun n => viewByte s d (place n))
      (s.modPort p fun r =>
        { r with queue := { d with isOpen := true } :: rest, view := { v with cursor := place count.toNat } }))

/-- READ_VIEW outside HOLD. A count outside 1 to 64 is refused; an empty queue gives QUEUE_EMPTY, no bytes and nothing
changed. In ADVANCE mode a read up to the window end consumes the head exactly as CONSUME does, after the bytes it
returns; short of the window end it opens the head and moves the cursor on; over the last delivery it ends with
QUEUE_EMPTY, the bytes gathered and the delivery consumed. Past the window end, whatever stands behind the head, it is the
read up to the window end followed by the READ_VIEW of the rest of the count on the state after the consumption; where that
consumption has ended the port's own drain, it is QUEUE_EMPTY with the bytes gathered (R153 to R155). -/
def Obligations.AdvanceReadConsumesAtTheWindowEnd : Prop :=
  ∀ (p : Port) (tag count : Byte) (s : State), InProgress s p .readView tag [count] →
    (s.port p).state = .online ∨ (s.port p).state = .leaving →
    let v := (s.port p).view
    let bytes (d : Delivery) (n : Nat) : List Byte := (List.range n).map fun k => viewByte s d (v.cursor + k)
    (count = 0 ∨ 64 < count.toNat → exec (.readView p) s = .next (complete p tag .badArgument [] s)) ∧
    (0 < count.toNat → count.toNat ≤ 64 → (s.port p).queue = [] →
      exec (.readView p) s = .next (complete p tag .queueEmpty [] s)) ∧
    (∀ d rest, 0 < count.toNat → count.toNat ≤ 64 → (s.port p).queue = d :: rest → v.mode = .advance →
      (v.cursor + count.toNat = v.stop + 1 →
        exec (.readView p) s = .next (complete p tag .ok (bytes d count.toNat) (consumeHead p s))) ∧
      (v.cursor + count.toNat ≤ v.stop →
        exec (.readView p) s = .next (complete p tag .ok (bytes d count.toNat) (s.modPort p fun r =>
          { r with
            queue := { d with isOpen := true } :: rest
            view := { r.view with cursor := v.cursor + count.toNat } }))) ∧
      (v.cursor ≤ v.stop → v.stop + 1 < v.cursor + count.toNat → rest = [] → (s.port p).deferral = [] →
        exec (.readView p) s = .next
          (complete p tag .queueEmpty (bytes d (v.stop + 1 - v.cursor)) (consumeHead p s))) ∧
      (v.cursor ≤ v.stop → v.stop + 1 < v.cursor + count.toNat →
        let first := v.stop + 1 - v.cursor
        let u := consumeHead p s
        let again := u.modPort p fun r => { r with
          inProgress := some { name := .readView, tag := tag, arguments := [numByte (count.toNat - first)], cut := false } }
        ((u.port p).state = .online ∨ (u.port p).state = .leaving →
          ∃ result body t, exec (.readView p) again = .next (complete p tag result body t) ∧
            exec (.readView p) s = .next (complete p tag result (bytes d first ++ body) t)) ∧
        ((u.port p).state = .offline →
          exec (.readView p) s = .next (complete p tag .queueEmpty (bytes d first) u))))

/-- The view of a delivery: the eight header bytes of Table 11-5, then the payload bytes of its buffer up to its length,
then fill bytes (R150, R169). -/
def Obligations.ViewPresentsHeaderThenPayload : Prop :=
  ∀ (s : State) (d : Delivery),
    viewByte s d 0 = (match d.kind with | .post _ _ _ => 0x01 | .answer _ => 0x02 | .stale _ => 0x03) ∧
    [viewByte s d 1, viewByte s d 2] = wordBytes d.topic ∧ [viewByte s d 3, viewByte s d 4] = wordBytes d.version ∧
    viewByte s d 5 = (match d.payload with | none => 0x00 | some v => numByte v.length) ∧
    viewByte s d 6 = (match d.kind with
      | .post i _ _ => numByte i.val
      | .stale i => numByte i.val
      | .answer .retained => 0x00 | .answer .fresh => 0x01 | .answer .stale => 0x02 | .answer .noTopic => 0x03
      | .answer .timeout => 0x04 | .answer .producerGone => 0x05) ∧
    viewByte s d 7 =
      (match d.producer with | none => 0x80 | some q => numByte (32 * q.val)) |||
      (match d.kind with | .post _ _ n => numByte n | .answer _ => 0 | .stale _ => 0) ∧
    (∀ n, d.payload = none → viewByte s d (8 + n) = 0x00) ∧
    (∀ v (n : Fin 64), d.payload = some v → n.val < v.length →
      viewByte s d (8 + n.val) = (s.buffer v.buffer).bytes[n.val]) ∧
    (∀ v n, d.payload = some v → v.length ≤ n → viewByte s d (8 + n) = 0x00)

/-! ## The fetch unit -/

/-- FETCH: its refusals in their order, and the answer at once by the record found: NO_TOPIC, STALE or RETAINED (R99,
R100, R102). -/
def Obligations.FetchIsRefusedOrAnsweredAtOnce : Prop :=
  ∀ (p : Port) (tag : Byte) (t deadline : Word) (s : State),
    InProgress s p .fetch tag (wordBytes t ++ wordBytes deadline) → (s.port p).state = .online →
    let bad : Prop := t = 0 ∨ t = 65535 ∨ 1000 < deadline.toNat
    let answered (code : Byte) (d : Delivery) : Prop :=
      exec (.fetch p) s = .next (complete p tag .ok [0x00, code] (withAnswer p d s))
    (bad → exec (.fetch p) s = .next (complete p tag .badArgument [] s)) ∧
    (¬ bad → 4 ≤ obligations s p → exec (.fetch p) s = .next (complete p tag .fetchLimit [] s)) ∧
    (¬ bad → obligations s p < 4 →
      (findTopic s t = none → answered 0x03
        { kind := .answer .noTopic, topic := t, version := 0, payload := none, producer := none, isOpen := false }) ∧
      (∀ i v, findTopic s t = some i → (s.topic i).state = .orphaned → (s.topic i).retained = some v → answered 0x02
        { kind := .answer .stale, topic := t, version := (s.topic i).version, payload := some v, producer := none,
          isOpen := false }) ∧
      (∀ i v, findTopic s t = some i → (s.topic i).state = .declared → (s.topic i).kind = .state →
        (s.topic i).retained = some v → (s.topic i).stale = false → answered 0x00
        { kind := .answer .retained, topic := t, version := (s.topic i).version, payload := some v,
          producer := (s.topic i).producer, isOpen := false }))

/-- A FETCH that must wait: FETCH_FULL with no FREE entry; otherwise the lowest FREE entry is WAITING with the deadline
asked for, or FETCH_DEADLINE for 0, and the topic stands in its producer's solicit list, once (R99, R101). -/
def Obligations.FetchWaitsAndSolicits : Prop :=
  ∀ (p q : Port) (tag : Byte) (t deadline : Word) (s : State) (i : RecordNo),
    InProgress s p .fetch tag (wordBytes t ++ wordBytes deadline) → (s.port p).state = .online →
    t ≠ 0 → t ≠ 65535 → deadline.toNat ≤ 1000 → obligations s p < 4 → findTopic s t = some i →
    (s.topic i).state = .declared → (s.topic i).producer = some q →
    (s.topic i).kind = .event ∨ (s.topic i).retained = none ∨ (s.topic i).stale = true →
    (lowestFreeFetch s = none → exec (.fetch p) s = .next (complete p tag .fetchFull [] s)) ∧
    (∀ j, lowestFreeFetch s = some j →
      exec (.fetch p) s = .next (complete p tag .ok [0x01, numByte j.val]
        ((s.setFetch j (some
          { requester := p, topic := t
            deadline := .running (if deadline = 0 then s.params.fetchDeadline else deadline.toNat) })).modPort q fun r =>
          { r with solicits := if t ∈ r.solicits then r.solicits else r.solicits ++ [t] })))

/-- CANCEL_FETCH: its checks in their order; the entry is FREE without an answer, and its topic leaves the solicit list of
its producer when no other fetch waits on it. READ_SOLICITS removes and returns the oldest topics, up to 16, and reports
how many are left; no fetch changes (R107, R111). -/
def Obligations.CancelFetchAndReadSolicits : Prop :=
  ∀ (p : Port) (tag id : Byte) (s : State), (s.port p).state = .online →
    (InProgress s p .cancelFetch tag [id] →
      (15 < id.toNat → exec (.cancelFetch p) s = .next (complete p tag .badArgument [] s)) ∧
      (∀ i : FetchId, id.toNat = i.val →
        (s.fetch i = none → exec (.cancelFetch p) s = .next (complete p tag .noFetch [] s)) ∧
        (∀ f, s.fetch i = some f → f.requester ≠ p →
          exec (.cancelFetch p) s = .next (complete p tag .notOwner [] s)) ∧
        (∀ f, s.fetch i = some f → f.requester = p → (∃ j g, j ≠ i ∧ s.fetch j = some g ∧ g.topic = f.topic) →
          exec (.cancelFetch p) s = .next (complete p tag .ok [] (s.setFetch i none))) ∧
        (∀ f r q, s.fetch i = some f → f.requester = p → (∀ j g, j ≠ i → s.fetch j = some g → g.topic ≠ f.topic) →
          findTopic s f.topic = some r → (s.topic r).producer = some q →
          exec (.cancelFetch p) s = .next (complete p tag .ok [] ((s.setFetch i none).modPort q fun x =>
            { x with solicits := x.solicits.filter (· != f.topic) }))))) ∧
    (InProgress s p .readSolicits tag [] →
      exec (.readSolicits p) s = .next (complete p tag .ok
        ([numByte (min 16 (s.port p).solicits.length), numByte ((s.port p).solicits.length - 16)] ++
         ((s.port p).solicits.take 16).flatMap wordBytes)
        (s.modPort p fun r => { r with solicits := r.solicits.drop 16 })))

/-- The deadline of a WAITING fetch expires: a TIMEOUT answer with the topic's value, version and producer, the entry FREE,
and the solicit kept or dropped by whether another fetch waits on the topic (R105). -/
def Obligations.FetchDeadlineAnswersTimeout : Prop :=
  ∀ (s : State) (i : FetchId) (f : WaitingFetch) (r : RecordNo) (q : Port),
    s.fetch i = some f → f.deadline = .running 0 → findTopic s f.topic = some r → (s.topic r).producer = some q →
    let timedOut := (withAnswer f.requester
      { kind := .answer .timeout, topic := f.topic
        version := if (s.topic r).retained.isSome then (s.topic r).version else 0
        payload := (s.topic r).retained, producer := some q, isOpen := false } s).setFetch i none
    ((∃ j g, j ≠ i ∧ s.fetch j = some g ∧ g.topic = f.topic) →
      exec (.fetchDeadlineExpiry i) s = .next timedOut) ∧
    ((∀ j g, j ≠ i → s.fetch j = some g → g.topic ≠ f.topic) →
      exec (.fetchDeadlineExpiry i) s = .next (timedOut.modPort q fun x =>
        { x with solicits := x.solicits.filter (· != f.topic) }))

/-! ## Freshness and holds -/

/-- The freshness timer of a DECLARED topic expires: the topic is stale with its timer stopped, each port with a governing
entry has its notice, in its queue or counted as missed, and nothing else changes (R9, R10, R72). -/
def Obligations.FreshnessExpiryIssuesNotices : Prop :=
  ∀ (s : State) (t : Word) (i : RecordNo), findTopic s t = some i → (s.topic i).state = .declared →
    (s.topic i).freshness = .running 0 →
    exec (.freshnessExpiry t) s = .next { s with
      topics := s.topics.set i.val { (s.topic i) with stale := true, freshness := .stopped }
      ports := Vector.ofFn fun p : Port =>
        match governing s p fun e => e.matchesNotice t (s.topic i).producer with
        | none => s.port p
        | some j => (s.port p).withNotice
            { kind := .stale j, topic := t, version := (s.topic i).version, payload := none
              producer := (s.topic i).producer, isOpen := false } }

/-- A hold that is due becomes EXPIRED and nothing else changes. The MODEL's reading of an expiry that is not due
(notes/assumptions/3.md): it does not happen, for every kind of timer (R129, R21, R113, R132). -/
def Obligations.ExpiriesHappenWhenDue : Prop :=
  ∀ (s : State),
    (∀ p, (s.port p).hold = .running 0 →
      exec (.quarantineHoldExpiry p) s = .next (s.modPort p fun r => { r with hold := .expired })) ∧
    (∀ p, (s.port p).hold ≠ .running 0 → exec (.quarantineHoldExpiry p) s = .next s) ∧
    (∀ x, (s.slot x).deadline ≠ .running 0 → exec (.deliveryDeadlineExpiry x.owner x.number) s = .next s) ∧
    (∀ i, (∀ f, s.fetch i = some f → f.deadline ≠ .running 0) → exec (.fetchDeadlineExpiry i) s = .next s) ∧
    (∀ t, (∀ i, findTopic s t = some i → (s.topic i).freshness ≠ .running 0) →
      exec (.freshnessExpiry t) s = .next s)

/-! ## The laws that every step keeps -/

/-- Device reset meets every law. -/
def Obligations.ResetMeetsEveryLaw : Prop :=
  PoolLaw State.reset ∧ SlotLaw State.reset ∧ QueueLaw State.reset ∧ ViewLaw State.reset ∧ ExchangeLaw State.reset ∧
  HoldLaw State.reset ∧ DispatcherLaw State.reset ∧ LinkLaw State.reset ∧ ObligationLaw State.reset ∧
  ParameterLaw State.reset ∧ DirectoryLaw State.reset ∧ SessionLaw State.reset

/-- Every buffer's reference count equals the number of its holders, and every step keeps it so (R85). -/
def Obligations.StepKeepsThePoolLaw : Prop := ∀ s t : State, PoolLaw s → step s = .next t → PoolLaw t

/-- A slot's pending set agrees with the deferral lists and its fields with its state, and every step keeps it so (R46,
Table 3-2). -/
def Obligations.StepKeepsTheSlotLaw : Prop := ∀ s t : State, SlotLaw s → step s = .next t → SlotLaw t

/-- A queue holds at most 32 deliveries and exactly 32 behind a deferral list, only the head is open, and every step keeps
it so (R62, R63, R65, R72). -/
def Obligations.StepKeepsTheQueueLaw : Prop := ∀ s t : State, QueueLaw s → step s = .next t → QueueLaw t

/-- The cursor stands in the window, and at its start unless the head is open, and every step keeps it so (R151). -/
def Obligations.StepKeepsTheViewLaw : Prop := ∀ s t : State, ViewLaw s → step s = .next t → ViewLaw t

/-- The exchange is RUNNING exactly while some port is ONLINE or LEAVING, every command keeps it so, and the parameters
change only by a SET_PARAM in SETUP, or by a device reset (R130). -/
def Obligations.StepKeepsTheExchangeLaw : Prop :=
  (∀ s t : State, ExchangeLaw s → step s = .next t → ExchangeLaw t) ∧
  (∀ (c : Instr) (s t : State), exec c s = .next t → t.params ≠ s.params →
    (∃ straps, c = .deviceReset straps) ∨ (∃ p, c = .setParam p ∧ s.exchange = .setup))

/-- The dispatcher keeps the order of exactly the READY slots, and every step keeps it so (R42, R43). -/
def Obligations.StepKeepsTheDispatcherLaw : Prop :=
  ∀ s t : State, DispatcherLaw s → step s = .next t → DispatcherLaw t

/-- The score, the receiver, the request in progress and the response buffer of every port agree as the host link rules
say, and every step keeps it so (R124, R139 to R141, R147).
That the receiver is idle after every step, because a transaction is one event, rests on notes/assumptions/9.md. -/
def Obligations.StepKeepsTheLinkLaw : Prop := ∀ s t : State, LinkLaw s → step s = .next t → LinkLaw t

/-- Three laws that every step keeps: no port has more than four fetch obligations (R97), a hold timer is STOPPED exactly
while its port is not QUARANTINED (R117), and every parameter lies in its range (R164, Table 10-1). -/
def Obligations.StepKeepsObligationsHoldsAndParameters : Prop :=
  (∀ s t : State, ObligationLaw s → step s = .next t → ObligationLaw t) ∧
  (∀ s t : State, HoldLaw s → step s = .next t → HoldLaw t) ∧
  (∀ s t : State, ParameterLaw s → step s = .next t → ParameterLaw t)

/-- No two topic records carry one number, every DECLARED record's producer is ONLINE, every record fits its state, and
posts, waiting fetches and solicits name DECLARED topics; every step keeps it so (R1, R2, R7, R8, R97, R109). -/
def Obligations.StepKeepsTheDirectoryLaw : Prop :=
  ∀ s t : State, SlotLaw s → DirectoryLaw s → step s = .next t → DirectoryLaw t

/-- A port that is OFFLINE or QUARANTINED holds nothing, and a LEAVING port drains; every step keeps it so (R35, R121,
R123). -/
def Obligations.StepKeepsTheSessionLaw : Prop :=
  ∀ s t : State, SessionsLawful s → step s = .next t → SessionLaw t
end

