-- ==== Sys2Proof/Laws/State.lean ====
section
/-! SUPPORT. The small lemmas of the state: what each update of one record leaves in each field, and what reading a
record after an update gives. Later proofs cite these and unfold no record update. -/
namespace Sys2Proof.Machine

/-! ## Updates of a vector -/

section vectors
variable {α : Type} {n : Nat}

theorem getElem_update (v : Vector α n) (i j : Fin n) (f : α → α) :
    (update v i f)[j.val] = if i = j then f v[j.val] else v[j.val] := by
  unfold update
  by_cases h : i = j
  · subst h; simp
  · have h' : i.val ≠ j.val := fun e => h (Fin.ext e)
    simp [h, h']

@[simp] theorem getElem_update_same (v : Vector α n) (i : Fin n) (f : α → α) : (update v i f)[i.val] = f v[i.val] := by
  simp [getElem_update]

theorem getElem_update_ne (v : Vector α n) {i j : Fin n} (f : α → α) (h : i ≠ j) : (update v i f)[j.val] = v[j.val] := by
  simp [getElem_update, h]

@[simp] theorem getElem_updateAll (v : Vector α n) (f : α → α) (j : Fin n) : (updateAll v f)[j.val] = f v[j.val] := by
  obtain ⟨⟨l⟩, h⟩ := v
  simp [updateAll, Vector.getElem_mk]

theorem vector_ext {v w : Vector α n} (h : ∀ j : Fin n, v[j.val] = w[j.val]) : v = w :=
  Vector.ext fun i hi => h ⟨i, hi⟩

theorem update_eq_self (v : Vector α n) (i : Fin n) (f : α → α) (h : f v[i.val] = v[i.val]) : update v i f = v :=
  vector_ext fun j => by
    rw [getElem_update]; split
    · next e => subst e; exact h
    · rfl

theorem update_update (v : Vector α n) (i : Fin n) (f g : α → α) :
    update (update v i f) i g = update v i fun x => g (f x) :=
  vector_ext fun j => by simp only [getElem_update]; split <;> simp_all

end vectors

variable (s : State)

/-! ## Two states with equal records are equal -/

theorem state_ext {s t : State} (hp : ∀ p, s.port p = t.port p) (he : s.exchange = t.exchange)
    (ht : ∀ i, s.topic i = t.topic i) (hs : ∀ i, s.subscription i = t.subscription i)
    (hf : ∀ i, s.fetch i = t.fetch i) (hb : ∀ b, s.buffer b = t.buffer b) (ha : s.params = t.params)
    (hr : s.readySequence = t.readySequence) (ho : s.readyOrder = t.readyOrder) (hd : s.divider = t.divider)
    (hq : s.pending = t.pending) : s = t := by
  cases s; cases t
  have h1 := vector_ext hp
  have h2 := vector_ext ht
  have h3 := vector_ext hs
  have h4 := vector_ext hf
  have h5 := vector_ext hb
  simp_all

/-! ## One port -/

@[simp] theorem port_modPort_same (p : Port) (f : PortRecord → PortRecord) : (s.modPort p f).port p = f (s.port p) := by
  simp [State.port, State.modPort]

theorem port_modPort (p q : Port) (f : PortRecord → PortRecord) :
    (s.modPort p f).port q = if p = q then f (s.port q) else s.port q := by
  simp [State.port, State.modPort, getElem_update]

theorem port_modPort_ne {p q : Port} (f : PortRecord → PortRecord) (h : p ≠ q) : (s.modPort p f).port q = s.port q := by
  simp [port_modPort, h]

/-- A change of a port's record matters only at the record that stands there. -/
theorem modPort_congr {p : Port} {f g : PortRecord → PortRecord} (h : f (s.port p) = g (s.port p)) :
    s.modPort p f = s.modPort p g := by
  simp only [State.modPort, update]; simp only [State.port] at h; rw [h]

theorem modPort_modPort (p : Port) (f g : PortRecord → PortRecord) :
    (s.modPort p f).modPort p g = s.modPort p fun r => g (f r) := by
  simp [State.modPort, update_update]

/-! ## One post slot -/

theorem slot_def (x : SlotName) : s.slot x = (s.port x.owner).slots[x.number.val] := rfl

@[simp] theorem slot_modSlot_same (x : SlotName) (f : Slot → Slot) : (s.modSlot x f).slot x = f (s.slot x) := by
  simp [State.slot, State.modSlot]

theorem slot_modSlot (x y : SlotName) (f : Slot → Slot) :
    (s.modSlot x f).slot y = if x = y then f (s.slot y) else s.slot y := by
  obtain ⟨p, k⟩ := x
  obtain ⟨q, l⟩ := y
  by_cases hp : p = q
  · subst hp; by_cases hk : k = l <;> simp [State.slot, State.modSlot, getElem_update, hk]
  · simp [State.slot, State.modSlot, port_modPort_ne s _ hp, hp]

/-- A change of a slot matters only at the record that stands there. -/
theorem modSlot_congr {x : SlotName} {f g : Slot → Slot} (h : f (s.slot x) = g (s.slot x)) :
    s.modSlot x f = s.modSlot x g := by
  refine modPort_congr s ?_
  simp only [update]; simp only [State.slot] at h; rw [h]

theorem modSlot_modSlot (x : SlotName) (f g : Slot → Slot) :
    (s.modSlot x f).modSlot x g = s.modSlot x fun k => g (f k) := by
  simp [State.modSlot, modPort_modPort, update_update]

theorem slot_modSlot_ne {x y : SlotName} (f : Slot → Slot) (h : x ≠ y) : (s.modSlot x f).slot y = s.slot y := by
  simp [slot_modSlot, h]

/-- A change of a port's record that leaves its slots alone leaves every slot alone. -/
theorem slot_modPort {p : Port} {f : PortRecord → PortRecord} (h : ∀ r, (f r).slots = r.slots) (y : SlotName) :
    (s.modPort p f).slot y = s.slot y := by
  simp only [State.slot, port_modPort]; split <;> simp [h]

theorem port_modSlot (x : SlotName) (f : Slot → Slot) (q : Port) :
    (s.modSlot x f).port q =
      if x.owner = q then { s.port q with slots := update (s.port q).slots x.number f } else s.port q := by
  simp [State.modSlot, port_modPort]

theorem port_modSlot_ne {x : SlotName} {q : Port} (f : Slot → Slot) (h : x.owner ≠ q) :
    (s.modSlot x f).port q = s.port q := by
  simp [port_modSlot, h]

/-! ## One record of the other tables -/

theorem topic_modTopic (i j : RecordNo) (f : TopicRecord → TopicRecord) :
    (s.modTopic i f).topic j = if i = j then f (s.topic j) else s.topic j := by
  simp [State.topic, State.modTopic, getElem_update]

@[simp] theorem topic_modTopic_same (i : RecordNo) (f : TopicRecord → TopicRecord) :
    (s.modTopic i f).topic i = f (s.topic i) := by
  simp [topic_modTopic]

theorem subscription_modSubscription (i j : SubIndex) (f : Subscription → Subscription) :
    (s.modSubscription i f).subscription j = if i = j then f (s.subscription j) else s.subscription j := by
  simp [State.subscription, State.modSubscription, getElem_update]

theorem fetch_setFetch (i j : FetchId) (e : Option WaitingFetch) :
    (s.setFetch i e).fetch j = if i = j then e else s.fetch j := by
  simp [State.fetch, State.setFetch, getElem_update]

@[simp] theorem fetch_setFetch_same (i : FetchId) (e : Option WaitingFetch) : (s.setFetch i e).fetch i = e := by
  simp [fetch_setFetch]

theorem buffer_modBuffer (b c : BufferNo) (f : Buffer → Buffer) :
    (s.modBuffer b f).buffer c = if b = c then f (s.buffer c) else s.buffer c := by
  simp [State.buffer, State.modBuffer, getElem_update]

@[simp] theorem buffer_modBuffer_same (b : BufferNo) (f : Buffer → Buffer) :
    (s.modBuffer b f).buffer b = f (s.buffer b) := by
  simp [buffer_modBuffer]

/-! ## Fields an update leaves alone -/

@[simp] theorem exchange_modPort (p : Port) (f : PortRecord → PortRecord) : (s.modPort p f).exchange = s.exchange := rfl
@[simp] theorem topics_modPort (p : Port) (f : PortRecord → PortRecord) : (s.modPort p f).topics = s.topics := rfl
@[simp] theorem subscriptions_modPort (p : Port) (f : PortRecord → PortRecord) : (s.modPort p f).subscriptions = s.subscriptions := rfl
@[simp] theorem fetches_modPort (p : Port) (f : PortRecord → PortRecord) : (s.modPort p f).fetches = s.fetches := rfl
@[simp] theorem pool_modPort (p : Port) (f : PortRecord → PortRecord) : (s.modPort p f).pool = s.pool := rfl
@[simp] theorem params_modPort (p : Port) (f : PortRecord → PortRecord) : (s.modPort p f).params = s.params := rfl
@[simp] theorem readySequence_modPort (p : Port) (f : PortRecord → PortRecord) : (s.modPort p f).readySequence = s.readySequence := rfl
@[simp] theorem readyOrder_modPort (p : Port) (f : PortRecord → PortRecord) : (s.modPort p f).readyOrder = s.readyOrder := rfl
@[simp] theorem divider_modPort (p : Port) (f : PortRecord → PortRecord) : (s.modPort p f).divider = s.divider := rfl
@[simp] theorem pending_modPort (p : Port) (f : PortRecord → PortRecord) : (s.modPort p f).pending = s.pending := rfl
@[simp] theorem topic_modPort (p : Port) (f : PortRecord → PortRecord) (j : RecordNo) :
    (s.modPort p f).topic j = s.topic j := rfl
@[simp] theorem subscription_modPort (p : Port) (f : PortRecord → PortRecord) (j : SubIndex) :
    (s.modPort p f).subscription j = s.subscription j := rfl
@[simp] theorem fetch_modPort (p : Port) (f : PortRecord → PortRecord) (j : FetchId) :
    (s.modPort p f).fetch j = s.fetch j := rfl
@[simp] theorem buffer_modPort (p : Port) (f : PortRecord → PortRecord) (c : BufferNo) :
    (s.modPort p f).buffer c = s.buffer c := rfl

@[simp] theorem exchange_modSlot (x : SlotName) (f : Slot → Slot) : (s.modSlot x f).exchange = s.exchange := rfl
@[simp] theorem topics_modSlot (x : SlotName) (f : Slot → Slot) : (s.modSlot x f).topics = s.topics := rfl
@[simp] theorem subscriptions_modSlot (x : SlotName) (f : Slot → Slot) : (s.modSlot x f).subscriptions = s.subscriptions := rfl
@[simp] theorem fetches_modSlot (x : SlotName) (f : Slot → Slot) : (s.modSlot x f).fetches = s.fetches := rfl
@[simp] theorem pool_modSlot (x : SlotName) (f : Slot → Slot) : (s.modSlot x f).pool = s.pool := rfl
@[simp] theorem params_modSlot (x : SlotName) (f : Slot → Slot) : (s.modSlot x f).params = s.params := rfl
@[simp] theorem readySequence_modSlot (x : SlotName) (f : Slot → Slot) : (s.modSlot x f).readySequence = s.readySequence := rfl
@[simp] theorem readyOrder_modSlot (x : SlotName) (f : Slot → Slot) : (s.modSlot x f).readyOrder = s.readyOrder := rfl
@[simp] theorem divider_modSlot (x : SlotName) (f : Slot → Slot) : (s.modSlot x f).divider = s.divider := rfl
@[simp] theorem pending_modSlot (x : SlotName) (f : Slot → Slot) : (s.modSlot x f).pending = s.pending := rfl
@[simp] theorem topic_modSlot (x : SlotName) (f : Slot → Slot) (j : RecordNo) :
    (s.modSlot x f).topic j = s.topic j := rfl
@[simp] theorem subscription_modSlot (x : SlotName) (f : Slot → Slot) (j : SubIndex) :
    (s.modSlot x f).subscription j = s.subscription j := rfl
@[simp] theorem fetch_modSlot (x : SlotName) (f : Slot → Slot) (j : FetchId) :
    (s.modSlot x f).fetch j = s.fetch j := rfl
@[simp] theorem buffer_modSlot (x : SlotName) (f : Slot → Slot) (c : BufferNo) :
    (s.modSlot x f).buffer c = s.buffer c := rfl

@[simp] theorem ports_modTopic (i : RecordNo) (f : TopicRecord → TopicRecord) : (s.modTopic i f).ports = s.ports := rfl
@[simp] theorem exchange_modTopic (i : RecordNo) (f : TopicRecord → TopicRecord) : (s.modTopic i f).exchange = s.exchange := rfl
@[simp] theorem subscriptions_modTopic (i : RecordNo) (f : TopicRecord → TopicRecord) : (s.modTopic i f).subscriptions = s.subscriptions := rfl
@[simp] theorem fetches_modTopic (i : RecordNo) (f : TopicRecord → TopicRecord) : (s.modTopic i f).fetches = s.fetches := rfl
@[simp] theorem pool_modTopic (i : RecordNo) (f : TopicRecord → TopicRecord) : (s.modTopic i f).pool = s.pool := rfl
@[simp] theorem params_modTopic (i : RecordNo) (f : TopicRecord → TopicRecord) : (s.modTopic i f).params = s.params := rfl
@[simp] theorem readySequence_modTopic (i : RecordNo) (f : TopicRecord → TopicRecord) : (s.modTopic i f).readySequence = s.readySequence := rfl
@[simp] theorem readyOrder_modTopic (i : RecordNo) (f : TopicRecord → TopicRecord) : (s.modTopic i f).readyOrder = s.readyOrder := rfl
@[simp] theorem divider_modTopic (i : RecordNo) (f : TopicRecord → TopicRecord) : (s.modTopic i f).divider = s.divider := rfl
@[simp] theorem pending_modTopic (i : RecordNo) (f : TopicRecord → TopicRecord) : (s.modTopic i f).pending = s.pending := rfl
@[simp] theorem port_modTopic (i : RecordNo) (f : TopicRecord → TopicRecord) (q : Port) :
    (s.modTopic i f).port q = s.port q := rfl
@[simp] theorem slot_modTopic (i : RecordNo) (f : TopicRecord → TopicRecord) (y : SlotName) :
    (s.modTopic i f).slot y = s.slot y := rfl
@[simp] theorem subscription_modTopic (i : RecordNo) (f : TopicRecord → TopicRecord) (j : SubIndex) :
    (s.modTopic i f).subscription j = s.subscription j := rfl
@[simp] theorem fetch_modTopic (i : RecordNo) (f : TopicRecord → TopicRecord) (j : FetchId) :
    (s.modTopic i f).fetch j = s.fetch j := rfl
@[simp] theorem buffer_modTopic (i : RecordNo) (f : TopicRecord → TopicRecord) (c : BufferNo) :
    (s.modTopic i f).buffer c = s.buffer c := rfl

@[simp] theorem ports_modSubscription (i : SubIndex) (f : Subscription → Subscription) : (s.modSubscription i f).ports = s.ports := rfl
@[simp] theorem exchange_modSubscription (i : SubIndex) (f : Subscription → Subscription) : (s.modSubscription i f).exchange = s.exchange := rfl
@[simp] theorem topics_modSubscription (i : SubIndex) (f : Subscription → Subscription) : (s.modSubscription i f).topics = s.topics := rfl
@[simp] theorem fetches_modSubscription (i : SubIndex) (f : Subscription → Subscription) : (s.modSubscription i f).fetches = s.fetches := rfl
@[simp] theorem pool_modSubscription (i : SubIndex) (f : Subscription → Subscription) : (s.modSubscription i f).pool = s.pool := rfl
@[simp] theorem params_modSubscription (i : SubIndex) (f : Subscription → Subscription) : (s.modSubscription i f).params = s.params := rfl
@[simp] theorem readySequence_modSubscription (i : SubIndex) (f : Subscription → Subscription) : (s.modSubscription i f).readySequence = s.readySequence := rfl
@[simp] theorem readyOrder_modSubscription (i : SubIndex) (f : Subscription → Subscription) : (s.modSubscription i f).readyOrder = s.readyOrder := rfl
@[simp] theorem divider_modSubscription (i : SubIndex) (f : Subscription → Subscription) : (s.modSubscription i f).divider = s.divider := rfl
@[simp] theorem pending_modSubscription (i : SubIndex) (f : Subscription → Subscription) : (s.modSubscription i f).pending = s.pending := rfl
@[simp] theorem port_modSubscription (i : SubIndex) (f : Subscription → Subscription) (q : Port) :
    (s.modSubscription i f).port q = s.port q := rfl
@[simp] theorem slot_modSubscription (i : SubIndex) (f : Subscription → Subscription) (y : SlotName) :
    (s.modSubscription i f).slot y = s.slot y := rfl
@[simp] theorem topic_modSubscription (i : SubIndex) (f : Subscription → Subscription) (j : RecordNo) :
    (s.modSubscription i f).topic j = s.topic j := rfl
@[simp] theorem fetch_modSubscription (i : SubIndex) (f : Subscription → Subscription) (j : FetchId) :
    (s.modSubscription i f).fetch j = s.fetch j := rfl
@[simp] theorem buffer_modSubscription (i : SubIndex) (f : Subscription → Subscription) (c : BufferNo) :
    (s.modSubscription i f).buffer c = s.buffer c := rfl

@[simp] theorem ports_setFetch (i : FetchId) (e : Option WaitingFetch) : (s.setFetch i e).ports = s.ports := rfl
@[simp] theorem exchange_setFetch (i : FetchId) (e : Option WaitingFetch) : (s.setFetch i e).exchange = s.exchange := rfl
@[simp] theorem topics_setFetch (i : FetchId) (e : Option WaitingFetch) : (s.setFetch i e).topics = s.topics := rfl
@[simp] theorem subscriptions_setFetch (i : FetchId) (e : Option WaitingFetch) : (s.setFetch i e).subscriptions = s.subscriptions := rfl
@[simp] theorem pool_setFetch (i : FetchId) (e : Option WaitingFetch) : (s.setFetch i e).pool = s.pool := rfl
@[simp] theorem params_setFetch (i : FetchId) (e : Option WaitingFetch) : (s.setFetch i e).params = s.params := rfl
@[simp] theorem readySequence_setFetch (i : FetchId) (e : Option WaitingFetch) : (s.setFetch i e).readySequence = s.readySequence := rfl
@[simp] theorem readyOrder_setFetch (i : FetchId) (e : Option WaitingFetch) : (s.setFetch i e).readyOrder = s.readyOrder := rfl
@[simp] theorem divider_setFetch (i : FetchId) (e : Option WaitingFetch) : (s.setFetch i e).divider = s.divider := rfl
@[simp] theorem pending_setFetch (i : FetchId) (e : Option WaitingFetch) : (s.setFetch i e).pending = s.pending := rfl
@[simp] theorem port_setFetch (i : FetchId) (e : Option WaitingFetch) (q : Port) :
    (s.setFetch i e).port q = s.port q := rfl
@[simp] theorem slot_setFetch (i : FetchId) (e : Option WaitingFetch) (y : SlotName) :
    (s.setFetch i e).slot y = s.slot y := rfl
@[simp] theorem topic_setFetch (i : FetchId) (e : Option WaitingFetch) (j : RecordNo) :
    (s.setFetch i e).topic j = s.topic j := rfl
@[simp] theorem subscription_setFetch (i : FetchId) (e : Option WaitingFetch) (j : SubIndex) :
    (s.setFetch i e).subscription j = s.subscription j := rfl
@[simp] theorem buffer_setFetch (i : FetchId) (e : Option WaitingFetch) (c : BufferNo) :
    (s.setFetch i e).buffer c = s.buffer c := rfl

@[simp] theorem ports_modBuffer (b : BufferNo) (f : Buffer → Buffer) : (s.modBuffer b f).ports = s.ports := rfl
@[simp] theorem exchange_modBuffer (b : BufferNo) (f : Buffer → Buffer) : (s.modBuffer b f).exchange = s.exchange := rfl
@[simp] theorem topics_modBuffer (b : BufferNo) (f : Buffer → Buffer) : (s.modBuffer b f).topics = s.topics := rfl
@[simp] theorem subscriptions_modBuffer (b : BufferNo) (f : Buffer → Buffer) : (s.modBuffer b f).subscriptions = s.subscriptions := rfl
@[simp] theorem fetches_modBuffer (b : BufferNo) (f : Buffer → Buffer) : (s.modBuffer b f).fetches = s.fetches := rfl
@[simp] theorem params_modBuffer (b : BufferNo) (f : Buffer → Buffer) : (s.modBuffer b f).params = s.params := rfl
@[simp] theorem readySequence_modBuffer (b : BufferNo) (f : Buffer → Buffer) : (s.modBuffer b f).readySequence = s.readySequence := rfl
@[simp] theorem readyOrder_modBuffer (b : BufferNo) (f : Buffer → Buffer) : (s.modBuffer b f).readyOrder = s.readyOrder := rfl
@[simp] theorem divider_modBuffer (b : BufferNo) (f : Buffer → Buffer) : (s.modBuffer b f).divider = s.divider := rfl
@[simp] theorem pending_modBuffer (b : BufferNo) (f : Buffer → Buffer) : (s.modBuffer b f).pending = s.pending := rfl
@[simp] theorem port_modBuffer (b : BufferNo) (f : Buffer → Buffer) (q : Port) :
    (s.modBuffer b f).port q = s.port q := rfl
@[simp] theorem slot_modBuffer (b : BufferNo) (f : Buffer → Buffer) (y : SlotName) :
    (s.modBuffer b f).slot y = s.slot y := rfl
@[simp] theorem topic_modBuffer (b : BufferNo) (f : Buffer → Buffer) (j : RecordNo) :
    (s.modBuffer b f).topic j = s.topic j := rfl
@[simp] theorem subscription_modBuffer (b : BufferNo) (f : Buffer → Buffer) (j : SubIndex) :
    (s.modBuffer b f).subscription j = s.subscription j := rfl
@[simp] theorem fetch_modBuffer (b : BufferNo) (f : Buffer → Buffer) (j : FetchId) :
    (s.modBuffer b f).fetch j = s.fetch j := rfl

/-! ## A slot of a port whose other fields change -/

section portFields
variable (x : SlotName) (f : Slot → Slot) (q : Port)

@[simp] theorem strap_modSlot : ((s.modSlot x f).port q).strap = (s.port q).strap := by
  rw [port_modSlot]; split <;> rfl
@[simp] theorem receiver_modSlot : ((s.modSlot x f).port q).receiver = (s.port q).receiver := by
  rw [port_modSlot]; split <;> rfl
@[simp] theorem inProgress_modSlot : ((s.modSlot x f).port q).inProgress = (s.port q).inProgress := by
  rw [port_modSlot]; split <;> rfl
@[simp] theorem response_modSlot : ((s.modSlot x f).port q).response = (s.port q).response := by
  rw [port_modSlot]; split <;> rfl
@[simp] theorem score_modSlot : ((s.modSlot x f).port q).score = (s.port q).score := by
  rw [port_modSlot]; split <;> rfl
@[simp] theorem lastFault_modSlot : ((s.modSlot x f).port q).lastFault = (s.port q).lastFault := by
  rw [port_modSlot]; split <;> rfl
@[simp] theorem state_modSlot : ((s.modSlot x f).port q).state = (s.port q).state := by
  rw [port_modSlot]; split <;> rfl
@[simp] theorem hold_modSlot : ((s.modSlot x f).port q).hold = (s.port q).hold := by
  rw [port_modSlot]; split <;> rfl
@[simp] theorem queue_modSlot : ((s.modSlot x f).port q).queue = (s.port q).queue := by
  rw [port_modSlot]; split <;> rfl
@[simp] theorem deferral_modSlot : ((s.modSlot x f).port q).deferral = (s.port q).deferral := by
  rw [port_modSlot]; split <;> rfl
@[simp] theorem noticesMissed_modSlot : ((s.modSlot x f).port q).noticesMissed = (s.port q).noticesMissed := by
  rw [port_modSlot]; split <;> rfl
@[simp] theorem solicits_modSlot : ((s.modSlot x f).port q).solicits = (s.port q).solicits := by
  rw [port_modSlot]; split <;> rfl
@[simp] theorem view_modSlot : ((s.modSlot x f).port q).view = (s.port q).view := by
  rw [port_modSlot]; split <;> rfl
@[simp] theorem mask_modSlot : ((s.modSlot x f).port q).mask = (s.port q).mask := by
  rw [port_modSlot]; split <;> rfl
@[simp] theorem output_modSlot : ((s.modSlot x f).port q).output = (s.port q).output := by
  rw [port_modSlot]; split <;> rfl

end portFields

end Sys2Proof.Machine
end

