-- ==== Sys2Proof/Laws/Requests.lean ====
section
/-! SUPPORT. What the handling of a request can do (R118, R128, R139), and how argument bytes read back as the values
they were written from (R168). -/
namespace Sys2Proof.Machine

/-! ## Handling -/

section handling
variable {s : State} {p : Port} {c : RequestName} {tag : Byte} {args : List Byte} {act : List Byte → State → Reply}

/-- A request that suits the port state is handed to its owner, and completes with what the owner replies. -/
theorem handleRequest_taken (h : InProgress s p c tag args) (ht : stateRefusal c (s.port p).state = none) :
    handleRequest p c act s =
      complete p tag (act args s).result (act args s).body (act args s).state := by
  simp [handleRequest, InProgress] at *; simp [h, ht]

/-- A request that does not suit the port state is refused before its owner sees it. -/
theorem handleRequest_refused {e : Result} (h : InProgress s p c tag args)
    (ht : stateRefusal c (s.port p).state = some e) : handleRequest p c act s = complete p tag e [] s := by
  simp [handleRequest, InProgress] at *; simp [h, ht]

/-- A request whose port was quarantined since its take completes with QUARANTINED and does not act. -/
theorem handleRequest_cut {q : Request} (h : (s.port p).inProgress = some q) (hn : q.name = c) (hc : q.cut = true) :
    handleRequest p c act s = complete p q.tag .quarantined [] s := by
  simp [handleRequest, h, hn, hc]

/-- Where the request does not stand in progress, nothing happens. -/
theorem handleRequest_absent (h : ∀ q, (s.port p).inProgress = some q → q.name ≠ c) :
    handleRequest p c act s = s := by
  unfold handleRequest
  split
  · rfl
  · next q hq => rw [if_neg (h q hq)]

/-- Everything the handling of a request can do. -/
theorem handleRequest_cases (p : Port) (c : RequestName) (act : List Byte → State → Reply) (s : State) :
    handleRequest p c act s = s ∨
      (∃ q r, (s.port p).inProgress = some q ∧ q.name = c ∧
        (r = .quarantined ∨ stateRefusal c (s.port p).state = some r) ∧
        handleRequest p c act s = complete p q.tag r [] s) ∨
      ∃ q, (s.port p).inProgress = some q ∧ q.name = c ∧ q.cut = false ∧
        stateRefusal c (s.port p).state = none ∧
        handleRequest p c act s =
          complete p q.tag (act q.arguments s).result (act q.arguments s).body (act q.arguments s).state := by
  unfold handleRequest
  split
  · exact .inl rfl
  · next q hq =>
    by_cases hn : q.name = c
    · rw [if_pos hn]
      cases hcut : q.cut
      · simp only [Bool.false_eq_true, ↓reduceIte]
        split
        · next e he => exact .inr (.inl ⟨q, e, hq, hn, .inr he, rfl⟩)
        · next he => exact .inr (.inr ⟨q, hq, hn, hcut, he, rfl⟩)
      · exact .inr (.inl ⟨q, _, hq, hn, .inl rfl, rfl⟩)
    · rw [if_neg hn]; exact .inl rfl

/-- The rows of Table 7-1, read one request at a time. -/
theorem stateRefusal_eq (c : RequestName) (st : PortState) : stateRefusal c st = tableSevenOne c st := by
  cases c <;> cases st <;> rfl

/-- The rows of Table 7-1 for a port that is ONLINE: only JOIN and RECOVER are refused. -/
theorem stateRefusal_online (h : c ≠ .join) (h' : c ≠ .recover) : stateRefusal c .online = none := by
  cases c <;> first | rfl | contradiction

end handling

/-! ## Completion -/

section completion
variable (p q : Port) (tag : Byte) (res : Result) (body : List Byte) (s : State)

@[simp] theorem complete_response : ((complete p tag res body s).port p).response = .ready (mkResponse tag res body) := by
  simp [complete]
@[simp] theorem complete_inProgress : ((complete p tag res body s).port p).inProgress = none := by simp [complete]
theorem complete_port_ne (h : p ≠ q) : (complete p tag res body s).port q = s.port q := by
  simp [complete, port_modPort_ne, h]
@[simp] theorem complete_slot (x : SlotName) : (complete p tag res body s).slot x = s.slot x :=
  slot_modPort s (f := fun r => { r with inProgress := none, response := .ready (mkResponse tag res body) }) (fun _ => rfl) x
@[simp] theorem complete_topic (i : RecordNo) : (complete p tag res body s).topic i = s.topic i := rfl
@[simp] theorem complete_subscription (i : SubIndex) : (complete p tag res body s).subscription i = s.subscription i := rfl
@[simp] theorem complete_fetch (i : FetchId) : (complete p tag res body s).fetch i = s.fetch i := rfl
@[simp] theorem complete_buffer (b : BufferNo) : (complete p tag res body s).buffer b = s.buffer b := rfl
@[simp] theorem complete_params : (complete p tag res body s).params = s.params := rfl
@[simp] theorem complete_exchange : (complete p tag res body s).exchange = s.exchange := rfl
@[simp] theorem complete_pending : (complete p tag res body s).pending = s.pending := rfl
@[simp] theorem complete_readyOrder : (complete p tag res body s).readyOrder = s.readyOrder := rfl
@[simp] theorem complete_readySequence : (complete p tag res body s).readySequence = s.readySequence := rfl
@[simp] theorem complete_divider : (complete p tag res body s).divider = s.divider := rfl

/-- What a completion leaves of a port's record. -/
theorem complete_port : (complete p tag res body s).port q =
    if p = q then { s.port q with inProgress := none, response := .ready (mkResponse tag res body) } else s.port q := by
  simp [complete, port_modPort]

end completion

/-! ## Argument bytes -/

@[simp] theorem wordOf_bytes (w : Word) : wordOf (w.extractLsb' 0 8) (w.extractLsb' 8 8) = w := by
  unfold wordOf; apply BitVec.eq_of_getLsbD_eq; intro i hi
  rw [BitVec.getLsbD_append]; simp; split <;> simp_all; omega

@[simp] theorem argByte_zero (a : Byte) (l : List Byte) : argByte (a :: l) 0 = a := rfl
@[simp] theorem argByte_succ (a : Byte) (l : List Byte) (i : Nat) : argByte (a :: l) (i + 1) = argByte l i := by
  simp [argByte]

theorem argWord_wordBytes (w : Word) (l : List Byte) : argWord (wordBytes w ++ l) 0 = w := by
  simp [argWord, wordBytes, argByte]

@[simp] theorem argWord_zero (a b : Byte) (l : List Byte) : argWord (a :: b :: l) 0 = wordOf a b := rfl
@[simp] theorem argWord_succ (a : Byte) (l : List Byte) (i : Nat) : argWord (a :: l) (i + 1) = argWord l i := by
  simp [argWord]

/-- A slot argument names the slot of its value. -/
theorem argSlot_of {slot : Byte} {k : SlotNo} (p : Port) (l : List Byte) (h : slot.toNat = k.val) :
    argSlot (slot :: l) p = some ⟨p, k⟩ := by
  simp [argSlot, indexBelow, h]

/-- A slot argument above 3 names no slot. -/
theorem argSlot_none {slot : Byte} (p : Port) (l : List Byte) (h : 3 < slot.toNat) :
    argSlot (slot :: l) p = none := by
  have : ¬ slot.toNat < 4 := by omega
  simp [argSlot, indexBelow, this]

/-- The numbers that name a topic (section 1.1). -/
theorem isTopicNumber_iff (t : Word) : isTopicNumber t = true ↔ t ≠ 0 ∧ t ≠ 65535 := by
  simp [isTopicNumber]

theorem isTopicNumber_false {t : Word} (h : t = 0 ∨ t = 65535) : isTopicNumber t = false := by
  rcases h with rfl | rfl <;> rfl

end Sys2Proof.Machine
end

