-- ==== Sys2Proof/Laws/Acts.lean ====
section
/-! SUPPORT. What the owner of each request can do to the state: it leaves it alone, or it changes it in the one way its
rule gives, under the conditions its checks leave. One inversion lemma per request that changes anything beside the
response. -/
namespace Sys2Proof.Machine

variable (p : Port) (args : List Byte) (s : State)

@[simp] theorem state_refuse (e : Result) : (refuse e s).state = s := rfl
@[simp] theorem state_accept : (accept s).state = s := rfl

theorem state_actLeave : (actLeave p args s).state = leavePort p s := by dsimp only [actLeave]

theorem state_actRecover : (actRecover p args s).state = s ∨ ((s.port p).hold = .expired ∧
    (actRecover p args s).state =
      s.modPort p fun r => { r with state := .offline, score := 0, hold := .stopped }) := by
  unfold actRecover; split
  · next h => exact .inr ⟨h, rfl⟩
  · exact .inl rfl

theorem state_actSetParam : (actSetParam args s).state = s ∨
    ∃ i v, i.inRange v = true ∧ s.exchange = .setup ∧ (actSetParam args s).state = setParameter i v s := by
  unfold actSetParam; split
  · exact .inl rfl
  · next i _ =>
    split
    · next hv =>
      split
      · exact .inl rfl
      · next he => exact .inr ⟨i, _, hv, by cases h : s.exchange <;> simp_all, rfl⟩
    · exact .inl rfl

theorem state_actGetParam : (actGetParam args s).state = s := by unfold actGetParam; split <;> rfl

theorem state_actSetAttnMask : (actSetAttnMask p args s).state = s ∨
    ∃ m, (actSetAttnMask p args s).state = s.modPort p fun r => { r with mask := m } := by
  unfold actSetAttnMask; split
  · exact .inr ⟨_, rfl⟩
  · exact .inl rfl

/-- A DECLARE leaves the directory alone, or makes a new record, or changes the limit and timer of the port's own record,
or adopts an ORPHANED one (R11 to R14). -/
theorem state_actDeclare : (actDeclare p args s).state = s ∨
    ∃ t kind limit, declareValid t kind limit = true ∧
      ((∃ i, findTopic s t = none ∧ lowestFreeRecord s = some i ∧
          (actDeclare p args s).state = s.modTopic i fun _ => TopicRecord.declared t kind p limit) ∨
       (∃ i, findTopic s t = some i ∧ (s.topic i).state = .declared ∧ (s.topic i).producer = some p ∧
          (s.topic i).kind = kind ∧
          (actDeclare p args s).state = s.modTopic i fun _ => (s.topic i).redeclared limit) ∨
       (∃ i, findTopic s t = some i ∧ (s.topic i).state ≠ .declared ∧ kind = .state ∧
          (actDeclare p args s).state = s.modTopic i fun _ => (s.topic i).adopted p limit)) := by
  unfold actDeclare
  split
  · exact .inl rfl
  next kind _ =>
  split
  case isFalse => exact .inl rfl
  next hv =>
  unfold declareTopic
  split
  · next hf =>
    split
    · exact .inl rfl
    · next i hi => exact .inr ⟨_, _, _, hv, .inl ⟨i, hf, hi, rfl⟩⟩
  · next i hf =>
    dsimp only
    split
    · next hd =>
      split
      · exact .inl rfl
      · next hp =>
        split
        · next hk => exact .inr ⟨_, _, _, hv, .inr (.inl ⟨i, hf, hd, by simpa using hp, hk, rfl⟩)⟩
        · exact .inl rfl
    · next hd =>
      split
      · exact .inr ⟨_, _, _, hv, .inr (.inr ⟨i, hf, hd, rfl, rfl⟩)⟩
      · exact .inl rfl

theorem state_actRetire : (actRetire p args s).state = s ∨
    ∃ t i, isTopicNumber t = true ∧ findTopic s t = some i ∧ (s.topic i).state = .declared ∧
      (s.topic i).producer = some p ∧ topicBusy s t = false ∧ (actRetire p args s).state = retireRecord p i s := by
  unfold actRetire; dsimp only; split
  · exact .inl rfl
  next ht =>
  split
  · exact .inl rfl
  next i hf =>
  split
  · exact .inl rfl
  next hp =>
  split
  · exact .inl rfl
  next hb => exact .inr ⟨_, i, by simpa using ht, hf, by simpa using (not_or.1 hp).1, by simpa using (not_or.1 hp).2,
    by simpa using hb, rfl⟩

theorem state_actPurge : (actPurge args s).state = s ∨
    ∃ t i, isTopicNumber t = true ∧ findTopic s t = some i ∧ (s.topic i).state ≠ .declared ∧ topicBusy s t = false ∧
      (actPurge args s).state = freeRecord i s := by
  unfold actPurge; dsimp only; split
  · exact .inl rfl
  next ht =>
  split
  · exact .inl rfl
  next i hf =>
  split
  · exact .inl rfl
  next hd =>
  split
  · exact .inl rfl
  next hb => exact .inr ⟨_, i, by simpa using ht, hf, hd, by simpa using hb, rfl⟩

theorem state_actTopicInfo : (actTopicInfo args s).state = s := by
  unfold actTopicInfo; dsimp only; split
  · rfl
  · split <;> rfl

theorem state_actSubscribe : (actSubscribe p args s).state = s ∨
    ∃ i pattern mask options, ownedSubscriptions s p < 24 ∧ lowestFreeSubscription s = some i ∧
      (actSubscribe p args s).state = s.modSubscription i fun _ => Subscription.ofRequest p pattern mask options := by
  unfold actSubscribe; split
  · exact .inl rfl
  split
  · exact .inl rfl
  next hq =>
  split
  · exact .inl rfl
  next i hi => exact .inr ⟨i, _, _, _, by simpa using hq, hi, rfl⟩

theorem state_actUnsubscribe : (actUnsubscribe p args s).state = s ∨
    ∃ i, (s.subscription i).active = true ∧ (s.subscription i).owner = p ∧
      (actUnsubscribe p args s).state = s.modSubscription i fun _ => Subscription.reset := by
  unfold actUnsubscribe; split
  · exact .inl rfl
  next i _ =>
  split
  · exact .inl rfl
  next ha =>
  split
  · exact .inl rfl
  next ho => exact .inr ⟨i, by simpa using ha, by simpa using ho, rfl⟩

/-- A slot argument names a slot of the port. -/
theorem argSlot_owner {args : List Byte} {p : Port} {x : SlotName} (h : argSlot args p = some x) : x.owner = p := by
  unfold argSlot at h; obtain ⟨k, _, rfl⟩ := Option.map_eq_some_iff.1 h; rfl

theorem state_actOpenPost : (actOpenPost p args s).state = s ∨
    ∃ x t priority i b, x.owner = p ∧ isTopicNumber t = true ∧ priority ≤ 3 ∧ (s.slot x).state = .empty ∧
      findTopic s t = some i ∧ (s.topic i).state = .declared ∧ (s.topic i).producer = some p ∧
      lowestFreeBuffer s = some b ∧ (actOpenPost p args s).state = openSlot x t priority b s := by
  unfold actOpenPost; split
  · exact .inl rfl
  next x hx =>
  split
  case isFalse => exact .inl rfl
  next ha =>
  unfold openPost; split
  · exact .inl rfl
  next he =>
  split
  · exact .inl rfl
  next i hf =>
  split
  · exact .inl rfl
  next hp =>
  split
  · exact .inl rfl
  next b hb =>
  rw [Bool.and_eq_true] at ha
  have ho := argSlot_owner hx
  exact .inr ⟨x, _, _, i, b, ho, ha.1, by simpa using ha.2, by simpa using he, hf, by simpa using (not_or.1 hp).1,
    by rw [← ho]; simpa using (not_or.1 hp).2, hb, rfl⟩

theorem state_actWritePayload : (actWritePayload p args s).state = s ∨
    ∃ x offset data, x.owner = p ∧ offset + List.length data ≤ 64 ∧ (s.slot x).state = .loading ∧
      (actWritePayload p args s).state = writePayload x offset data s := by
  unfold actWritePayload; dsimp only; split
  · exact .inl rfl
  next x hx =>
  split
  · exact .inl rfl
  next hle =>
  split
  · exact .inl rfl
  next hl => exact .inr ⟨x, _, _, argSlot_owner hx, by simpa using hle, by simpa using hl, rfl⟩

theorem state_actSubmit : (actSubmit p args s).state = s ∨
    ∃ x, x.owner = p ∧ (s.slot x).state = .loading ∧ (actSubmit p args s).state = submitSlot x s := by
  unfold actSubmit; split
  · exact .inl rfl
  next x hx =>
  split
  · exact .inl rfl
  next hl => exact .inr ⟨x, argSlot_owner hx, by simpa using hl, rfl⟩

theorem state_actAbortPost : (actAbortPost p args s).state = s ∨ ∃ x, x.owner = p ∧
    (((s.slot x).state = .loading ∧ (actAbortPost p args s).state = emptySlot x s) ∨
     ((s.slot x).state = .ready ∧ (actAbortPost p args s).state = finishSlot x .aborted s) ∨
     ((s.slot x).state = .deferred ∧ (actAbortPost p args s).state = endDrains (endDeferred x .aborted s, [p]))) := by
  unfold actAbortPost; split
  · exact .inl rfl
  next x hx =>
  have ho := argSlot_owner hx
  split
  · exact .inl rfl
  · next h => exact .inr ⟨x, ho, .inl ⟨h, state_accept _⟩⟩
  · next h => exact .inr ⟨x, ho, .inr (.inl ⟨h, state_accept _⟩)⟩
  · next h => exact .inr ⟨x, ho, .inr (.inr ⟨h, state_accept _⟩)⟩
  · exact .inl rfl

theorem state_actSlotStatus : (actSlotStatus p args s).state = s := by unfold actSlotStatus; split <;> rfl

theorem state_actReleaseSlot : (actReleaseSlot p args s).state = s ∨
    ∃ x, x.owner = p ∧ (s.slot x).state = .done ∧ (actReleaseSlot p args s).state = emptySlot x s := by
  unfold actReleaseSlot; split
  · exact .inl rfl
  next x hx =>
  split
  · exact .inl rfl
  next hl => exact .inr ⟨x, argSlot_owner hx, by simpa using hl, rfl⟩

theorem state_actSetWindow : (actSetWindow p args s).state = s ∨
    ∃ start stop mode, start ≤ stop ∧ stop ≤ 71 ∧ (actSetWindow p args s).state = s.modPort p fun r =>
      { r with view := { start := start, stop := stop, mode := mode, cursor := start } } := by
  unfold actSetWindow; dsimp only; split
  · exact .inl rfl
  split
  · exact .inl rfl
  next h => exact .inr ⟨_, _, _, Nat.le_of_not_lt (not_or.1 h).2, Nat.le_of_not_lt (not_or.1 h).1, rfl⟩

theorem state_actReadView : (actReadView p args s).state = s ∨
    ∃ n, 1 ≤ n ∧ n ≤ 64 ∧ (actReadView p args s).state = (readBytes p n s []).1 := by
  unfold actReadView; dsimp only; split
  · exact .inl rfl
  next h =>
  exact .inr ⟨(argByte args 0).toNat, Nat.one_le_iff_ne_zero.2 (not_or.1 h).1, Nat.le_of_not_lt (not_or.1 h).2, rfl⟩

theorem state_actConsume : (actConsume p args s).state = s ∨
    ((s.port p).queue ≠ [] ∧ (actConsume p args s).state = consumeHead p s) := by
  unfold actConsume; split
  · exact .inl rfl
  next h => exact .inr ⟨by simpa using h, rfl⟩

/-- A FETCH leaves the state alone, gives its answer at once, or waits (R99 to R101). -/
theorem state_actFetch : (actFetch p args s).state = s ∨
    ∃ t, isTopicNumber t = true ∧ obligations s p < 4 ∧
      ((findTopic s t = none ∧
          (actFetch p args s).state = giveAnswer p (answerDelivery t .noTopic none 0 none) s) ∨
       (∃ i, findTopic s t = some i ∧ (s.topic i).state = .declared ∧ (s.topic i).kind = .state ∧
          (s.topic i).retained.isSome ∧ (s.topic i).stale = false ∧
          (actFetch p args s).state = giveAnswer p
            (answerDelivery t .retained (s.topic i).retained (s.topic i).version (s.topic i).producer) s) ∨
       (∃ i, findTopic s t = some i ∧ (s.topic i).state ≠ .declared ∧
          (actFetch p args s).state = giveAnswer p
            (answerDelivery t .stale (s.topic i).retained (s.topic i).valueVersion none) s) ∨
       (∃ i j wait, findTopic s t = some i ∧ (s.topic i).state = .declared ∧
          ¬ ((s.topic i).kind = .state ∧ (s.topic i).retained.isSome ∧ (s.topic i).stale = false) ∧
          lowestFreeFetch s = some j ∧
          (actFetch p args s).state = solicit (s.topic i).producer t
            (s.setFetch j (some { requester := p, topic := t, deadline := .running wait })))) := by
  unfold actFetch; dsimp only; split
  · exact .inl rfl
  next ha =>
  split
  · exact .inl rfl
  next ho =>
  have ht : isTopicNumber (argWord args 0) = true := by
    rw [Bool.or_eq_true, not_or] at ha; simpa using ha.1
  refine (?_ : _ ∨ _).imp id fun h => ⟨argWord args 0, ht, by simpa using ho, h⟩
  unfold fetchTopic; split
  · next hf => exact .inr (.inl ⟨hf, rfl⟩)
  · next i hf =>
    dsimp only
    split
    · next hd =>
      split
      · next hv => exact .inr (.inr (.inl ⟨i, hf, hd, hv.1, hv.2.1, hv.2.2, rfl⟩))
      · next hv =>
        unfold waitFetch; split
        · exact .inl rfl
        · next j hj => exact .inr (.inr (.inr (.inr ⟨i, j, _, hf, hd, hv, hj, rfl⟩)))
    · next hd => exact .inr (.inr (.inr (.inl ⟨i, hf, hd, rfl⟩)))

theorem state_actCancelFetch : (actCancelFetch p args s).state = s ∨
    ∃ i f, s.fetch i = some f ∧ f.requester = p ∧
      (actCancelFetch p args s).state = dropIdleSolicit f.topic (s.setFetch i none) := by
  unfold actCancelFetch; split
  · exact .inl rfl
  next i _ =>
  split
  · exact .inl rfl
  next f hf =>
  split
  · exact .inl rfl
  next hr => exact .inr ⟨i, f, hf, by simpa using hr, rfl⟩

/-! ## Folding a property over the commands -/

/-- A property of the state is kept by the handling of a request when completion keeps it and the owner does. -/
theorem handleRequest_keeps {P : State → Prop} {p : Port} {c : RequestName} {act : List Byte → State → Reply} {s : State}
    (hc : ∀ tag r body t, P t → P (complete p tag r body t)) (h : P s) (ha : ∀ args, P (act args s).state) :
    P (handleRequest p c act s) := by
  rcases handleRequest_cases p c act s with e | ⟨q, r, _, _, _, e⟩ | ⟨q, _, _, _, _, e⟩ <;> rw [e]
  · exact h
  · exact hc _ _ _ _ h
  · exact hc _ _ _ _ (ha _)

/-- A property of the state is kept by every step when it is kept by every command and does not depend on the commands
that wait. -/
theorem step_keeps {P : State → Prop} (hp : ∀ s l, P s → P { s with pending := l })
    (h : ∀ c s t, P s → exec c s = .next t → P t) {s t : State} (hs : P s) (ht : step s = .next t) : P t := by
  unfold step at ht; split at ht
  · cases ht; exact hs
  · exact h _ _ _ (hp _ _ hs) ht

end Sys2Proof.Machine
end

