-- ==== Sys2Proof/Laws/Frames.lean ====
section
/-! SUPPORT. What each shared operation leaves alone. An observation of the state is blind to a block when no change of
that block's records alters it; an operation that changes the records of some blocks alone alters no observation that is
blind to those blocks. One lemma per operation says so, and a frame is got from it by naming the observation: the mask of
a port, the parameters, a topic record. -/
namespace Sys2Proof.Machine

variable {β : Type} (see : State → β)

/-! ## Blindness to a block -/

/-- Blind to the payload buffer pool. -/
structure PoolBlind : Prop where
  buffer : ∀ s b f, see (State.modBuffer s b f) = see s

/-- Blind to the post slots and the dispatcher's order. -/
structure SlotBlind : Prop where
  slot : ∀ s x f, see (State.modSlot s x f) = see s
  order : ∀ (s : State) l, see { s with readyOrder := l } = see s

/-- Blind to the queues, the deferral lists and the counts of missed notices. -/
structure QueueBlind : Prop where
  queue : ∀ s p (g : PortRecord → List Delivery), see (State.modPort s p fun r => { r with queue := g r }) = see s
  deferral : ∀ s p (g : PortRecord → List DeferralEntry),
    see (State.modPort s p fun r => { r with deferral := g r }) = see s
  missed : ∀ s p (g : PortRecord → Nat), see (State.modPort s p fun r => { r with noticesMissed := g r }) = see s

/-- Blind to the solicit lists. -/
structure SolicitBlind : Prop where
  solicits : ∀ s p (g : PortRecord → List Word), see (State.modPort s p fun r => { r with solicits := g r }) = see s

/-- Blind to the cursors of the views. -/
structure CursorBlind : Prop where
  cursor : ∀ s p (g : PortRecord → Nat),
    see (State.modPort s p fun r => { r with view := { r.view with cursor := g r } }) = see s

/-- Blind to the port states, the scores and the exchange state. -/
structure SessionBlind : Prop where
  state : ∀ s p (g : PortRecord → PortState), see (State.modPort s p fun r => { r with state := g r }) = see s
  score : ∀ s p (g : PortRecord → Nat), see (State.modPort s p fun r => { r with score := g r }) = see s
  exchange : ∀ (s : State) e, see { s with exchange := e } = see s

/-- Blind to the topic records. -/
structure TopicBlind : Prop where
  topic : ∀ s i f, see (State.modTopic s i f) = see s

/-- Blind to the subscription entries. -/
structure SubscriptionBlind : Prop where
  subscriptions : ∀ (s : State) v, see { s with subscriptions := v } = see s

/-- Blind to the fetch table. -/
structure FetchBlind : Prop where
  fetch : ∀ s i e, see (State.setFetch s i e) = see s

/-- Blind to the requests in progress. -/
structure RequestBlind : Prop where
  inProgress : ∀ s p (g : PortRecord → Option Request),
    see (State.modPort s p fun r => { r with inProgress := g r }) = see s

/-- Blind to the hold timers. -/
structure HoldBlind : Prop where
  hold : ∀ s p (g : PortRecord → HoldTimer), see (State.modPort s p fun r => { r with hold := g r }) = see s

/-- Blind to every block that the events of the exchange change. -/
structure ExchangeBlind : Prop where
  pool : PoolBlind see
  slots : SlotBlind see
  queues : QueueBlind see
  solicits : SolicitBlind see
  cursors : CursorBlind see
  sessions : SessionBlind see
  topics : TopicBlind see
  subscriptions : SubscriptionBlind see
  fetches : FetchBlind see

variable {see}

/-- A fold leaves an observation alone when each of its steps does. -/
theorem see_foldl {α : Type} {f : State → α → State} (h : ∀ s a, see (f s a) = see s) (l : List α) (s : State) :
    see (l.foldl f s) = see s := by
  induction l generalizing s with
  | nil => rfl
  | cons a l ih => rw [List.foldl_cons, ih, h]

/-- The same for a fold that gathers reports beside the state. -/
theorem see_foldl_fst {α γ : Type} {f : State × γ → α → State × γ} (h : ∀ y a, see (f y a).1 = see y.1)
    (l : List α) (y : State × γ) : see (l.foldl f y).1 = see y.1 := by
  induction l generalizing y with
  | nil => rfl
  | cons a l ih => rw [List.foldl_cons, ih, h]

/-! ## References -/

section pool
variable (hp : PoolBlind see)
include hp

theorem see_takePayload (v : Option Payload) (s : State) : see (takePayload v s) = see s := by
  cases v with
  | none => rfl
  | some v => exact hp.buffer _ _ _

theorem see_releasePayload (v : Option Payload) (s : State) : see (releasePayload v s) = see s := by
  cases v with
  | none => rfl
  | some v => exact hp.buffer _ _ _

theorem see_releaseBuffer (b : Option BufferNo) (s : State) : see (releaseBuffer b s) = see s := by
  cases b with
  | none => rfl
  | some b => exact hp.buffer _ _ _

end pool

/-! ## Slots -/

section slots
variable (hp : PoolBlind see) (hs : SlotBlind see)
include hp hs

theorem see_emptySlot (x : SlotName) (s : State) : see (emptySlot x s) = see s := by
  rw [emptySlot]
  exact (hs.order _ _).trans ((hs.slot _ _ _).trans (see_releaseBuffer hp _ _))

theorem see_finishSlot (x : SlotName) (c : Completion) (s : State) : see (finishSlot x c s) = see s := by
  rw [finishSlot]
  exact (hs.order _ _).trans ((hs.slot _ _ _).trans (see_releaseBuffer hp _ _))

theorem see_serveSlot (x : SlotName) (p : Port) (s : State) : see (serveSlot x p s).1 = see s := by
  unfold serveSlot; dsimp only; split
  · exact (see_finishSlot hp hs _ _ _).trans (hs.slot _ _ _)
  · exact hs.slot _ _ _

theorem see_failSlot (x : SlotName) (p : Port) (s : State) : see (failSlot x p s).1 = see s := by
  unfold failSlot; dsimp only; split
  · exact (see_finishSlot hp hs _ _ _).trans (hs.slot _ _ _)
  · exact hs.slot _ _ _

theorem see_leaveSlots (p : Port) (s : State) : see (leaveSlots p s) = see s := by
  refine see_foldl (fun s _ => ?_) _ s
  unfold leaveSlot; split
  · exact see_emptySlot hp hs _ _
  · exact see_finishSlot hp hs _ _ _
  all_goals rfl

theorem see_emptySlots (p : Port) (s : State) : see (emptySlots p s) = see s :=
  see_foldl (fun _ _ => see_emptySlot hp hs _ _) _ s

end slots

/-! ## Queues and deferral lists -/

section queues
variable (hq : QueueBlind see)
include hq

theorem see_placeAnswer (p : Port) (d : Delivery) (s : State) : see (placeAnswer p d s) = see s := by
  unfold placeAnswer; split
  · exact hq.queue _ _ _
  · exact hq.deferral _ _ _

theorem see_placeNotice (p : Port) (d : Delivery) (s : State) : see (placeNotice p d s) = see s := by
  unfold placeNotice; split
  · exact hq.queue _ _ _
  · exact hq.missed _ _ _

theorem see_issueNotices (t v : Word) (q : Option Port) (s : State) : see (issueNotices t v q s) = see s := by
  refine see_foldl (fun s p => ?_) _ s
  unfold noticeAt; split
  · rfl
  · exact see_placeNotice hq _ _ _

theorem see_deleteEntries (x : SlotName) (s : State) : see (deleteEntries x s) = see s := by
  refine see_foldl (fun s p => ?_) _ s
  unfold deleteEntryAt; split
  · exact hq.deferral _ _ _
  · rfl

variable (hp : PoolBlind see)
include hp

theorem see_giveAnswer (p : Port) (d : Delivery) (s : State) : see (giveAnswer p d s) = see s :=
  (see_placeAnswer hq _ _ _).trans (see_takePayload hp _ _)

theorem see_placePost (x : SlotName) (p : Port) (i : SubIndex) (latest : Bool) (s : State) :
    see (placePost x p i latest s).1 = see s := by
  unfold placePost; dsimp only; split
  · split
    · exact (see_releasePayload hp _ _).trans ((hq.queue _ _ _).trans (see_takePayload hp _ _))
    · split
      · exact (hq.queue _ _ _).trans (see_takePayload hp _ _)
      · exact hq.deferral _ _ _
  · exact hq.deferral _ _ _

theorem see_placeAll (x : SlotName) (t : Word) (s : State) : see (placeAll x t s).state = see s := by
  have h : ∀ (l : List Port) (y : Placements), see (l.foldl (placeAt x t) y).state = see y.state := by
    intro l
    induction l with
    | nil => intro y; rfl
    | cons p l ih =>
      intro y
      rw [List.foldl_cons, ih]
      unfold placeAt; split
      · rfl
      · dsimp only; split <;> exact see_placePost hq hp _ _ _ _ _
  exact h _ _

theorem see_removeHead (p : Port) (s : State) : see (removeHead p s) = see s := by
  unfold removeHead; split
  · rfl
  · exact (see_releasePayload hp _ _).trans (hq.queue _ _ _)

theorem see_emptyQueue (p : Port) (s : State) : see (emptyQueue p s) = see s :=
  (hq.queue _ _ _).trans (see_foldl (fun _ _ => see_releasePayload hp _ _) _ s)

variable (hs : SlotBlind see)
include hs

theorem see_endDeferred (x : SlotName) (c : Completion) (s : State) : see (endDeferred x c s) = see s :=
  (see_finishSlot hp hs _ _ _).trans ((hs.slot _ _ _).trans (see_deleteEntries hq _ _))

theorem see_moveIn (p : Port) (s : State) : see (moveIn p s).1 = see s := by
  unfold moveIn; split
  · split
    · rfl
    · exact (hq.queue _ _ _).trans (hq.deferral _ _ _)
    · exact (see_serveSlot hp hs _ _ _).trans
        ((hq.queue _ _ _).trans ((see_takePayload hp _ _).trans (hq.deferral _ _ _)))
  · rfl

theorem see_emptyDeferral (p : Port) (s : State) : see (emptyDeferral p s).1 = see s := by
  refine (see_foldl_fst (fun y e => ?_) _ _).trans (hq.deferral _ _ _)
  unfold discardEntry; split
  · exact see_releasePayload hp _ _
  · exact see_failSlot hp hs _ _ _

theorem see_abortDeferredSlots (p : Port) (s : State) : see (abortDeferredSlots p s) = see s := by
  refine see_foldl (fun s k => ?_) _ s
  unfold abortDeferredSlot; split
  · exact see_endDeferred hq hp hs _ _ _
  · rfl

end queues

/-! ## Fetches and solicits -/

section fetches
variable (hl : SolicitBlind see)
include hl

theorem see_dropIdleSolicit (t : Word) (s : State) : see (dropIdleSolicit t s) = see s := by
  unfold dropIdleSolicit; split
  · split
    · rfl
    · split
      · rfl
      · exact hl.solicits _ _ _
  · rfl

variable (hf : FetchBlind see)
include hf

theorem see_removeFetches (p : Port) (s : State) : see (removeFetches p s) = see s := by
  refine see_foldl (fun s i => ?_) _ s
  unfold removeFetchOf; split
  · rfl
  · split
    · exact (see_dropIdleSolicit hl _ _).trans (hf.fetch _ _ _)
    · rfl

end fetches

theorem see_answerAll (hq : QueueBlind see) (hp : PoolBlind see) (hf : FetchBlind see) (d : Delivery) (s : State) :
    see (answerAll d s) = see s := by
  refine see_foldl (fun s i => ?_) _ s
  unfold answerEntry; split
  · rfl
  · split
    · exact (hf.fetch _ _ _).trans (see_giveAnswer hq hp _ _ _)
    · rfl

/-! ## Records -/

theorem see_freeRecord (hp : PoolBlind see) (ht : TopicBlind see) (i : RecordNo) (s : State) :
    see (freeRecord i s) = see s :=
  (ht.topic _ _ _).trans (see_releasePayload hp _ _)

theorem see_stampRecord (hp : PoolBlind see) (ht : TopicBlind see) (i : RecordNo) (v : Option Payload) (s : State) :
    see (stampRecord i v s) = see s := by
  unfold stampRecord; dsimp only; split
  · exact ht.topic _ _ _
  · exact (ht.topic _ _ _).trans ((see_takePayload hp _ _).trans (see_releasePayload hp _ _))

/-! ## Sessions -/

theorem see_orphanTopics (hq : QueueBlind see) (hp : PoolBlind see) (hf : FetchBlind see) (hl : SolicitBlind see)
    (ht : TopicBlind see) (p : Port) (s : State) : see (orphanTopics p s) = see s := by
  refine see_foldl (fun s t => ?_) _ s
  unfold orphanTopic; split
  · rfl
  · unfold orphanRecord; dsimp only; split
    · exact (see_issueNotices hq _ _ _ _).trans ((ht.topic _ _ _).trans
        ((hl.solicits _ _ _).trans (see_answerAll hq hp hf _ _)))
    · exact (see_freeRecord hp ht _ _).trans ((hl.solicits _ _ _).trans (see_answerAll hq hp hf _ _))

theorem see_leaveEffects (hq : QueueBlind see) (hp : PoolBlind see) (hs : SlotBlind see) (hf : FetchBlind see)
    (hl : SolicitBlind see) (ht : TopicBlind see) (hb : SubscriptionBlind see) (p : Port) (s : State) :
    see (leaveEffects p s) = see s :=
  (hl.solicits _ _ _).trans ((see_orphanTopics hq hp hf hl ht _ _).trans ((see_removeFetches hl hf _ _).trans
    ((hb.subscriptions _ _).trans (see_leaveSlots hp hs _ _))))

theorem see_homeCursor (hc : CursorBlind see) (p : Port) (s : State) : see (homeCursor p s) = see s := hc.cursor _ _ _

theorem see_judgeExchange (hx : SessionBlind see) (s : State) : see (judgeExchange s) = see s := by
  unfold judgeExchange; split
  · rfl
  · exact hx.exchange _ _

theorem see_closePort (hx : SessionBlind see) (quarantine : Bool) (p : Port) (s : State) :
    see (closePort quarantine p s) = see s := by
  unfold closePort
  cases quarantine
  · have h : (s.modPort p fun r =>
        if false = true then { r with state := .quarantined } else { r with state := .offline, score := 0 }) =
        (s.modPort p fun r => { r with state := .offline }).modPort p fun r => { r with score := 0 } := by
      simp [State.modPort, update_update]
    exact (congrArg see h).trans ((hx.score _ p fun _ => 0).trans (hx.state _ p fun _ => .offline))
  · exact hx.state _ p fun _ => .quarantined

section teardowns
variable (hq : QueueBlind see) (hp : PoolBlind see) (hs : SlotBlind see) (hc : CursorBlind see)
  (hx : SessionBlind see)
include hq hp hs hc hx

theorem see_teardown (quarantine : Bool) (p : Port) (s : State) : see (teardown quarantine p s).1 = see s := by
  unfold teardown
  dsimp only
  rw [see_judgeExchange hx, see_closePort hx, see_homeCursor hc, see_emptySlots hp hs,
    hq.missed _ p fun _ => 0, see_emptyDeferral hq hp hs, see_emptyQueue hq hp]

theorem see_handleReports (n : Nat) (l : List Port) (s : State) : see (handleReports n l s) = see s := by
  induction n generalizing l s with
  | zero => rfl
  | succ n ih =>
    cases l with
    | nil => rfl
    | cons q l =>
      rw [handleReports]; split
      · exact (ih _ _).trans (see_teardown hq hp hs hc hx _ _ _)
      · exact ih _ _

theorem see_endDrains (y : State × List Port) : see (endDrains y) = see y.1 := see_handleReports hq hp hs hc hx _ _ _

theorem see_consumeHead (p : Port) (s : State) : see (consumeHead p s) = see s :=
  (see_endDrains hq hp hs hc hx _).trans ((hc.cursor _ _ _).trans
    ((see_moveIn hq hp hs _ _).trans (see_removeHead hq hp _ _)))

theorem see_leavePort (hf : FetchBlind see) (hl : SolicitBlind see) (ht : TopicBlind see) (hb : SubscriptionBlind see)
    (p : Port) (s : State) : see (leavePort p s) = see s := by
  have h : see (leaveEffects p (s.modPort p fun r => { r with state := .leaving })) = see s :=
    (see_leaveEffects hq hp hs hf hl ht hb _ _).trans (hx.state _ p fun _ => .leaving)
  unfold leavePort; dsimp only; split
  · exact (see_endDrains hq hp hs hc hx _).trans ((see_teardown hq hp hs hc hx _ _ _).trans h)
  · exact h

theorem see_quarantine (hf : FetchBlind see) (hl : SolicitBlind see) (ht : TopicBlind see) (hb : SubscriptionBlind see)
    (hr : RequestBlind see) (hh : HoldBlind see) (p : Port) (s : State) : see (quarantine p s) = see s := by
  have hcut : see (cutRequest p s) = see s := hr.inProgress _ _ _
  unfold quarantine; dsimp only; split <;> refine (hh.hold _ p fun _ => .running _).trans ?_
  · exact (see_closePort hx _ _ _).trans hcut
  · rw [see_endDrains hq hp hs hc hx, see_teardown hq hp hs hc hx, see_abortDeferredSlots hq hp hs,
      see_leaveEffects hq hp hs hf hl ht hb, hcut]
  · rw [see_endDrains hq hp hs hc hx, see_teardown hq hp hs hc hx, see_abortDeferredSlots hq hp hs, hcut]
  · exact hcut

end teardowns

/-! ## Reading the view, and the take -/

section events
variable (e : ExchangeBlind see)
include e

theorem see_passByte (p : Port) (s : State) : see (passByte p s) = see s := by
  have h : see (advanceCursor p (openHead p s)) = see s := (e.cursors.cursor _ _ _).trans (e.queues.queue _ _ _)
  unfold passByte wrapView; dsimp only; split
  · split
    · exact (e.cursors.cursor _ _ _).trans h
    · exact (see_consumeHead e.queues e.pool e.slots e.cursors e.sessions _ _).trans h
  · exact h

theorem see_readBytes (p : Port) (n : Nat) (s : State) (got : List Byte) : see (readBytes p n s got).1 = see s := by
  induction n generalizing s got with
  | zero => rfl
  | succ n ih =>
    rw [readBytes]; split
    · rfl
    · rw [ih, see_passByte e]

theorem see_dispatch (s : State) : see (dispatch s) = see s := by
  unfold dispatch; split
  · rfl
  split
  · rfl
  unfold takePost settleSlot stampSlot; dsimp only; split
  · rw [see_finishSlot e.pool e.slots, e.slots.slot, see_placeAll e.queues e.pool,
      see_answerAll e.queues e.pool e.fetches]
    exact (e.solicits.solicits _ _ _).trans ((e.slots.order _ _).trans ((e.slots.slot _ _ _).trans
      (see_stampRecord e.pool e.topics _ _ _)))
  · rw [e.slots.slot, e.slots.slot, see_placeAll e.queues e.pool, see_answerAll e.queues e.pool e.fetches]
    exact (e.solicits.solicits _ _ _).trans ((e.slots.order _ _).trans ((e.slots.slot _ _ _).trans
      (see_stampRecord e.pool e.topics _ _ _)))

end events

/-! ## Observations that are blind to the exchange -/

/-- A part of a port's record that no event of the exchange changes: one that ignores slots, queue, deferral list, missed
notices, solicits, cursor, state and score. -/
theorem exchangeBlind_port {γ : Type} (q : Port) (g : PortRecord → γ)
    (hg : ∀ (r : PortRecord) slots queue deferral missed solicits cursor state score,
      g { r with slots := slots, queue := queue, deferral := deferral, noticesMissed := missed, solicits := solicits
                 view := { r.view with cursor := cursor }, state := state, score := score } = g r) :
    ExchangeBlind fun s => g (s.port q) := by
  have port : ∀ (s : State) p (f : PortRecord → PortRecord), (∀ r, g (f r) = g r) →
      g ((s.modPort p f).port q) = g (s.port q) := by
    intro s p f h; rw [port_modPort]; split
    · exact h _
    · rfl
  refine ⟨⟨fun _ _ _ => rfl⟩, ⟨fun s x f => ?_, fun _ _ => rfl⟩, ⟨fun s p k => ?_, fun s p k => ?_, fun s p k => ?_⟩,
    ⟨fun s p k => ?_⟩, ⟨fun s p k => ?_⟩, ⟨fun s p k => ?_, fun s p k => ?_, fun _ _ => rfl⟩, ⟨fun _ _ _ => rfl⟩,
    ⟨fun _ _ => rfl⟩, ⟨fun _ _ _ => rfl⟩⟩
  · exact port s _ _ fun r => hg r _ r.queue r.deferral r.noticesMissed r.solicits r.view.cursor r.state r.score
  · exact port s _ _ fun r => hg r r.slots _ r.deferral r.noticesMissed r.solicits r.view.cursor r.state r.score
  · exact port s _ _ fun r => hg r r.slots r.queue _ r.noticesMissed r.solicits r.view.cursor r.state r.score
  · exact port s _ _ fun r => hg r r.slots r.queue r.deferral _ r.solicits r.view.cursor r.state r.score
  · exact port s _ _ fun r => hg r r.slots r.queue r.deferral r.noticesMissed _ r.view.cursor r.state r.score
  · exact port s _ _ fun r => hg r r.slots r.queue r.deferral r.noticesMissed r.solicits _ r.state r.score
  · exact port s _ _ fun r => hg r r.slots r.queue r.deferral r.noticesMissed r.solicits r.view.cursor _ r.score
  · exact port s _ _ fun r => hg r r.slots r.queue r.deferral r.noticesMissed r.solicits r.view.cursor r.state _

theorem exchangeBlind_params : ExchangeBlind State.params :=
  ⟨⟨fun _ _ _ => rfl⟩, ⟨fun _ _ _ => rfl, fun _ _ => rfl⟩, ⟨fun _ _ _ => rfl, fun _ _ _ => rfl, fun _ _ _ => rfl⟩,
    ⟨fun _ _ _ => rfl⟩, ⟨fun _ _ _ => rfl⟩, ⟨fun _ _ _ => rfl, fun _ _ _ => rfl, fun _ _ => rfl⟩, ⟨fun _ _ _ => rfl⟩,
    ⟨fun _ _ => rfl⟩, ⟨fun _ _ _ => rfl⟩⟩

theorem exchangeBlind_divider : ExchangeBlind State.divider :=
  ⟨⟨fun _ _ _ => rfl⟩, ⟨fun _ _ _ => rfl, fun _ _ => rfl⟩, ⟨fun _ _ _ => rfl, fun _ _ _ => rfl, fun _ _ _ => rfl⟩,
    ⟨fun _ _ _ => rfl⟩, ⟨fun _ _ _ => rfl⟩, ⟨fun _ _ _ => rfl, fun _ _ _ => rfl, fun _ _ => rfl⟩, ⟨fun _ _ _ => rfl⟩,
    ⟨fun _ _ => rfl⟩, ⟨fun _ _ _ => rfl⟩⟩

theorem exchangeBlind_pending : ExchangeBlind State.pending :=
  ⟨⟨fun _ _ _ => rfl⟩, ⟨fun _ _ _ => rfl, fun _ _ => rfl⟩, ⟨fun _ _ _ => rfl, fun _ _ _ => rfl, fun _ _ _ => rfl⟩,
    ⟨fun _ _ _ => rfl⟩, ⟨fun _ _ _ => rfl⟩, ⟨fun _ _ _ => rfl, fun _ _ _ => rfl, fun _ _ => rfl⟩, ⟨fun _ _ _ => rfl⟩,
    ⟨fun _ _ => rfl⟩, ⟨fun _ _ _ => rfl⟩⟩

theorem exchangeBlind_readySequence : ExchangeBlind State.readySequence :=
  ⟨⟨fun _ _ _ => rfl⟩, ⟨fun _ _ _ => rfl, fun _ _ => rfl⟩, ⟨fun _ _ _ => rfl, fun _ _ _ => rfl, fun _ _ _ => rfl⟩,
    ⟨fun _ _ _ => rfl⟩, ⟨fun _ _ _ => rfl⟩, ⟨fun _ _ _ => rfl, fun _ _ _ => rfl, fun _ _ => rfl⟩, ⟨fun _ _ _ => rfl⟩,
    ⟨fun _ _ => rfl⟩, ⟨fun _ _ _ => rfl⟩⟩

/-! ## The laws of the sessions and the links -/

/-- The laws of the sessions do not look at a port's link: its request, its response, its score. -/
theorem lawful_of_link {s : State} (p : Port) {f : PortRecord → PortRecord}
    (h : ∀ r, (f r).slots = r.slots ∧ (f r).queue = r.queue ∧ (f r).deferral = r.deferral ∧
      (f r).noticesMissed = r.noticesMissed ∧ (f r).solicits = r.solicits ∧ (f r).state = r.state)
    (hs : SessionsLawful s) : SessionsLawful (s.modPort p f) := by
  have hp (q : Port) : ((s.modPort p f).port q).slots = (s.port q).slots ∧
      ((s.modPort p f).port q).queue = (s.port q).queue ∧ ((s.modPort p f).port q).deferral = (s.port q).deferral ∧
      ((s.modPort p f).port q).noticesMissed = (s.port q).noticesMissed ∧
      ((s.modPort p f).port q).solicits = (s.port q).solicits ∧ ((s.modPort p f).port q).state = (s.port q).state := by
    rw [port_modPort]; split <;> [exact h _; simp]
  have hx (x : SlotName) : (s.modPort p f).slot x = s.slot x := by rw [slot_def, (hp _).1]; rfl
  have hn (q : Port) (n : HoldsNothing s q) : HoldsNothing (s.modPort p f) q :=
    ⟨n.subscriptions, fun k => (hx _).trans (n.slots k), (hp q).2.1.trans n.queue, (hp q).2.2.1.trans n.deferral,
      n.fetches, (hp q).2.2.2.2.1.trans n.solicits, n.topics, (hp q).2.2.2.1.trans n.noticesMissed⟩
  obtain ⟨⟨a1, a2⟩, ⟨b1, b2, b3, b4, b5⟩, ⟨c1, c2, c3, c4, c5, c6, c7, c8⟩, ⟨d1, d2, d3⟩⟩ := hs
  refine ⟨⟨fun x => by rw [hx]; exact a1 x, fun x q => by rw [hx, (hp q).2.2.1]; exact a2 x q⟩,
    ⟨fun q => by rw [(hp q).2.1]; exact b1 q, fun q => by rw [(hp q).2.1, (hp q).2.2.1]; exact b2 q,
      fun q => by rw [(hp q).2.1]; exact b3 q, fun q => by rw [(hp q).2.2.1]; exact b4 q,
      fun q => by rw [(hp q).2.2.2.1]; exact b5 q⟩,
    ⟨c1, c2, c3, fun i q => by rw [(hp q).2.2.2.2.2]; exact c4 i q, fun x => by rw [hx]; exact c5 x,
      fun j g => by rw [(hp g.requester).2.2.2.2.2]; exact c6 j g, fun q => by rw [(hp q).2.2.2.2.1]; exact c7 q,
      fun q => by rw [(hp q).2.2.2.2.1]; exact c8 q⟩,
    ⟨fun q hq => hn q (d1 q (by rw [(hp q).2.2.2.2.2] at hq; exact hq)),
      fun q => by rw [(hp q).2.2.2.2.2]; exact d2 q, fun q hq => ?_⟩⟩
  obtain ⟨k, hk⟩ := d3 q (by rw [(hp q).2.2.2.2.2] at hq; exact hq)
  exact ⟨k, by rw [hx]; exact hk⟩

end Sys2Proof.Machine
end

