-- ==== Sys2Proof/Laws/Link.lean ====
section
/-! SUPPORT. The link: the bytes a transaction brings, the judging of a frame, and what the end of a frame does. -/
namespace Sys2Proof.Machine

/-- The byte read from its eight bits is the byte they are the bits of (R134). -/
theorem byteOfBits_bits : ∀ b : Byte, byteOfBits [b.getLsbD 7, b.getLsbD 6, b.getLsbD 5, b.getLsbD 4, b.getLsbD 3, b.getLsbD 2,
    b.getLsbD 1, b.getLsbD 0] = b := by decide +kernel

/-- The bits of a run of bytes, with fewer than eight bits more, are read as those bytes (R134, R147). -/
theorem completeBytes_bitsOf (bytes : List Byte) (extra : List Bool) (h : extra.length < 8) :
    completeBytes (bitsOf bytes ++ extra) = bytes := by
  induction bytes with
  | nil =>
    rcases extra with _ | ⟨_, _ | ⟨_, _ | ⟨_, _ | ⟨_, _ | ⟨_, _ | ⟨_, _ | ⟨_, _ | ⟨_, _⟩⟩⟩⟩⟩⟩⟩⟩ <;>
      simp [bitsOf, completeBytes] at h ⊢
    omega
  | cons b rest ih =>
    have : bitsOf (b :: rest) ++ extra = [b.getLsbD 7, b.getLsbD 6, b.getLsbD 5, b.getLsbD 4, b.getLsbD 3, b.getLsbD 2,
      b.getLsbD 1, b.getLsbD 0] ++ (bitsOf rest ++ extra) := by simp [bitsOf]
    rw [this]
    simp only [List.cons_append, List.nil_append, completeBytes, byteOfBits_bits, ih]

/-- A transaction that carries a frame brings its bytes to the port (R134, R135). -/
theorem linkTransaction_frame (p : Port) (t : Transaction) (bytes : List Byte) (s : State) (h : FrameEnds s p t bytes) :
    linkTransaction p t s = receiveFrame p bytes (setOutput p (frameOutput (s.port p).isI2c bytes.length) s) := by
  obtain ⟨hne, h⟩ := h
  cases hi : (s.port p).isI2c
  · rw [if_neg (by simp [hi])] at h
    obtain ⟨hhead, extra, hlen, rfl⟩ := h
    cases bytes with
    | nil => exact absurd rfl hne
    | cons b rest =>
      have hb : b ≠ 0xA0 := by simpa using hhead
      simp only [linkTransaction, hi, completeBytes_bitsOf _ _ hlen, spiTransaction, Config.spiReadByte, if_neg hb]
      rfl
  · rw [if_pos hi] at h; subst h
    cases bytes with
    | nil => exact absurd rfl hne
    | cons b rest => simp [linkTransaction, hi, i2cWrite, frameOutput]

/-- The judging of the bytes the receiver keeps is the judging of all of them (R144). -/
theorem judgeFrame_gather (bytes : List Byte) : judgeFrame (gather bytes) =
    match frameFault bytes, requestOf (bytes.getD 0 0) with
    | some k, _ => .fault k
    | none, some c => .taken c (bytes.getD 1 0) ((bytes.drop 3).take (bytes.getD 2 0).toNat)
    | none, none => .fault .unknownCode := by
  have hget (i : Nat) (hi : i < 76) : (bytes.take 76).getD i 0 = bytes.getD i 0 := by
    simp [List.getD_eq_getElem?_getD, hi]
  simp only [judgeFrame, gather, frameFault, Config.receiverBytes, Config.maxArguments, hget 2 (by omega), hget 0 (by omega), hget 1 (by omega)]
  split
  · rfl
  split
  · rfl
  rename_i hn
  split
  · rfl
  split
  · rfl
  rw [hget _ (by omega), List.take_take, min_eq_left (by omega : (bytes.getD 2 0).toNat + 3 ≤ 76)]
  split
  · rfl
  cases requestOf (bytes.getD 0 0) with
  | none => rfl
  | some c =>
    dsimp only
    split
    · simp [List.drop_take]
    · rfl

/-- A frame ends with a fault of its own (R144, R145). -/
theorem endFrame_fault (p : Port) (bytes : List Byte) (s : State) (k : FaultKind) (hq : (s.port p).inProgress = none)
    (hf : frameFault bytes = some k) :
    receiveFrame p bytes s =
      linkFault p (bytes.getD 1 0) k (s.modPort p fun r => { r with receiver := Receiver.idle }) := by
  have ht : receivedTag (gather bytes) = bytes.getD 1 0 := by
    simp [receivedTag, gather, List.getD_eq_getElem?_getD, Config.receiverBytes]
  simp only [receiveFrame, endFrame, port_modPort_same, modPort_modPort, hq, Option.isSome_none, judgeFrame_gather, hf, ht]
  rfl

/-- A frame ends while a request is in progress (R146). -/
theorem endFrame_busy (p : Port) (bytes : List Byte) (s : State) (hq : (s.port p).inProgress.isSome) :
    receiveFrame p bytes s = busyFault p (s.modPort p fun r => { r with receiver := Receiver.idle }) := by
  simp only [receiveFrame, endFrame, port_modPort_same, modPort_modPort, hq]
  rfl

/-- A response read, on either link type, presents the buffer and leaves it as R142 says. -/
theorem linkTransaction_read (p : Port) (t : Transaction) (n : Nat) (s : State) (h : ReadEnds s p t n) :
    linkTransaction p t s = s.modPort p fun r =>
      { r with response := r.response.afterRead n, output := readOutput r.isI2c (r.response.presents n) } := by
  cases hi : (s.port p).isI2c
  · simp only [ReadEnds, hi, Bool.false_eq_true, ↓reduceIte] at h
    obtain ⟨mosi, extra, rfl, he, rfl⟩ := h
    simp only [linkTransaction, hi, completeBytes_bitsOf _ _ he, spiTransaction, Config.spiReadByte, ↓reduceIte,
      readResponse, setOutput, modPort_modPort]
    exact modPort_congr s (by simp [readOutput, hi, Config.fillerByte])
  · simp only [ReadEnds, hi, ↓reduceIte] at h
    subst h
    simp only [linkTransaction, hi, i2cRead, ↓reduceIte, readResponse, setOutput, modPort_modPort]
    exact modPort_congr s (by simp [readOutput, hi])

/-- What a response read presents: the buffer's stream, cut or followed by 0xFF (R142). -/
theorem presents_pad (b : ResponseBuffer) (n : Nat) :
    b.presents n = b.stream.take n ++ List.replicate (n - b.stream.length) 0xFF := by
  simp only [ResponseBuffer.presents, Config.fillerByte, List.take_append, List.take_replicate]
  congr 2; omega
end Sys2Proof.Machine
end

