-- ==== Sys2Proof/Laws/Queues.lean ====
section
/-! SUPPORT. The choice of the delivery into which a post may be coalesced (R68), and what each operation on a queue or a
deferral list answers for the port it acts on. -/
namespace Sys2Proof.Machine

/-! ## The coalescing target -/

theorem isPostOf_iff (d : Delivery) (t : Word) : d.isPostOf t = true ↔ d.topic = t ∧ ∃ j c n, d.kind = .post j c n := by
  unfold Delivery.isPostOf; cases h : d.kind <;> simp

theorem mayCoalesce_iff (d : Delivery) : d.mayCoalesce = true ↔ d.isOpen = false ∧ ∃ j c, d.kind = .post j true c := by
  unfold Delivery.mayCoalesce; cases h : d.kind <;> simp [and_comm]

/-- There is no newest POST of a topic in a queue that holds none. -/
theorem newestPost_eq_none (t : Word) (l : List Delivery) :
    newestPost t l = none ↔ ∀ d ∈ l, d.isPostOf t = false := by
  induction l with
  | nil => simp [newestPost]
  | cons d l ih =>
    unfold newestPost
    cases hn : newestPost t l with
    | some k =>
      have hk : ¬ ∀ d ∈ l, d.isPostOf t = false := fun h => by simp [ih.2 h] at hn
      simpa using fun _ => by simpa using hk
    | none => by_cases hd : d.isPostOf t = true <;> simp_all

/-- The newest POST of a topic is the one nearest the tail (R68). -/
theorem newestPost_eq_some (t : Word) (l : List Delivery) (n : Nat) :
    newestPost t l = some n ↔ (∃ d, l[n]? = some d ∧ d.isPostOf t = true) ∧
      ∀ m e, n < m → l[m]? = some e → e.isPostOf t = false := by
  induction l generalizing n with
  | nil => simp [newestPost]
  | cons d l ih =>
    unfold newestPost
    cases hn : newestPost t l with
    | some k =>
      obtain ⟨⟨f, hf, hfp⟩, hfl⟩ := (ih k).1 hn
      simp only [Option.some.injEq]
      constructor
      · rintro rfl
        refine ⟨⟨f, by simpa using hf, hfp⟩, fun m e hm he => ?_⟩
        obtain ⟨m, rfl⟩ : ∃ m', m = m' + 1 := ⟨m - 1, by omega⟩
        exact hfl m e (by omega) (by simpa using he)
      · rintro ⟨⟨e, he, hp⟩, hl⟩
        have hle : n ≤ k + 1 := by
          by_contra hlt
          obtain ⟨n, rfl⟩ : ∃ n', n = n' + 1 := ⟨n - 1, by omega⟩
          have := hfl n e (by omega) (by simpa using he); simp_all
        by_contra hne
        have := hl (k + 1) f (by omega) (by simpa using hf); simp_all
    | none =>
      have hk := (newestPost_eq_none t l).1 hn
      dsimp only
      constructor
      · intro h
        split at h
        · next hd =>
          cases h
          refine ⟨⟨d, by simp, hd⟩, fun m e hm he => ?_⟩
          obtain ⟨m, rfl⟩ : ∃ m', m = m' + 1 := ⟨m - 1, by omega⟩
          exact hk e (List.mem_of_getElem? (by simpa using he))
        · cases h
      · rintro ⟨⟨e, he, hp⟩, hl⟩
        cases n with
        | zero => simp at he; subst he; simp [hp]
        | succ n => have := hk e (List.mem_of_getElem? (by simpa using he)); simp_all

/-- The delivery into which a post may be coalesced is the newest POST of its topic, when that is coalescible and not open
(R68). -/
theorem coalescingTarget_eq_some (t : Word) (l : List Delivery) (n : Nat) (d : Delivery) :
    coalescingTarget t l = some (n, d) ↔
      newestPost t l = some n ∧ l[n]? = some d ∧ d.isOpen = false ∧ ∃ j c, d.kind = .post j true c := by
  rw [← mayCoalesce_iff]
  unfold coalescingTarget
  cases hn : newestPost t l with
  | none => simp
  | some k =>
    simp only [Option.some.injEq]
    cases hk : l[k]? with
    | none => simp only [reduceCtorEq, false_iff]; rintro ⟨rfl, h, _⟩; simp_all
    | some e =>
      simp only [Option.ite_none_right_eq_some, Option.some.injEq, Prod.mk.injEq]
      constructor
      · rintro ⟨h, rfl, rfl⟩; exact ⟨rfl, hk, h⟩
      · rintro ⟨rfl, h, h'⟩; rw [hk] at h; cases h; exact ⟨h', rfl, rfl⟩

/-! ## Rooms and placements -/

theorem hasRoom_iff (r : PortRecord) : r.hasRoom = true ↔ r.deferral = [] ∧ r.queue.length < 32 := by
  simp [PortRecord.hasRoom]

end Sys2Proof.Machine
end

