-- ==== Sys2Proof/Laws/Placements.lean ====
section
/-! SUPPORT. What an event that places deliveries at several ports leaves at each: the answers of one topic, the stale
notices of one topic, and the placements of one post. -/
namespace Sys2Proof.Machine

/-! ## Answers -/

/-- No answer changes nothing. -/
theorem PortRecord.withAnswers_zero (d : Delivery) (r : PortRecord) : r.withAnswers 0 d = r := by
  unfold withAnswers; split
  · next h => cases r; simp_all
  · cases r; simp

/-- One answer more, in front of the others. -/
theorem PortRecord.withAnswers_succ (k : Nat) (d : Delivery) (r : PortRecord) :
    r.withAnswers (k + 1) d = (r.withAnswers 1 d).withAnswers k d := by
  by_cases h : r.deferral = []
  · by_cases hl : r.queue.length < 32
    · have h1 : min 1 (32 - r.queue.length) = 1 := by omega
      have h2 : 1 - (32 - r.queue.length) = 0 := by omega
      have h3 : min (k + 1) (32 - r.queue.length) = min k (32 - (r.queue.length + 1)) + 1 := by omega
      have h4 : k + 1 - (32 - r.queue.length) = k - (32 - (r.queue.length + 1)) := by omega
      simp [withAnswers, h, h1, h2, h3, h4, List.replicate_succ]
    · have h1 : 32 - r.queue.length = 0 := by omega
      simp [withAnswers, h, h1, List.replicate_succ]
  · simp [withAnswers, h, List.replicate_succ]

/-- An answer stands in the queue or in the deferral list of its requester (R71, R103). -/
theorem port_giveAnswer (p q : Port) (d : Delivery) (s : State) :
    (giveAnswer p d s).port q = if p = q then (s.port q).withAnswers 1 d else s.port q := by
  have h (q : Port) : (takePayload d.payload s).port q = s.port q := by
    unfold takePayload; split <;> rfl
  unfold giveAnswer placeAnswer
  split <;> rename_i hr
  · rw [h, hasRoom_iff] at hr
    rw [appendDelivery, port_modPort, h]
    split <;> [subst p; rfl]
    have h1 : min 1 (32 - (s.port q).queue.length) = 1 := by omega
    have h2 : 1 - (32 - (s.port q).queue.length) = 0 := by omega
    cases hd : s.port q; simp_all [PortRecord.withAnswers]
  · rw [h, hasRoom_iff] at hr
    rw [appendDeferral, port_modPort, h]
    split <;> [subst p; rfl]
    by_cases hd : (s.port q).deferral = []
    · have h1 : 32 - (s.port q).queue.length = 0 := by have : ¬ _ := fun h => hr ⟨hd, h⟩; omega
      cases hc : s.port q; simp_all [PortRecord.withAnswers]
    · cases hc : s.port q; simp_all [PortRecord.withAnswers]

/-- One entry of the fetch table, when it waits on the topic, is answered and FREE; its requester has the answer (R103). -/
theorem port_answerEntry (d : Delivery) (s : State) (i : FetchId) (q : Port) :
    (answerEntry d s i).port q =
      if waitsOn d.topic (s.fetch i) && requestedBy q (s.fetch i) then (s.port q).withAnswers 1 d else s.port q := by
  unfold answerEntry
  split <;> rename_i h
  · simp [h, waitsOn]
  · simp only [h, waitsOn, requestedBy, Bool.and_eq_true, beq_iff_eq]
    split <;> simp_all [port_giveAnswer]

theorem fetch_answerEntry (d : Delivery) (s : State) (i j : FetchId) :
    (answerEntry d s i).fetch j = if i = j ∧ waitsOn d.topic (s.fetch j) then none else s.fetch j := by
  have h (p : Port) : (giveAnswer p d s).fetch j = s.fetch j := by
    unfold giveAnswer placeAnswer takePayload; split <;> split <;> rfl
  unfold answerEntry
  split <;> rename_i hf
  · by_cases e : i = j
    · subst e; simp [hf]
    · simp [e]
  · split
    · rw [fetch_setFetch, h]; by_cases e : i = j <;> simp_all [waitsOn]
    · by_cases e : i = j <;> simp_all [waitsOn]

theorem answers_of_entries (d : Delivery) (l : List FetchId) (hl : l.Nodup) (s : State) :
    (∀ q, (l.foldl (answerEntry d) s).port q = (s.port q).withAnswers
      (l.countP fun i => waitsOn d.topic (s.fetch i) && requestedBy q (s.fetch i)) d) ∧
    ∀ i, (l.foldl (answerEntry d) s).fetch i = if i ∈ l ∧ waitsOn d.topic (s.fetch i) then none else s.fetch i := by
  induction l generalizing s with
  | nil => simp [PortRecord.withAnswers_zero]
  | cons i l ih =>
    obtain ⟨hi, hl⟩ := List.nodup_cons.1 hl
    have other (j : FetchId) (hj : j ∈ l) : (answerEntry d s i).fetch j = s.fetch j := by
      rw [fetch_answerEntry, if_neg]; rintro ⟨rfl, _⟩; exact hi hj
    obtain ⟨hp, hf⟩ := ih hl (answerEntry d s i)
    constructor
    · intro q
      rw [List.foldl_cons, hp, List.countP_congr fun j hj => by rw [other j hj], port_answerEntry, List.countP_cons]
      split <;> simp [← PortRecord.withAnswers_succ]
    · intro j
      rw [List.foldl_cons, hf, fetch_answerEntry]
      by_cases e : i = j
      · subst e; simp [hi]
      · by_cases hj : j ∈ l <;> simp [e, hj, Ne.symm e]

/-- Every requester has its answers, one for each of its fetches that waits on the topic (R103). -/
theorem port_answerAll (d : Delivery) (s : State) (q : Port) :
    (answerAll d s).port q = (s.port q).withAnswers (waitingBy s q d.topic) d :=
  (answers_of_entries d _ (List.nodup_finRange 16) s).1 q

/-- No fetch waits on the topic any more (R103). -/
theorem fetch_answerAll (d : Delivery) (s : State) (i : FetchId) :
    (answerAll d s).fetch i = if waitsOn d.topic (s.fetch i) then none else s.fetch i :=
  ((answers_of_entries d _ (List.nodup_finRange 16) s).2 i).trans (if_congr (by simp) rfl rfl)

/-- What answering the fetches of a topic does to queues, deferral lists and fetch table. -/
theorem answeredAll_answerAll (d : Delivery) (s : State) : AnsweredAll s (answerAll d s) d.topic d :=
  ⟨fetch_answerAll d s, fun q => by rw [port_answerAll]; exact ⟨rfl, rfl⟩⟩

/-! ## Stale notices -/

/-- A fold over the four ports that acts at each on its own record alone leaves at a port what it does there; `P` is what
its steps rely on and keep. -/
theorem port_foldl_allPorts {P : State → Prop} {f : State → Port → State} {g : Port → PortRecord → PortRecord}
    (hP : ∀ s p, P s → P (f s p))
    (h : ∀ s p q, P s → (f s p).port q = if p = q then g p (s.port q) else s.port q) (s : State) (hs : P s) (q : Port) :
    (allPorts.foldl f s).port q = g q (s.port q) := by
  have h0 := hP _ 0 hs
  have h1 := hP _ 1 h0
  have h2 := hP _ 2 h1
  simp only [allPorts, List.foldl_cons, List.foldl_nil, h _ _ _ h2, h _ _ _ h1, h _ _ _ h0, h _ _ _ hs]
  fin_cases q <;> simp

theorem port_placeNotice (p q : Port) (d : Delivery) (s : State) :
    (placeNotice p d s).port q = if p = q then (s.port q).withNotice d else s.port q := by
  unfold placeNotice appendDelivery PortRecord.withNotice
  split <;> rename_i h <;> rw [hasRoom_iff] at h <;> rw [port_modPort] <;> split <;> simp_all [Config.byteSaturation]

/-- Every port with a governing entry has its notice, in its queue or counted as missed (R10, R72). -/
theorem port_issueNotices (t v : Word) (producer : Option Port) (s : State) (q : Port) :
    (issueNotices t v producer s).port q =
      match governing s q fun e => e.matchesNotice t producer with
      | none => s.port q
      | some i => (s.port q).withNotice (staleDelivery t v producer i) := by
  have hb : QueueBlind State.subscriptions := ⟨fun _ _ _ => rfl, fun _ _ _ => rfl, fun _ _ _ => rfl⟩
  refine port_foldl_allPorts (P := fun u => u.subscriptions = s.subscriptions)
    (g := fun p r => match governing s p fun e => e.matchesNotice t producer with
      | none => r
      | some i => r.withNotice (staleDelivery t v producer i)) (fun u p hu => ?_) (fun u p q hu => ?_) s rfl q
  · unfold noticeAt; split <;> [exact hu; exact (see_placeNotice hb ..).trans hu]
  · have hg : governing u p = governing s p := by unfold governing State.subscription; rw [hu]
    unfold noticeAt
    rw [hg]
    by_cases e : p = q
    · subst e; split <;> simp_all [port_placeNotice]
    · split <;> simp [port_placeNotice, e]

/-! ## The orphaning of one topic -/

/-- What one orphaning brings to another port's record (R18). -/
theorem port_orphanRecord {p q : Port} {i : RecordNo} {t : Word} (s : State) (hq : q ≠ p) (hf : findTopic s t = some i)
    (hn : (s.topic i).number = t) : (orphanRecord p i s).port q = orphaningReaches s p q (s.port q) t := by
  have hr (u : State) (w : Word) : (removeSolicit p w u).port q = u.port q := by
    unfold removeSolicit; rw [port_modPort_ne _ _ hq.symm]
  have hg (d : Delivery) (w : Word) : governing (removeSolicit p w (answerAll d s)) = governing s := by
    have : (answerAll d s).subscriptions = s.subscriptions :=
      see_answerAll (see := State.subscriptions) ⟨fun _ _ _ => rfl, fun _ _ _ => rfl, fun _ _ _ => rfl⟩
        ⟨fun _ _ _ => rfl⟩ ⟨fun _ _ _ => rfl⟩ d s
    funext p f; unfold governing State.subscription removeSolicit; rw [subscriptions_modPort, this]
  unfold orphanRecord orphaningReaches
  rw [hf]
  dsimp only
  rw [hn]
  cases hv : (s.topic i).retained with
  | none =>
    have hfree (u : State) : (freeRecord i u).port q = u.port q := by
      unfold freeRecord; rw [port_modTopic]; unfold releasePayload; split <;> rfl
    simp [hfree, hr, port_answerAll, answerDelivery, TopicRecord.valueVersion, hv]
  | some v =>
    have hm (u : State) (f : TopicRecord → TopicRecord) : governing (u.modTopic i f) = governing u := rfl
    simp only [Option.isSome_some, ↓reduceIte, port_issueNotices, hm, hg, port_modTopic, hr, port_answerAll,
      answerDelivery, TopicRecord.valueVersion, hv, staleDelivery]
    cases governing s q (fun e => e.matchesNotice t none) <;> rfl

/-! ## The placements of one post -/

theorem port_takePayload (v : Option Payload) (s : State) (q : Port) : (takePayload v s).port q = s.port q := by
  unfold takePayload; split <;> rfl

theorem port_releasePayload (v : Option Payload) (s : State) (q : Port) : (releasePayload v s).port q = s.port q := by
  unfold releasePayload; split <;> rfl

/-- A placement leaves every other port alone (R67). -/
theorem port_placePost_ne {p q : Port} (x : SlotName) (i : SubIndex) (latest : Bool) (s : State) (h : p ≠ q) :
    (placePost x p i latest s).1.port q = s.port q := by
  unfold placePost appendDelivery appendDeferral
  dsimp only
  repeat' split
  all_goals simp [port_releasePayload, port_modPort, port_takePayload, h]

/-- A placement depends on the slot and on the port's own record alone (R67). -/
theorem placePost_congr {s u : State} {x : SlotName} {p : Port} (i : SubIndex) (latest : Bool) (hp : u.port p = s.port p)
    (hx : u.slot x = s.slot x) :
    (placePost x p i latest u).1.port p = (placePost x p i latest s).1.port p ∧
      (placePost x p i latest u).2 = (placePost x p i latest s).2 := by
  unfold placePost appendDelivery appendDeferral
  dsimp only
  rw [hp, hx]
  repeat' split
  all_goals simp [port_releasePayload, port_takePayload, hp]

/-- What the placements of a post leave at one port: nothing without a governing entry, else its one placement (R44 step
5). -/
def PlacedAt (x : SlotName) (t : Word) (s : State) (q : Port) (y : Placements) : Prop :=
  match governing s q fun e => e.matchesPost t x.owner with
  | none => y.state.port q = s.port q ∧ y.reached.has q = false ∧ y.pending.has q = false
  | some i =>
    let z := placePost x q i (s.subscription i).latest s
    y.state.port q = z.1.port q ∧ y.reached.has q = (z.2 == .reached) ∧ y.pending.has q = (z.2 == .pending)

theorem queueBlind_slot (x : SlotName) : QueueBlind (State.slot · x) where
  queue s p g := by refine slot_modPort s ?_ x; intro r; rfl
  deferral s p g := by refine slot_modPort s ?_ x; intro r; rfl
  missed s p g := by refine slot_modPort s ?_ x; intro r; rfl

theorem placeAt_fold (x : SlotName) (t : Word) (s : State) (l : List Port) (hl : l.Nodup) (y : Placements)
    (hb : y.state.subscriptions = s.subscriptions) (hx : y.state.slot x = s.slot x)
    (h : ∀ q ∈ l, y.state.port q = s.port q ∧ y.reached.has q = false ∧ y.pending.has q = false)
    (hd : ∀ q ∉ l, PlacedAt x t s q y) (q : Port) : PlacedAt x t s q (l.foldl (placeAt x t) y) := by
  induction l generalizing y with
  | nil => exact hd q (by simp)
  | cons p l ih =>
    obtain ⟨hp, hl⟩ := List.nodup_cons.1 hl
    obtain ⟨h0, hpr, hpp⟩ := h p (by simp)
    have hg : governing y.state p = governing s p := by unfold governing State.subscription; rw [hb]
    have hs (i : SubIndex) : y.state.subscription i = s.subscription i := by unfold State.subscription; rw [hb]
    have hf {β : Type} (see : State → β) (h1 : QueueBlind see) (h2 : PoolBlind see) :
        see (placeAt x t y p).state = see y.state := by
      unfold placeAt; split
      · rfl
      · dsimp only; split <;> exact see_placePost h1 h2 ..
    have hne (r : Port) (e : p ≠ r) : (placeAt x t y p).state.port r = y.state.port r ∧
        (placeAt x t y p).reached.has r = y.reached.has r ∧ (placeAt x t y p).pending.has r = y.pending.has r := by
      unfold placeAt; split
      · exact ⟨rfl, rfl, rfl⟩
      · dsimp only; split <;>
          simp [port_placePost_ne _ _ _ _ e, PortSet.has, PortSet.insert, getElem_update_ne _ _ e]
    refine ih hl _ ?_ ?_ (fun r hr => ?_) (fun r hr => ?_)
    · exact (hf _ ⟨fun _ _ _ => rfl, fun _ _ _ => rfl, fun _ _ _ => rfl⟩ ⟨fun _ _ _ => rfl⟩).trans hb
    · exact (hf (State.slot · x) (queueBlind_slot x) ⟨fun _ _ _ => rfl⟩).trans hx
    · obtain ⟨a, b, c⟩ := hne r (fun e => hp (e ▸ hr))
      obtain ⟨a', b', c'⟩ := h r (by simp [hr])
      exact ⟨a.trans a', b.trans b', c.trans c'⟩
    · by_cases e : p = r
      · subst e
        unfold PlacedAt placeAt
        rw [hg]
        cases governing s p (fun e => e.matchesPost t x.owner) with
        | none => exact ⟨h0, hpr, hpp⟩
        | some i =>
          obtain ⟨c1, c2⟩ := placePost_congr i (s.subscription i).latest h0 hx
          dsimp only
          rw [hs, c2]
          cases placePost x p i (s.subscription i).latest s |>.2 <;> simp_all [PortSet.has, PortSet.insert]
      · obtain ⟨a, b, c⟩ := hne r e
        have := hd r (by simp [hr, Ne.symm e])
        unfold PlacedAt at this ⊢
        rw [a, b, c]; exact this

/-- The placements of a post at every port (R44 steps 4 and 5). -/
theorem placeAll_placedAt (x : SlotName) (t : Word) (s : State) (q : Port) : PlacedAt x t s q (placeAll x t s) :=
  placeAt_fold x t s allPorts (by decide) _ rfl rfl
    (fun q _ => ⟨rfl, by fin_cases q <;> rfl, by fin_cases q <;> rfl⟩) (fun q hq => absurd (by fin_cases q <;> decide) hq) q

end Sys2Proof.Machine
end

