-- ==== Sys2Proof/WellFormed.lean ====
section
/-! DEFINITION. Which commands stand for an event that can occur at all, whatever the state of the part. The
meanings do not rely on it: an ill-formed command still has the effect the manual gives what it describes. -/
namespace Sys2Proof

/-- The first complete byte clocked in on MOSI, most significant bit first, when there is one (R134). -/
def firstByte : List Bool → Option Byte
  | b7 :: b6 :: b5 :: b4 :: b3 :: b2 :: b1 :: b0 :: _ =>
    some (BitVec.ofBoolListBE [b7, b6, b5, b4, b3, b2, b1, b0])
  | _ => none

/-- Whether a transaction carries a request frame: on SPI its first complete byte is not 0xA0 (R134), on I2C it
is a write of at least one byte (R135). -/
def Transaction.carriesFrame : Transaction → Bool
  | .spi mosi => match firstByte mosi with
    | some b => b != Config.spiReadByte
    | none => false
  | .i2cWrite _ bytes => !bytes.isEmpty
  | .i2cRead _ _ => false

/-- Whether a transaction is a response read: on SPI its first complete byte is 0xA0 (R134), on I2C it is a read of
at least one byte (R135). -/
def Transaction.readsResponse : Transaction → Bool
  | .spi mosi => match firstByte mosi with
    | some b => b == Config.spiReadByte
    | none => false
  | .i2cWrite _ _ => false
  | .i2cRead _ count => 0 < count

/-- A number that names a topic: 1 to 65534 (section 1.1). -/
def namesTopic (t : Word) : Bool := t != 0 && t != 65535

/-- A command is well formed when some CLKIN period passes at a tick, and at most the longest tick there is (R162,
Table 10-1); when a REQUEST_FRAME carries a frame and a RESPONSE_READ reads; and when a freshness expiry names a
topic. -/
def Instr.wellFormed : Instr → Bool
  | .tick periods => 0 < periods && periods ≤ 50000
  | .requestFrame _ t => t.carriesFrame
  | .responseRead _ t => t.readsResponse
  | .freshnessExpiry t => namesTopic t
  | .deviceReset _ | .join _ | .leave _ | .recover _ | .portStatus _ | .exchStatus _ | .setParam _
  | .getParam _ | .declare _ | .retire _ | .purge _ | .topicInfo _ | .subscribe _ | .unsubscribe _
  | .listSubs _ | .openPost _ | .writePayload _ | .submit _ | .abortPost _ | .slotStatus _ | .releaseSlot _
  | .setWindow _ | .readView _ | .consume _ | .queueStatus _ | .fetch _ | .cancelFetch _ | .readSolicits _
  | .setAttnMask _ | .attnStatus _ | .take | .deliveryDeadlineExpiry _ _ | .fetchDeadlineExpiry _
  | .quarantineHoldExpiry _ => true

end Sys2Proof
end

