-- ==== Sys2Proof/Tests/Slice0.lean ====
section
/-! SUPPORT. The tests: the commands that are not well formed, one-step tests of the commands with results taken from
the manual, and for every statement with hypotheses a state that meets them. -/
open Sys2Proof Sys2Proof.Machine
namespace Sys2Proof.Tests

-- One test at a time: tests checked side by side need more memory than one check has.
set_option Elab.async false

/-! ## Well-formedness: each check refuses a command that breaks it -/

theorem test_tick_of_no_period_is_ill_formed : (Instr.tick 0).wellFormed = false := by decide
theorem test_tick_beyond_the_longest_is_ill_formed : (Instr.tick 50001).wellFormed = false := by decide
theorem test_frame_of_seven_bits_is_ill_formed :
    (Instr.requestFrame 0 (.spi (List.replicate 7 true))).wellFormed = false := by decide
theorem test_frame_that_opens_a_read_is_ill_formed :
    (Instr.requestFrame 0 (.spi (bitsOf [0xA0, 0x00]))).wellFormed = false := by decide
theorem test_frame_of_an_empty_write_is_ill_formed :
    (Instr.requestFrame 0 (.i2cWrite 0x38 [])).wellFormed = false := by decide
theorem test_frame_by_a_read_transfer_is_ill_formed :
    (Instr.requestFrame 0 (.i2cRead 0x38 4)).wellFormed = false := by decide
theorem test_read_of_no_byte_is_ill_formed : (Instr.responseRead 0 (.i2cRead 0x38 0)).wellFormed = false := by decide
theorem test_read_that_opens_a_frame_is_ill_formed :
    (Instr.responseRead 0 (.spi (bitsOf [0x01]))).wellFormed = false := by decide
theorem test_expiry_of_topic_0_is_ill_formed : (Instr.freshnessExpiry 0).wellFormed = false := by decide
theorem test_expiry_of_topic_65535_is_ill_formed : (Instr.freshnessExpiry 65535).wellFormed = false := by decide
theorem test_join_frame_is_well_formed :
    (Instr.requestFrame 0 (.spi (bitsOf [0x01, 0x00, 0x00, 0x40]))).wellFormed = true := by decide

/-! ## Small states -/

/-- The state a command leads to. -/
def after (c : Instr) (s : State) : State :=
  match exec c s with
  | .next t => t
  | .fault _ | .refused _ => s

/-- The state with a port ONLINE. -/
def online (p : Port) (s : State) : State :=
  { s.modPort p (fun r => { r with state := .online }) with exchange := .running }

/-- The result and the body of a port's READY response. -/
def answered (p : Port) (s : State) : Option (Result × List Byte) :=
  match (s.port p).response with
  | .ready r => some (r.result, r.body)
  | .empty | .notReady | .repeated _ => none

/-- A request in progress with tag 7. -/
def request (c : RequestName) (args : List Byte) : Request := { name := c, tag := 7, arguments := args, cut := false }

/-- The state with a request in progress on a port. -/
def asked (p : Port) (c : RequestName) (args : List Byte) (s : State) : State :=
  s.modPort p fun r => { r with inProgress := some (request c args), response := .notReady }

/-- P0 and P1 ONLINE (section 11.5 after its event 5). -/
def board : State := online 1 (online 0 State.reset)

/-- The state with a topic record set. -/
def withTopic (i : RecordNo) (r : TopicRecord) (s : State) : State := s.modTopic i fun _ => r

/-- The state with a slot set. -/
def withSlot (x : SlotName) (k : Slot) (s : State) : State := s.modSlot x fun _ => k

/-- A DECLARED topic of P0 without a value. -/
def topicOf (t : Word) (kind : TopicKind) : TopicRecord :=
  { TopicRecord.reset with number := t, state := .declared, kind := kind, producer := some 0 }

/-- An ORPHANED topic with a value of four bytes in buffer 1. -/
def orphanOf (t : Word) : TopicRecord :=
  { TopicRecord.reset with number := t, state := .orphaned, retained := some ⟨1, 4⟩, version := 3, stale := true }

/-- A delivery without a payload. -/
def note (t : Word) : Delivery :=
  { kind := .stale 0, topic := t, version := 1, payload := none, producer := none, isOpen := false }

/-- A full queue. -/
def fullQueue : List Delivery := List.replicate 32 (note 9)

/-- A LOADING slot with buffer 0. -/
def loadingSlot (t : Word) : Slot := { Slot.reset with state := .loading, topic := t, priority := 1, buffer := some 0 }

/-- A READY slot with buffer 0 and a payload of two bytes. -/
def readySlot (t : Word) : Slot := { loadingSlot t with state := .ready, length := 2 }

/-- A DONE slot. -/
def doneSlot : Slot := { Slot.reset with state := .done, topic := 5, status := some .delivered }

/-- A DEFERRED slot whose post waits for P1 and whose deadline is due. -/
def waitingSlot : Slot :=
  { Slot.reset with state := .deferred, topic := 5, buffer := some 0, length := 3, version := some 1
                    pending := #v[false, true, false, false], deadline := .running 0 }

/-- The state with a port's queue and deferral list set. -/
def withQueue (p : Port) (queue : List Delivery) (entries : List DeferralEntry) (s : State) : State :=
  s.modPort p fun r => { r with queue := queue, deferral := entries }

/-- The state with a fetch by P1 waiting on a topic. -/
def withFetch (t : Word) (s : State) : State :=
  s.setFetch 0 (some { requester := 1, topic := t, deadline := .running 0 })

/-- The state with an entry of P1 for a topic alone, with STALE_NOTICE. -/
def withSubscription (t : Word) (s : State) : State :=
  s.modSubscription 0 fun _ =>
    { Subscription.reset with active := true, owner := 1, pattern := t, mask := 0xFFFF, staleNotice := true }

/-- Section 11.5 before the take of its event 10. -/
def posted : State :=
  { withSlot ⟨0, 0⟩ (readySlot 0x140) (withFetch 0x140 (withSubscription 0x140
      (withTopic 0 { topicOf 0x140 .state with limit := 500 }
        (board.modBuffer 0 fun b => { b with references := 1 })))) with
    readyOrder := [⟨0, 0⟩] }

/-- P0's post deferred at P1, its deadline due. -/
def deferredPost : State :=
  withSlot ⟨0, 0⟩ waitingSlot (withQueue 1 fullQueue [.slot ⟨0, 0⟩ 0 false]
    (board.modBuffer 0 fun b => { b with references := 1 }))

/-! ## One-step tests -/

/-- The worked CRC of section 8.2. -/
theorem test_worked_crc : crc8 [0x01, 0x00, 0x00] = 0x40 := by decide +kernel

/-- The worked bytes of section 11.3. -/
theorem test_producer_byte : producerByte (some 2) 3 = 0x43 ∧ producerByte none 0 = 0x80 := by decide +kernel

/-- Section 11.5: P1 strapped to I2C with A0 high has address 0x39. -/
theorem test_device_reset_samples_the_straps :
    ((after (.deviceReset #v[⟨false, false⟩, ⟨true, true⟩, ⟨false, false⟩, ⟨false, false⟩]) board).port 1).i2cAddress
      = 0x39 := by decide +kernel

/-- R162, R163: the tick comes with the last of 16000 periods, and not before. -/
theorem test_tick_comes_with_the_last_period :
    let s := State.reset.modPort 0 fun r => { r with hold := .running 1 }
    ((after (.tick 15999) s).port 0).hold = .running 1 ∧
      ((after (.tick 1) (after (.tick 15999) s)).port 0).hold = .running 0 := by decide +kernel

/-- Section 8.8, event 2. -/
theorem test_join_frame_is_taken :
    ((after (.requestFrame 0 (.spi (bitsOf [0x01, 0x00, 0x00, 0x40]))) State.reset).port 0).inProgress =
      some { name := .join, tag := 0, arguments := [], cut := false } := by decide +kernel

/-- Section 8.8, event 7: a damaged CRC byte. -/
theorem test_damaged_crc_is_a_fault :
    let s := after (.requestFrame 0 (.spi (bitsOf [0x01, 0x12, 0x00, 0x40]))) State.reset
    answered 0 s = some (.linkFault, [0x01]) ∧ (s.port 0).score = 16 := by decide +kernel

/-- R171: the JOIN answered with tag 0x00 reads 0x5A, 0x00, 0x00, 0x00, 0x2B, and leaves REPEAT. -/
theorem test_response_read_of_a_join :
    let s := after (.responseRead 0 (.spi (bitsOf [0xA0, 0, 0, 0, 0, 0]))) (complete 0 0 .ok [] State.reset)
    (s.port 0).output.driven = [0xFF, 0x5A, 0x00, 0x00, 0x00, 0x2B] ∧
      (s.port 0).response = .repeated { tag := 0, result := .ok, body := [], crc := 0x2B } := by decide +kernel

/-- Section 11.5, event 2. -/
theorem test_join_makes_the_exchange_run :
    let s := after (.join 0) (asked 0 .join [] State.reset)
    s.exchange = .running ∧ (s.port 0).state = .online ∧ answered 0 s = some (.ok, []) := by decide +kernel

/-- R120: a LEAVE without a DEFERRED slot reports OFFLINE and none. -/
theorem test_leave_without_a_deferred_slot :
    let s := after (.leave 0) (asked 0 .leave [] board)
    answered 0 s = some (.ok, [0x00, 0x00]) ∧ s.exchange = .running := by decide +kernel

/-- R120, R54: a LEAVE with a DEFERRED slot reports LEAVING and one. -/
theorem test_leave_with_a_deferred_slot :
    answered 0 (after (.leave 0) (asked 0 .leave [] deferredPost)) = some (.ok, [0x02, 0x01]) := by decide +kernel

/-- R129: a RECOVER before the hold has expired. -/
theorem test_recover_waits_for_the_hold :
    answered 0 (after (.recover 0) (asked 0 .recover []
      (State.reset.modPort 0 fun r => { r with state := .quarantined, hold := .running 0 }))) =
      some (.holding, []) := by decide +kernel

/-- R167: PORT_STATUS reports the missed notices and clears them. -/
theorem test_port_status_clears_the_missed_notices :
    let s := after (.portStatus 0) (asked 0 .portStatus [] (board.modPort 0 fun r => { r with noticesMissed := 3 }))
    answered 0 s = some (.ok, [0x01, 0x00, 0x00, 0x00, 0x03, 0x00]) ∧ (s.port 0).noticesMissed = 0 := by decide +kernel

/-- R166 after device reset: SETUP, 128 records, 64 entries, 256 buffers and 16 fetch entries. -/
theorem test_exch_status_after_reset :
    answered 0 (after (.exchStatus 0) (asked 0 .exchStatus [] State.reset)) =
      some (.ok, [0x00, 0x80, 0x40, 0x00, 0x01, 0x10]) := by decide +kernel

/-- Section 11.5, event 1: TICK_DIV takes 0x61A8 and the divider begins again. -/
theorem test_set_param_tick_div :
    let s := after (.setParam 0) (asked 0 .setParam [0x05, 0xA8, 0x61] { State.reset with divider := 77 })
    s.params.tickDiv = 25000 ∧ s.divider = 0 := by decide +kernel

/-- Section 11.5, event 3. -/
theorem test_set_param_while_running :
    answered 1 (after (.setParam 1) (asked 1 .setParam [0x02, 0x50, 0x00] board)) = some (.exchangeRunning, []) := by
  decide +kernel

/-- Section 11.5, event 4. -/
theorem test_get_param_tick_div :
    answered 1 (after (.getParam 1) (asked 1 .getParam [0x05]
      { board with params := { Params.reset with tickDiv := 25000 } })) = some (.ok, [0x05, 0xA8, 0x61]) := by
  decide +kernel

/-- Section 11.5, event 6. -/
theorem test_declare_new :
    answered 0 (after (.declare 0) (asked 0 .declare [0x40, 0x01, 0x00, 0xF4, 0x01] board)) =
      some (.ok, [0x00, 0x00, 0x00, 0x00]) := by decide +kernel

/-- R14: an adoption keeps version and staleness, and reports ADOPTED. -/
theorem test_declare_adopts :
    answered 0 (after (.declare 0) (asked 0 .declare [0x05, 0x00, 0x00, 0x00, 0x00] (withTopic 0 (orphanOf 5) board))) =
      some (.ok, [0x02, 0x03, 0x00, 0x01]) := by decide +kernel

/-- R16: a RETIRE answers the waiting fetch NO_TOPIC and frees the record. -/
theorem test_retire_answers_no_topic :
    let s := after (.retire 0) (asked 0 .retire [0x05, 0x00] (withFetch 5 (withTopic 0 (topicOf 5 .event) board)))
    (s.topic 0) = TopicRecord.reset ∧
      (s.port 1).queue = [{ kind := .answer .noTopic, topic := 5, version := 0, payload := none, producer := some 0,
                            isOpen := false }] := by decide +kernel

/-- R19: a PURGE frees an ORPHANED record. -/
theorem test_purge_frees_an_orphan :
    (after (.purge 1) (asked 1 .purge [0x05, 0x00] (withTopic 0 (orphanOf 5) board))).topic 0 = TopicRecord.reset := by
  decide +kernel

/-- Table 11-6: TOPIC_INFO of an ORPHANED STATE topic with four bytes at version 3. -/
theorem test_topic_info_of_an_orphan :
    answered 1 (after (.topicInfo 1) (asked 1 .topicInfo [0x05, 0x00] (withTopic 0 (orphanOf 5) board))) =
      some (.ok, [0x02, 0x00, 0xFF, 0x03, 0x00, 0x04, 0x00, 0x00, 0x01, 0x00]) := by decide +kernel

/-- Section 11.5, event 7. -/
theorem test_subscribe_takes_entry_0 :
    answered 1 (after (.subscribe 1) (asked 1 .subscribe [0x40, 0x01, 0xFF, 0xFF, 0x02] board)) =
      some (.ok, [0x00]) := by decide +kernel

/-- R27: an entry of another port. -/
theorem test_unsubscribe_of_another_port :
    answered 0 (after (.unsubscribe 0) (asked 0 .unsubscribe [0x00] (withSubscription 5 board))) =
      some (.notOwner, []) := by decide +kernel

/-- Table 11-6: one entry at index 0 with STALE_NOTICE. -/
theorem test_list_subs_of_one_entry :
    answered 1 (after (.listSubs 1) (asked 1 .listSubs [] (withSubscription 5 board))) =
      some (.ok, [63, 1, 0, 0x02]) := by decide +kernel

/-- R87: the slot is LOADING with the lowest free buffer. -/
theorem test_open_post_takes_buffer_0 :
    let s := after (.openPost 0) (asked 0 .openPost [0x02, 0x05, 0x00, 0x03] (withTopic 0 (topicOf 5 .event) board))
    s.slot ⟨0, 2⟩ = { Slot.reset with state := .loading, topic := 5, priority := 3, buffer := some 0 } ∧
      (s.buffer 0).references = 1 := by decide +kernel

/-- R40: two bytes at offset 62 fill the payload to 64. -/
theorem test_write_payload_at_the_end :
    let s := after (.writePayload 0) (asked 0 .writePayload [0x00, 62, 0xAA, 0xBB] (withSlot ⟨0, 0⟩ (loadingSlot 5) board))
    (s.slot ⟨0, 0⟩).length = 64 ∧ (s.buffer 0).bytes[63] = 0xBB := by decide +kernel

/-- Section 3.9: the slot submitted third is stamped 65535, and the counter passes to 0. -/
theorem test_submit_wraps_the_counter :
    let s := after (.submit 0) (asked 0 .submit [0x00]
      { withSlot ⟨0, 0⟩ (loadingSlot 5) board with readySequence := 65535 })
    (s.slot ⟨0, 0⟩).readySequence = 65535 ∧ s.readySequence = 0 := by decide +kernel

/-- R51: a DONE slot is too late to abort. -/
theorem test_abort_of_a_done_slot :
    answered 0 (after (.abortPost 0) (asked 0 .abortPost [0x00] (withSlot ⟨0, 0⟩ doneSlot board))) =
      some (.tooLate, []) := by decide +kernel

/-- Section 3.10, its last sentence: an abort before the deadline leaves ABORTED, and the entry is gone. -/
theorem test_abort_of_a_deferred_slot :
    let s := after (.abortPost 0) (asked 0 .abortPost [0x00] deferredPost)
    (s.slot ⟨0, 0⟩).status = some .aborted ∧ (s.slot ⟨0, 0⟩).unreached = #v[false, true, false, false] ∧
      (s.port 1).deferral = [] := by decide +kernel

/-- Section 11.6, event 5. -/
theorem test_slot_status_of_a_partial_post :
    answered 2 (after (.slotStatus 2) (asked 2 .slotStatus [0x00] (withSlot ⟨2, 0⟩
      { Slot.reset with state := .done, topic := 0x0310, priority := 1, length := 6, readySequence := 0x0102
                        version := some 21, reached := #v[true, false, false, false]
                        unreached := #v[false, false, false, true], status := some .partially }
      (online 2 board)))) =
      some (.ok, [0x04, 0x10, 0x03, 0x01, 0x06, 0x02, 0x01, 0x15, 0x00, 0x00, 0x01, 0x08, 0x02]) := by decide +kernel

/-- R53: a DONE slot becomes EMPTY. -/
theorem test_release_slot :
    (after (.releaseSlot 0) (asked 0 .releaseSlot [0x00] (withSlot ⟨0, 0⟩ doneSlot board))).slot ⟨0, 0⟩ = Slot.reset := by
  decide +kernel

/-- R152: the whole view is a window; an end above 71 is refused. -/
theorem test_set_window :
    ((after (.setWindow 0) (asked 0 .setWindow [0, 71, 1] board)).port 0).view =
      { start := 0, stop := 71, mode := .advance, cursor := 0 } ∧
    answered 0 (after (.setWindow 0) (asked 0 .setWindow [0, 72, 1] board)) = some (.badArgument, []) := by decide +kernel

/-- Section 11.5 after its event 10: the header of the answer. -/
theorem test_read_view_of_an_answer_header :
    answered 1 (after (.readView 1) (asked 1 .readView [0x08] (withQueue 1
      [{ kind := .answer .fresh, topic := 0x140, version := 1, payload := some ⟨0, 2⟩, producer := some 0,
         isOpen := false }] [] board))) =
      some (.ok, [0x02, 0x40, 0x01, 0x01, 0x00, 0x02, 0x01, 0x00]) := by decide +kernel

/-- R155: an ADVANCE read of the last delivery ends with QUEUE_EMPTY and the bytes gathered. -/
theorem test_read_view_past_the_last_delivery :
    answered 1 (after (.readView 1) (asked 1 .readView [0x04] ((withQueue 1 [note 0x125] [] board).modPort 1 fun r =>
      { r with view := { start := 0, stop := 1, mode := .advance, cursor := 0 } }))) =
      some (.queueEmpty, [0x03, 0x25]) := by decide +kernel

/-- R47, R76: a consumption moves the deferred post in, and its slot is DELIVERED. -/
theorem test_consume_serves_the_deferred_post :
    let s := after (.consume 1) (asked 1 .consume [] deferredPost)
    answered 1 s = some (.ok, [32, 0]) ∧ (s.slot ⟨0, 0⟩).status = some .delivered := by decide +kernel

/-- R157: a queue of one STALE delivery, not open, has a head of view length 8. -/
theorem test_queue_status :
    answered 1 (after (.queueStatus 1) (asked 1 .queueStatus [] (withQueue 1 [note 5] [] board))) =
      some (.ok, [1, 0, 0, 71, 0, 0, 0, 8]) := by decide +kernel

/-- Section 11.5, event 8. -/
theorem test_fetch_waits_with_id_0 :
    let s := after (.fetch 1) (asked 1 .fetch [0x40, 0x01, 0, 0] (withTopic 0 (topicOf 0x140 .state) board))
    answered 1 s = some (.ok, [0x01, 0x00]) ∧ (s.port 0).solicits = [0x140] ∧
      s.fetch 0 = some { requester := 1, topic := 0x140, deadline := .running 20 } := by decide +kernel

/-- R107: the entry is FREE, and its topic leaves the solicit list. -/
theorem test_cancel_fetch :
    let s := after (.cancelFetch 1) (asked 1 .cancelFetch [0x00] ((withFetch 5 (withTopic 0 (topicOf 5 .event)
      board)).modPort 0 fun r => { r with solicits := [5] }))
    s.fetch 0 = none ∧ (s.port 0).solicits = [] := by decide +kernel

/-- Section 11.5, event 9. -/
theorem test_read_solicits :
    answered 0 (after (.readSolicits 0) (asked 0 .readSolicits [] (board.modPort 0 fun r =>
      { r with solicits := [0x140] }))) = some (.ok, [1, 0, 0x40, 0x01]) := by decide +kernel

/-- R161: a mask with a bit that is no condition is refused. -/
theorem test_set_attn_mask_of_bit_6 :
    answered 0 (after (.setAttnMask 0) (asked 0 .setAttnMask [0x40] board)) = some (.badArgument, []) := by decide +kernel

/-- Section 10.3, event 4: QUEUE and SLOT_DONE true, RESPONSE false. -/
theorem test_attn_status :
    answered 1 (after (.attnStatus 1) (asked 1 .attnStatus [] ((withSlot ⟨1, 0⟩ doneSlot
      (withQueue 1 [note 5] [] board)).modPort 1 fun r => { r with mask := 0x05 }))) = some (.ok, [0x05, 0x05]) := by
  decide +kernel

/-- Section 11.5, event 10: the answer stands before the post, and the slot is DELIVERED. -/
theorem test_take_answers_before_it_places :
    let s := after .take posted
    (s.port 1).queue.map (·.kind) = [.answer .fresh, .post 0 false 0] ∧ (s.slot ⟨0, 0⟩).status = some .delivered ∧
      (s.topic 0).freshness = .running 500 := by decide +kernel

/-- Section 11.5, event 10: the references of the retained value and of the two deliveries stand. -/
theorem test_take_counts_three_references : ((after .take posted).buffer 0).references = 3 := by decide +kernel

/-- R9, R10: the topic is stale, and P1 has its notice with the producer present. -/
theorem test_freshness_expiry :
    let s := after (.freshnessExpiry 5) (withSubscription 5
      (withTopic 0 { topicOf 5 .state with retained := some ⟨1, 4⟩, version := 3, freshness := .running 0 } board))
    (s.topic 0).stale = true ∧ (s.port 1).queue = [{ kind := .stale 0, topic := 5, version := 3, payload := none
                                                     producer := some 0, isOpen := false }] := by decide +kernel

/-- Section 11.6, event 3: PARTIAL, the entry gone, and nothing moved into the full queue. -/
theorem test_delivery_deadline_expiry :
    let s := after (.deliveryDeadlineExpiry 0 0) deferredPost
    (s.slot ⟨0, 0⟩).status = some .partially ∧ (s.port 1).deferral = [] ∧ (s.port 1).queue = fullQueue := by
  decide +kernel

/-- R105: the answer is TIMEOUT without a value, and the entry is FREE. -/
theorem test_fetch_deadline_expiry :
    let s := after (.fetchDeadlineExpiry 0) (withFetch 5 (withTopic 0 (topicOf 5 .event) board))
    s.fetch 0 = none ∧ (s.port 1).queue.map (·.kind) = [.answer .timeout] := by decide +kernel

/-- R129: the hold has EXPIRED, and the port stays QUARANTINED. -/
theorem test_quarantine_hold_expiry :
    let s := after (.quarantineHoldExpiry 0) (State.reset.modPort 0 fun r =>
      { r with state := .quarantined, hold := .running 0 })
    (s.port 0).hold = .expired ∧ (s.port 0).state = .quarantined := by decide +kernel

/-! ## A state with every kind of record, and the laws in it -/

/-- P0 with an I2C link, a score of 112, and perhaps a DEFERRED slot and a request in progress. -/
def leader (st : PortState) (deferred : Bool) (q : Option Request) : PortRecord :=
  { PortRecord.reset { pselHigh := true, a0High := false } with
    state := st, score := 112, inProgress := q, response := if q.isSome then .notReady else .empty
    slots := #v[if deferred then waitingSlot else Slot.reset, Slot.reset, Slot.reset, Slot.reset] }

/-- The record of P0's topic 5: DECLARED with a value while P0 is ONLINE, ORPHANED when it is LEAVING. -/
def topicFive (leaving : Bool) : TopicRecord :=
  if leaving then orphanOf 5
  else { topicOf 5 .state with retained := some ⟨1, 4⟩, version := 1, limit := 100, freshness := .running 3 }

/-- The record of P0's topic 6, which has no value. -/
def topicSix (leaving : Bool) : TopicRecord := if leaving then TopicRecord.reset else topicOf 6 .event

/-- P0 in a session that is open or draining; P1 with a full queue, and perhaps P0's post deferred behind it; P2 the
producer of topic 7, on which P3 waits. -/
def scene (leaving deferred : Bool) (q : Option Request) (waiting : List Instr) : State :=
  { State.reset with
    exchange := .running
    ports := #v[leader (if leaving then .leaving else .online) deferred q,
      { PortRecord.reset Strap.reset with
        state := .online, queue := fullQueue, deferral := if deferred then [.slot ⟨0, 0⟩ 0 false] else [] },
      { PortRecord.reset Strap.reset with state := .online, solicits := [7] },
      { PortRecord.reset Strap.reset with state := .online }]
    topics := ((State.reset.topics.set 0 { topicOf 7 .event with producer := some 2 }).set 1 (topicFive leaving)).set 2
      (topicSix leaving)
    subscriptions := State.reset.subscriptions.set 0
      { Subscription.reset with active := true, owner := 1, pattern := 5, mask := 0xFFFF }
    fetches := State.reset.fetches.set 0 (some { requester := 3, topic := 7, deadline := .running 5 })
    pool := (State.reset.pool.set 0 { Buffer.reset with references := if deferred then 1 else 0 }).set 1
      { Buffer.reset with references := 1 }
    pending := waiting }

section Laws

variable (leaving deferred : Bool) (q : Option Request) (waiting : List Instr)

theorem scene_slots : SlotLaw (scene leaving deferred q waiting) := by
  constructor
  · rintro ⟨o, k⟩
    cases deferred <;> fin_cases o <;> fin_cases k <;>
      simp [scene, State.slot, State.port, leader, PortRecord.reset, Slot.fitsState, waitingSlot, Slot.reset,
        PortSet.none]
    decide
  · rintro ⟨o, k⟩ p
    cases deferred <;> fin_cases p <;> fin_cases o <;> fin_cases k <;> rfl

theorem scene_queues : QueueLaw (scene leaving deferred q waiting) := by
  constructor <;> intro p
  · fin_cases p <;> simp [scene, State.port, leader, PortRecord.reset, fullQueue]
  · fin_cases p <;> simp [scene, State.port, leader, PortRecord.reset, fullQueue]
  · fin_cases p <;> simp [scene, State.port, leader, PortRecord.reset, fullQueue, note]
  · intro d; cases deferred <;> fin_cases p <;> simp [scene, State.port, leader, PortRecord.reset]
  · fin_cases p <;> simp [scene, State.port, leader, PortRecord.reset]

theorem scene_topic (i : RecordNo) :
    (scene leaving deferred q waiting).topic i =
      if i = 0 then { topicOf 7 .event with producer := some 2 }
      else if i = 1 then topicFive leaving
      else if i = 2 then topicSix leaving
      else TopicRecord.reset := by
  obtain ⟨i, hi⟩ := i
  simp only [scene, State.topic, Vector.getElem_set, Fin.ext_iff, State.reset, Vector.getElem_replicate]
  rcases i with _ | _ | _ | i <;> simp

theorem scene_fetch (i : FetchId) :
    (scene leaving deferred q waiting).fetch i =
      if i = 0 then some { requester := 3, topic := 7, deadline := .running 5 } else none := by
  obtain ⟨i, hi⟩ := i
  simp only [scene, State.fetch, Vector.getElem_set, Fin.ext_iff, State.reset, Vector.getElem_replicate]
  rcases i with _ | i <;> simp

theorem scene_subscription (i : SubIndex) :
    (scene leaving deferred q waiting).subscription i =
      if i = 0 then { Subscription.reset with active := true, owner := 1, pattern := 5, mask := 0xFFFF }
      else Subscription.reset := by
  obtain ⟨i, hi⟩ := i
  simp only [scene, State.subscription, Vector.getElem_set, Fin.ext_iff, State.reset, Vector.getElem_replicate]
  rcases i with _ | i <;> simp

theorem scene_directory : DirectoryLaw (scene leaving deferred q waiting) := by
  constructor
  · intro i j; simp only [scene_topic]
    cases leaving <;> (repeat' split) <;> simp_all [TopicRecord.reset, topicFive, topicSix, topicOf, orphanOf]
  · intro i; simp only [scene_topic]
    cases leaving <;> (repeat' split) <;>
      simp_all [TopicRecord.reset, topicFive, topicSix, topicOf, orphanOf, isTopicNumber]
  · intro i; simp only [scene_topic, scene_fetch]
    cases leaving <;> (repeat' split) <;>
      simp_all [TopicRecord.reset, topicFive, topicSix, topicOf, orphanOf, TopicRecord.fitsState]
  · intro i p; simp only [scene_topic]
    cases leaving <;> (repeat' split) <;>
      simp_all [TopicRecord.reset, topicFive, topicSix, topicOf, orphanOf] <;> rintro rfl <;> rfl
  · rintro ⟨o, k⟩
    cases deferred <;> fin_cases o <;> fin_cases k <;>
      simp [scene, State.slot, State.port, leader, PortRecord.reset, waitingSlot, Slot.reset]
  · intro j f; simp only [scene_fetch]; split <;> simp
    rintro rfl; exact ⟨rfl, by simp, 0, by simp [scene_topic, topicOf], by simp [scene_topic, topicOf]⟩
  · intro p; fin_cases p <;> simp [scene, State.port, leader, PortRecord.reset]
  · intro p t
    have h : ((scene leaving deferred q waiting).port p).solicits = if p = 2 then [7] else [] := by fin_cases p <;> rfl
    rw [h]; split <;> simp
    rintro rfl; subst p; exact ⟨⟨0, by simp [scene_topic, topicOf]⟩, 0, by simp [scene_fetch]⟩

theorem scene_sessions (h : leaving = true → deferred = true) :
    SessionLaw (scene leaving deferred q waiting) := by
  constructor
  · intro p; cases leaving <;> fin_cases p <;> simp [scene, State.port, leader, PortRecord.reset]
  · intro p hp i; simp only [scene_subscription]
    have : p = 0 := by
      revert hp; cases leaving <;> fin_cases p <;> simp [scene, State.port, leader, PortRecord.reset]
    subst this; split <;> simp [Subscription.reset]
  · intro p hp
    cases leaving
    · revert hp; fin_cases p <;> simp [scene, State.port, leader, PortRecord.reset]
    · obtain rfl := h rfl
      exact ⟨0, by
        revert hp; fin_cases p <;> simp [scene, State.slot, State.port, leader, PortRecord.reset, waitingSlot]⟩

theorem scene_lawful (h : leaving = true → deferred = true) : SessionsLawful (scene leaving deferred q waiting) :=
  ⟨scene_slots .., scene_queues .., scene_directory .., scene_sessions _ _ _ _ h⟩

/-- P0 in its session produces the topics 5 and 6. -/
theorem scene_produced : ProducedInOrder (scene false deferred q waiting) 0 [5, 6] := by
  refine ⟨by decide, fun t => ?_⟩
  constructor
  · intro h
    rcases List.mem_pair.1 h with rfl | rfl
    · exact ⟨1, by simp [scene_topic, topicFive, topicOf]⟩
    · exact ⟨2, by simp [scene_topic, topicSix, topicOf]⟩
  · rintro ⟨i, h⟩
    simp only [scene_topic] at h
    (repeat' split at h) <;> simp_all [topicFive, topicSix, topicOf, TopicRecord.reset]

theorem scene_pool : PoolLaw (scene leaving deferred q waiting) := by
  have topics (b : BufferNo) :
      (List.finRange 128).countP (fun i => carries b ((scene leaving deferred q waiting).topic i).retained) =
        if b = 1 then 1 else 0 := by
    have : (fun i => carries b ((scene leaving deferred q waiting).topic i).retained) = fun i => i == 1 && b == 1 := by
      funext i; rw [scene_topic]
      cases leaving <;> (repeat' split) <;>
        simp_all [TopicRecord.reset, topicFive, topicSix, topicOf, orphanOf, carries, eq_comm (a := b)]
    rw [this]; by_cases h : b = 1
    · subst h; decide +kernel
    · simp [h]
  have slots (b : BufferNo) :
      allSlots.countP (fun x => ((scene leaving deferred q waiting).slot x).buffer == some b) =
        if deferred ∧ b = 0 then 1 else 0 := by
    have : (fun x => ((scene leaving deferred q waiting).slot x).buffer == some b) =
        fun x => deferred && x == ⟨0, 0⟩ && b == 0 := by
      funext ⟨o, k⟩
      cases deferred <;> fin_cases o <;> fin_cases k <;>
        simp [scene, State.slot, State.port, leader, PortRecord.reset, Slot.reset, waitingSlot, eq_comm (a := b)]
    rw [this]; cases deferred <;> by_cases h : b = 0 <;> simp [h]; decide
  have queues (b : BufferNo) (p : Port) :
      ((scene leaving deferred q waiting).port p).queue.countP (fun d => carries b d.payload) +
        ((scene leaving deferred q waiting).port p).deferral.countP (·.carries b) = 0 := by
    cases deferred <;> fin_cases p <;>
      simp [scene, State.port, leader, PortRecord.reset, fullQueue, note, carries, DeferralEntry.carries]
  constructor
  · intro b
    have h : (((scene leaving deferred q waiting).buffer b).references) =
        if b = 1 then 1 else if b = 0 then (if deferred then 1 else 0) else 0 := by
      obtain ⟨b, hb⟩ := b
      simp only [scene, State.buffer, Vector.getElem_set, Fin.ext_iff, State.reset, Vector.getElem_replicate]
      rcases b with _ | _ | b <;> simp [Buffer.reset]
    rw [h, holders, topics, slots]; simp only [queues]
    by_cases h0 : b = 0 <;> by_cases h1 : b = 1 <;> cases deferred <;> simp_all [allPorts]
  · rintro ⟨o, k⟩
    cases deferred <;> fin_cases o <;> fin_cases k <;>
      simp [scene, State.slot, State.port, leader, PortRecord.reset, Slot.reset, waitingSlot]
  · intro i; rw [scene_topic]
    cases leaving <;> (repeat' split) <;> simp_all [TopicRecord.reset, topicFive, topicSix, topicOf, orphanOf]

theorem scene_view : ViewLaw (scene leaving deferred q waiting) := by
  constructor <;> intro p <;> fin_cases p <;> simp [scene, State.port, leader, PortRecord.reset, View.reset]

theorem scene_exchange : ExchangeLaw (scene leaving deferred q waiting) := ⟨fun _ => ⟨1, .inl rfl⟩, fun _ => rfl⟩

theorem scene_hold : HoldLaw (scene leaving deferred q waiting) := by
  intro p; cases leaving <;> fin_cases p <;> simp [scene, State.port, leader, PortRecord.reset]

theorem scene_dispatcher : DispatcherLaw (scene leaving deferred q waiting) := by
  constructor
  · exact List.nodup_nil
  · rintro ⟨o, k⟩
    cases deferred <;> fin_cases o <;> fin_cases k <;>
      simp [scene, State.slot, State.port, leader, PortRecord.reset, Slot.reset, waitingSlot, State.reset]

theorem scene_link (h : ∀ r, q = some r → admitsLength r.name r.arguments.length = true) :
    LinkLaw (scene leaving deferred q waiting) := by
  constructor
  · intro p; fin_cases p <;> rfl
  · intro p; fin_cases p <;> simp [scene, State.port, leader, PortRecord.reset]
  · intro p; cases q <;> fin_cases p <;> simp [scene, State.port, leader, PortRecord.reset]
  · intro p r; fin_cases p <;> simp [scene, State.port, leader, PortRecord.reset]; exact h r
  · intro p r; cases q <;> fin_cases p <;> simp [scene, State.port, leader, PortRecord.reset]
  · intro p r; cases q <;> fin_cases p <;> simp [scene, State.port, leader, PortRecord.reset]
  · intro p
    refine le_trans (List.countP_mono_left (q := fun i => i == 0) fun i _ => ?_) (by decide)
    rw [scene_subscription]; split <;> simp_all [Subscription.ownedBy, Subscription.reset]

theorem scene_obligations : ObligationLaw (scene leaving deferred q waiting) := by
  intro p
  have : (List.finRange 16).countP (fun i => requestedBy p ((scene leaving deferred q waiting).fetch i)) ≤ 1 := by
    refine le_trans (List.countP_mono_left (q := fun i => i == 0) fun i _ => ?_) (by decide)
    rw [scene_fetch]; split <;> simp_all [requestedBy]
  have h : ((scene leaving deferred q waiting).port p).deferral.countP (·.isAnswer) = 0 := by
    cases deferred <;> fin_cases p <;> rfl
  rw [obligations, h]; omega

theorem scene_params : ParameterLaw (scene leaving deferred q waiting) := by
  constructor <;> simp [scene, State.reset, Params.reset, Config.defaultFetchDeadline, Config.defaultDeliveryDeadline,
    Config.defaultQuarThreshold, Config.defaultQuarHold, Config.defaultTickDiv]

end Laws

/-- The scene with a READY slot of P0 in place of its request. -/
def readyScene : State :=
  { withSlot ⟨0, 1⟩ (readySlot 5) (scene false true none [.take]) with readyOrder := [⟨0, 1⟩] }

theorem readyScene_dispatcher : DispatcherLaw readyScene := by
  constructor
  · simp [readyScene]
  · have h : ∀ o k : Fin 4, ⟨o, k⟩ ∈ readyScene.readyOrder ↔ (readyScene.slot ⟨o, k⟩).state = .ready := by
      decide +kernel
    exact fun x => h x.owner x.number

/-! ## Witnesses: for every statement with hypotheses, states and operands that meet them -/

/-- The bytes of a JOIN frame with a damaged CRC byte. -/
def damagedJoin : List Byte := [0x01, 0x12, 0x00, 0x41]

/-- A request set in progress stands in progress, with whatever arguments, and nothing but its port's request and response
has changed. -/
theorem asked_inProgress (p : Port) (c : RequestName) (args : List Byte) (s : State) :
    InProgress (asked p c args s) p c 7 args ∧ ((asked p c args s).port p).response = .notReady ∧
      asked p c args s = s.modPort p fun r => { r with inProgress := some (request c args), response := .notReady } := by
  exact ⟨by simp [InProgress, asked, request, State.port, State.modPort, update],
    by simp [asked, State.port, State.modPort, update], rfl⟩

/-- P0 with an I2C link. -/
def i2cState (st : PortState) (score : Nat) : State :=
  State.reset.modPort 0 fun r =>
    { r with strap := ⟨true, false⟩, state := st, score := score
             hold := if st = .quarantined then .expired else .stopped }

theorem witness_TimerIsDueAtItsTick :
    let s : State := { (withFetch 5 (withSlot ⟨0, 0⟩ waitingSlot (withTopic 0 { topicOf 5 .state with
        freshness := .running 3 } State.reset))).modPort 1 (fun r => { r with hold := .running 1 }) with
      divider := 15999, pending := List.replicate 2 (.tick 16000) }
    0 < s.params.tickDiv ∧ s.divider < s.params.tickDiv ∧ s.pending = List.replicate 2 (.tick s.params.tickDiv) ∧
      (s.topic 0).freshness = .running 3 ∧ (s.slot ⟨0, 0⟩).deadline = .running 0 ∧
      s.fetch 0 = some { requester := 1, topic := 5, deadline := .running 0 } ∧ (s.port 1).hold = .running 1 := by
  decide +kernel

/-- On an I2C port a write to its address brings a frame, and on an SPI port the frame's bits and up to seven more. -/
theorem frameEnds_i2c (bytes : List Byte) (h : bytes ≠ []) (s : State) (hs : (s.port 0).isI2c = true) :
    FrameEnds s 0 (.i2cWrite (s.port 0).i2cAddress bytes) bytes := ⟨h, by simp [hs]⟩

theorem frameEnds_spi (bytes : List Byte) (h : bytes ≠ []) (ha : bytes.head? ≠ some 0xA0) (s : State)
    (hs : (s.port 0).isI2c = false) : FrameEnds s 0 (.spi (bitsOf bytes ++ List.replicate 7 true)) bytes :=
  ⟨h, by rw [if_neg (by simp [hs])]; exact ⟨ha, List.replicate 7 true, by simp⟩⟩

/-- The damaged frame arrives at an I2C port with A0 low. -/
theorem damagedJoin_arrives (s : State) (hs : (s.port 0).isI2c = true ∧ (s.port 0).i2cAddress = 0x38) :
    FrameEnds s 0 (.i2cWrite 0x38 damagedJoin) damagedJoin :=
  ⟨by simp [damagedJoin], by simp [hs.1, hs.2]⟩

theorem witness_WellFormedFrameIsTaken :
    let frame := frameBytes 0x21 0x00 (List.replicate 66 0)
    FrameEnds State.reset 0 (.spi (bitsOf frame ++ List.replicate 7 true)) frame ∧
      FrameEnds (i2cState .offline 0) 0 (.i2cWrite 0x38 frame) frame ∧
      requestOf 0x21 = some .writePayload ∧ admitsLength .writePayload (List.replicate 66 (0 : Byte)).length = true ∧
      (State.reset.port 0).inProgress = none ∧ ((i2cState .offline 0).port 0).inProgress = none :=
  ⟨frameEnds_spi _ (by simp [frameBytes]) (by simp [frameBytes]) _ rfl,
    frameEnds_i2c _ (by simp [frameBytes]) (i2cState .offline 0) (by decide +kernel), by decide +kernel⟩

/-- Frames that fail each check of R144, at its boundary. -/
theorem witness_FirstFailedCheckNamesTheFault :
    FrameEnds State.reset 0 (.spi (bitsOf damagedJoin ++ List.replicate 7 true)) damagedJoin ∧
      FrameEnds (i2cState .offline 0) 0 (.i2cWrite 0x38 damagedJoin) damagedJoin ∧
      (State.reset.port 0).inProgress = none ∧ ((i2cState .offline 0).port 0).inProgress = none ∧
      frameFault damagedJoin = some .crc ∧ frameFault [0x01, 0x12] = some .short ∧
      frameFault [0x01, 0x12, 73] = some .length ∧ frameFault [0x01, 0x12, 0x00] = some .short ∧
      frameFault [0x01, 0x12, 0x00, 0x40, 0x00] = some .long ∧ frameFault (frameBytes 0x05 0x12 []) = some .unknownCode ∧
      frameFault (frameBytes 0x01 0x12 [0x00]) = some .length :=
  ⟨frameEnds_spi _ (by simp [damagedJoin]) (by simp [damagedJoin]) _ rfl,
    frameEnds_i2c _ (by simp [damagedJoin]) (i2cState .offline 0) (by decide +kernel), by decide +kernel⟩

theorem witness_FaultsThatEndNoSession :
    FrameEnds (i2cState .online 111) 0 (.i2cWrite 0x38 damagedJoin) damagedJoin ∧ frameFault damagedJoin = some .crc ∧
    (let s := i2cState .online 111
     (s.port 0).inProgress = none ∧ (s.port 0).state ≠ .quarantined ∧
       min 255 ((s.port 0).score + 16) < s.params.quarThreshold) ∧
    (let s := asked 0 .portStatus [] (i2cState .online 111)
     FrameEnds s 0 (.i2cWrite 0x38 damagedJoin) damagedJoin ∧ (s.port 0).inProgress = some (request .portStatus []) ∧
       (s.port 0).state ≠ .quarantined ∧ min 255 ((s.port 0).score + 16) < s.params.quarThreshold) ∧
    (let s := i2cState .quarantined 250
     FrameEnds s 0 (.i2cWrite 0x38 damagedJoin) damagedJoin ∧ (s.port 0).inProgress = none ∧
       (s.port 0).state = .quarantined) ∧
    (let s := asked 0 .portStatus [] (i2cState .quarantined 250)
     FrameEnds s 0 (.i2cWrite 0x38 damagedJoin) damagedJoin ∧ (s.port 0).inProgress = some (request .portStatus []) ∧
       (s.port 0).state = .quarantined) :=
  ⟨damagedJoin_arrives _ (by decide +kernel), by decide +kernel, by decide +kernel,
    ⟨damagedJoin_arrives _ (by decide +kernel), by decide +kernel⟩,
    ⟨damagedJoin_arrives _ (by decide +kernel), by decide +kernel⟩,
    ⟨damagedJoin_arrives _ (by decide +kernel), by decide +kernel⟩⟩

theorem witness_QuarantineFromOfflineClearsNothing :
    (let s := i2cState .offline 112
     FrameEnds s 0 (.i2cWrite 0x38 damagedJoin) damagedJoin ∧ Faulted s 0 damagedJoin ∧ (s.port 0).state = .offline ∧
       s.params.quarThreshold ≤ min 255 ((s.port 0).score + 16)) ∧
    (let s := asked 0 .portStatus [] (i2cState .offline 112)
     FrameEnds s 0 (.i2cWrite 0x38 damagedJoin) damagedJoin ∧ Faulted s 0 damagedJoin ∧ (s.port 0).state = .offline ∧
       s.params.quarThreshold ≤ min 255 ((s.port 0).score + 16)) :=
  ⟨⟨damagedJoin_arrives _ (by decide +kernel), by unfold Faulted; decide +kernel⟩,
    ⟨damagedJoin_arrives _ (by decide +kernel), by unfold Faulted; decide +kernel⟩⟩

theorem witness_QuarantineEndsTheSession (leaving : Bool) :
    let s := scene leaving true none []
    SessionsLawful s ∧ FrameEnds s 0 (.i2cWrite 0x38 damagedJoin) damagedJoin ∧ Faulted s 0 damagedJoin ∧
      ((s.port 0).state = .online ∨ (s.port 0).state = .leaving) ∧
      s.params.quarThreshold ≤ min 255 ((s.port 0).score + 16) ∧ (leaving = false → ProducedInOrder s 0 [5, 6]) :=
  ⟨scene_lawful _ _ _ _ fun _ => rfl, damagedJoin_arrives _ (by revert leaving; decide +kernel),
    by unfold Faulted; revert leaving; decide +kernel, by revert leaving; decide +kernel,
    by revert leaving; decide +kernel, fun h => h ▸ scene_produced ..⟩

theorem witness_QuarantineCutsTheRequest :
    let s := asked 0 .listSubs [] (i2cState .leaving 112)
    FrameEnds s 0 (.i2cWrite 0x38 damagedJoin) damagedJoin ∧ (s.port 0).inProgress = some (request .listSubs []) ∧
      (s.port 0).state ≠ .quarantined ∧ s.params.quarThreshold ≤ min 255 ((s.port 0).score + 16) :=
  ⟨damagedJoin_arrives _ (by decide +kernel), by decide +kernel⟩

/-- Reads of `n` bytes on an I2C port and on an SPI port. -/
theorem i2cRead_ends (s : State) (p : Port) (n : Nat) (h : (s.port p).isI2c = true) :
    ReadEnds s p (.i2cRead (s.port p).i2cAddress n) n := by simp [ReadEnds, h]

theorem spiRead_ends (s : State) (p : Port) (n : Nat) (h : (s.port p).isI2c = false) :
    ReadEnds s p (.spi (bitsOf (0xA0 :: List.replicate n 0x00) ++ List.replicate 7 true)) n := by
  simp only [ReadEnds, h, Bool.false_eq_true, ↓reduceIte]
  exact ⟨_, _, List.length_replicate, by simp, rfl⟩

/-- On either link type, a read one byte short of a response without a body and a read of all its bytes. -/
theorem witness_CompletedResponseReadsBack :
    let t := complete 0 0x00 .ok [] (i2cState .offline 0)
    let u := complete 1 0x00 .ok [] (i2cState .offline 0)
    (∀ n, ∃ x, ReadEnds t 0 x n) ∧ (∀ n, ∃ x, ReadEnds u 1 x n) ∧
      (t.port 0).isI2c = true ∧ (u.port 1).isI2c = false ∧
      4 < ([] : List Byte).length + 5 ∧ ([] : List Byte).length + 5 ≤ 5 :=
  ⟨fun n => ⟨_, i2cRead_ends _ _ n (by decide +kernel)⟩, fun n => ⟨_, spiRead_ends _ _ n (by decide +kernel)⟩,
    by decide +kernel, by decide +kernel, by decide, by decide⟩

theorem witness_ReadsThatChangeNothing :
    let r := mkResponse 0 .ok []
    let s := (i2cState .offline 0).modPort 1 fun x => { x with response := .repeated r }
    (s.port 0).response = .empty ∧ (∃ x, ReadEnds s 0 x 3) ∧ (s.port 1).response = .repeated r ∧
      (∃ x, ReadEnds s 1 x 3) ∧ ((asked 1 .join [] s).port 1).response = .notReady :=
  ⟨by decide +kernel, ⟨_, i2cRead_ends _ _ 3 (by decide +kernel)⟩, by decide +kernel,
    ⟨_, spiRead_ends _ _ 3 (by decide +kernel)⟩, by decide +kernel⟩

theorem witness_CrcIsTheRemainderOfTheBits : (0x00 : Byte) ≠ 0x01 := by decide

theorem witness_PortStateRefusesByTable :
    let s := asked 0 .leave [] State.reset
    InProgress s 0 .leave 7 [] ∧ tableSevenOne .leave (s.port 0).state = some .notOnline := by
  unfold InProgress; decide +kernel

theorem witness_JoinAndRecover :
    InProgress (asked 0 .join [] State.reset) 0 .join 7 [] ∧ ((asked 0 .join [] State.reset).port 0).state = .offline ∧
    (let s := asked 0 .recover [] (i2cState .quarantined 0)
     InProgress s 0 .recover 7 [] ∧ (s.port 0).state = .quarantined ∧ (s.port 0).hold = .expired) ∧
    (let s := asked 0 .recover [] (State.reset.modPort 0 fun r =>
       { r with state := .quarantined, hold := .running 0 })
     InProgress s 0 .recover 7 [] ∧ (s.port 0).state = .quarantined ∧ (s.port 0).hold ≠ .expired) := by
  unfold InProgress; decide +kernel

theorem witness_LeaveEndsOrDrainsTheSession (deferred : Bool) :
    let s := scene false deferred (some (request .leave [])) []
    SessionsLawful s ∧ InProgress s 0 .leave 7 [] ∧ (s.port 0).state = .online ∧
      if deferred then (s.slot ⟨0, 0⟩).state = .deferred
      else (∀ k, (s.slot ⟨0, k⟩).state ≠ .deferred) ∧ ∀ q, (s.port q).state ≠ .leaving :=
  ⟨scene_lawful _ _ _ _ (fun h => nomatch h), by unfold InProgress; revert deferred; decide +kernel⟩

/-- Topic 5 of the departing P0 has a value, topic 6 has none, and topic 7 is P2's. -/
theorem witness_LeaveOrphansTheTopics :
    let s := scene false true (some (request .leave [])) []
    SessionsLawful s ∧ ProducedInOrder s 0 [5, 6] ∧ (s.port 1).state ≠ .leaving ∧
      InProgress s 0 .leave 7 [] ∧ (s.port 0).state = .online ∧
      ((s.topic 1).state = .declared ∧ (s.topic 1).producer = some 0 ∧ (s.topic 1).retained.isSome) ∧
      ((s.topic 2).state = .declared ∧ (s.topic 2).producer = some 0 ∧ (s.topic 2).retained = none) ∧
      (s.topic 0).producer = some 2 :=
  ⟨scene_lawful _ _ _ _ (fun h => nomatch h), scene_produced .., by unfold InProgress; decide +kernel⟩

theorem witness_StatusRequestsReport :
    InProgress (asked 0 .portStatus [] board) 0 .portStatus 7 [] ∧
    InProgress (asked 0 .exchStatus [] board) 0 .exchStatus 7 [] ∧
    InProgress (asked 0 .queueStatus [] board) 0 .queueStatus 7 [] ∧
    InProgress (asked 0 .topicInfo (wordBytes 65534) board) 0 .topicInfo 7 (wordBytes 65534) ∧
    findTopic (withTopic 0 (topicOf 5 .state) board) 5 = some 0 ∧
    findTopic (withTopic 0 (topicOf 5 .state) board) 65534 = none ∧
    (board.port 0).state ≠ .quarantined ∧ ((board.port 0).state = .online ∨ (board.port 0).state = .leaving) := by
  unfold InProgress; decide +kernel

theorem witness_ParametersAreSetInSetupAndRead :
    InProgress (asked 0 .setParam (5 :: wordBytes 50000) State.reset) 0 .setParam 7 (5 :: wordBytes 50000) ∧
    InProgress (asked 0 .setParam (5 :: wordBytes 50001) board) 0 .setParam 7 (5 :: wordBytes 50001) ∧
    InProgress (asked 0 .getParam [5] board) 0 .getParam 7 [5] ∧
    (State.reset.port 0).state ≠ .quarantined ∧ (board.port 0).state = .online ∧
    State.reset.exchange = .setup ∧ board.exchange = .running ∧
    InProgress (asked 0 .getParam [1] (i2cState .quarantined 0)) 0 .getParam 7 [1] ∧
    InProgress (asked 0 .setParam [1, 1, 0] (i2cState .quarantined 0)) 0 .setParam 7 [1, 1, 0] := by
  unfold InProgress; decide +kernel

/-- A port in a session, in a state that keeps the law of the exchange. -/
theorem witness_ParametersAreSetInSetupAndRead_running :
    let s := scene false false (some (request .setParam [1, 1, 0])) []
    ExchangeLaw s ∧ (s.port 0).state = .online ∧ InProgress s 0 .setParam 7 [1, 1, 0] :=
  ⟨scene_exchange .., rfl, rfl⟩

theorem witness_AttentionMaskStatusAndLine :
    (board.port 0).state ≠ .quarantined ∧ InProgress (asked 0 .setAttnMask [63] board) 0 .setAttnMask 7 [63] ∧
      InProgress (asked 0 .setAttnMask [64] board) 0 .setAttnMask 7 [64] ∧
      InProgress (asked 0 .attnStatus [] board) 0 .attnStatus 7 [] ∧
      ((asked 0 .attnStatus [] board).port 0).response = .notReady := by unfold InProgress; decide +kernel

/-- A directory without a FREE record, and a pool without a free buffer. -/
def crowded : State :=
  { board with topics := Vector.replicate 128 (orphanOf 5), pool := Vector.replicate 256 { Buffer.reset with references := 1 }
               fetches := Vector.replicate 16 (some { requester := 1, topic := 9, deadline := .running 1 })
               subscriptions := Vector.replicate 64 { Subscription.reset with active := true, owner := 1 } }

theorem crowded_none : lowestFreeRecord crowded = none ∧ lowestFreeSubscription crowded = none ∧
    lowestFreeFetch crowded = none := by decide +kernel

theorem crowded_noBuffer : lowestFreeBuffer crowded = none := by
  simp [lowestFreeBuffer, Buffer.isFree, crowded, State.buffer]

theorem witness_DeclareFollowsItsTable :
    InProgress (asked 0 .declare (wordBytes 1 ++ [0] ++ wordBytes 60000) board) 0 .declare 7
      (wordBytes 1 ++ [0] ++ wordBytes 60000) ∧
    (board.port 0).state = .online ∧ (crowded.port 0).state = .online ∧ findTopic crowded 65534 = none ∧
    findTopic board 1 = none ∧ lowestFreeRecord board = some 0 ∧
    findTopic (withTopic 127 (topicOf 5 .event) board) 5 = some 127 ∧
    findTopic (withTopic 0 (orphanOf 5) board) 5 = some 0 ∧
    ((withTopic 0 (topicOf 5 .event) board).topic 0).producer ≠ some 1 := by unfold InProgress; decide +kernel

theorem witness_RetireAndPurgeRefuseInOrder :
    InProgress (asked 0 .retire (wordBytes 65535) board) 0 .retire 7 (wordBytes 65535) ∧
    InProgress (asked 0 .purge (wordBytes 65534) board) 0 .purge 7 (wordBytes 65534) ∧
    (board.port 0).state = .online ∧ findTopic board 1 = none ∧
    (let s := withSlot ⟨0, 3⟩ (loadingSlot 5) (withTopic 0 (topicOf 5 .event) board)
     findTopic s 5 = some 0 ∧ (s.slot ⟨0, 3⟩).state = .loading ∧ (s.slot ⟨0, 3⟩).topic = 5) ∧
    (let s := withSlot ⟨0, 3⟩ waitingSlot (withTopic 0 (orphanOf 5) board)
     findTopic s 5 = some 0 ∧ (s.slot ⟨0, 3⟩).state = .deferred ∧ (s.slot ⟨0, 3⟩).topic = 5) := by
  unfold InProgress; decide +kernel

theorem witness_RetireAndPurgeFreeTheRecord :
    let s := asked 0 .retire [5, 0] (withFetch 5 (withTopic 0 (topicOf 5 .event) board))
    let u := asked 0 .purge [5, 0] (withTopic 0 (orphanOf 5) board)
    InProgress s 0 .retire 7 (wordBytes 5) ∧ (s.port 0).state = .online ∧ findTopic s 5 = some 0 ∧
      (s.topic 0).state = .declared ∧ (s.topic 0).producer = some 0 ∧
      (∀ p k : Fin 4, (s.slot ⟨p, k⟩).state = .empty ∧ (u.slot ⟨p, k⟩).state = .empty) ∧
      InProgress u 0 .purge 7 (wordBytes 5) ∧ (u.port 0).state = .online ∧ findTopic u 5 = some 0 ∧
      (u.topic 0).state = .orphaned := by unfold InProgress; decide +kernel

theorem witness_SubscribeTakesTheLowestEntry :
    InProgress (asked 0 .subscribe [1, 0, 255, 255, 7] board) 0 .subscribe 7 (wordBytes 1 ++ wordBytes 65535 ++ [7]) ∧
    (board.port 0).state = .online ∧ ownedSubscriptions board 0 < 24 ∧ lowestFreeSubscription board = some 0 ∧
    (crowded.port 0).state = .online ∧ 24 ≤ ownedSubscriptions crowded 1 ∧ ownedSubscriptions crowded 0 < 24 ∧
    lowestFreeSubscription crowded = none := by unfold InProgress; decide +kernel

theorem witness_UnsubscribeAndListSubs :
    InProgress (asked 1 .unsubscribe [63] board) 1 .unsubscribe 7 [63] ∧
    InProgress (asked 1 .unsubscribe [64] board) 1 .unsubscribe 7 [64] ∧
    (board.port 1).state = .online ∧ (crowded.port 1).state = .online ∧ (board.subscription 63).active = false ∧
    (crowded.subscription 63).active = true ∧ (crowded.subscription 63).owner = 1 ∧
    InProgress (asked 1 .listSubs [] board) 1 .listSubs 7 [] := by unfold InProgress; decide +kernel

theorem witness_OpenPostChecksThenAllocates :
    InProgress (asked 0 .openPost (3 :: wordBytes 65534 ++ [3]) board) 0 .openPost 7 (3 :: wordBytes 65534 ++ [3]) ∧
    InProgress (asked 0 .openPost (4 :: wordBytes 5 ++ [4]) board) 0 .openPost 7 (4 :: wordBytes 5 ++ [4]) ∧
    (board.port 0).state = .online ∧ (board.slot ⟨0, 3⟩).state = .empty ∧ findTopic board 1 = none ∧
    ((withSlot ⟨0, 3⟩ doneSlot board).slot ⟨0, 3⟩).state ≠ .empty ∧
    findTopic (withTopic 0 (topicOf 5 .event) board) 5 = some 0 ∧
    lowestFreeBuffer (withTopic 0 (topicOf 5 .event) board) = some 0 ∧
    findTopic (withTopic 0 (topicOf 5 .event) crowded) 5 = some 0 ∧
    (orphanOf 5).state ≠ .declared := by unfold InProgress; decide +kernel

theorem witness_WriteThenSubmit :
    let s := withSlot ⟨0, 3⟩ (loadingSlot 5) board
    InProgress (asked 0 .writePayload (3 :: 63 :: [0xAA]) s) 0 .writePayload 7 (3 :: 63 :: [0xAA]) ∧
    InProgress (asked 0 .writePayload (3 :: 64 :: [0xAA]) s) 0 .writePayload 7 (3 :: 64 :: [0xAA]) ∧
    InProgress (asked 0 .submit [3] s) 0 .submit 7 [3] ∧ InProgress (asked 0 .submit [4] s) 0 .submit 7 [4] ∧
    (s.port 0).state = .online ∧ (s.slot ⟨0, 0⟩).state ≠ .loading ∧ (s.slot ⟨0, 3⟩).state = .loading ∧
    (s.slot ⟨0, 3⟩).buffer = some 0 := by unfold InProgress; decide +kernel

theorem witness_AbortAndReleaseEndASlot :
    let s := withSlot ⟨0, 1⟩ (loadingSlot 5) (withSlot ⟨0, 2⟩ (readySlot 5) (withSlot ⟨0, 3⟩ doneSlot board))
    InProgress (asked 0 .abortPost [3] s) 0 .abortPost 7 [3] ∧ InProgress (asked 0 .abortPost [0] s) 0 .abortPost 7 [0] ∧
    InProgress (asked 0 .releaseSlot [3] s) 0 .releaseSlot 7 [3] ∧
    (s.port 0).state = .online ∧ (s.slot ⟨0, 0⟩).state = .empty ∧ (s.slot ⟨0, 1⟩).state = .loading ∧
    (s.slot ⟨0, 2⟩).state = .ready ∧ (s.slot ⟨0, 3⟩).state = .done := by unfold InProgress; decide +kernel

/-- P0 LEAVING with a second DEFERRED slot. -/
def drainingTwo : State :=
  withSlot ⟨0, 1⟩ waitingSlot (deferredPost.modPort 0 fun r => { r with state := .leaving })

theorem witness_DeferredSlotEndsWithItsEntriesDeleted :
    (let s := asked 0 .abortPost [0] deferredPost
     (s.slot ⟨0, 0⟩).state = .deferred ∧ InProgress s 0 .abortPost 7 [0] ∧ (s.port 0).state = .online ∧
       (s.slot ⟨0, 0⟩).deadline = .running 0 ∧ (s.port 0).state ≠ .leaving) ∧
    (let s := asked 0 .abortPost [0] drainingTwo
     (s.slot ⟨0, 0⟩).state = .deferred ∧ InProgress s 0 .abortPost 7 [0] ∧ (s.slot ⟨0, 0⟩).deadline = .running 0 ∧
       (s.port 0).state = .leaving ∧ ∃ l, l ≠ 0 ∧ (s.slot ⟨0, l⟩).state = .deferred) := by
  unfold InProgress; decide +kernel

theorem witness_SlotStatusReportsTheSlot :
    InProgress (asked 0 .slotStatus [3] board) 0 .slotStatus 7 [3] ∧
    InProgress (asked 0 .slotStatus [4] board) 0 .slotStatus 7 [4] ∧
    InProgress (asked 0 .abortPost [4] board) 0 .abortPost 7 [4] ∧
    InProgress (asked 0 .releaseSlot [4] board) 0 .releaseSlot 7 [4] ∧
    (board.port 0).state = .online := by unfold InProgress; decide +kernel

theorem witness_DispatcherChoosesPriorityThenAge :
    DispatcherLaw readyScene ∧ (readyScene.slot ⟨0, 1⟩).state = .ready ∧
      DispatcherLaw (scene false true none []) ∧
      ∀ p k : Fin 4, ((scene false true none []).slot ⟨p, k⟩).state ≠ .ready :=
  ⟨readyScene_dispatcher, by decide +kernel, scene_dispatcher .., by decide +kernel⟩

theorem witness_TakeStampsAndSettles :
    chosenSlot posted = some ⟨0, 0⟩ ∧ findTopic posted (posted.slot ⟨0, 0⟩).topic = some 0 ∧
      (posted.slot ⟨0, 0⟩).state = .ready ∧ PoolLaw posted := by
  refine ⟨by decide +kernel, by decide +kernel, by decide +kernel, ⟨by decide +kernel, ?_, by decide +kernel⟩⟩
  have h : ∀ o k : Fin 4, (posted.slot ⟨o, k⟩).state = .empty → (posted.slot ⟨o, k⟩).buffer = none := by decide +kernel
  exact fun x => h x.owner x.number

theorem witness_PlacementFollowsItsCases :
    (deferredPost.port 1).deferral ≠ [] ∧ (board.port 1).deferral = [] ∧ (board.port 1).queue.length < 32 ∧
    (let s := withQueue 1 fullQueue [] board
     (s.port 1).deferral = [] ∧ 32 ≤ (s.port 1).queue.length ∧ ∀ d ∈ (s.port 1).queue, d.isPostOf 5 = false) ∧
    (let d : Delivery := { note 5 with kind := .post 0 true 31 }
     (withQueue 1 [note 5, d] [] board).port 1 |>.queue[1]? = some d) := by decide +kernel

theorem witness_ConsumeRemovesTheHead :
    InProgress (asked 1 .consume [] board) 1 .consume 7 [] ∧ (board.port 1).state = .online ∧
      (board.port 1).queue = [] ∧ ((withQueue 1 [note 5] [] board).port 1).queue = note 5 :: [] ∧
      (let s := asked 1 .consume [] (withQueue 1 fullQueue
         [.answer { note 5 with kind := .answer .noTopic }] board)
       InProgress s 1 .consume 7 [] ∧ (s.port 1).queue = note 9 :: List.replicate 31 (note 9) ∧
         (s.port 1).deferral = [.answer { note 5 with kind := .answer .noTopic }]) := by
  unfold InProgress; decide +kernel

theorem witness_ConsumeServesADeferredPost :
    let s := asked 1 .consume [] deferredPost
    InProgress s 1 .consume 7 [] ∧ (s.port 1).state = .online ∧
      ((s.port 0).state ≠ .leaving ∧
        ∃ l, l ≠ 0 ∧ ((asked 1 .consume [] drainingTwo).slot ⟨0, l⟩).state = .deferred) ∧
      (s.port 1).queue = note 9 :: List.replicate 31 (note 9) ∧ (List.replicate 31 (note 9)).length = 31 ∧
      (s.port 1).deferral = [.slot ⟨0, 0⟩ 0 false] := by unfold InProgress; decide +kernel

theorem lawful_asked {s : State} (p : Port) (c : RequestName) (args : List Byte) (hs : SessionsLawful s) :
    SessionsLawful (asked p c args s) :=
  lawful_of_link p (fun _ => ⟨rfl, rfl, rfl, rfl, rfl, rfl⟩) hs

/-- P0 LEAVING with a post of its own deferred behind its own full queue. -/
def ownScene : State :=
  { State.reset with
    exchange := .running
    ports := #v[
      { PortRecord.reset Strap.reset with
        state := .leaving, queue := fullQueue, deferral := [.slot ⟨0, 0⟩ 0 false]
        slots := #v[{ waitingSlot with pending := #v[true, false, false, false] }, Slot.reset, Slot.reset, Slot.reset] },
      PortRecord.reset Strap.reset, PortRecord.reset Strap.reset, PortRecord.reset Strap.reset]
    pool := State.reset.pool.set 0 { Buffer.reset with references := 1 } }

theorem ownScene_lawful : SessionsLawful ownScene := by
  have ht (i : RecordNo) : ownScene.topic i = TopicRecord.reset := by simp [ownScene, State.topic, State.reset]
  have hf (i : FetchId) : ownScene.fetch i = none := by simp [ownScene, State.fetch, State.reset]
  have hb (i : SubIndex) : ownScene.subscription i = Subscription.reset := by
    simp [ownScene, State.subscription, State.reset]
  refine ⟨⟨?_, ?_⟩, ⟨?_, ?_, ?_, ?_, ?_⟩, ⟨?_, ?_, ?_, ?_, ?_, ?_, ?_, ?_⟩, ⟨?_, ?_, ?_⟩⟩
  · rintro ⟨o, k⟩
    fin_cases o <;> fin_cases k <;>
      simp [ownScene, State.slot, State.port, PortRecord.reset, Slot.fitsState, waitingSlot, Slot.reset, PortSet.none]
    decide
  · rintro ⟨o, k⟩ p
    fin_cases p <;> fin_cases o <;> fin_cases k <;> rfl
  · intro p; fin_cases p <;> simp [ownScene, State.port, PortRecord.reset, fullQueue]
  · intro p; fin_cases p <;> simp [ownScene, State.port, PortRecord.reset, fullQueue]
  · intro p; fin_cases p <;> simp [ownScene, State.port, PortRecord.reset, fullQueue, note]
  · intro p d; fin_cases p <;> simp [ownScene, State.port, PortRecord.reset]
  · intro p; fin_cases p <;> simp [ownScene, State.port, PortRecord.reset]
  · intro i j; simp [ht, TopicRecord.reset]
  · intro i; simp [ht, TopicRecord.reset]
  · intro i; simp [ht, TopicRecord.fitsState, TopicRecord.reset]
  · intro i p; simp [ht, TopicRecord.reset]
  · rintro ⟨o, k⟩
    fin_cases o <;> fin_cases k <;> simp [ownScene, State.slot, State.port, PortRecord.reset, waitingSlot, Slot.reset]
  · intro j f; simp [hf]
  · intro p; fin_cases p <;> simp [ownScene, State.port, PortRecord.reset]
  · intro p t; fin_cases p <;> simp [ownScene, State.port, PortRecord.reset]
  · intro p hp
    have hn : p ≠ 0 := by rintro rfl; revert hp; decide +kernel
    constructor
    · intro i; simp [hb, Subscription.reset]
    · intro k; revert hn; fin_cases p <;> fin_cases k <;> simp [ownScene, State.slot, State.port, PortRecord.reset]
    · revert hn; fin_cases p <;> simp [ownScene, State.port, PortRecord.reset]
    · revert hn; fin_cases p <;> simp [ownScene, State.port, PortRecord.reset]
    · intro i f; simp [hf]
    · revert hn; fin_cases p <;> simp [ownScene, State.port, PortRecord.reset]
    · intro i; simp [ht, TopicRecord.reset]
    · revert hn; fin_cases p <;> simp [ownScene, State.port, PortRecord.reset]
  · intro p _ i; simp [hb, Subscription.reset]
  · intro p hp
    have h0 : p = 0 := by revert hp; revert p; decide +kernel
    exact ⟨0, by subst h0; decide +kernel⟩

/-- The endings of a drain: by the deadline, by the port's ABORT_POST, by a CONSUME of P1, of P0 itself, and by the LEAVE
and the quarantine of P1, where the post waits last. -/
theorem witness_DrainEndsInTeardown :
    (let s := scene true true (some (request .abortPost [0])) []
     SessionsLawful s ∧ (s.port 0).state = .leaving ∧ (s.slot ⟨0, 0⟩).state = .deferred ∧
       (s.slot ⟨0, 0⟩).deadline = .running 0 ∧ (∀ l, l ≠ 0 → (s.slot ⟨0, l⟩).state ≠ .deferred) ∧
       InProgress s 0 .abortPost 7 [0] ∧ (s.slot ⟨0, 0⟩).pending.erase 1 = PortSet.none ∧ (s.port 1).state = .online ∧
       (s.port 1).queue = note 9 :: List.replicate 31 (note 9) ∧ (s.port 1).deferral = [.slot ⟨0, 0⟩ 0 false] ∧
       (∀ l, (s.slot ⟨1, l⟩).state ≠ .deferred) ∧ InProgress (asked 1 .consume [] s) 1 .consume 7 [] ∧
       InProgress (asked 1 .leave [] s) 1 .leave 7 []) ∧
    (let s := asked 0 .consume [] ownScene
     SessionsLawful s ∧ InProgress s 0 .consume 7 [] ∧ (s.port 0).state = .leaving ∧
       (s.slot ⟨0, 0⟩).state = .deferred ∧ (∀ l, l ≠ 0 → (s.slot ⟨0, l⟩).state ≠ .deferred) ∧
       (s.slot ⟨0, 0⟩).pending.erase 0 = PortSet.none ∧ (s.port 0).queue = note 9 :: List.replicate 31 (note 9) ∧
       (s.port 0).deferral = [.slot ⟨0, 0⟩ 0 false]) ∧
    (∀ (c : RequestName), SessionsLawful (asked 1 c [] (scene true true none []))) ∧
    (let s := (scene true true none []).modPort 1 fun r => { r with score := 112 }
     SessionsLawful s ∧ FrameEnds s 1 (.spi (bitsOf damagedJoin)) damagedJoin ∧ Faulted s 1 damagedJoin ∧
       (s.port 1).state = .online ∧ s.params.quarThreshold ≤ min 255 ((s.port 1).score + 16)) := by
  refine ⟨⟨scene_lawful _ _ _ _ fun _ => rfl, by unfold InProgress; decide +kernel⟩,
    ⟨lawful_asked _ _ _ ownScene_lawful, by unfold InProgress; decide +kernel⟩,
    fun c => lawful_asked _ _ _ (scene_lawful _ _ _ _ fun _ => rfl),
    ⟨lawful_of_link _ (fun _ => ⟨rfl, rfl, rfl, rfl, rfl, rfl⟩) (scene_lawful _ _ _ _ fun _ => rfl), ?_,
      by unfold Faulted; decide +kernel⟩⟩
  rw [← List.append_nil (bitsOf damagedJoin)]
  exact ⟨by decide, by rw [if_neg (by decide +kernel)]; exact ⟨by decide, [], by decide, rfl⟩⟩

theorem witness_SetWindowSetsTheView :
    InProgress (asked 0 .setWindow [71, 71, 1] board) 0 .setWindow 7 [71, 71, 1] ∧
      InProgress (asked 0 .setWindow [71, 72, 1] board) 0 .setWindow 7 [71, 72, 1] ∧ (board.port 0).state = .online := by
  unfold InProgress; decide +kernel

/-- P1 with one delivery, at a cursor of its window. -/
def viewing (mode : ViewMode) (stop cursor : Nat) (queue : List Delivery) : State :=
  (withQueue 1 queue [] board).modPort 1 fun r =>
    { r with view := { start := 0, stop := stop, mode := mode, cursor := cursor } }

theorem witness_HoldReadGoesRoundTheWindow :
    let s := asked 1 .readView [64] (viewing .hold 1 1 [note 5])
    InProgress s 1 .readView 7 [64] ∧ (s.port 1).state = .online ∧ (s.port 1).queue = note 5 :: [] ∧
      (s.port 1).view.mode = .hold ∧ (s.port 1).view.start ≤ (s.port 1).view.cursor ∧
      (s.port 1).view.cursor ≤ (s.port 1).view.stop := by unfold InProgress; decide +kernel

theorem witness_AdvanceReadConsumesAtTheWindowEnd :
    ∀ n ∈ ([0, 1, 2, 3, 65] : List Byte),
      let s := asked 1 .readView [n] (viewing .advance 1 0 [note 5])
      InProgress s 1 .readView 7 [n] ∧ (s.port 1).state = .online ∧ (s.port 1).queue = [note 5] ∧
        (s.port 1).view = { start := 0, stop := 1, mode := .advance, cursor := 0 } ∧ (s.port 1).deferral = [] := by
  unfold InProgress; decide +kernel

/-- A read of five bytes past the window end, with a delivery behind the head: the port stays ONLINE; and one that ends
the drain of P0 by its own first wrap. -/
theorem witness_AdvanceReadConsumesAtTheWindowEnd_wraps :
    (let s := asked 1 .readView [5] (viewing .advance 1 0 [note 5, note 6])
     InProgress s 1 .readView 7 [5] ∧ (s.port 1).queue = note 5 :: [note 6] ∧ (s.port 1).view.mode = .advance ∧
       (s.port 1).view.cursor ≤ (s.port 1).view.stop ∧
       (s.port 1).view.stop + 1 < (s.port 1).view.cursor + (5 : Byte).toNat ∧
       ((consumeHead 1 s).port 1).state = .online) ∧
    (let s := asked 0 .readView [5] (ownScene.modPort 0 fun r =>
       { r with view := { start := 0, stop := 1, mode := .advance, cursor := 0 } })
     InProgress s 0 .readView 7 [5] ∧ (s.port 0).state = .leaving ∧ (s.port 0).view.mode = .advance ∧
       ((consumeHead 0 s).port 0).state = .offline) := by
  unfold InProgress; decide +kernel

theorem witness_ViewPresentsHeaderThenPayload :
    let d : Delivery := { note 5 with kind := .post 0 false 0, payload := some ⟨0, 63⟩ }
    d.payload = some ⟨0, 63⟩ ∧ 62 < 63 ∧ (note 5).payload = none := by decide

theorem witness_FetchIsRefusedOrAnsweredAtOnce :
    InProgress (asked 1 .fetch (wordBytes 5 ++ wordBytes 1000) board) 1 .fetch 7 (wordBytes 5 ++ wordBytes 1000) ∧
    InProgress (asked 1 .fetch (wordBytes 1 ++ wordBytes 1001) board) 1 .fetch 7 (wordBytes 1 ++ wordBytes 1001) ∧
    (board.port 1).state = .online ∧ obligations board 1 < 4 ∧ findTopic board 1 = none ∧
    4 ≤ obligations crowded 1 ∧ (crowded.port 1).state = .online ∧
    findTopic (withTopic 0 (orphanOf 5) board) 5 = some 0 ∧
    findTopic (withTopic 0 { topicOf 5 .state with retained := some ⟨1, 4⟩ } board) 5 = some 0 := by
  unfold InProgress; decide +kernel

theorem witness_FetchWaitsAndSolicits :
    let s := asked 1 .fetch [5, 0, 0xE8, 3] (withTopic 0 (topicOf 5 .event) board)
    let u := asked 0 .fetch [5, 0, 0, 0] (withTopic 0 (topicOf 5 .event) crowded)
    InProgress s 1 .fetch 7 (wordBytes 5 ++ wordBytes 1000) ∧ (s.port 1).state = .online ∧ obligations s 1 < 4 ∧
      findTopic s 5 = some 0 ∧ (s.topic 0).state = .declared ∧ (s.topic 0).producer = some 0 ∧
      (s.topic 0).kind = .event ∧ lowestFreeFetch s = some 0 ∧
      InProgress u 0 .fetch 7 (wordBytes 5 ++ wordBytes 0) ∧ obligations u 0 < 4 ∧ findTopic u 5 = some 0 ∧
      (u.topic 0).producer = some 0 ∧ lowestFreeFetch u = none := by unfold InProgress; decide +kernel

theorem witness_CancelFetchAndReadSolicits :
    let s := withFetch 5 (withTopic 0 (topicOf 5 .event) board)
    let u := s.setFetch 15 (some { requester := 1, topic := 5, deadline := .running 1 })
    InProgress (asked 1 .cancelFetch [0] s) 1 .cancelFetch 7 [0] ∧
    InProgress (asked 1 .cancelFetch [15] s) 1 .cancelFetch 7 [15] ∧
    InProgress (asked 1 .cancelFetch [16] s) 1 .cancelFetch 7 [16] ∧
    (s.port 1).state = .online ∧ s.fetch 15 = none ∧
    s.fetch 0 = some { requester := 1, topic := 5, deadline := .running 0 } ∧ (∀ j : FetchId, j ≠ 0 → s.fetch j = none) ∧
    findTopic s 5 = some 0 ∧ (s.topic 0).producer = some 0 ∧ u.fetch 15 ≠ none ∧ (u.fetch 15).map (·.topic) = some 5 ∧
    InProgress (asked 1 .readSolicits [] s) 1 .readSolicits 7 [] := by unfold InProgress; decide +kernel

theorem witness_FetchDeadlineAnswersTimeout :
    let s := withFetch 5 (withTopic 0 (topicOf 5 .event) board)
    s.fetch 0 = some { requester := 1, topic := 5, deadline := .running 0 } ∧ findTopic s 5 = some 0 ∧
      (s.topic 0).producer = some 0 ∧ (∀ j : FetchId, j ≠ 0 → s.fetch j = none) ∧
      (s.setFetch 15 (some { requester := 1, topic := 5, deadline := .running 1 })).fetch 15 =
        some { requester := 1, topic := 5, deadline := .running 1 } := by decide +kernel

theorem witness_FreshnessExpiryIssuesNotices :
    let s := withSubscription 5 (withTopic 0 { topicOf 5 .state with retained := some ⟨1, 4⟩, limit := 1
                                                                     freshness := .running 0 } board)
    findTopic s 5 = some 0 ∧ (s.topic 0).state = .declared ∧ (s.topic 0).freshness = .running 0 := by decide +kernel

theorem witness_ExpiriesHappenWhenDue :
    let s := withTopic 0 { topicOf 5 .state with freshness := .running 1 }
      (State.reset.modPort 0 fun r => { r with state := .quarantined, hold := .running 0 })
    (s.port 0).hold = .running 0 ∧ (s.port 1).hold ≠ .running 0 ∧ (s.slot ⟨0, 0⟩).deadline ≠ .running 0 ∧
      s.fetch 0 = none ∧ findTopic s 5 = some 0 ∧ (s.topic 0).freshness ≠ .running 0 := by decide +kernel

/-- A state that meets every law, with a session, a deferred post, a waiting fetch and a command that waits: the
hypotheses of the statements about the laws. -/
theorem witness_laws (c : Instr) :
    let s := scene true true (some (request .abortPost [0])) [c]
    PoolLaw s ∧ SessionsLawful s ∧ ViewLaw s ∧ ExchangeLaw s ∧ HoldLaw s ∧ DispatcherLaw s ∧ LinkLaw s ∧
      ObligationLaw s ∧ ParameterLaw s ∧ step s = exec c { s with pending := [] } :=
  ⟨scene_pool .., scene_lawful _ _ _ _ fun _ => rfl, scene_view .., scene_exchange .., scene_hold _ _ _ _, scene_dispatcher ..,
    scene_link _ _ _ _ (by rintro _ ⟨⟩; rfl), scene_obligations _ _ _ _, scene_params .., rfl⟩

/-- The step of that state with the abort of its post in front ends the drain of P0. -/
theorem witness_step_of_the_laws :
    ∃ t, step (scene true true (some (request .abortPost [0])) [.abortPost 0]) = .next t ∧
      (t.port 0).state = .offline :=
  ⟨_, rfl, by decide +kernel⟩

/-- A parameter set in SETUP: the hypothesis of the second part of StepKeepsTheExchangeLaw. -/
theorem witness_StepKeepsTheExchangeLaw :
    (after (.setParam 0) (asked 0 .setParam [1, 1, 0] State.reset)).params ≠ State.reset.params := by decide +kernel

end Sys2Proof.Tests
end

