-- ==== Sys2Proof/Proofs/SubscriptionRequests.lean ====
section
/-! The requests of the subscription table (chapter 2): what SUBSCRIBE, UNSUBSCRIBE and LIST_SUBS reply in each case of
their checks, and the obligations O27 and O28 about their handling. -/
namespace Sys2Proof.Machine

/-! ## Handling on an ONLINE port -/

section online
variable {s : State} {p : Port} {c : RequestName} {tag : Byte} {args : List Byte} {act : List Byte → State → Reply}

/-- A command that handles a request other than JOIN and RECOVER, in progress on an ONLINE port, completes it with what
the request's owner replies (R118, R139). -/
theorem exec_completes_of_online {k : Instr} {y : Reply} (hk : exec k s = .next (handleRequest p c act s))
    (hj : c ≠ .join) (hr : c ≠ .recover) (hp : InProgress s p c tag args) (ho : (s.port p).state = .online)
    (hy : act args s = y) : exec k s = .next (complete p tag y.result y.body y.state) := by
  have ht : stateRefusal c (s.port p).state = none := by rw [ho]; exact stateRefusal_online hj hr
  rw [hk, handleRequest_taken hp ht, hy]

end online

/-! ## Argument and body bytes -/

theorem indexBelow_of {n x : Nat} {i : Fin n} (h : x = i.val) : indexBelow n x = some i := by
  simp [indexBelow, h]

theorem indexBelow_eq_none {n x : Nat} (h : n ≤ x) : indexBelow n x = none := by
  simp [indexBelow, Nat.not_lt.2 h]

/-- The values that name only LATEST, STALE_NOTICE and SELF are 0 to 7 (R25). -/
theorem isOptions_iff : ∀ b : Byte, isOptions b = true ↔ b.toNat < 8 := by decide +kernel

theorem isOptions_eq_false {b : Byte} (h : 8 ≤ b.toNat) : isOptions b = false := by
  rw [← Bool.not_eq_true, isOptions_iff]
  exact Nat.not_lt.2 h

/-- A byte of three bits and five zeros is the union of the values of its bits. -/
theorem ofBoolListLE_three : ∀ b0 b1 b2 : Bool,
    (BitVec.ofBoolListLE [b0, b1, b2, false, false, false, false, false] : Byte) =
      (if b0 then 1 else 0) ||| (if b1 then 2 else 0) ||| (if b2 then 4 else 0) := by decide

/-- The options byte of an entry, bit by bit (R28, Table 11-1). -/
theorem Subscription.options_eq (e : Subscription) : e.options =
    (if e.latest then 1 else 0) ||| (if e.staleNotice then 2 else 0) ||| (if e.self then 4 else 0) :=
  ofBoolListLE_three e.latest e.staleNotice e.self

/-! ## SUBSCRIBE -/

section subscribe
variable {s : State} {p : Port} {args : List Byte}

theorem actSubscribe_badOptions (h : 8 ≤ (argByte args 4).toNat) :
    actSubscribe p args s = refuse .badArgument s := by
  simp [actSubscribe, isOptions_eq_false h]

theorem actSubscribe_overQuota (h : (argByte args 4).toNat < 8) (hq : 24 ≤ ownedSubscriptions s p) :
    actSubscribe p args s = refuse .subQuota s := by
  simp [actSubscribe, (isOptions_iff _).2 h, hq]

theorem actSubscribe_tableFull (h : (argByte args 4).toNat < 8) (hq : ownedSubscriptions s p < 24)
    (hf : lowestFreeSubscription s = none) : actSubscribe p args s = refuse .subFull s := by
  simp [actSubscribe, (isOptions_iff _).2 h, Nat.not_le.2 hq, hf]

theorem actSubscribe_entered {i : SubIndex} (h : (argByte args 4).toNat < 8) (hq : ownedSubscriptions s p < 24)
    (hf : lowestFreeSubscription s = some i) :
    actSubscribe p args s =
      { state := s.modSubscription i fun _ =>
          Subscription.ofRequest p (argWord args 0) (argWord args 2) (argByte args 4)
        result := .ok, body := [numByte i.val] } := by
  simp [actSubscribe, (isOptions_iff _).2 h, Nat.not_le.2 hq, hf]

end subscribe

section subscribeArguments
variable (pattern mask : Word) (options : Byte)

/-- The frame of a SUBSCRIBE reads back as its match, mask and options (Table 11-3). -/
theorem subscribe_pattern : argWord (wordBytes pattern ++ wordBytes mask ++ [options]) 0 = pattern := by
  simp [wordBytes]
theorem subscribe_mask : argWord (wordBytes pattern ++ wordBytes mask ++ [options]) 2 = mask := by
  simp [wordBytes]
theorem subscribe_options : argByte (wordBytes pattern ++ wordBytes mask ++ [options]) 4 = options := rfl

end subscribeArguments

/-- Settles O27: the handling completes with the owner's reply, which is taken case by case of its checks. -/
theorem subscribeTakesTheLowestEntry : Obligations.SubscribeTakesTheLowestEntry := by
  intro p tag options pattern mask s hp ho
  have answers {y : Reply} := exec_completes_of_online (k := .subscribe p) (act := actSubscribe p) (y := y) rfl
    (by decide) (by decide) hp ho
  have hopt := subscribe_options pattern mask options
  refine ⟨fun h => ?badOptions, fun h hq => ?overQuota, fun h hq hf => ?tableFull, fun i h hq hf => ?entered⟩
  case badOptions => exact answers (actSubscribe_badOptions (hopt ▸ h))
  case overQuota => exact answers (actSubscribe_overQuota (hopt ▸ h) hq)
  case tableFull => exact answers (actSubscribe_tableFull (hopt ▸ h) hq hf)
  case entered =>
    have hy := answers (actSubscribe_entered (hopt ▸ h) hq hf)
    rwa [subscribe_pattern, subscribe_mask, hopt] at hy

/-! ## UNSUBSCRIBE -/

section unsubscribe
variable {s : State} {p : Port} {index : Byte} {i : SubIndex}

theorem actUnsubscribe_badIndex (h : 63 < index.toNat) : actUnsubscribe p [index] s = refuse .badArgument s := by
  simp [actUnsubscribe, indexBelow_eq_none (Nat.succ_le_of_lt h)]

theorem actUnsubscribe_freeEntry (h : index.toNat = i.val) (ha : (s.subscription i).active = false) :
    actUnsubscribe p [index] s = refuse .badArgument s := by
  simp [actUnsubscribe, indexBelow_of h, ha]

theorem actUnsubscribe_notOwner (h : index.toNat = i.val) (ha : (s.subscription i).active = true)
    (ho : (s.subscription i).owner ≠ p) : actUnsubscribe p [index] s = refuse .notOwner s := by
  simp [actUnsubscribe, indexBelow_of h, ha, ho]

theorem actUnsubscribe_freed (h : index.toNat = i.val) (ha : (s.subscription i).active = true)
    (ho : (s.subscription i).owner = p) :
    actUnsubscribe p [index] s = accept (s.modSubscription i fun _ => Subscription.reset) := by
  simp [actUnsubscribe, indexBelow_of h, ha, ho]

end unsubscribe

/-! ## LIST_SUBS -/

/-- The second count of LIST_SUBS is the number of entries it lists (R28). -/
theorem ownedSubscriptions_eq_length (s : State) (p : Port) : ownedSubscriptions s p = (ownIndices s p).length :=
  List.countP_eq_length_filter

/-- The body of LIST_SUBS in the terms of Table 11-6. -/
theorem listSubsBody_eq (p : Port) (s : State) : listSubsBody p s =
    [numByte (freeSubscriptions s), numByte (ownIndices s p).length] ++
      (ownIndices s p).flatMap fun i => [numByte i.val,
        (if (s.subscription i).latest then 1 else 0) ||| (if (s.subscription i).staleNotice then 2 else 0) |||
        (if (s.subscription i).self then 4 else 0)] := by
  simp only [listSubsBody, ownedSubscriptions_eq_length, Subscription.options_eq]

/-- Settles O28: both handlings complete with the owner's reply; UNSUBSCRIBE's is taken case by case of its checks, and
LIST_SUBS's is its body over the state as it was. -/
theorem unsubscribeAndListSubs : Obligations.UnsubscribeAndListSubs := by
  intro p tag s ho
  refine ⟨fun index hp => ?unsubscribe, fun hp => ?listSubs⟩
  case unsubscribe =>
    have answers {y : Reply} := exec_completes_of_online (k := .unsubscribe p) (act := actUnsubscribe p) (y := y) rfl
      (by decide) (by decide) hp ho
    refine ⟨fun h => answers (actUnsubscribe_badIndex h), fun i hi => ⟨fun ha => ?_, fun ha hn => ?_, fun ha he => ?_⟩⟩
    · exact answers (actUnsubscribe_freeEntry hi ha)
    · exact answers (actUnsubscribe_notOwner hi ha hn)
    · exact answers (actUnsubscribe_freed hi ha he)
  case listSubs =>
    have hy := exec_completes_of_online (k := .listSubs p) (act := actListSubs p) rfl (by decide) (by decide) hp ho rfl
    dsimp only [actListSubs] at hy
    rwa [listSubsBody_eq] at hy

end Sys2Proof.Machine
end

