-- ==== Sys2Proof/Proofs/SlotStatus.lean ====
section
/-! SLOT_STATUS (R52): the body it reports in each state of the slot, the refusal of a slot number above 3 that it
shares with ABORT_POST and RELEASE_SLOT, and the obligation O33 about their handling. -/
namespace Sys2Proof.Machine

/-! ## Handling on a port with a session -/

section session
variable {s : State} {p : Port} {c : RequestName} {tag : Byte} {args : List Byte} {act : List Byte → State → Reply}

/-- A request of the ONLINE and LEAVING row of Table 7-1 is not refused in either state (R118). -/
theorem stateRefusal_session {st : PortState} (hc : admission c = .onlineOrLeaving)
    (hst : st = .online ∨ st = .leaving) : stateRefusal c st = none := by
  rcases hst with rfl | rfl <;> simp [stateRefusal, hc]

/-- A command that handles a request of the ONLINE and LEAVING row, in progress on a port in one of these states,
completes it with what the request's owner replies (R118, R139). -/
theorem exec_completes_of_session {k : Instr} {y : Reply} (hk : exec k s = .next (handleRequest p c act s))
    (hc : admission c = .onlineOrLeaving) (hst : (s.port p).state = .online ∨ (s.port p).state = .leaving)
    (hp : InProgress s p c tag args) (hy : act args s = y) :
    exec k s = .next (complete p tag y.result y.body y.state) := by
  rw [hk, handleRequest_taken hp (stateRefusal_session hc hst), hy]

end session

/-! ## Replies by the slot argument -/

section slotArgument
variable {s : State} {p : Port} {slot : Byte} {k : SlotNo}

theorem actSlotStatus_badSlot (h : 3 < slot.toNat) : actSlotStatus p [slot] s = refuse .badArgument s := by
  simp [actSlotStatus, argSlot_none p [] h]

theorem actAbortPost_badSlot (h : 3 < slot.toNat) : actAbortPost p [slot] s = refuse .badArgument s := by
  simp [actAbortPost, argSlot_none p [] h]

theorem actReleaseSlot_badSlot (h : 3 < slot.toNat) : actReleaseSlot p [slot] s = refuse .badArgument s := by
  simp [actReleaseSlot, argSlot_none p [] h]

theorem actSlotStatus_reports (h : slot.toNat = k.val) :
    actSlotStatus p [slot] s = { state := s, result := .ok, body := slotStatusBody (s.slot ⟨p, k⟩) } := by
  simp [actSlotStatus, argSlot_of p [] h]

end slotArgument

/-! ## The body by the state of the slot (Table 3-2, Table 11-6) -/

section body
variable {k : Slot}

/-- The fields present in every state but EMPTY. -/
def slotPresentBytes (k : Slot) : List Byte := wordBytes k.topic ++ [numByte k.priority, numByte k.length]

/-- The pending, reached and unreached sets, present in DEFERRED and DONE. -/
def slotSetBytes (k : Slot) : List Byte := [k.pending.byte, k.reached.byte, k.unreached.byte]

/-- The version, 0 in a slot that has none. -/
def slotVersionBytes (k : Slot) : List Byte := wordBytes (match k.version with | none => 0 | some v => v)

theorem wordBytes_version_getD (k : Slot) : wordBytes (k.version.getD 0) = slotVersionBytes k := by
  unfold slotVersionBytes; cases k.version <;> rfl

theorem slotStatusBody_empty (h : k.state = .empty) : slotStatusBody k = List.replicate 13 0x00 := by
  simp [slotStatusBody, h]

/-- The bytes of a slot that is not EMPTY, the three fields that depend on its state still open. -/
theorem slotStatusBody_nonempty (h : k.state ≠ .empty) : slotStatusBody k =
    [k.state.code] ++ slotPresentBytes k ++ wordBytes (if k.state.isSubmitted then k.readySequence else 0) ++
      slotVersionBytes k ++ (if k.state.hasSets then slotSetBytes k else [0, 0, 0]) ++
      [if k.state = .done then completionCode k.status else 0] := by
  rw [slotStatusBody, if_neg h, wordBytes_version_getD]; rfl

theorem slotStatusBody_loading (h : k.state = .loading) : slotStatusBody k =
    [0x01] ++ slotPresentBytes k ++ [0, 0] ++ slotVersionBytes k ++ [0, 0, 0, 0] := by
  simp [slotStatusBody_nonempty, h, SlotState.code, SlotState.isSubmitted, SlotState.hasSets, wordBytes]

theorem slotStatusBody_ready (h : k.state = .ready) : slotStatusBody k =
    [0x02] ++ slotPresentBytes k ++ wordBytes k.readySequence ++ slotVersionBytes k ++ [0, 0, 0, 0] := by
  simp [slotStatusBody_nonempty, h, SlotState.code, SlotState.isSubmitted, SlotState.hasSets]

theorem slotStatusBody_deferred (h : k.state = .deferred) : slotStatusBody k =
    [0x03] ++ slotPresentBytes k ++ wordBytes k.readySequence ++ slotVersionBytes k ++ slotSetBytes k ++ [0] := by
  simp [slotStatusBody_nonempty, h, SlotState.code, SlotState.isSubmitted, SlotState.hasSets]

theorem slotStatusBody_done (h : k.state = .done) : slotStatusBody k =
    [0x04] ++ slotPresentBytes k ++ wordBytes k.readySequence ++ slotVersionBytes k ++ slotSetBytes k ++
      [completionCode k.status] := by
  simp [slotStatusBody_nonempty, h, SlotState.code, SlotState.isSubmitted, SlotState.hasSets]

end body

/-- Settles O33: each handling completes with the owner's reply, a refusal for a slot number above 3, and else the body
of SLOT_STATUS, which is read off state by state. -/
theorem slotStatusReportsTheSlot : Obligations.SlotStatusReportsTheSlot := by
  intro p tag slot s hst
  refine ⟨fun h => ⟨fun hp => ?status, fun hp => ?abort, fun hp => ?release⟩, fun k hk hp => ?reports⟩
  case status => exact exec_completes_of_session (act := actSlotStatus p) rfl rfl hst hp (actSlotStatus_badSlot h)
  case abort => exact exec_completes_of_session (act := actAbortPost p) rfl rfl hst hp (actAbortPost_badSlot h)
  case release => exact exec_completes_of_session (act := actReleaseSlot p) rfl rfl hst hp (actReleaseSlot_badSlot h)
  case reports =>
    have hy := exec_completes_of_session (k := .slotStatus p) (act := actSlotStatus p) rfl rfl hst hp
      (actSlotStatus_reports hk)
    dsimp only at hy ⊢
    rw [hy]
    congr 2
    cases hx : (s.slot ⟨p, k⟩).state
    case empty => exact slotStatusBody_empty hx
    case loading => exact slotStatusBody_loading hx
    case ready => exact slotStatusBody_ready hx
    case deferred => exact slotStatusBody_deferred hx
    case done => exact slotStatusBody_done hx

end Sys2Proof.Machine
end

