-- ==== Sys2Proof/Proofs/CancelFetch.lean ====
section
/-! CANCEL_FETCH and READ_SOLICITS (chapter 6): when a topic leaves the solicit list of its producer, what CANCEL_FETCH
replies in each case of its checks, and the obligation O46 about the handling of both. -/
namespace Sys2Proof.Machine

/-! ## The solicit behind a waiting fetch -/

section idleSolicit
variable {s : State} {t : Word}

theorem waitsOn_iff {e : Option WaitingFetch} : waitsOn t e = true ↔ ∃ f, e = some f ∧ f.topic = t := by
  cases e <;> simp [waitsOn]

theorem waitingCount_eq_zero_iff : waitingCount s t = 0 ↔ ∀ i f, s.fetch i = some f → f.topic ≠ t := by
  simp [waitingCount, waitsOn_iff]

/-- Once an entry is FREE, no fetch waits on the topic exactly when no other entry did. -/
theorem waitingCount_setFetch_none_eq_zero_iff {i : FetchId} : waitingCount (s.setFetch i none) t = 0 ↔
    ∀ j f, j ≠ i → s.fetch j = some f → f.topic ≠ t := by
  rw [waitingCount_eq_zero_iff]
  refine forall₂_congr fun j f => ?_
  by_cases h : i = j
  · simp [h]
  · simp [fetch_setFetch, h, Ne.symm h]

theorem dropIdleSolicit_waiting (h : waitingCount s t ≠ 0) : dropIdleSolicit t s = s := by
  simp [dropIdleSolicit, h]

theorem dropIdleSolicit_idle {i : RecordNo} {q : Port} (h : waitingCount s t = 0) (hi : findTopic s t = some i)
    (hq : (s.topic i).producer = some q) : dropIdleSolicit t s = removeSolicit q t s := by
  simp [dropIdleSolicit, h, hi, hq]

end idleSolicit

/-! ## CANCEL_FETCH -/

section cancel
variable {s : State} {p : Port} {id : Byte} {i : FetchId} {f : WaitingFetch}

theorem actCancelFetch_badId (h : 15 < id.toNat) : actCancelFetch p [id] s = refuse .badArgument s := by
  simp [actCancelFetch, indexBelow_eq_none (Nat.succ_le_of_lt h)]

theorem actCancelFetch_free (h : id.toNat = i.val) (hf : s.fetch i = none) :
    actCancelFetch p [id] s = refuse .noFetch s := by
  simp [actCancelFetch, indexBelow_of h, hf]

theorem actCancelFetch_notOwner (h : id.toNat = i.val) (hf : s.fetch i = some f) (hr : f.requester ≠ p) :
    actCancelFetch p [id] s = refuse .notOwner s := by
  simp [actCancelFetch, indexBelow_of h, hf, hr]

theorem actCancelFetch_freed (h : id.toNat = i.val) (hf : s.fetch i = some f) (hr : f.requester = p) :
    actCancelFetch p [id] s = accept (dropIdleSolicit f.topic (s.setFetch i none)) := by
  simp [actCancelFetch, indexBelow_of h, hf, hr]

/-- Another fetch waits on the topic: its solicit stays (R107). -/
theorem actCancelFetch_keepsSolicit (h : id.toNat = i.val) (hf : s.fetch i = some f) (hr : f.requester = p)
    (hw : ∃ j g, j ≠ i ∧ s.fetch j = some g ∧ g.topic = f.topic) :
    actCancelFetch p [id] s = accept (s.setFetch i none) := by
  obtain ⟨j, g, hj, hg, ht⟩ := hw
  have hc : waitingCount (s.setFetch i none) f.topic ≠ 0 := fun h0 =>
    waitingCount_setFetch_none_eq_zero_iff.1 h0 j g hj hg ht
  rw [actCancelFetch_freed h hf hr, dropIdleSolicit_waiting hc]

/-- No other fetch waits on the topic: it leaves the solicit list of its producer (R107). -/
theorem actCancelFetch_dropsSolicit {r : RecordNo} {q : Port} (h : id.toNat = i.val) (hf : s.fetch i = some f)
    (hr : f.requester = p) (hw : ∀ j g, j ≠ i → s.fetch j = some g → g.topic ≠ f.topic)
    (ht : findTopic s f.topic = some r) (hq : (s.topic r).producer = some q) :
    actCancelFetch p [id] s = accept (removeSolicit q f.topic (s.setFetch i none)) := by
  have hc := waitingCount_setFetch_none_eq_zero_iff.2 hw
  rw [actCancelFetch_freed h hf hr, dropIdleSolicit_idle hc ht hq]

end cancel

/-! ## READ_SOLICITS -/

/-- The reply of READ_SOLICITS: both counts in terms of the length of the list as it was (R111). -/
theorem actReadSolicits_eq (p : Port) (args : List Byte) (s : State) : actReadSolicits p args s =
    { state := s.modPort p fun r => { r with solicits := r.solicits.drop 16 }, result := .ok
      body := [numByte (min 16 (s.port p).solicits.length), numByte ((s.port p).solicits.length - 16)] ++
        ((s.port p).solicits.take 16).flatMap wordBytes } := by
  have hs : (s.modPort p fun r => { r with solicits := (s.port p).solicits.drop 16 }) =
      s.modPort p fun r => { r with solicits := r.solicits.drop 16 } := modPort_congr s rfl
  simp only [actReadSolicits, Config.solicitsPerRead, hs, List.length_take, List.length_drop]

/-- Settles O46: both handlings complete with the owner's reply; CANCEL_FETCH's is taken case by case of its checks and
of the fetches that still wait on the topic, and READ_SOLICITS's is the same in every state. -/
theorem cancelFetchAndReadSolicits : Obligations.CancelFetchAndReadSolicits := by
  intro p tag id s ho
  refine ⟨fun hp => ?cancel, fun hp => ?read⟩
  case cancel =>
    have answers {y : Reply} := exec_completes_of_online (k := .cancelFetch p) (act := actCancelFetch p) (y := y) rfl
      (by decide) (by decide) hp ho
    refine ⟨fun h => answers (actCancelFetch_badId h), fun i hi =>
      ⟨fun hf => ?free, fun f hf hr => ?notOwner, fun f hf hr hw => ?kept, fun f r q hf hr hw ht hq => ?dropped⟩⟩
    case free => exact answers (actCancelFetch_free hi hf)
    case notOwner => exact answers (actCancelFetch_notOwner hi hf hr)
    case kept => exact answers (actCancelFetch_keepsSolicit hi hf hr hw)
    case dropped => exact answers (actCancelFetch_dropsSolicit hi hf hr hw ht hq)
  case read =>
    exact exec_completes_of_online (k := .readSolicits p) (act := actReadSolicits p) rfl (by decide) (by decide) hp ho
      (actReadSolicits_eq p [] s)

end Sys2Proof.Machine
end

