-- ==== Sys2Proof/Proofs/SetWindow.lean ====
section
/-! SET_WINDOW (R152): the modes that its last byte can name, what it replies in each case of its checks, and the
obligation O40 about its handling. -/
namespace Sys2Proof.Machine

/-! ## The mode byte (Table 11-1) -/

theorem viewModeOf_eq_none {b : Byte} (h0 : b ≠ 0) (h1 : b ≠ 1) : viewModeOf b = none := by
  rw [viewModeOf, if_neg h0, if_neg h1]

theorem viewModeOf_eq_some {b : Byte} (h : b = 0 ∨ b = 1) :
    viewModeOf b = some (if b = 0 then .hold else .advance) := by
  rcases h with rfl | rfl <;> rfl

/-! ## The reply by the arguments -/

section window
variable {s : State} {p : Port} {start stop mode : Byte}

theorem actSetWindow_badMode (h0 : mode ≠ 0) (h1 : mode ≠ 1) :
    actSetWindow p [start, stop, mode] s = refuse .badArgument s := by
  simp [actSetWindow, viewModeOf_eq_none h0 h1]

/-- A window past the last offset, or with its start above its end, is refused whatever the mode byte says. -/
theorem actSetWindow_badWindow (h : 71 < stop.toNat ∨ stop.toNat < start.toNat) :
    actSetWindow p [start, stop, mode] s = refuse .badArgument s := by
  cases hm : viewModeOf mode with
  | none => simp [actSetWindow, hm]
  | some m => simp [actSetWindow, hm, h]

theorem actSetWindow_set (hw : ¬ (71 < stop.toNat ∨ stop.toNat < start.toNat)) (hm : mode = 0 ∨ mode = 1) :
    actSetWindow p [start, stop, mode] s = accept (s.modPort p fun r =>
      { r with view := { start := start.toNat, stop := stop.toNat, mode := if mode = 0 then .hold else .advance,
                         cursor := start.toNat } }) := by
  simp [actSetWindow, viewModeOf_eq_some hm, hw]

end window

/-- Settles O40: the handling completes with the owner's reply, a refusal for a bad window or a bad mode, and else the
view set. -/
theorem setWindowSetsTheView : Obligations.SetWindowSetsTheView := by
  intro p tag start stop mode s hp hst
  have answers {y : Reply} := exec_completes_of_session (k := .setWindow p) (act := actSetWindow p) (y := y) rfl rfl
    hst hp
  refine ⟨fun hbad => ?refused, fun hgood => ?set⟩
  case refused =>
    obtain hstop | hstart | ⟨h0, h1⟩ := hbad
    · exact answers (actSetWindow_badWindow (.inl hstop))
    · exact answers (actSetWindow_badWindow (.inr hstart))
    · exact answers (actSetWindow_badMode h0 h1)
  case set =>
    have hw : ¬ (71 < stop.toNat ∨ stop.toNat < start.toNat) := fun h => hgood (or_assoc.1 (.inl h))
    have hm : mode = 0 ∨ mode = 1 := by
      by_contra h
      exact hgood (.inr (.inr (not_or.1 h)))
    exact answers (actSetWindow_set hw hm)

end Sys2Proof.Machine
end

