-- ==== Sys2Proof/Proofs/ExchangeParameters.lean ====
section
/-! SET_PARAM and GET_PARAM (R165): the ids of the exchange parameters and their ranges, what each of the two requests
replies in each case of its checks, and the obligation O21 about their handling. -/
namespace Sys2Proof.Machine

/-! ## Handling on a port in any state but QUARANTINED -/

section unlessQuarantined
variable {s : State} {p : Port} {c : RequestName} {tag : Byte} {args : List Byte} {act : List Byte → State → Reply}

/-- A request of the row of Table 7-1 that only QUARANTINED refuses is taken in every other state (R118). -/
theorem stateRefusal_unlessQuarantined {st : PortState} (hc : admission c = .unlessQuarantined)
    (hst : st ≠ .quarantined) : stateRefusal c st = none := by
  cases st
  case quarantined => exact absurd rfl hst
  all_goals simp [stateRefusal, hc]

/-- A command that handles a request of that row, in progress on a port that is not QUARANTINED, completes it with what
the request's owner replies (R118, R139). -/
theorem exec_completes_of_unlessQuarantined {k : Instr} {y : Reply}
    (hk : exec k s = .next (handleRequest p c act s)) (hc : admission c = .unlessQuarantined)
    (hst : (s.port p).state ≠ .quarantined) (hp : InProgress s p c tag args) (hy : act args s = y) :
    exec k s = .next (complete p tag y.result y.body y.state) := by
  rw [hk, handleRequest_taken hp (stateRefusal_unlessQuarantined hc hst), hy]

/-- On a QUARANTINED port the same command completes the request with QUARANTINED, and its owner does not see it. -/
theorem exec_refuses_quarantined {k : Instr} (hk : exec k s = .next (handleRequest p c act s))
    (hc : admission c = .unlessQuarantined) (hst : (s.port p).state = .quarantined) (hp : InProgress s p c tag args) :
    exec k s = .next (complete p tag .quarantined [] s) := by
  have ht : stateRefusal c (s.port p).state = some .quarantined := by simp [stateRefusal, hc, hst]
  rw [hk, handleRequest_refused hp ht]

end unlessQuarantined

/-! ## The ids of the parameters and their ranges (Table 10-1) -/

/-- The id byte of a parameter. -/
def ParamId.code : ParamId → Byte
  | .fetchDeadline => 1 | .deliveryDeadline => 2 | .quarThreshold => 3 | .quarHold => 4 | .tickDiv => 5

theorem paramOf_code (i : ParamId) : paramOf i.code = some i := by cases i <;> rfl

theorem paramOf_eq_none_iff : ∀ b : Byte, paramOf b = none ↔ b = 0 ∨ 5 < b.toNat := by decide +kernel

theorem paramOf_eq_some_iff {b : Byte} {i : ParamId} : paramOf b = some i ↔ b = i.code := by
  refine ⟨fun h => ?_, fun h => h ▸ paramOf_code i⟩
  have named : ∀ b : Byte, ∀ j ∈ paramOf b, b = j.code := by decide +kernel
  exact named b i h

/-- The rows of Table 10-1: an id and a value that lies in the range of the parameter it names. -/
theorem exists_param_inRange_iff {id : Byte} {v : Nat} :
    (∃ i, paramOf id = some i ∧ i.inRange v = true) ↔
      (id = 1 ∧ 1 ≤ v ∧ v ≤ 1000) ∨ (id = 2 ∧ 1 ≤ v ∧ v ≤ 1000) ∨ (id = 3 ∧ 32 ≤ v ∧ v ≤ 255) ∨
      (id = 4 ∧ 10 ≤ v ∧ v ≤ 10000) ∨ (id = 5 ∧ 1000 ≤ v ∧ v ≤ 50000) := by
  simp only [paramOf_eq_some_iff]
  constructor
  · rintro ⟨i, rfl, hv⟩
    cases i <;> simpa [ParamId.code, ParamId.inRange] using hv
  · rintro (⟨rfl, hv⟩ | ⟨rfl, hv⟩ | ⟨rfl, hv⟩ | ⟨rfl, hv⟩ | ⟨rfl, hv⟩)
    · exact ⟨.fetchDeadline, rfl, by simpa [ParamId.inRange] using hv⟩
    · exact ⟨.deliveryDeadline, rfl, by simpa [ParamId.inRange] using hv⟩
    · exact ⟨.quarThreshold, rfl, by simpa [ParamId.inRange] using hv⟩
    · exact ⟨.quarHold, rfl, by simpa [ParamId.inRange] using hv⟩
    · exact ⟨.tickDiv, rfl, by simpa [ParamId.inRange] using hv⟩

/-- An id and the value that the parameter it names has now. -/
theorem exists_param_get {a : Params} {id : Byte} {value : Nat}
    (h : (id = 1 ∧ value = a.fetchDeadline) ∨ (id = 2 ∧ value = a.deliveryDeadline) ∨
      (id = 3 ∧ value = a.quarThreshold) ∨ (id = 4 ∧ value = a.quarHold) ∨ (id = 5 ∧ value = a.tickDiv)) :
    ∃ i, paramOf id = some i ∧ a.get i = value := by
  obtain ⟨rfl, rfl⟩ | ⟨rfl, rfl⟩ | ⟨rfl, rfl⟩ | ⟨rfl, rfl⟩ | ⟨rfl, rfl⟩ := h
  · exact ⟨.fetchDeadline, rfl, rfl⟩
  · exact ⟨.deliveryDeadline, rfl, rfl⟩
  · exact ⟨.quarThreshold, rfl, rfl⟩
  · exact ⟨.quarHold, rfl, rfl⟩
  · exact ⟨.tickDiv, rfl, rfl⟩

/-- Setting a parameter, field by field in the terms of its id (R162, R165). -/
theorem setParameter_eq {i : ParamId} {id : Byte} {v : Nat} {s : State} (hi : paramOf id = some i) :
    setParameter i v s =
      { s with
        params :=
          { fetchDeadline := if id = 1 then v else s.params.fetchDeadline
            deliveryDeadline := if id = 2 then v else s.params.deliveryDeadline
            quarThreshold := if id = 3 then v else s.params.quarThreshold
            quarHold := if id = 4 then v else s.params.quarHold
            tickDiv := if id = 5 then v else s.params.tickDiv }
        divider := if id = 5 then 0 else s.divider } := by
  obtain rfl := paramOf_eq_some_iff.1 hi
  cases i <;> rfl

/-! ## SET_PARAM -/

section setParam
variable {s : State} {id : Byte} {v : Word} {i : ParamId}

/-- The frame of a SET_PARAM reads back as its value (Table 11-3). -/
theorem setParam_value (id : Byte) (v : Word) : argWord (id :: wordBytes v) 1 = v := by simp [wordBytes]

theorem actSetParam_badArgument (h : ¬ ∃ i, paramOf id = some i ∧ i.inRange v.toNat = true) :
    actSetParam (id :: wordBytes v) s = refuse .badArgument s := by
  cases hi : paramOf id with
  | none => simp [actSetParam, hi]
  | some i =>
    have hv : ¬ i.inRange v.toNat = true := fun hv => h ⟨i, hi, hv⟩
    simp only [actSetParam, argByte_zero, hi, setParam_value, if_neg hv]

theorem actSetParam_running (hi : paramOf id = some i) (hv : i.inRange v.toNat = true) (he : s.exchange = .running) :
    actSetParam (id :: wordBytes v) s = refuse .exchangeRunning s := by
  simp only [actSetParam, argByte_zero, hi, setParam_value, if_pos hv, if_pos he]

theorem actSetParam_set (hi : paramOf id = some i) (hv : i.inRange v.toNat = true) (he : s.exchange = .setup) :
    actSetParam (id :: wordBytes v) s = accept (setParameter i v.toNat s) := by
  have hr : s.exchange ≠ .running := by simp [he]
  simp only [actSetParam, argByte_zero, hi, setParam_value, if_pos hv, if_neg hr]

end setParam

/-! ## GET_PARAM -/

section getParam
variable {s : State} {id : Byte} {i : ParamId}

theorem actGetParam_badId (h : paramOf id = none) : actGetParam [id] s = refuse .badArgument s := by
  simp [actGetParam, h]

theorem actGetParam_reports (hi : paramOf id = some i) : actGetParam [id] s =
    { state := s, result := .ok, body := id :: wordBytes (BitVec.ofNat 16 (s.params.get i)) } := by
  simp [actGetParam, hi]

end getParam

/-- Settles O21: on a QUARANTINED port both handlings are refused; on any other they complete with the owner's reply,
which is taken case by case of its checks. -/
theorem parametersAreSetInSetupAndRead : Obligations.ParametersAreSetInSetupAndRead := by
  intro p tag id v s inRange
  have hrange : (∃ i, paramOf id = some i ∧ i.inRange v.toNat = true) ↔ inRange := exists_param_inRange_iff
  refine ⟨fun hp => ⟨fun hq => ?setQuarantined, fun hq => ?set⟩, fun hp => ⟨fun hq => ?getQuarantined, fun hq => ?get⟩⟩
  case setQuarantined => exact exec_refuses_quarantined (c := .setParam) (act := actSetParam) rfl rfl hq hp
  case getQuarantined => exact exec_refuses_quarantined (c := .getParam) (act := actGetParam) rfl rfl hq hp
  case set =>
    have answers {y : Reply} := exec_completes_of_unlessQuarantined (k := .setParam p) (act := actSetParam) (y := y) rfl
      rfl hq hp
    have refusesRunning (hin : inRange) (he : s.exchange = .running) :
        exec (.setParam p) s = .next (complete p tag .exchangeRunning [] s) := by
      obtain ⟨i, hi, hv⟩ := hrange.2 hin
      exact answers (actSetParam_running hi hv he)
    refine ⟨fun hout => ?badArgument, refusesRunning, fun hin hlaw hst => ?inSession, fun hin he => ?inSetup⟩
    case badArgument => exact answers (actSetParam_badArgument fun h => hout (hrange.1 h))
    case inSession => exact refusesRunning hin (hlaw.2 ⟨p, hst⟩)
    case inSetup =>
      obtain ⟨i, hi, hv⟩ := hrange.2 hin
      have hy := answers (actSetParam_set hi hv he)
      rwa [setParameter_eq hi] at hy
  case get =>
    have answers {y : Reply} := exec_completes_of_unlessQuarantined (k := .getParam p) (act := actGetParam) (y := y) rfl
      rfl hq hp
    refine ⟨fun hbad => ?badId, fun value hvalue => ?reports⟩
    case badId => exact answers (actGetParam_badId ((paramOf_eq_none_iff id).2 hbad))
    case reports =>
      obtain ⟨i, hi, rfl⟩ := exists_param_get hvalue
      exact answers (actGetParam_reports hi)

end Sys2Proof.Machine
end

