-- ==== Sys2Proof/Proofs/Commands.lean ====
section
/-! Commands as events. Everything a command can do to the state, as a list of events with the conditions under which
each occurs: a property kept by the events is kept by every step. The shared operations that act record by record are
folded here once: a property kept by one answer, one notice, one slot or one teardown is kept by all of them.

Each part elaborates its proofs one at a time (`Elab.async`): side by side they need more memory than one check has. -/
namespace Sys2Proof.Machine
set_option Elab.async false

/-! ## Changes of a link -/

/-- A change of a port's record that touches its link and its attention mask alone: the receiver, the request in
progress, the response, the record of link faults, the mask and the output. -/
def LinkOnly (f : PortRecord → PortRecord) : Prop :=
  ∀ r, f r = { r with
    receiver := (f r).receiver, inProgress := (f r).inProgress, response := (f r).response, lastFault := (f r).lastFault
    score := (f r).score, mask := (f r).mask, output := (f r).output }

/-! ## The events -/

/-- A property kept by every event that a command can bring but for the device reset and the setting of a parameter, under
the conditions its checks leave (Table 7-1 and the rules of the owning blocks). `L` says which changes of a link are
among the events. -/
structure RoutineKeeps (P : State → Prop) (L : (PortRecord → PortRecord) → Prop := LinkOnly) : Prop where
  link : ∀ s p f, L f → P s → P (s.modPort p f)
  tick : ∀ s n, P s → P (countPeriods n s)
  quarantined : ∀ s p, (s.port p).state ≠ .quarantined → P s → P (quarantine p s)
  holdRestarted : ∀ s p, (s.port p).state = .quarantined → P s → P (startHold p s)
  holdExpired : ∀ s p, (s.port p).hold = .running 0 → P s → P (s.modPort p fun r => { r with hold := .expired })
  joined : ∀ s p, (s.port p).state = .offline → P s →
    P { s.modPort p (fun r => { r with state := .online }) with exchange := .running }
  left : ∀ s p, (s.port p).state = .online → P s → P (leavePort p s)
  recovered : ∀ s p, (s.port p).state = .quarantined → (s.port p).hold = .expired → P s →
    P (s.modPort p fun r => { r with state := .offline, score := 0, hold := .stopped })
  missedCleared : ∀ s p, P s → P (s.modPort p fun r => { r with noticesMissed := 0 })
  topicDeclared : ∀ s p i t kind limit, (s.port p).state = .online → declareValid t kind limit = true →
    findTopic s t = none → lowestFreeRecord s = some i → P s →
    P (s.modTopic i fun _ => TopicRecord.declared t kind p limit)
  topicRedeclared : ∀ s i t kind limit, declareValid t kind limit = true → findTopic s t = some i →
    (s.topic i).state = .declared → (s.topic i).kind = kind → P s →
    P (s.modTopic i fun _ => (s.topic i).redeclared limit)
  topicAdopted : ∀ s p i t limit, (s.port p).state = .online → findTopic s t = some i →
    (s.topic i).state ≠ .declared → P s → P (s.modTopic i fun _ => (s.topic i).adopted p limit)
  topicRetired : ∀ s p i t, findTopic s t = some i → (s.topic i).state = .declared →
    (s.topic i).producer = some p → topicBusy s t = false → P s → P (retireRecord p i s)
  topicPurged : ∀ s i t, findTopic s t = some i → (s.topic i).state ≠ .declared → topicBusy s t = false → P s →
    P (freeRecord i s)
  subscribed : ∀ s p i pattern mask options, (s.port p).state = .online → ownedSubscriptions s p < 24 →
    lowestFreeSubscription s = some i → P s →
    P (s.modSubscription i fun _ => Subscription.ofRequest p pattern mask options)
  unsubscribed : ∀ s i, P s → P (s.modSubscription i fun _ => Subscription.reset)
  postOpened : ∀ s x t priority i b, (s.port x.owner).state = .online → (s.slot x).state = .empty →
    findTopic s t = some i → (s.topic i).state = .declared → (s.topic i).producer = some x.owner →
    lowestFreeBuffer s = some b → P s → P (openSlot x t priority b s)
  payloadWritten : ∀ s x offset data, (s.slot x).state = .loading → P s → P (writePayload x offset data s)
  submitted : ∀ s x, (s.slot x).state = .loading → P s → P (submitSlot x s)
  slotEmptied : ∀ s x, (s.slot x).state = .loading ∨ (s.slot x).state = .done → P s → P (emptySlot x s)
  readyAborted : ∀ s x, (s.slot x).state = .ready → P s → P (finishSlot x .aborted s)
  deferredEnded : ∀ s x c, (s.slot x).state = .deferred → P s → P (endDrains (endDeferred x c s, [x.owner]))
  windowSet : ∀ s p start stop mode, start ≤ stop → stop ≤ 71 → P s → P (s.modPort p fun r =>
    { r with view := { start := start, stop := stop, mode := mode, cursor := start } })
  viewRead : ∀ s p n, P s → P (readBytes p n s []).1
  consumed : ∀ s p, (s.port p).queue ≠ [] → P s → P (consumeHead p s)
  answeredNow : ∀ s p d, (s.port p).state = .online → obligations s p < 4 → d.isOpen = false → P s →
    P (giveAnswer p d s)
  fetchWaits : ∀ s p t i j wait, (s.port p).state = .online → obligations s p < 4 → findTopic s t = some i →
    (s.topic i).state = .declared →
    ¬ ((s.topic i).kind = .state ∧ (s.topic i).retained.isSome ∧ (s.topic i).stale = false) →
    lowestFreeFetch s = some j → P s → P (solicit (s.topic i).producer t
      (s.setFetch j (some { requester := p, topic := t, deadline := .running wait })))
  fetchCancelled : ∀ s i f, s.fetch i = some f → P s → P (dropIdleSolicit f.topic (s.setFetch i none))
  solicitsRead : ∀ s p, P s → P (s.modPort p fun r => { r with solicits := r.solicits.drop 16 })
  taken : ∀ s x i, chosenSlot s = some x → findTopic s (s.slot x).topic = some i → P s → P (takePost x i s)
  lapsed : ∀ s i t, findTopic s t = some i → (s.topic i).state = .declared → (s.topic i).freshness = .running 0 →
    P s → P (lapse i s)
  fetchExpired : ∀ s i f, s.fetch i = some f → P s →
    P (dropIdleSolicit f.topic ((giveAnswer f.requester (timeoutAnswer f.topic s) s).setFetch i none))

/-- A property kept by every event that a command can bring, and by a change of the commands that wait. -/
structure EventsKeep (P : State → Prop) : Prop extends RoutineKeeps P where
  waiting : ∀ s l, P s → P { s with pending := l }
  reset : ∀ s straps, P s → P (resetDevice straps s)
  parameterSet : ∀ s i v, ParamId.inRange i v = true → P s → P (setParameter i v s)

/-! ## Every command is one of them -/

section commands
variable {P : State → Prop} {s : State} {p : Port}

/-- A property kept by changes of a link is kept by the handling of a request when its owner keeps it, which acts only
where the port state admits the request. -/
theorem handleRequest_keeps_of_admitted {c : RequestName} {act : List Byte → State → Reply}
    (hl : ∀ s p f, LinkOnly f → P s → P (s.modPort p f)) (h : P s)
    (ha : ∀ args, stateRefusal c (s.port p).state = none → P (act args s).state) : P (handleRequest p c act s) := by
  have hc (tag r body t) (ht : P t) : P (complete p tag r body t) := hl _ _ _ (fun _ => rfl) ht
  rcases handleRequest_cases p c act s with e | ⟨q, r, _, _, _, e⟩ | ⟨q, _, _, _, hst, e⟩ <;> rw [e]
  · exact h
  · exact hc _ _ _ _ h
  · exact hc _ _ _ _ (ha _ hst)

/-- The port states that allow a request of each row of Table 7-1 but those that more than one state admits. -/
theorem state_of_admitted {c : RequestName} {st : PortState} (h : stateRefusal c st = none) :
    (admission c = .onlineOnly → st = .online) ∧ (admission c = .offlineOnly → st = .offline) ∧
      (admission c = .quarantinedOnly → st = .quarantined) := by
  cases c <;> cases st <;> simp_all [stateRefusal, admission]

variable (hl : ∀ s p f, LinkOnly f → P s → P (s.modPort p f))
  (hq : ∀ s p, (s.port p).state ≠ .quarantined → P s → P (quarantine p s))
  (hh : ∀ s p, (s.port p).state = .quarantined → P s → P (startHold p s))
include hl hq hh

theorem scoreFault_keeps (kind : FaultKind) (h : P s) : P (scoreFault p kind s) := by
  have h1 : P (s.modPort p fun r => { r with lastFault := some kind, score := raisedScore r.score }) :=
    hl _ _ _ (fun _ => rfl) h
  unfold scoreFault; dsimp only
  split
  · next hs => exact hh _ _ hs h1
  · next hs => split <;> [exact hq _ _ hs h1; exact h1]

theorem receiveFrame_keeps (bytes : List Byte) (h : P s) : P (receiveFrame p bytes s) := by
  unfold receiveFrame endFrame; dsimp only
  have h1 : P ((s.modPort p fun r => { r with receiver := gather bytes }).modPort p
      fun r => { r with receiver := Receiver.idle }) := hl _ _ _ (fun _ => rfl) (hl _ _ _ (fun _ => rfl) h)
  split
  · exact scoreFault_keeps hl hq hh _ h1
  · split
    · exact scoreFault_keeps hl hq hh _ (hl _ _ _ (fun _ => rfl) h1)
    · exact hl _ _ _ (fun _ => rfl) h1

/-- A transaction changes the link, and may bring a fault that quarantines the port or restarts its hold. -/
theorem linkTransaction_keeps (t : Transaction) (h : P s) : P (linkTransaction p t s) := by
  have output (o : LinkOutput) : P (setOutput p o s) := hl _ _ _ (fun _ => rfl) h
  unfold linkTransaction
  split
  · unfold spiTransaction; split
    · exact h
    · split
      · exact hl _ _ _ (fun _ => rfl) (output _)
      · exact receiveFrame_keeps hl hq hh _ (output _)
  · unfold i2cWrite; split
    · dsimp only; split <;> [exact output _; exact receiveFrame_keeps hl hq hh _ (output _)]
    · exact output _
  · unfold i2cRead; split
    · exact hl _ _ _ (fun _ => rfl) (output _)
    · exact output _
  · exact h

end commands

/-- What the owner of a request makes of it. -/
def actOf (p : Port) : RequestName → List Byte → State → Reply
  | .join => actJoin p | .leave => actLeave p | .recover => actRecover p | .portStatus => actPortStatus p
  | .exchStatus => actExchStatus | .setParam => actSetParam | .getParam => actGetParam
  | .declare => actDeclare p | .retire => actRetire p | .purge => actPurge | .topicInfo => actTopicInfo
  | .subscribe => actSubscribe p | .unsubscribe => actUnsubscribe p | .listSubs => actListSubs p
  | .openPost => actOpenPost p | .writePayload => actWritePayload p | .submit => actSubmit p
  | .abortPost => actAbortPost p | .slotStatus => actSlotStatus p | .releaseSlot => actReleaseSlot p
  | .setWindow => actSetWindow p | .readView => actReadView p | .consume => actConsume p
  | .queueStatus => actQueueStatus p | .fetch => actFetch p | .cancelFetch => actCancelFetch p
  | .readSolicits => actReadSolicits p | .setAttnMask => actSetAttnMask p | .attnStatus => actAttnStatus p

/-- A property that every event keeps, of the changes of a link only those in `L`, is kept by a command when it is kept by
the completion of a request whose owner keeps it, by a transaction, by the device reset and by the setting of a parameter in
SETUP, where the command is one of these. -/
theorem exec_keeps_of_parts {P : State → Prop} {L : (PortRecord → PortRecord) → Prop} (e : RoutineKeeps P L)
    (mask : ∀ m, L fun r => { r with mask := m }) {c : Instr} {s t : State} (h : P s)
    (handled : ∀ p c, (∀ args, stateRefusal c (s.port p).state = none → P (actOf p c args s).state) →
      P (handleRequest p c (actOf p c) s)) (transaction : ∀ p t, P (linkTransaction p t s))
    (reset : ∀ straps, c = .deviceReset straps → P (resetDevice straps s))
    (parameterSet : ∀ p, c = .setParam p → ∀ i v, ParamId.inRange i v = true → s.exchange = .setup →
      P (setParameter i v s)) (ht : exec c s = .next t) : P t := by
  have request {p : Port} {c : RequestName} {act : List Byte → State → Reply}
      (ha : ∀ args, stateRefusal c (s.port p).state = none → P (act args s).state) (hact : act = actOf p c := by rfl) :
      P (handleRequest p c act s) := by
    subst hact; exact handled p c ha
  cases c <;> obtain rfl := Host.Outcome.next.inj ht
  case deviceReset straps => exact reset _ rfl
  case tick n => exact e.tick _ _ h
  case requestFrame p t => exact transaction p t
  case responseRead p t => exact transaction p t
  case join p => exact request fun args hst => e.joined _ _ ((state_of_admitted hst).2.1 rfl) h
  case leave p =>
    refine request fun args hst => ?_
    rw [state_actLeave]; exact e.left _ _ ((state_of_admitted hst).1 rfl) h
  case recover p =>
    refine request fun args hst => ?_
    rcases state_actRecover p args s with he | ⟨hh, he⟩ <;> rw [he]
    · exact h
    · exact e.recovered _ _ ((state_of_admitted hst).2.2 rfl) hh h
  case portStatus p => exact request fun args _ => e.missedCleared _ _ h
  case exchStatus p => exact request fun args _ => h
  case setParam p =>
    refine request fun args _ => ?_
    rcases state_actSetParam args s with he | ⟨i, v, hv, hx, he⟩ <;> rw [he]
    · exact h
    · exact parameterSet p rfl i v hv hx
  case getParam p => exact request fun args _ => by rw [state_actGetParam]; exact h
  case declare p =>
    refine request fun args hst => ?_
    have ho := (state_of_admitted hst).1 rfl
    rcases state_actDeclare p args s with he | ⟨t, kind, limit, hv, ⟨i, hf, hi, he⟩ | ⟨i, hf, hd, _, hk, he⟩ |
      ⟨i, hf, hd, hk, he⟩⟩ <;> rw [he]
    · exact h
    · exact e.topicDeclared _ _ _ _ _ _ ho hv hf hi h
    · exact e.topicRedeclared _ _ _ _ _ hv hf hd hk h
    · exact e.topicAdopted _ _ _ _ _ ho hf hd h
  case retire p =>
    refine request fun args _ => ?_
    rcases state_actRetire p args s with he | ⟨t, i, _, hf, hd, hp, hb, he⟩ <;> rw [he]
    · exact h
    · exact e.topicRetired _ _ _ _ hf hd hp hb h
  case purge p =>
    refine request fun args _ => ?_
    rcases state_actPurge args s with he | ⟨t, i, _, hf, hd, hb, he⟩ <;> rw [he]
    · exact h
    · exact e.topicPurged _ _ _ hf hd hb h
  case topicInfo p => exact request fun args _ => by rw [state_actTopicInfo]; exact h
  case subscribe p =>
    refine request fun args hst => ?_
    rcases state_actSubscribe p args s with he | ⟨i, pattern, mask, options, hq, hi, he⟩ <;> rw [he]
    · exact h
    · exact e.subscribed _ _ _ _ _ _ ((state_of_admitted hst).1 rfl) hq hi h
  case unsubscribe p =>
    refine request fun args _ => ?_
    rcases state_actUnsubscribe p args s with he | ⟨i, _, _, he⟩ <;> rw [he]
    · exact h
    · exact e.unsubscribed _ _ h
  case listSubs p => exact request fun args _ => h
  case openPost p =>
    refine request fun args hst => ?_
    rcases state_actOpenPost p args s with he | ⟨x, t, priority, i, b, rfl, _, _, hx, hf, hd, hp, hb, he⟩ <;> rw [he]
    · exact h
    · exact e.postOpened _ _ _ _ _ _ ((state_of_admitted hst).1 rfl) hx hf hd hp hb h
  case writePayload p =>
    refine request fun args _ => ?_
    rcases state_actWritePayload p args s with he | ⟨x, offset, data, _, _, hx, he⟩ <;> rw [he]
    · exact h
    · exact e.payloadWritten _ _ _ _ hx h
  case submit p =>
    refine request fun args _ => ?_
    rcases state_actSubmit p args s with he | ⟨x, _, hx, he⟩ <;> rw [he]
    · exact h
    · exact e.submitted _ _ hx h
  case abortPost p =>
    refine request fun args _ => ?_
    rcases state_actAbortPost p args s with he | ⟨x, rfl, ⟨hx, he⟩ | ⟨hx, he⟩ | ⟨hx, he⟩⟩ <;> rw [he]
    · exact h
    · exact e.slotEmptied _ _ (.inl hx) h
    · exact e.readyAborted _ _ hx h
    · exact e.deferredEnded _ _ _ hx h
  case slotStatus p => exact request fun args _ => by rw [state_actSlotStatus]; exact h
  case releaseSlot p =>
    refine request fun args _ => ?_
    rcases state_actReleaseSlot p args s with he | ⟨x, _, hx, he⟩ <;> rw [he]
    · exact h
    · exact e.slotEmptied _ _ (.inr hx) h
  case setWindow p =>
    refine request fun args _ => ?_
    rcases state_actSetWindow p args s with he | ⟨start, stop, mode, hle, hstop, he⟩ <;> rw [he]
    · exact h
    · exact e.windowSet _ _ _ _ _ hle hstop h
  case readView p =>
    refine request fun args _ => ?_
    rcases state_actReadView p args s with he | ⟨n, _, _, he⟩ <;> rw [he]
    · exact h
    · exact e.viewRead _ _ _ h
  case consume p =>
    refine request fun args _ => ?_
    rcases state_actConsume p args s with he | ⟨hq, he⟩ <;> rw [he]
    · exact h
    · exact e.consumed _ _ hq h
  case queueStatus p => exact request fun args _ => h
  case fetch p =>
    refine request fun args hst => ?_
    have ho := (state_of_admitted hst).1 rfl
    rcases state_actFetch p args s with he | ⟨t, _, hn, ⟨_, he⟩ | ⟨i, _, _, _, _, _, he⟩ | ⟨i, _, _, he⟩ |
      ⟨i, j, wait, hf, hd, hv, hj, he⟩⟩ <;> rw [he]
    · exact h
    · exact e.answeredNow _ _ _ ho hn rfl h
    · exact e.answeredNow _ _ _ ho hn rfl h
    · exact e.answeredNow _ _ _ ho hn rfl h
    · exact e.fetchWaits _ _ _ _ _ _ ho hn hf hd hv hj h
  case cancelFetch p =>
    refine request fun args _ => ?_
    rcases state_actCancelFetch p args s with he | ⟨i, f, hf, _, he⟩ <;> rw [he]
    · exact h
    · exact e.fetchCancelled _ _ _ hf h
  case readSolicits p =>
    refine request fun args _ => ?_
    rw [actReadSolicits_eq]; exact e.solicitsRead _ _ h
  case setAttnMask p =>
    refine request fun args _ => ?_
    rcases state_actSetAttnMask p args s with he | ⟨m, he⟩ <;> rw [he]
    · exact h
    · exact e.link _ _ _ (mask m) h
  case attnStatus p => exact request fun args _ => h
  case take =>
    unfold dispatch; split
    · exact h
    · next x hx =>
      split
      · exact h
      · next i hi => exact e.taken _ _ _ hx hi h
  case freshnessExpiry t =>
    unfold expireFreshness; split
    · exact h
    · next i hf =>
      split
      · next hd => exact e.lapsed _ _ _ hf hd.1 hd.2 h
      · exact h
  case deliveryDeadlineExpiry p k =>
    unfold expireDelivery; split
    · next hx => exact e.deferredEnded _ _ _ hx.1 h
    · exact h
  case fetchDeadlineExpiry i =>
    unfold expireFetch; split
    · exact h
    · next f hf => split <;> [exact e.fetchExpired _ _ _ hf h; exact h]
  case quarantineHoldExpiry p =>
    by_cases hr : (s.port p).hold = .running 0
    · have he : expireHold p s = s.modPort p fun r => { r with hold := .expired } := modPort_congr s (by simp [hr])
      rw [he]; exact e.holdExpired _ _ hr h
    · have he : expireHold p s = s := by
        unfold expireHold State.modPort
        rw [update_eq_self]
        have hr' : ¬ (s.ports[p.val]).hold = .running 0 := hr
        simp [hr']
      rw [he]; exact h

/-- A property that every routine event keeps is kept by a command when it is kept by the device reset and by the setting of
a parameter in SETUP, where the command is one of these. -/
theorem exec_keeps_of_routine {P : State → Prop} (e : RoutineKeeps P) {c : Instr} {s t : State} (h : P s)
    (reset : ∀ straps, c = .deviceReset straps → P (resetDevice straps s))
    (parameterSet : ∀ p, c = .setParam p → ∀ i v, ParamId.inRange i v = true → s.exchange = .setup →
      P (setParameter i v s)) (ht : exec c s = .next t) : P t :=
  exec_keeps_of_parts e (fun _ _ => rfl) h (fun _ _ ha => handleRequest_keeps_of_admitted e.link h ha)
    (fun _ t => linkTransaction_keeps e.link e.quarantined e.holdRestarted t h) reset parameterSet ht

/-- A property that every event keeps is kept by every command. -/
theorem exec_keeps_of_events {P : State → Prop} (e : EventsKeep P) (c : Instr) (s t : State) (h : P s)
    (ht : exec c s = .next t) : P t :=
  exec_keeps_of_routine e.toRoutineKeeps h (fun straps _ => e.reset s straps h)
    (fun _ _ i v hv _ => e.parameterSet s i v hv h) ht

/-- A property that every event keeps is kept by every step. -/
theorem step_keeps_of_events {P : State → Prop} (e : EventsKeep P) {s t : State} (h : P s) (ht : step s = .next t) :
    P t :=
  step_keeps e.waiting (exec_keeps_of_events e) h ht

end Sys2Proof.Machine
end

