-- ==== Sys2Proof/Proofs/Folds.lean ====
section
/-! The operations that act record by record, folded once: a property kept by one answer, one notice, one slot, one
orphaning or one teardown is kept by all of them. -/
namespace Sys2Proof.Machine
set_option Elab.async false

variable {P : State → Prop} {s : State} {p : Port}

theorem foldl_keeps {α : Type} {f : State → α → State} (l : List α) (h : ∀ s, ∀ a ∈ l, P s → P (f s a)) (hs : P s) :
    P (l.foldl f s) := by
  induction l generalizing s with
  | nil => exact hs
  | cons a l ih => exact ih (fun s b hb => h s b (.tail _ hb)) (h s a (.head _) hs)

theorem answerAll_keeps {d : Delivery} (h : ∀ s i f, s.fetch i = some f → f.topic = d.topic → P s →
    P ((giveAnswer f.requester d s).setFetch i none)) (hs : P s) : P (answerAll d s) := by
  refine foldl_keeps _ (fun s i _ hs => ?_) hs
  unfold answerEntry; split
  · exact hs
  · next f hf => split <;> [exact h _ _ _ hf ‹_› hs; exact hs]

theorem issueNotices_keeps {t v : Word} {q : Option Port}
    (h : ∀ s p i, (governing s p fun e => e.matchesNotice t q) = some i → P s →
      P (placeNotice p (staleDelivery t v q i) s)) (hs : P s) : P (issueNotices t v q s) := by
  refine foldl_keeps _ (fun s p _ hs => ?_) hs
  unfold noticeAt; split
  · exact hs
  · exact h _ _ _ ‹_› hs

theorem removeFetches_keeps (h : ∀ s i f, s.fetch i = some f → f.requester = p → P s →
    P (dropIdleSolicit f.topic (s.setFetch i none))) (hs : P s) : P (removeFetches p s) := by
  refine foldl_keeps _ (fun s i _ hs => ?_) hs
  unfold removeFetchOf; split
  · exact hs
  · next f hf => split <;> [exact h _ _ _ hf ‹_› hs; exact hs]

theorem leaveSlots_keeps (he : ∀ s x, x.owner = p → (s.slot x).state = .loading → P s → P (emptySlot x s))
    (hf : ∀ s x, x.owner = p → (s.slot x).state = .ready → P s → P (finishSlot x .withdrawn s)) (hs : P s) :
    P (leaveSlots p s) := by
  refine foldl_keeps _ (fun s k _ hs => ?_) hs
  unfold leaveSlot; split
  · exact he _ _ rfl ‹_› hs
  · exact hf _ _ rfl ‹_› hs
  all_goals exact hs

theorem abortDeferredSlots_keeps (h : ∀ s x, x.owner = p → (s.slot x).state = .deferred → P s →
    P (endDeferred x .aborted s)) (hs : P s) : P (abortDeferredSlots p s) := by
  refine foldl_keeps _ (fun s k _ hs => ?_) hs
  unfold abortDeferredSlot; split
  · exact h _ _ rfl ‹_› hs
  · exact hs

theorem placeAll_keeps {x : SlotName} {t : Word}
    (h : ∀ s p i, (governing s p fun e => e.matchesPost t x.owner) = some i → P s →
      P (placePost x p i (s.subscription i).latest s).1) (hs : P s) : P (placeAll x t s).state := by
  have step (y : Placements) (p : Port) (hy : P y.state) : P (placeAt x t y p).state := by
    unfold placeAt; split
    · exact hy
    · have := h _ _ _ ‹_› hy
      dsimp only; split <;> exact this
  have fold (l : List Port) (y : Placements) (hy : P y.state) : P (l.foldl (placeAt x t) y).state := by
    induction l generalizing y with
    | nil => exact hy
    | cons p l ih => exact ih _ (step y p hy)
  exact fold _ _ hs

theorem orphanTopics_keeps (h : ∀ s i t, findTopic s t = some i → P s → P (orphanRecord p i s)) (hs : P s) :
    P (orphanTopics p s) := by
  refine foldl_keeps _ (fun s t _ hs => ?_) hs
  unfold orphanTopic; split
  · exact hs
  · exact h _ _ _ ‹_› hs

/-- The orphaning of one record, step by step: the answers, the solicit, and then the notices or the FREE record. -/
theorem orphanRecord_keeps {i : RecordNo}
    (ha : ∀ s j f d, s.fetch j = some f → f.topic = d.topic → d.isOpen = false → P s →
      P ((giveAnswer f.requester d s).setFetch j none))
    (hl : ∀ s t, P s → P (removeSolicit p t s))
    (ho : ∀ s, P s → P (s.modTopic i fun r =>
      { r with state := .orphaned, producer := none, freshness := .stopped, stale := true }))
    (hn : ∀ s t v q j, P s → P (placeNotice q (staleDelivery t v none j) s))
    (hf : ∀ s, P s → P (freeRecord i s)) (hs : P s) : P (orphanRecord p i s) := by
  unfold orphanRecord; dsimp only
  have h1 := hl _ (s.topic i).number (answerAll_keeps (d := answerDelivery (s.topic i).number .producerGone
    (s.topic i).retained (s.topic i).valueVersion (some p)) (fun s j f hj ht => ha s j f _ hj ht rfl) hs)
  split
  · exact issueNotices_keeps (fun s q j _ => hn s _ _ q j) (ho _ h1)
  · exact hf _ h1

theorem handleReports_keeps (h : ∀ s q, drainEnded s q = true → P s → P (teardown false q s).1) (n : Nat)
    (l : List Port) (hs : P s) : P (handleReports n l s) := by
  induction n generalizing l s with
  | zero => exact hs
  | succ n ih =>
    cases l with
    | nil => exact hs
    | cons q l =>
      rw [handleReports]; split
      · exact ih _ (h _ _ ‹_› hs)
      · exact ih _ hs

theorem endDrains_keeps (h : ∀ s q, drainEnded s q = true → P s → P (teardown false q s).1) {y : State × List Port}
    (hs : P y.1) : P (endDrains y) :=
  handleReports_keeps h _ _ hs

theorem deferredSlots_eq_zero {q : Port} : deferredSlots s q = 0 ↔ ∀ k, (s.slot ⟨q, k⟩).state ≠ .deferred := by
  unfold deferredSlots; rw [List.countP_eq_zero]
  simp only [List.mem_finRange, forall_const, beq_iff_eq, ne_eq]

theorem drainEnded_iff (s : State) (q : Port) :
    drainEnded s q = true ↔ (s.port q).state = .leaving ∧ ∀ k, (s.slot ⟨q, k⟩).state ≠ .deferred := by
  rw [drainEnded, Bool.and_eq_true, beq_iff_eq, beq_iff_eq, deferredSlots_eq_zero]

theorem readBytes_keeps (h : ∀ s, (s.port p).queue ≠ [] → P s → P (passByte p s)) (n : Nat) (got : List Byte)
    (hs : P s) : P (readBytes p n s got).1 := by
  induction n generalizing s got with
  | zero => exact hs
  | succ n ih =>
    rw [readBytes]; split
    · exact hs
    · next hq => exact ih _ (h _ (by simp [hq]) hs)

/-- Both endings of a departing session without a drain, or its beginning: the LEAVE effects, then the teardown. -/
theorem leavePort_keeps {Q : State → Prop}
    (he : Q (leaveEffects p (s.modPort p fun r => { r with state := .leaving })))
    (ht : ∀ s, (∀ k, (s.slot ⟨p, k⟩).state ≠ .deferred) → Q s → P (teardown false p s).1)
    (hd : ∀ s q, drainEnded s q = true → P s → P (teardown false q s).1) (hk : ∀ s, Q s → P s) : P (leavePort p s) := by
  unfold leavePort; dsimp only; split
  · next h =>
    exact endDrains_keeps hd (ht _ (deferredSlots_eq_zero.1 h) he)
  · exact hk _ he

end Sys2Proof.Machine
end

