-- ==== Sys2Proof/Proofs/Timebase.lean ====
section
/-! What a TICK and a device reset leave of each record (R133, R162, R163). -/
namespace Sys2Proof.Machine
set_option Elab.async false

section timebase
variable (n : Nat) (s : State)

/-- The ticks that a number of CLKIN periods brings (R162). -/
def ticksOf : Nat := (s.divider + n) / s.params.tickDiv

theorem port_countPeriods (p : Port) : (countPeriods n s).port p = (s.port p).after (ticksOf n s) :=
  getElem_updateAll ..

theorem slot_countPeriods (x : SlotName) : (countPeriods n s).slot x =
    { s.slot x with deadline := (s.slot x).deadline.after (ticksOf n s) } := by
  rw [slot_def, port_countPeriods]
  exact getElem_updateAll ..

theorem topic_countPeriods (i : RecordNo) : (countPeriods n s).topic i =
    { s.topic i with freshness := (s.topic i).freshness.after (ticksOf n s) } :=
  getElem_updateAll ..

theorem fetch_countPeriods (j : FetchId) : (countPeriods n s).fetch j =
    (s.fetch j).map fun f => { f with deadline := f.deadline.after (ticksOf n s) } :=
  getElem_updateAll ..

theorem buffer_countPeriods (b : BufferNo) : (countPeriods n s).buffer b = s.buffer b := rfl

end timebase

section reset
variable (straps : Vector Strap 4) (s : State)

theorem port_resetDevice (p : Port) : (resetDevice straps s).port p = PortRecord.reset straps[p.val] := by
  fin_cases p <;> rfl

theorem slot_resetDevice (x : SlotName) : (resetDevice straps s).slot x = Slot.reset := by
  rw [slot_def, port_resetDevice]
  exact Vector.getElem_replicate ..

theorem topic_resetDevice (i : RecordNo) : (resetDevice straps s).topic i = TopicRecord.reset :=
  Vector.getElem_replicate ..

theorem fetch_resetDevice (j : FetchId) : (resetDevice straps s).fetch j = none := Vector.getElem_replicate ..

theorem subscription_resetDevice (i : SubIndex) : (resetDevice straps s).subscription i = Subscription.reset :=
  Vector.getElem_replicate ..

theorem buffer_resetDevice (b : BufferNo) : (resetDevice straps s).buffer b = Buffer.reset :=
  Vector.getElem_replicate ..

end reset

end Sys2Proof.Machine
end

