-- ==== Sys2Proof/Proofs/PortRecords.lean ====
section
/-! What the shared operations leave of a port's record beside its slots, and the laws that look at one port's record
at a time. -/
namespace Sys2Proof.Machine
set_option Elab.async false

/-! ## Solicit lists and subscriptions -/

section solicits
variable {β : Type} {see : State → β} (hl : SolicitBlind see) (q : Port) (t : Word) (s : State)
include hl

theorem see_removeSolicit : see (removeSolicit q t s) = see s := hl.solicits _ _ _
theorem see_addSolicit : see (addSolicit q t s) = see s := hl.solicits _ _ _
theorem see_clearSolicits : see (clearSolicits q s) = see s := hl.solicits s q fun _ => []

theorem see_solicit (producer : Option Port) : see (solicit producer t s) = see s := by
  cases producer with
  | none => rfl
  | some q => exact see_addSolicit hl q t s

end solicits

theorem see_freeSubscriptionsOf {β : Type} {see : State → β} (hb : SubscriptionBlind see) (p : Port) (s : State) :
    see (freeSubscriptionsOf p s) = see s := hb.subscriptions _ _

/-! ## What stands of a record -/

section standingFields
variable (r : PortRecord)

@[simp] theorem PortRecord.standing_strap : r.standing.strap = r.strap := rfl
@[simp] theorem PortRecord.standing_inProgress : r.standing.inProgress = r.inProgress := rfl
@[simp] theorem PortRecord.standing_response : r.standing.response = r.response := rfl
@[simp] theorem PortRecord.standing_score : r.standing.score = r.score := rfl
@[simp] theorem PortRecord.standing_lastFault : r.standing.lastFault = r.lastFault := rfl
@[simp] theorem PortRecord.standing_state : r.standing.state = r.state := rfl
@[simp] theorem PortRecord.standing_hold : r.standing.hold = r.hold := rfl
@[simp] theorem PortRecord.standing_view : r.standing.view = r.view := rfl
@[simp] theorem PortRecord.standing_mask : r.standing.mask = r.mask := rfl

end standingFields

section standing
variable (q : Port)

/-- What a port keeps is not seen to change in a change of its record that keeps it. -/
theorem standing_modPort {p : Port} {f : PortRecord → PortRecord} (h : ∀ r, (f r).standing = r.standing) (s : State) :
    ((s.modPort p f).port q).standing = (s.port q).standing := by
  rw [port_modPort]; split <;> [exact h _; rfl]

theorem standing_poolBlind : PoolBlind fun s => (s.port q).standing := ⟨fun _ _ _ => rfl⟩
theorem standing_topicBlind : TopicBlind fun s => (s.port q).standing := ⟨fun _ _ _ => rfl⟩
theorem standing_fetchBlind : FetchBlind fun s => (s.port q).standing := ⟨fun _ _ _ => rfl⟩
theorem standing_subscriptionBlind : SubscriptionBlind fun s => (s.port q).standing := ⟨fun _ _ => rfl⟩
theorem standing_slotBlind : SlotBlind fun s => (s.port q).standing :=
  ⟨fun s _ _ => standing_modPort q (fun _ => by rfl) s, fun _ _ => rfl⟩
theorem standing_queueBlind : QueueBlind fun s => (s.port q).standing :=
  ⟨fun s _ _ => standing_modPort q (fun _ => by rfl) s, fun s _ _ => standing_modPort q (fun _ => by rfl) s,
    fun s _ _ => standing_modPort q (fun _ => by rfl) s⟩
theorem standing_solicitBlind : SolicitBlind fun s => (s.port q).standing :=
  ⟨fun s _ _ => standing_modPort q (fun _ => by rfl) s⟩

/-- The LEAVE effects leave what stands of every port's record, its own among them (R120). -/
theorem standing_leaveEffects (p : Port) (s : State) : ((leaveEffects p s).port q).standing = (s.port q).standing :=
  see_leaveEffects (standing_queueBlind q) (standing_poolBlind q) (standing_slotBlind q) (standing_fetchBlind q)
    (standing_solicitBlind q) (standing_topicBlind q) (standing_subscriptionBlind q) p s

theorem state_leaveEffects (p : Port) (s : State) : ((leaveEffects p s).port q).state = (s.port q).state := by
  rw [← PortRecord.standing_state, standing_leaveEffects, PortRecord.standing_state]

theorem standing_abortDeferredSlots (p : Port) (s : State) :
    ((abortDeferredSlots p s).port q).standing = (s.port q).standing :=
  see_abortDeferredSlots (standing_queueBlind q) (standing_poolBlind q) (standing_slotBlind q) p s

end standing

/-! ## The record without its slots -/

/-- A port's record with its slots left out. -/
def PortRecord.unslotted (r : PortRecord) : PortRecord := { r with slots := Vector.replicate 4 Slot.reset }

theorem PortRecord.eq_of_unslotted {r r' : PortRecord} (h : r.unslotted = r'.unslotted) :
    r = { r' with slots := r.slots } := by
  cases r; cases r'; simp_all [unslotted]

theorem unslotted_modSlot (s : State) (x : SlotName) (f : Slot → Slot) (q : Port) :
    ((s.modSlot x f).port q).unslotted = (s.port q).unslotted := by
  rw [port_modSlot]; split <;> rfl

section unslotted
variable (q : Port)

theorem unslotted_poolBlind : PoolBlind fun s => (s.port q).unslotted := ⟨fun _ _ _ => rfl⟩
theorem unslotted_slotBlind : SlotBlind fun s => (s.port q).unslotted :=
  ⟨fun s x f => unslotted_modSlot s x f q, fun _ _ => rfl⟩

/-- A change of a port's record that does not look at its slots, seen without them. -/
theorem unslotted_modPort {p : Port} {f : PortRecord → PortRecord} (s : State)
    (h : ∀ r, (f r).unslotted = f r.unslotted) :
    ((s.modPort p f).port q).unslotted = if p = q then f (s.port q).unslotted else (s.port q).unslotted := by
  rw [port_modPort]; split <;> [exact h _; rfl]

theorem unslotted_emptyQueue (p : Port) (s : State) : ((emptyQueue p s).port q).unslotted =
    if p = q then { (s.port q).unslotted with queue := [] } else (s.port q).unslotted := by
  unfold emptyQueue
  rw [unslotted_modPort,
    see_foldl (see := fun s => (s.port q).unslotted) fun s d => see_releasePayload (unslotted_poolBlind q) _ _]
  exact fun _ => rfl

theorem unslotted_emptyDeferral (p : Port) (s : State) : ((emptyDeferral p s).1.port q).unslotted =
    if p = q then { (s.port q).unslotted with deferral := [] } else (s.port q).unslotted := by
  unfold emptyDeferral; dsimp only
  have hd (y : State × List Port) (e : DeferralEntry) :
      ((discardEntry p y e).1.port q).unslotted = (y.1.port q).unslotted := by
    unfold discardEntry; split
    · exact see_releasePayload (unslotted_poolBlind q) _ _
    · exact see_failSlot (unslotted_poolBlind q) (unslotted_slotBlind q) _ _ _
  rw [see_foldl_fst (see := fun s => (s.port q).unslotted) hd]
  exact unslotted_modPort q s fun _ => rfl

end unslotted

/-- The record of a port that has been torn down, beside its slots (R122, R123). -/
def PortRecord.closed (quarantine : Bool) (r : PortRecord) : PortRecord :=
  { r with
    queue := [], deferral := [], noticesMissed := 0, view := { r.view with cursor := r.view.start }
    state := if quarantine then .quarantined else .offline, score := if quarantine then r.score else 0 }

@[simp] theorem port_judgeExchange (s : State) (q : Port) : (judgeExchange s).port q = s.port q := by
  unfold judgeExchange; split <;> rfl

/-- A teardown up to the judging of the exchange: steps 1 to 6 of R122. -/
def teardownBlocks (quarantine : Bool) (p : Port) (s : State) : State :=
  closePort quarantine p (homeCursor p (emptySlots p
    ((emptyDeferral p (emptyQueue p s)).1.modPort p fun r => { r with noticesMissed := 0 })))

theorem teardown_fst (quarantine : Bool) (p : Port) (s : State) :
    (teardown quarantine p s).1 = judgeExchange (teardownBlocks quarantine p s) := by
  unfold teardown teardownBlocks; dsimp only

theorem teardown_snd (quarantine : Bool) (p : Port) (s : State) :
    (teardown quarantine p s).2 = (emptyDeferral p (emptyQueue p s)).2 := by
  unfold teardown; dsimp only

/-- A teardown closes its port and changes the records of the others in their slots alone (R122). -/
theorem unslotted_teardown (quarantine : Bool) (p q : Port) (s : State) :
    ((teardown quarantine p s).1.port q).unslotted =
      if p = q then (s.port q).unslotted.closed quarantine else (s.port q).unslotted := by
  have slots (u : State) : ((emptySlots p u).port q).unslotted = (u.port q).unslotted :=
    see_emptySlots (unslotted_poolBlind q) (unslotted_slotBlind q) p u
  rw [teardown_fst, port_judgeExchange, teardownBlocks]
  by_cases e : p = q
  · subst e
    have change {u : State} {r : PortRecord} (f : PortRecord → PortRecord) (hf : ∀ r, (f r).unslotted = f r.unslotted)
        (hu : (u.port p).unslotted = r) : ((u.modPort p f).port p).unslotted = f r := by
      rw [unslotted_modPort _ _ hf, if_pos rfl, hu]
    have h := (unslotted_emptyDeferral p p (emptyQueue p s)).trans (if_pos rfl)
    rw [unslotted_emptyQueue, if_pos rfl] at h
    have h1 := change (fun r => { r with noticesMissed := 0 }) (fun _ => rfl) h
    have h2 := change (fun r => { r with view := { r.view with cursor := r.view.start } }) (fun _ => rfl)
      ((slots _).trans h1)
    rw [if_pos rfl]
    cases quarantine
    · exact change (fun r => { r with state := .offline, score := 0 }) (fun _ => rfl) h2
    · exact change (fun r => { r with state := .quarantined }) (fun _ => rfl) h2
  · have same {u : State} (f : PortRecord → PortRecord) : ((u.modPort p f).port q).unslotted = (u.port q).unslotted := by
      rw [port_modPort_ne _ _ e]
    rw [if_neg e]
    refine (same _).trans ((same _).trans ((slots _).trans ((same _).trans ?_)))
    rw [unslotted_emptyDeferral, if_neg e, unslotted_emptyQueue, if_neg e]

section closedFields
variable (quarantine : Bool) (p q : Port) (s : State)

/-- What a teardown leaves of a record, in terms of the record itself. -/
theorem port_teardown : (teardown quarantine p s).1.port q =
    { (if p = q then (s.port q).closed quarantine else s.port q) with
      slots := ((teardown quarantine p s).1.port q).slots } := by
  refine PortRecord.eq_of_unslotted ?_
  rw [unslotted_teardown]; split <;> rfl

theorem state_teardown : ((teardown quarantine p s).1.port q).state =
    if p = q then (if quarantine then .quarantined else .offline) else (s.port q).state := by
  rw [port_teardown]; split <;> rfl

end closedFields

/-- The drains that end in an event leave the record of a port that is not LEAVING alone, but for its slots. -/
theorem unslotted_endDrains {y : State × List Port} {q : Port} (h : (y.1.port q).state ≠ .leaving) :
    ((endDrains y).port q).unslotted = (y.1.port q).unslotted := by
  refine endDrains_keeps (P := fun u => (u.port q).unslotted = (y.1.port q).unslotted) (fun u r hr hu => ?_) rfl
  have hne : r ≠ q := by
    rintro rfl
    exact h ((congrArg PortRecord.state hu).symm.trans ((drainEnded_iff u r).1 hr).1)
  rw [unslotted_teardown, if_neg hne]; exact hu

end Sys2Proof.Machine
end

