-- ==== Sys2Proof/Proofs/Consumption.lean ====
section
/-! A consumption as one change (R74 to R78): the head leaves with its reference, the head entry of the deferral list
moves into the place made, the cursor returns to the window start, and the slot of a moved slot entry is told. -/
namespace Sys2Proof.Machine
set_option Elab.async false

/-! ## Changes of a record that let its slots alone -/

theorem update_comm {α : Type} {n : Nat} (v : Vector α n) (i j : Fin n) {f g : α → α} (h : ∀ a, f (g a) = g (f a)) :
    update (update v i g) j f = update (update v j f) i g :=
  vector_ext fun k => by simp only [getElem_update]; split <;> split <;> simp [h]

/-- A change of a port's record that neither looks at its slots nor changes them. -/
def SlotFree (f : PortRecord → PortRecord) : Prop := ∀ r v, f { r with slots := v } = { f r with slots := v }

section slotFree
variable {f : PortRecord → PortRecord} (hf : SlotFree f) (s : State) (p : Port)
include hf

theorem SlotFree.slots (r : PortRecord) : (f r).slots = r.slots :=
  (congrArg PortRecord.slots (hf r r.slots) :)

theorem modSlot_modPort (x : SlotName) (g : Slot → Slot) :
    (s.modPort p f).modSlot x g = (s.modSlot x g).modPort p f := by
  unfold State.modSlot State.modPort; dsimp only
  rw [update_comm]
  exact fun r => ((hf r _).trans
    (congrArg (fun v => { f r with slots := update v x.number g }) (hf.slots r).symm)).symm

theorem slot_modPort_free (x : SlotName) : (s.modPort p f).slot x = s.slot x := slot_modPort s hf.slots x

omit hf in
theorem releaseBuffer_modPort (b : Option BufferNo) :
    releaseBuffer b (s.modPort p f) = (releaseBuffer b s).modPort p f := by
  cases b <;> rfl

theorem finishSlot_modPort (x : SlotName) (c : Completion) :
    finishSlot x c (s.modPort p f) = (finishSlot x c s).modPort p f := by
  unfold finishSlot; dsimp only
  rw [slot_modPort_free hf, releaseBuffer_modPort, modSlot_modPort hf]; rfl

theorem serveSlot_modPort (x : SlotName) (q : Port) :
    serveSlot x q (s.modPort p f) = ((serveSlot x q s).1.modPort p f, (serveSlot x q s).2) := by
  unfold serveSlot; dsimp only
  rw [modSlot_modPort hf, slot_modPort_free hf]
  split
  · rw [finishSlot_modPort hf]
  · rfl

end slotFree

/-! ## The consumption of a head -/

/-- The record of a port whose head has been consumed: the queue and the deferral list as they then are, and the cursor
at the window start. -/
def PortRecord.consumed (queue : List Delivery) (deferral : List DeferralEntry) (r : PortRecord) : PortRecord :=
  { r with queue := queue, deferral := deferral, view := { r.view with cursor := r.view.start } }

/-- The consumption of the head `d` with `rest` behind it, before the drains it may end. -/
def consumption (p : Port) (d : Delivery) (rest : List Delivery) (s : State) : State × List Port :=
  if rest.length < 32 then
    match (s.port p).deferral with
    | [] => ((releasePayload d.payload s).modPort p (PortRecord.consumed rest []), [])
    | .answer e :: entries => ((releasePayload d.payload s).modPort p (PortRecord.consumed (rest ++ [e]) entries), [])
    | .slot x i c :: entries =>
      serveSlot x p (takePayload (s.slot x).value ((releasePayload d.payload s).modPort p
        (PortRecord.consumed (rest ++ [postDelivery (s.slot x) x.owner i c]) entries)))
  else ((releasePayload d.payload s).modPort p fun r => r.consumed rest r.deferral, [])

theorem releasePayload_modPort (v : Option Payload) (s : State) (p : Port) (f : PortRecord → PortRecord) :
    releasePayload v (s.modPort p f) = (releasePayload v s).modPort p f := by cases v <;> rfl

theorem takePayload_modPort (v : Option Payload) (s : State) (p : Port) (f : PortRecord → PortRecord) :
    takePayload v (s.modPort p f) = (takePayload v s).modPort p f := by cases v <;> rfl

theorem slot_releasePayload (v : Option Payload) (s : State) (x : SlotName) :
    (releasePayload v s).slot x = s.slot x := by cases v <;> rfl

theorem slot_takePayload (v : Option Payload) (s : State) (x : SlotName) : (takePayload v s).slot x = s.slot x := by
  cases v <;> rfl

theorem consumeHead_eq {p : Port} {d : Delivery} {rest : List Delivery} {s : State} (hq : (s.port p).queue = d :: rest) :
    consumeHead p s = endDrains (consumption p d rest s) := by
  have home (u : State) (f : PortRecord → PortRecord) : homeCursor p (u.modPort p f) =
      u.modPort p fun r => { f r with view := { (f r).view with cursor := (f r).view.start } } := modPort_modPort ..
  have hfree (queue : List Delivery) : SlotFree fun r => { r with queue := queue } := fun _ _ => rfl
  unfold consumeHead removeHead
  rw [hq]; dsimp only
  rw [releasePayload_modPort]
  unfold moveIn consumption Config.queueCapacity
  simp only [port_modPort_same, port_releasePayload]
  split
  · rcases hd : (s.port p).deferral with _ | ⟨⟨x, i, c⟩ | e, entries⟩ <;> dsimp only
    · rw [home]
      exact congrArg (fun u => endDrains (u, [])) (modPort_congr _ (by
        simp [PortRecord.consumed, port_releasePayload, hd]))
    · have hx (f g : PortRecord → PortRecord) (hf : SlotFree f) (hg : SlotFree g) :
          (((releasePayload d.payload s).modPort p f).modPort p g).slot x = s.slot x := by
        rw [slot_modPort_free hg, slot_modPort_free hf, slot_releasePayload]
      rw [slot_takePayload, hx _ _ (fun _ _ => rfl) (fun _ _ => rfl)]
      rw [takePayload_modPort, takePayload_modPort, takePayload_modPort, appendDelivery, modPort_modPort,
        modPort_modPort, serveSlot_modPort, serveSlot_modPort, home]
      · rfl
      all_goals exact fun _ _ => rfl
    · rw [modPort_modPort, appendDelivery, modPort_modPort, home]
      rfl
  · rw [home]
    rfl

/-- A consumption does not depend on the open mark of the head or on the place of the cursor. -/
theorem consumption_opened (p : Port) (d : Delivery) (rest : List Delivery) (s : State) (queue : List Delivery)
    (cursor : PortRecord → Nat) :
    consumption p { d with isOpen := true } rest (s.modPort p fun r =>
      { r with queue := queue, view := { r.view with cursor := cursor r } }) = consumption p d rest s := by
  unfold consumption
  simp only [releasePayload_modPort, modPort_modPort, port_modPort_same]
  have hx (x : SlotName) : (s.modPort p fun r =>
      { r with queue := queue, view := { r.view with cursor := cursor r } }).slot x = s.slot x := by
    refine slot_modPort s ?_ x
    exact fun _ => rfl
  simp only [hx]
  rfl

/-- The byte at the window end, in ADVANCE mode, consumes the head as it stood (R154). -/
theorem passByte_atEnd_advance {p : Port} {s : State} (hq : (s.port p).queue ≠ [])
    (hc : (s.port p).view.cursor = (s.port p).view.stop) (hm : (s.port p).view.mode = .advance) :
    passByte p s = consumeHead p s := by
  obtain ⟨d, rest, hq⟩ := List.exists_cons_of_ne_nil hq
  have h : advanceCursor p (openHead p s) = s.modPort p fun r =>
      { r with queue := { d with isOpen := true } :: rest
               view := { r.view with cursor := r.view.cursor + 1 } } := by
    rw [advanceCursor, openHead, modPort_modPort]
    exact modPort_congr s (by simp [hq])
  unfold passByte wrapView; dsimp only
  rw [h, if_pos (by simp [hc]), port_modPort_same]
  simp only [hm]
  rw [consumeHead_eq (d := { d with isOpen := true }) (rest := rest) (by rw [port_modPort_same]), consumeHead_eq hq,
    consumption_opened p d rest s _ fun r => r.view.cursor + 1]

/-- The byte at the window end, in HOLD mode, opens the head and returns the cursor to the window start (R154). -/
theorem passByte_atEnd_hold {p : Port} {s : State} {d : Delivery} {rest : List Delivery}
    (hq : (s.port p).queue = d :: rest) (hc : (s.port p).view.cursor = (s.port p).view.stop)
    (hm : (s.port p).view.mode = .hold) : passByte p s = s.modPort p fun r =>
      { r with queue := { d with isOpen := true } :: rest, view := { r.view with cursor := r.view.start } } := by
  unfold passByte wrapView advanceCursor openHead; dsimp only
  rw [if_pos (by simp [hc]), modPort_modPort, port_modPort_same]
  simp only [hm]
  rw [homeCursor, modPort_modPort]
  exact modPort_congr s (by simp [hq])

/-- A byte short of the window end opens the head and moves the cursor on (R153). -/
theorem passByte_within {p : Port} {s : State} {d : Delivery} {rest : List Delivery}
    (hq : (s.port p).queue = d :: rest) (hc : (s.port p).view.cursor ≠ (s.port p).view.stop) :
    passByte p s = s.modPort p fun r =>
      { r with queue := { d with isOpen := true } :: rest, view := { r.view with cursor := r.view.cursor + 1 } } := by
  unfold passByte advanceCursor openHead; dsimp only
  rw [if_neg (by simp [hc]), modPort_modPort]
  exact modPort_congr s (by simp [hq])

end Sys2Proof.Machine
end

