-- ==== Sys2Proof/Proofs/RecordLaws.lean ====
section
/-! The laws that look at one port's record at a time, beside its slots: QueueLaw and ViewLaw. The changes that the
events make to such a record are listed once, and a law that they all keep is kept by every step. -/
namespace Sys2Proof.Machine
set_option Elab.async false

/-- Every port's record has the property. -/
def EveryPort (R : PortRecord → Prop) (s : State) : Prop := ∀ p, R (s.port p)

/-- A property of a port's record that every change which the events make to one record keeps. -/
structure RecordKeeps (R : PortRecord → Prop) : Prop where
  slots : ∀ r v, R r → R { r with slots := v }
  solicits : ∀ r l, R r → R { r with solicits := l }
  state : ∀ r st, R r → R { r with state := st }
  hold : ∀ r h, R r → R { r with hold := h }
  link : ∀ r f, LinkOnly f → R r → R (f r)
  reset : ∀ strap, R (PortRecord.reset strap)
  missed : ∀ r, R r → R { r with noticesMissed := min 255 (r.noticesMissed + 1) }
  missedCleared : ∀ r, R r → R { r with noticesMissed := 0 }
  appended : ∀ r d, r.deferral = [] → r.queue.length < 32 → d.isOpen = false → R r →
    R { r with queue := r.queue ++ [d] }
  deferred : ∀ r e, r.deferral ≠ [] ∨ 32 ≤ r.queue.length → (∀ d, e = .answer d → d.isOpen = false) → R r →
    R { r with deferral := r.deferral ++ [e] }
  coalesced : ∀ r n old new, r.queue[n]? = some old → old.isOpen = false → new.isOpen = false → R r →
    R { r with queue := r.queue.set n new }
  filtered : ∀ r f, R r → R { r with deferral := r.deferral.filter f }
  consumed : ∀ r d rest, r.queue = d :: rest → (rest.length < 32 → r.deferral = []) → R r →
    R (r.consumed rest r.deferral)
  moved : ∀ r d rest e entries new, r.queue = d :: rest → rest.length < 32 → r.deferral = e :: entries →
    new.isOpen = false ∨ e = .answer new → R r → R (r.consumed (rest ++ [new]) entries)
  closed : ∀ r quarantine, R r → R (r.closed quarantine)
  window : ∀ r start stop mode, start ≤ stop → stop ≤ 71 → R r →
    R { r with view := { start := start, stop := stop, mode := mode, cursor := start } }
  passed : ∀ r d rest, r.queue = d :: rest → r.view.cursor ≠ r.view.stop → R r →
    R { r with queue := { d with isOpen := true } :: rest, view := { r.view with cursor := r.view.cursor + 1 } }
  wrapped : ∀ r d rest, r.queue = d :: rest → R r →
    R { r with queue := { d with isOpen := true } :: rest, view := { r.view with cursor := r.view.start } }

section recordKeeps
variable {R : PortRecord → Prop} (k : RecordKeeps R) {s : State} {p : Port}

theorem everyPort_modPort {f : PortRecord → PortRecord} (h : EveryPort R s) (hf : R (f (s.port p))) :
    EveryPort R (s.modPort p f) := by
  intro q; rw [port_modPort]; split
  · next e => subst e; exact hf
  · exact h q

theorem everyPort_poolBlind : PoolBlind (EveryPort R) := ⟨fun _ _ _ => rfl⟩
theorem everyPort_topicBlind : TopicBlind (EveryPort R) := ⟨fun _ _ _ => rfl⟩
theorem everyPort_fetchBlind : FetchBlind (EveryPort R) := ⟨fun _ _ _ => rfl⟩
theorem everyPort_subscriptionBlind : SubscriptionBlind (EveryPort R) := ⟨fun _ _ => rfl⟩

include k

/-- Two states whose records agree beside their slots have the property together. -/
theorem everyPort_of_unslotted {t : State} (h : ∀ q, (t.port q).unslotted = (s.port q).unslotted)
    (hs : EveryPort R s) : EveryPort R t := fun q => by
  rw [PortRecord.eq_of_unslotted (h q)]; exact k.slots _ _ (hs q)

theorem everyPort_congr {t : State} (h : ∀ q, (t.port q).unslotted = (s.port q).unslotted) :
    EveryPort R t = EveryPort R s :=
  propext ⟨everyPort_of_unslotted k fun q => (h q).symm, everyPort_of_unslotted k h⟩

theorem everyPort_slotBlind : SlotBlind (EveryPort R) :=
  ⟨fun s x f => everyPort_congr k fun q => unslotted_modSlot s x f q, fun _ _ => rfl⟩

theorem everyPort_solicitBlind : SolicitBlind (EveryPort R) where
  solicits s p g := by
    refine propext ⟨fun h q => ?_, fun h => everyPort_modPort h (k.solicits _ _ (h p))⟩
    have hq := k.solicits _ (s.port q).solicits (h q)
    rw [port_modPort] at hq
    split at hq <;> exact hq

theorem everyPort_giveAnswer {d : Delivery} (hd : d.isOpen = false) (h : EveryPort R s) :
    EveryPort R (giveAnswer p d s) := by
  have h1 : EveryPort R (takePayload d.payload s) := by rw [see_takePayload everyPort_poolBlind]; exact h
  unfold giveAnswer placeAnswer
  split <;> rename_i hr <;> rw [hasRoom_iff] at hr
  · exact everyPort_modPort h1 (k.appended _ _ hr.1 hr.2 hd (h1 p))
  · refine everyPort_modPort h1 (k.deferred _ _ ?_ (by rintro _ ⟨⟩; exact hd) (h1 p))
    by_contra hc
    exact hr ⟨not_not.1 (not_or.1 hc).1, Nat.lt_of_not_le (not_or.1 hc).2⟩

theorem everyPort_placeNotice {d : Delivery} (hd : d.isOpen = false) (h : EveryPort R s) :
    EveryPort R (placeNotice p d s) := by
  unfold placeNotice; split
  · next hr => rw [hasRoom_iff] at hr; exact everyPort_modPort h (k.appended _ _ hr.1 hr.2 hd (h p))
  · exact everyPort_modPort h (k.missed _ (h p))

theorem everyPort_placePost {x : SlotName} {i : SubIndex} {latest : Bool} (h : EveryPort R s) :
    EveryPort R (placePost x p i latest s).1 := by
  have taken (v : Option Payload) : EveryPort R (takePayload v s) := by
    rw [see_takePayload everyPort_poolBlind]; exact h
  have deferred (hr : (s.port p).deferral ≠ [] ∨ 32 ≤ (s.port p).queue.length) :
      EveryPort R (appendDeferral p (.slot x i latest) s) :=
    everyPort_modPort h (k.deferred _ _ hr (by rintro _ ⟨⟩) (h p))
  unfold placePost; dsimp only; split
  · next he =>
    split
    · next n old hc =>
      rw [see_releasePayload everyPort_poolBlind]
      obtain ⟨_, hn, hopen, _⟩ := (coalescingTarget_eq_some _ _ _ _).1 (Option.ite_none_right_eq_some.1 hc).2
      refine everyPort_modPort (taken _) (k.coalesced _ n old _ ?_ hopen hopen (taken _ p))
      rw [port_takePayload]; exact hn
    · split
      · next hl =>
        refine everyPort_modPort (taken _) (k.appended _ _ ?_ ?_ rfl (taken _ p)) <;> rw [port_takePayload]
        · exact List.isEmpty_iff.1 he
        · exact hl
      · next hl => exact deferred (.inr (Nat.le_of_not_lt hl))
  · next he => exact deferred (.inl fun hn => he (by rw [hn]; rfl))

theorem everyPort_teardown {quarantine : Bool} (h : EveryPort R s) : EveryPort R (teardown quarantine p s).1 := by
  intro q
  rw [port_teardown]
  refine k.slots _ _ ?_
  split <;> [exact k.closed _ _ (h q); exact h q]

theorem everyPort_endDrains {y : State × List Port} (h : EveryPort R y.1) : EveryPort R (endDrains y) :=
  endDrains_keeps (fun _ _ _ hs => everyPort_teardown k hs) h

theorem everyPort_endDeferred {x : SlotName} {c : Completion} (h : EveryPort R s) :
    EveryPort R (endDeferred x c s) := by
  unfold endDeferred; dsimp only
  rw [see_finishSlot everyPort_poolBlind (everyPort_slotBlind k), (everyPort_slotBlind k).slot]
  refine foldl_keeps _ (fun s p _ hs => ?_) h
  unfold deleteEntryAt; split
  · exact everyPort_modPort hs (k.filtered _ _ (hs p))
  · exact hs

theorem everyPort_answerAll {d : Delivery} (hd : d.isOpen = false) (h : EveryPort R s) : EveryPort R (answerAll d s) :=
  answerAll_keeps (fun _ _ _ _ _ hs => by
    rw [everyPort_fetchBlind.fetch]; exact everyPort_giveAnswer k hd hs) h

theorem everyPort_leaveEffects (h : EveryPort R s) : EveryPort R (leaveEffects p s) := by
  unfold leaveEffects
  have solicits := everyPort_solicitBlind k
  rw [see_clearSolicits solicits]
  refine orphanTopics_keeps (fun s i t _ hs => ?_) ?_
  · refine orphanRecord_keeps (fun s j f d _ _ hd hs => ?_) (fun s t hs => ?_) (fun s hs => hs)
      (fun s t v q j hs => everyPort_placeNotice k rfl hs) (fun s hs => ?_) hs
    · rw [everyPort_fetchBlind.fetch]; exact everyPort_giveAnswer k hd hs
    · rw [see_removeSolicit solicits]; exact hs
    · rw [see_freeRecord everyPort_poolBlind everyPort_topicBlind]; exact hs
  · rw [see_removeFetches solicits everyPort_fetchBlind]
    rw [see_freeSubscriptionsOf everyPort_subscriptionBlind, see_leaveSlots everyPort_poolBlind (everyPort_slotBlind k)]; exact h

theorem everyPort_quarantine (h : EveryPort R s) : EveryPort R (quarantine p s) := by
  have held {u : State} (hu : EveryPort R u) : EveryPort R (startHold p u) := everyPort_modPort hu (k.hold _ _ (hu p))
  have torn {u : State} (hu : EveryPort R u) :
      EveryPort R (endDrains (teardown true p (abortDeferredSlots p u))) :=
    everyPort_endDrains k (everyPort_teardown k
      (abortDeferredSlots_keeps (fun _ _ _ _ hs => everyPort_endDeferred k hs) hu))
  have cut : EveryPort R (cutRequest p s) := everyPort_modPort h (k.link _
    (fun r => { r with inProgress := r.inProgress.map fun q => { q with cut := true } }) (fun _ => rfl) (h p))
  unfold quarantine; dsimp only
  split
  · exact held (everyPort_modPort cut (k.state _ _ (cut p)))
  · exact held (torn (everyPort_leaveEffects k cut))
  · exact held (torn cut)
  · exact held cut

theorem everyPort_consumption {d : Delivery} {rest : List Delivery} (hq : (s.port p).queue = d :: rest)
    (h : EveryPort R s) : EveryPort R (consumption p d rest s).1 := by
  have pool := everyPort_poolBlind (R := R)
  have released : EveryPort R (releasePayload d.payload s) := by rw [see_releasePayload pool]; exact h
  have hq' : ((releasePayload d.payload s).port p).queue = d :: rest := by rw [port_releasePayload]; exact hq
  have hd' : ((releasePayload d.payload s).port p).deferral = (s.port p).deferral := by rw [port_releasePayload]
  have moved (e entries new) (hlt : rest.length < 32) (hd : (s.port p).deferral = e :: entries)
      (hn : new.isOpen = false ∨ e = .answer new) : EveryPort R ((releasePayload d.payload s).modPort p
        (PortRecord.consumed (rest ++ [new]) entries)) :=
    everyPort_modPort released (k.moved _ d rest e entries new hq' hlt (hd'.trans hd) hn (released p))
  unfold consumption; split
  · next hlt =>
    split
    · next hd =>
      have hc := k.consumed _ d rest hq' (fun _ => hd'.trans hd) (released p)
      rw [hd', hd] at hc
      exact everyPort_modPort released hc
    · next e entries hd => exact moved _ _ _ hlt hd (.inr rfl)
    · next x i c entries hd =>
      rw [see_serveSlot pool (everyPort_slotBlind k), see_takePayload pool]
      exact moved _ _ _ hlt hd (.inl rfl)
  · next hlt => exact everyPort_modPort released (k.consumed _ d rest hq' (fun h => absurd h hlt) (released p))

theorem everyPort_consumeHead (hq : (s.port p).queue ≠ []) (h : EveryPort R s) : EveryPort R (consumeHead p s) := by
  obtain ⟨d, rest, hq⟩ := List.exists_cons_of_ne_nil hq
  rw [consumeHead_eq hq]
  exact everyPort_endDrains k (everyPort_consumption k hq h)

theorem everyPort_passByte (hq : (s.port p).queue ≠ []) (h : EveryPort R s) : EveryPort R (passByte p s) := by
  obtain ⟨d, rest, hd⟩ := List.exists_cons_of_ne_nil hq
  by_cases hc : (s.port p).view.cursor = (s.port p).view.stop
  · cases hm : (s.port p).view.mode with
    | hold => rw [passByte_atEnd_hold hd hc hm]; exact everyPort_modPort h (k.wrapped _ _ _ hd (h p))
    | advance => rw [passByte_atEnd_advance hq hc hm]; exact everyPort_consumeHead k hq h
  · rw [passByte_within hd hc]; exact everyPort_modPort h (k.passed _ _ _ hd hc (h p))

theorem everyPort_takePost {x : SlotName} {i : RecordNo} (h : EveryPort R s) : EveryPort R (takePost x i s) := by
  have pool := everyPort_poolBlind (R := R)
  have slots := everyPort_slotBlind k
  have settled (y : Placements) (hy : EveryPort R y.state) : EveryPort R (settleSlot x y) := by
    unfold settleSlot; dsimp only; split
    · rw [see_finishSlot pool slots, slots.slot]; exact hy
    · rw [slots.slot, slots.slot]; exact hy
  unfold takePost; dsimp only
  refine settled _ (placeAll_keeps (fun _ _ _ _ hs => everyPort_placePost k hs) (everyPort_answerAll k rfl ?_))
  rw [see_removeSolicit (everyPort_solicitBlind k)]
  unfold stampSlot; dsimp only
  rw [slots.order, slots.slot, see_stampRecord pool everyPort_topicBlind]
  exact h

/-- The property is kept by every event, and so by every step. -/
theorem RecordKeeps.events : EventsKeep (EveryPort R) := by
  have pool := everyPort_poolBlind (R := R)
  have slots := everyPort_slotBlind k
  have topics := everyPort_topicBlind (R := R)
  have solicits := everyPort_solicitBlind k
  refine ⟨?_, ?waiting, ?reset, ?parameterSet⟩
  constructor
  case waiting => exact fun _ _ h => h
  case link => exact fun s p f hf h => everyPort_modPort h (k.link _ _ hf (h p))
  case reset =>
    intro s straps _ p
    rw [port_resetDevice]; exact k.reset _
  case tick =>
    intro s n h p
    rw [port_countPeriods]
    exact k.slots _ (updateAll (s.port p).slots _) (k.hold _ ((s.port p).hold.after _) (h p))
  case quarantined => exact fun s p _ h => everyPort_quarantine k h
  case holdRestarted => exact fun s p _ h => everyPort_modPort h (k.hold _ _ (h p))
  case holdExpired => exact fun s p _ h => everyPort_modPort h (k.hold _ _ (h p))
  case joined => exact fun s p _ h => everyPort_modPort h (k.state _ _ (h p))
  case left =>
    intro s p _ h
    exact leavePort_keeps (Q := EveryPort R) (everyPort_leaveEffects k (everyPort_modPort h (k.state _ _ (h p))))
      (fun _ _ hs => everyPort_teardown k hs) (fun _ _ _ hs => everyPort_teardown k hs) fun _ hs => hs
  case recovered =>
    intro s p _ _ h
    exact everyPort_modPort h (k.hold _ .stopped (k.state _ .offline
      (k.link (s.port p) (fun r => { r with score := 0 }) (fun _ => rfl) (h p))))
  case missedCleared => exact fun s p h => everyPort_modPort h (k.missedCleared _ (h p))
  case parameterSet => exact fun _ _ _ _ h => h
  case topicDeclared => exact fun _ _ _ _ _ _ _ _ _ _ h => h
  case topicRedeclared => exact fun _ _ _ _ _ _ _ _ _ h => h
  case topicAdopted => exact fun _ _ _ _ _ _ _ _ h => h
  case topicRetired =>
    intro s p i t _ _ _ _ h
    unfold retireRecord; dsimp only
    rw [see_freeRecord pool topics, see_removeSolicit solicits]
    exact everyPort_answerAll k rfl h
  case topicPurged => exact fun s i t _ _ _ h => by rw [see_freeRecord pool topics]; exact h
  case subscribed => exact fun _ _ _ _ _ _ _ _ _ h => h
  case unsubscribed => exact fun _ _ h => h
  case postOpened => exact fun s x t priority i b _ _ _ _ _ _ h => by unfold openSlot; rw [slots.slot]; exact h
  case payloadWritten =>
    intro s x offset data _ h
    unfold writePayload; dsimp only; rw [slots.slot]
    split <;> exact h
  case submitted =>
    intro s x _ h
    change EveryPort R (s.modSlot x fun k => { k with state := .ready, readySequence := s.readySequence })
    rw [slots.slot]; exact h
  case slotEmptied => exact fun s x _ h => by rw [see_emptySlot pool slots]; exact h
  case readyAborted => exact fun s x _ h => by rw [see_finishSlot pool slots]; exact h
  case deferredEnded => exact fun s x c _ h => everyPort_endDrains k (everyPort_endDeferred k h)
  case windowSet => exact fun s p start stop mode hle hstop h => everyPort_modPort h (k.window _ _ _ _ hle hstop (h p))
  case viewRead => exact fun s p n h => readBytes_keeps (fun _ hq hs => everyPort_passByte k hq hs) n [] h
  case consumed => exact fun s p hq h => everyPort_consumeHead k hq h
  case answeredNow => exact fun s p d _ _ hd h => everyPort_giveAnswer k hd h
  case fetchWaits =>
    intro s p t i j wait _ _ _ _ _ _ h
    rw [see_solicit solicits]; exact h
  case fetchCancelled => exact fun s i f _ h => by rw [see_dropIdleSolicit solicits]; exact h
  case solicitsRead => exact fun s p h => everyPort_modPort h (k.solicits _ _ (h p))
  case taken => exact fun s x i _ _ h => everyPort_takePost k h
  case lapsed => exact fun s i t _ _ _ h => issueNotices_keeps (fun _ _ _ _ hs => everyPort_placeNotice k rfl hs) h
  case fetchExpired =>
    intro s i f _ h
    rw [see_dropIdleSolicit solicits, everyPort_fetchBlind.fetch]
    have hd : (timeoutAnswer f.topic s).isOpen = false := by unfold timeoutAnswer; split <;> rfl
    exact everyPort_giveAnswer k hd h

end recordKeeps
end Sys2Proof.Machine
end

