-- ==== Sys2Proof/Proofs/QueueAndViewLaw.lean ====
section
/-! The law of the queues (O53) and the law of the views (O54): each is a property of one port's record that every change
of such a record keeps. -/
namespace Sys2Proof.Machine
set_option Elab.async false

/-! ## The law of the queues -/

/-- QueueLaw, read at one port. -/
structure PortRecord.QueueFits (r : PortRecord) : Prop where
  depth : r.queue.length ≤ 32
  full : r.deferral ≠ [] → r.queue.length = 32
  headOpen : ∀ d ∈ r.queue.tail, d.isOpen = false
  answersClosed : ∀ d, DeferralEntry.answer d ∈ r.deferral → d.isOpen = false
  noticesMissed : r.noticesMissed ≤ 255

theorem queueLaw_iff (s : State) : QueueLaw s ↔ EveryPort PortRecord.QueueFits s :=
  ⟨fun h p => ⟨h.depth p, h.full p, h.headOpen p, h.answersClosed p, h.noticesMissed p⟩,
    fun h => ⟨fun p => (h p).depth, fun p => (h p).full, fun p => (h p).headOpen, fun p => (h p).answersClosed,
      fun p => (h p).noticesMissed⟩⟩

/-- A delivery behind a queue whose deliveries are closed but for the head leaves only the head open. -/
theorem tail_append_closed {queue : List Delivery} {d : Delivery} (h : ∀ e ∈ queue.tail, e.isOpen = false)
    (hd : queue ≠ [] → d.isOpen = false) : ∀ e ∈ (queue ++ [d]).tail, e.isOpen = false := by
  cases queue with
  | nil => simp
  | cons a rest =>
    intro e he
    rcases List.mem_append.1 he with he | he
    · exact h e he
    · rw [List.mem_singleton.1 he]; exact hd (by simp)

theorem mem_tail_set {α : Type} {l : List α} {n : Nat} {a e : α} (h : e ∈ (l.set n a).tail) : e ∈ l.tail ∨ e = a := by
  cases l with
  | nil => exact .inl h
  | cons b l =>
    cases n with
    | zero => exact .inl h
    | succ n => exact List.mem_or_eq_of_mem_set h

theorem queueFits_keeps : RecordKeeps PortRecord.QueueFits := by
  constructor
  case slots => exact fun r v h => ⟨h.depth, h.full, h.headOpen, h.answersClosed, h.noticesMissed⟩
  case solicits => exact fun r l h => ⟨h.depth, h.full, h.headOpen, h.answersClosed, h.noticesMissed⟩
  case state => exact fun r st h => ⟨h.depth, h.full, h.headOpen, h.answersClosed, h.noticesMissed⟩
  case hold => exact fun r n h => ⟨h.depth, h.full, h.headOpen, h.answersClosed, h.noticesMissed⟩
  case link =>
    intro r f hf h
    rw [hf r]; exact ⟨h.depth, h.full, h.headOpen, h.answersClosed, h.noticesMissed⟩
  case reset => exact fun strap => ⟨Nat.zero_le 32, fun hn => absurd rfl hn,
    fun _ hd => absurd hd List.not_mem_nil, fun _ hd => absurd hd List.not_mem_nil, Nat.zero_le 255⟩
  case missed => exact fun r h => ⟨h.depth, h.full, h.headOpen, h.answersClosed, Nat.min_le_left _ _⟩
  case missedCleared => exact fun r h => ⟨h.depth, h.full, h.headOpen, h.answersClosed, Nat.zero_le _⟩
  case appended =>
    intro r d he hl hd h
    refine ⟨?_, fun hn => absurd he hn, tail_append_closed h.headOpen fun _ => hd, h.answersClosed, h.noticesMissed⟩
    simp only [List.length_append, List.length_singleton]; omega
  case deferred =>
    intro r e hr hd h
    have hfull : r.queue.length = 32 := by
      rcases hr with hr | hr
      · exact h.full hr
      · exact Nat.le_antisymm h.depth hr
    refine ⟨h.depth, fun _ => hfull, h.headOpen, fun d hm => ?_, h.noticesMissed⟩
    rcases List.mem_append.1 hm with hm | hm
    · exact h.answersClosed d hm
    · exact hd d (List.mem_singleton.1 hm).symm
  case coalesced =>
    intro r n old new hn _ hnew h
    refine ⟨by simpa using h.depth, by simpa using h.full, fun e he => ?_, h.answersClosed, h.noticesMissed⟩
    rcases mem_tail_set he with he | rfl
    · exact h.headOpen e he
    · exact hnew
  case filtered =>
    intro r f h
    refine ⟨h.depth, fun hn => h.full fun he => hn ?_, h.headOpen,
      fun d hd => h.answersClosed d (List.mem_of_mem_filter hd), h.noticesMissed⟩
    rw [he]; rfl
  case consumed =>
    intro r d rest hq hd h
    have hl : rest.length < 32 := by have := h.depth; rw [hq] at this; exact this
    have hclosed := h.headOpen; rw [hq] at hclosed
    exact ⟨hl.le, fun hn => absurd (hd hl) hn, fun e he => hclosed e (List.mem_of_mem_tail he), h.answersClosed,
      h.noticesMissed⟩
  case moved =>
    intro r d rest e entries new hq hl hd hnew h
    have hlen : rest.length + 1 = 32 := by have := h.full (by simp [hd]); rw [hq] at this; exact this
    have hclosed := h.headOpen; rw [hq] at hclosed
    have hanswers := h.answersClosed; rw [hd] at hanswers
    have hc : new.isOpen = false := by
      rcases hnew with hn | rfl
      · exact hn
      · exact hanswers new (.head _)
    have hlen' : (rest ++ [new]).length = 32 := by simp [hlen]
    exact ⟨hlen'.le, fun _ => hlen',
      tail_append_closed (fun e he => hclosed e (List.mem_of_mem_tail he)) fun _ => hc,
      fun a ha => hanswers a (.tail _ ha), h.noticesMissed⟩
  case closed =>
    intro r quarantine h
    exact ⟨Nat.zero_le _, fun hn => absurd rfl hn, fun _ hd => absurd hd List.not_mem_nil,
      fun _ hd => absurd hd List.not_mem_nil, Nat.zero_le _⟩
  case window =>
    exact fun r _ _ _ _ _ h => ⟨h.depth, h.full, h.headOpen, h.answersClosed, h.noticesMissed⟩
  case passed =>
    intro r d rest hq _ h
    have hdepth := h.depth; have hfull := h.full; have hhead := h.headOpen
    rw [hq] at hdepth hfull hhead
    exact ⟨hdepth, hfull, hhead, h.answersClosed, h.noticesMissed⟩
  case wrapped =>
    intro r d rest hq h
    have hdepth := h.depth; have hfull := h.full; have hhead := h.headOpen
    rw [hq] at hdepth hfull hhead
    exact ⟨hdepth, hfull, hhead, h.answersClosed, h.noticesMissed⟩

/-- Settles O53: the law of the queues is kept by every change of a port's record. -/
theorem stepKeepsTheQueueLaw : Obligations.StepKeepsTheQueueLaw := by
  intro s t h ht
  rw [queueLaw_iff] at h ⊢
  exact step_keeps_of_events queueFits_keeps.events h ht

/-! ## The law of the views -/

/-- ViewLaw, read at one port. -/
structure PortRecord.ViewFits (r : PortRecord) : Prop where
  windowEnd : r.view.stop ≤ 71
  window : r.view.start ≤ r.view.stop
  cursorLow : r.view.start ≤ r.view.cursor
  cursorHigh : r.view.cursor ≤ r.view.stop
  home : (∀ d ∈ r.queue.head?, d.isOpen = false) → r.view.cursor = r.view.start

theorem viewLaw_iff (s : State) : ViewLaw s ↔ EveryPort PortRecord.ViewFits s :=
  ⟨fun h p => ⟨h.windowEnd p, h.window p, h.cursorLow p, h.cursorHigh p, h.home p⟩,
    fun h => ⟨fun p => (h p).windowEnd, fun p => (h p).window, fun p => (h p).cursorLow, fun p => (h p).cursorHigh,
      fun p => (h p).home⟩⟩

/-- A view whose cursor stands at the start of a lawful window is lawful whatever the queue. -/
theorem viewFits_of_home {r r' : PortRecord} (h : r.ViewFits)
    (hv : r'.view = { r.view with cursor := r.view.start }) : r'.ViewFits := by
  constructor <;> rw [hv]
  · exact h.windowEnd
  · exact h.window
  · exact h.window
  · exact fun _ => rfl

/-- A change that leaves the view and the open mark of the head alone keeps the law of the view. -/
theorem viewFits_of_head {r r' : PortRecord} (h : r.ViewFits) (hv : r'.view = r.view)
    (hh : (∀ d ∈ r'.queue.head?, d.isOpen = false) → ∀ d ∈ r.queue.head?, d.isOpen = false) : r'.ViewFits := by
  constructor <;> rw [hv]
  · exact h.windowEnd
  · exact h.window
  · exact h.cursorLow
  · exact h.cursorHigh
  · exact fun hc => h.home (hh hc)

theorem viewFits_keeps : RecordKeeps PortRecord.ViewFits := by
  constructor
  case slots => exact fun r v h => viewFits_of_head h rfl id
  case solicits => exact fun r v h => viewFits_of_head h rfl id
  case state => exact fun r v h => viewFits_of_head h rfl id
  case hold => exact fun r v h => viewFits_of_head h rfl id
  case link =>
    intro r f hf h
    rw [hf r]; exact viewFits_of_head h rfl id
  case reset => exact fun strap => ⟨Nat.le_refl 71, Nat.zero_le 71, Nat.le_refl 0, Nat.zero_le 71, fun _ => rfl⟩
  case missed => exact fun r h => viewFits_of_head h rfl id
  case missedCleared => exact fun r h => viewFits_of_head h rfl id
  case appended =>
    intro r d _ _ _ h
    refine viewFits_of_head h rfl fun hc e he => hc e ?_
    rw [List.head?_append]; rw [he]; rfl
  case deferred => exact fun r e _ _ h => viewFits_of_head h rfl id
  case coalesced =>
    intro r n old new hn ho _ h
    refine viewFits_of_head h rfl fun hc e he => ?_
    cases n with
    | zero =>
      rw [List.head?_eq_getElem?] at he
      cases hn.symm.trans he
      exact ho
    | succ n =>
      refine hc e ?_
      rw [List.head?_eq_getElem?] at he ⊢
      rw [List.getElem?_set_ne (by omega)]; exact he
  case filtered => exact fun r f h => viewFits_of_head h rfl id
  case consumed => exact fun r d rest _ _ h => viewFits_of_home h rfl
  case moved => exact fun r d rest e entries new _ _ _ _ h => viewFits_of_home h rfl
  case closed => exact fun r quarantine h => viewFits_of_home h rfl
  case window => exact fun r start stop mode hle hstop h => ⟨hstop, hle, Nat.le_refl _, hle, fun _ => rfl⟩
  case passed =>
    intro r d rest hq hne h
    have hlt : r.view.cursor + 1 ≤ r.view.stop := Nat.lt_of_le_of_ne h.cursorHigh hne
    exact ⟨h.windowEnd, h.window, Nat.le_succ_of_le h.cursorLow, hlt, fun hc => by simpa using hc _ rfl⟩
  case wrapped => exact fun r d rest _ h => viewFits_of_home h rfl

/-- Settles O54: the law of the views is kept by every change of a port's record. -/
theorem stepKeepsTheViewLaw : Obligations.StepKeepsTheViewLaw := by
  intro s t h ht
  rw [viewLaw_iff] at h ⊢
  exact step_keeps_of_events viewFits_keeps.events h ht

end Sys2Proof.Machine
end

