-- ==== Sys2Proof/Proofs/SessionFields.lean ====
section
/-! The laws that look at the session fields alone: the exchange state (O55), the hold timers and the parameters (two parts
of O58). Every other block is out of their sight, so only the events that change a port state, a hold or a parameter
count. -/
namespace Sys2Proof.Machine
set_option Elab.async false

/-! ## Laws that do not see the blocks -/

theorem see_submitSlot {β : Type} {see : State → β} (hs : SlotBlind see)
    (hr : ∀ (s : State) n, see { s with readySequence := n } = see s) (x : SlotName) (s : State) :
    see (submitSlot x s) = see s := by
  let ready : Slot → Slot := fun k => { k with state := .ready, readySequence := s.readySequence }
  calc see (submitSlot x s)
      = see { s.modSlot x ready with readyOrder := s.readyOrder ++ [x] } :=
        hr { s.modSlot x ready with readyOrder := s.readyOrder ++ [x] } (s.readySequence + 1)
    _ = see (s.modSlot x ready) := hs.order (s.modSlot x ready) (s.readyOrder ++ [x])
    _ = see s := hs.slot s x ready

/-- A property that no change of a block outside the sessions alters, but for the subscriptions, whose events keep it. `L`
says which changes of a link are out of its sight. -/
structure SessionSight (P : State → Prop) (L : (PortRecord → PortRecord) → Prop := LinkOnly) : Prop where
  pool : PoolBlind P
  slots : SlotBlind P
  queues : QueueBlind P
  solicits : SolicitBlind P
  topics : TopicBlind P
  fetches : FetchBlind P
  view : ∀ s p (v : PortRecord → View), P (State.modPort s p fun r => { r with view := v r }) = P s
  link : ∀ s p f, L f → P (State.modPort s p f) = P s
  readySequence : ∀ (s : State) n, P { s with readySequence := n } = P s
  subscriptionsFreed : ∀ s p, P s → P (freeSubscriptionsOf p s)
  subscribed : ∀ s p i pattern mask options, ownedSubscriptions s p < 24 → lowestFreeSubscription s = some i → P s →
    P (s.modSubscription i fun _ => Subscription.ofRequest p pattern mask options)
  unsubscribed : ∀ s i, P s → P (s.modSubscription i fun _ => Subscription.reset)

section sight
variable {P : State → Prop} {L : (PortRecord → PortRecord) → Prop} (b : SessionSight P L)
include b

theorem SessionSight.cursors : CursorBlind P := ⟨fun s p g => b.view s p fun r => { r.view with cursor := g r }⟩

theorem SessionSight.consumption (p : Port) (d : Delivery) (rest : List Delivery) (s : State) :
    P (consumption p d rest s).1 = P s := by
  have consumed (u : State) (g : PortRecord → List Delivery) (h : PortRecord → List DeferralEntry) :
      P (u.modPort p fun r => r.consumed (g r) (h r)) = P u := by
    have hm : (u.modPort p fun r => r.consumed (g r) (h r)) =
        ((u.modPort p fun r => { r with view := { r.view with cursor := r.view.start } }).modPort p
          fun r => { r with deferral := h { r with view := (u.port p).view } }).modPort p
          fun r => { r with queue := g { r with view := (u.port p).view, deferral := (u.port p).deferral } } := by
      rw [modPort_modPort, modPort_modPort]; exact modPort_congr u rfl
    rw [hm, b.queues.queue, b.queues.deferral, b.view]
  unfold Machine.consumption; split
  · split
    · exact (consumed _ _ _).trans (see_releasePayload b.pool _ _)
    · exact (consumed _ _ _).trans (see_releasePayload b.pool _ _)
    · exact (see_serveSlot b.pool b.slots _ _ _).trans ((see_takePayload b.pool _ _).trans
        ((consumed _ _ _).trans (see_releasePayload b.pool _ _)))
  · exact (consumed _ _ _).trans (see_releasePayload b.pool _ _)

theorem SessionSight.leaveEffects (p : Port) {s : State} (h : P s) : P (leaveEffects p s) := by
  unfold Machine.leaveEffects
  rw [see_clearSolicits b.solicits, see_orphanTopics b.queues b.pool b.fetches b.solicits b.topics,
    see_removeFetches b.solicits b.fetches]
  exact b.subscriptionsFreed _ p ((see_leaveSlots b.pool b.slots p s).mpr h)

theorem SessionSight.abortDeferredSlots (p : Port) (s : State) : P (abortDeferredSlots p s) = P s :=
  see_abortDeferredSlots b.queues b.pool b.slots p s

/-- A property that sees the sessions alone is kept by every routine event when the events of the sessions keep it. -/
theorem SessionSight.routine (tick : ∀ s n, P s → P (countPeriods n s))
    (quarantined : ∀ s p, (s.port p).state ≠ .quarantined → P s → P (quarantine p s))
    (holdRestarted : ∀ s p, (s.port p).state = .quarantined → P s → P (startHold p s))
    (holdExpired : ∀ s p, (s.port p).hold = .running 0 → P s → P (s.modPort p fun r => { r with hold := .expired }))
    (joined : ∀ s p, (s.port p).state = .offline → P s →
      P { s.modPort p (fun r => { r with state := .online }) with exchange := .running })
    (leaving : ∀ s p, (s.port p).state = .online → P s → P (s.modPort p fun r => { r with state := .leaving }))
    (left : ∀ s p, (s.port p).state = .leaving → P s → P (teardown false p s).1)
    (recovered : ∀ s p, (s.port p).state = .quarantined → P s →
      P (s.modPort p fun r => { r with state := .offline, score := 0, hold := .stopped })) : RoutineKeeps P L := by
  have drains {y : State × List Port} (h : P y.1) : P (endDrains y) :=
    endDrains_keeps (fun s q hq hs => left s q ((drainEnded_iff s q).1 hq).1 hs) h
  have consumed (s : State) (p : Port) (hq : (s.port p).queue ≠ []) (h : P s) : P (consumeHead p s) := by
    obtain ⟨d, rest, hq⟩ := List.exists_cons_of_ne_nil hq
    rw [consumeHead_eq hq]
    exact drains ((b.consumption p d rest s).symm ▸ h)
  constructor
  case link => exact fun s p f hf h => b.link s p f hf ▸ h
  case tick => exact tick
  case quarantined => exact quarantined
  case holdRestarted => exact holdRestarted
  case holdExpired => exact holdExpired
  case joined => exact joined
  case recovered => exact fun s p hs _ h => recovered s p hs h
  case left =>
    intro s p hs h
    refine leavePort_keeps (Q := fun u => (u.port p).state = .leaving ∧ P u) ⟨?_, ?_⟩ (fun u _ hu => left u p hu.1 hu.2)
      (fun u q hq hu => left u q ((drainEnded_iff u q).1 hq).1 hu) fun _ hu => hu.2
    · rw [state_leaveEffects, port_modPort_same]
    · exact b.leaveEffects p (leaving s p hs h)
  case missedCleared => exact fun s p h => b.queues.missed s p (fun _ => 0) ▸ h
  case topicDeclared => exact fun s p i t kind limit _ _ _ _ h => b.topics.topic s i _ ▸ h
  case topicRedeclared => exact fun s i t kind limit _ _ _ _ h => b.topics.topic s i _ ▸ h
  case topicAdopted => exact fun s p i t limit _ _ _ h => b.topics.topic s i _ ▸ h
  case topicRetired =>
    intro s p i t _ _ _ _ h
    unfold retireRecord; dsimp only
    rw [see_freeRecord b.pool b.topics, see_removeSolicit b.solicits, see_answerAll b.queues b.pool b.fetches]; exact h
  case topicPurged => exact fun s i t _ _ _ h => by rw [see_freeRecord b.pool b.topics]; exact h
  case subscribed => exact fun s p i pattern mask options _ hn hi h => b.subscribed s p i pattern mask options hn hi h
  case unsubscribed => exact b.unsubscribed
  case postOpened =>
    exact fun s x t priority i c _ _ _ _ _ _ h => by
      unfold openSlot allocateBuffer; rw [b.slots.slot, b.pool.buffer]; exact h
  case payloadWritten =>
    intro s x offset data _ h
    unfold writePayload; dsimp only; rw [b.slots.slot]
    split <;> [exact h; (rw [b.pool.buffer]; exact h)]
  case submitted =>
    intro s x _ h
    rw [see_submitSlot b.slots b.readySequence]; exact h
  case slotEmptied => exact fun s x _ h => by rw [see_emptySlot b.pool b.slots]; exact h
  case readyAborted => exact fun s x _ h => by rw [see_finishSlot b.pool b.slots]; exact h
  case deferredEnded => exact fun s x c _ h => drains ((see_endDeferred b.queues b.pool b.slots x c s).symm ▸ h)
  case windowSet =>
    exact fun s p start stop mode _ _ h =>
      b.view s p (fun _ => { start := start, stop := stop, mode := mode, cursor := start }) ▸ h
  case viewRead =>
    refine fun s p n h => readBytes_keeps (fun s hq hs => ?_) n [] h
    obtain ⟨d, rest, hd⟩ := List.exists_cons_of_ne_nil hq
    have opened (g : PortRecord → Nat) : P (s.modPort p fun r =>
        { r with queue := { d with isOpen := true } :: rest, view := { r.view with cursor := g r } }) := by
      have hm : (s.modPort p fun r =>
          { r with queue := { d with isOpen := true } :: rest, view := { r.view with cursor := g r } }) =
          (s.modPort p fun r => { r with view := { r.view with cursor := g r } }).modPort p
            fun r => { r with queue := { d with isOpen := true } :: rest } := by rw [modPort_modPort]
      rw [hm, b.queues.queue, b.view]; exact hs
    by_cases hc : (s.port p).view.cursor = (s.port p).view.stop
    · cases hm : (s.port p).view.mode with
      | hold => rw [passByte_atEnd_hold hd hc hm]; exact opened fun r => r.view.start
      | advance => rw [passByte_atEnd_advance hq hc hm]; exact consumed _ _ hq hs
    · rw [passByte_within hd hc]; exact opened fun r => r.view.cursor + 1
  case consumed => exact consumed
  case answeredNow => exact fun s p d _ _ _ h => by rw [see_giveAnswer b.queues b.pool]; exact h
  case fetchWaits =>
    exact fun s p t i j wait _ _ _ _ _ _ h => by rw [see_solicit b.solicits, b.fetches.fetch]; exact h
  case fetchCancelled => exact fun s i f _ h => by rw [see_dropIdleSolicit b.solicits, b.fetches.fetch]; exact h
  case solicitsRead => exact fun s p h => b.solicits.solicits s p (fun r => r.solicits.drop 16) ▸ h
  case taken =>
    intro s x i _ _ h
    unfold takePost settleSlot stampSlot; dsimp only; split
    · rw [see_finishSlot b.pool b.slots, b.slots.slot, see_placeAll b.queues b.pool,
        see_answerAll b.queues b.pool b.fetches, see_removeSolicit b.solicits, b.slots.order, b.slots.slot,
        see_stampRecord b.pool b.topics]; exact h
    · rw [b.slots.slot, b.slots.slot, see_placeAll b.queues b.pool,
        see_answerAll b.queues b.pool b.fetches, see_removeSolicit b.solicits, b.slots.order, b.slots.slot,
        see_stampRecord b.pool b.topics]; exact h
  case lapsed =>
    exact fun s i t _ _ _ h => by unfold lapse; dsimp only; rw [see_issueNotices b.queues, b.topics.topic]; exact h
  case fetchExpired =>
    exact fun s i f _ h => by
      rw [see_dropIdleSolicit b.solicits, b.fetches.fetch, see_giveAnswer b.queues b.pool]; exact h

end sight

/-- A property of the exchange state, of the port states and hold timers, and of the parameters sees the sessions
alone. -/
theorem sessionSight_of {P : State → Prop} (h : ∀ s t : State, t.exchange = s.exchange → t.params = s.params →
    t.divider = s.divider → (∀ p, (t.port p).state = (s.port p).state ∧ (t.port p).hold = (s.port p).hold) →
    P s → P t) : SessionSight P := by
  have same {s t : State} (he : t.exchange = s.exchange) (ha : t.params = s.params) (hd : t.divider = s.divider)
      (hp : ∀ p, (t.port p).state = (s.port p).state ∧ (t.port p).hold = (s.port p).hold) : P t = P s :=
    propext ⟨h t s he.symm ha.symm hd.symm fun p => ⟨(hp p).1.symm, (hp p).2.symm⟩, h s t he ha hd hp⟩
  have port {s : State} {p : Port} {f : PortRecord → PortRecord}
      (hf : ∀ r, (f r).state = r.state ∧ (f r).hold = r.hold) : P (s.modPort p f) = P s := by
    refine same rfl rfl rfl fun q => ?_
    rw [port_modPort]; split <;> [exact hf _; exact ⟨rfl, rfl⟩]
  exact
    { pool := ⟨fun _ _ _ => same rfl rfl rfl fun _ => ⟨rfl, rfl⟩⟩
      slots := ⟨fun _ _ _ => port fun _ => ⟨rfl, rfl⟩, fun _ _ => same rfl rfl rfl fun _ => ⟨rfl, rfl⟩⟩
      queues := ⟨fun _ _ _ => port fun _ => ⟨rfl, rfl⟩, fun _ _ _ => port fun _ => ⟨rfl, rfl⟩,
        fun _ _ _ => port fun _ => ⟨rfl, rfl⟩⟩
      solicits := ⟨fun _ _ _ => port fun _ => ⟨rfl, rfl⟩⟩
      topics := ⟨fun _ _ _ => same rfl rfl rfl fun _ => ⟨rfl, rfl⟩⟩
      fetches := ⟨fun _ _ _ => same rfl rfl rfl fun _ => ⟨rfl, rfl⟩⟩
      view := fun _ _ _ => port fun _ => ⟨rfl, rfl⟩
      link := fun _ _ f hf => port fun r => ⟨by rw [hf r], by rw [hf r]⟩
      readySequence := fun _ _ => same rfl rfl rfl fun _ => ⟨rfl, rfl⟩
      subscriptionsFreed := fun s _ => h s _ rfl rfl rfl fun _ => ⟨rfl, rfl⟩
      subscribed := fun s _ _ _ _ _ _ _ => h s _ rfl rfl rfl fun _ => ⟨rfl, rfl⟩
      unsubscribed := fun s _ => h s _ rfl rfl rfl fun _ => ⟨rfl, rfl⟩ }

end Sys2Proof.Machine
end

