-- ==== Sys2Proof/Proofs/ExchangeLaw.lean ====
section
/-! The law of the exchange state (O55), and the laws of the hold timers, of the parameters and of the fetch obligations
(O58). -/
namespace Sys2Proof.Machine
set_option Elab.async false

/-! ## The exchange state -/

/-- Whether a port state is that of a session or of its drain. -/
theorem counts_iff (st : PortState) : st.counts = true ↔ st = .online ∨ st = .leaving := by
  cases st <;> simp [PortState.counts]

theorem anySession_iff (s : State) :
    anySession s = true ↔ ∃ p, (s.port p).state = .online ∨ (s.port p).state = .leaving := by
  have hall (p : Port) : p ∈ allPorts := by fin_cases p <;> decide
  simp only [anySession, List.any_eq_true, counts_iff]
  exact ⟨fun ⟨p, _, h⟩ => ⟨p, h⟩, fun ⟨p, h⟩ => ⟨p, hall p, h⟩⟩

/-- Judging makes the exchange SETUP when no session is left, so it restores the law where sessions meet RUNNING (R122
step 7, R130). -/
theorem exchangeLaw_judgeExchange {s : State}
    (h : (∃ p, (s.port p).state = .online ∨ (s.port p).state = .leaving) → s.exchange = .running) :
    ExchangeLaw (judgeExchange s) := by
  unfold judgeExchange
  split
  · next ha => exact ⟨fun _ => (anySession_iff s).1 ha, h⟩
  · next ha =>
    refine ⟨fun hr => ?_, fun hp => absurd ((anySession_iff s).2 hp) ha⟩
    cases hr

/-- A teardown leaves the exchange RUNNING or makes it SETUP by the sessions that are left. -/
theorem exchangeLaw_teardown {quarantine : Bool} {p : Port} {s : State}
    (h : (∃ q, (s.port q).state = .online ∨ (s.port q).state = .leaving) → s.exchange = .running) :
    ExchangeLaw (teardown quarantine p s).1 := by
  have he : (teardownBlocks quarantine p s).exchange = s.exchange := by
    have pool : PoolBlind State.exchange := ⟨fun _ _ _ => rfl⟩
    have slots : SlotBlind State.exchange := ⟨fun _ _ _ => rfl, fun _ _ => rfl⟩
    have queues : QueueBlind State.exchange := ⟨fun _ _ _ => rfl, fun _ _ _ => rfl, fun _ _ _ => rfl⟩
    unfold teardownBlocks closePort homeCursor
    rw [exchange_modPort, exchange_modPort, see_emptySlots pool slots, exchange_modPort,
      see_emptyDeferral queues pool slots, see_emptyQueue queues pool]
  have hstate (q : Port) : ((teardownBlocks quarantine p s).port q).state =
      ((teardown quarantine p s).1.port q).state := by
    rw [teardown_fst, port_judgeExchange]
  rw [teardown_fst]
  refine exchangeLaw_judgeExchange fun ⟨q, hq⟩ => he.trans (h ⟨q, ?_⟩)
  rw [hstate, state_teardown] at hq
  split at hq
  · cases quarantine <;> simp at hq
  · exact hq

theorem exchangeLaw_sight : SessionSight ExchangeLaw := by
  refine sessionSight_of fun s t he _ _ hp h => ?_
  unfold ExchangeLaw at h ⊢
  simp only [he, (hp _).1]; exact h

/-- A change of one port that keeps whether it has a session keeps the law. -/
theorem exchangeLaw_modPort {s : State} {p : Port} {f : PortRecord → PortRecord}
    (hf : (f (s.port p)).state.counts = (s.port p).state.counts) (h : ExchangeLaw s) : ExchangeLaw (s.modPort p f) := by
  unfold ExchangeLaw at h ⊢
  simp only [← counts_iff] at h ⊢
  rw [exchange_modPort, h]
  refine exists_congr fun q => ?_
  rw [port_modPort]
  split <;> [(next e => subst e; rw [hf]); rfl]

theorem exchangeLaw_quarantine {s : State} {p : Port} (h : ExchangeLaw s) : ExchangeLaw (quarantine p s) := by
  have sight := exchangeLaw_sight
  have cut : ExchangeLaw (cutRequest p s) := exchangeLaw_modPort rfl h
  have held {u : State} (hu : ExchangeLaw u) : ExchangeLaw (startHold p u) := exchangeLaw_modPort rfl hu
  have torn {u : State} (hu : ExchangeLaw u) :
      ExchangeLaw (endDrains (teardown true p (abortDeferredSlots p u))) := by
    refine endDrains_keeps (fun _ _ _ hs => exchangeLaw_teardown hs.2) (exchangeLaw_teardown ?_)
    rw [← sight.abortDeferredSlots p] at hu
    exact hu.2
  unfold quarantine; dsimp only
  split
  · next hs => exact held (exchangeLaw_modPort (by rw [hs]; rfl) cut)
  · exact held (torn (sight.leaveEffects p cut))
  · exact held (torn cut)
  · exact held cut

theorem exchangeLaw_events : EventsKeep ExchangeLaw := by
  refine ⟨exchangeLaw_sight.routine ?tick ?quarantined ?holdRestarted ?holdExpired ?joined ?leaving ?left ?recovered,
    ?waiting, ?reset, ?parameterSet⟩
  case reset =>
    intro s straps _
    refine ⟨fun h => ?_, fun ⟨p, hp⟩ => ?_⟩
    · cases h
    · rw [port_resetDevice] at hp; rcases hp with hp | hp <;> cases hp
  case tick =>
    refine fun s n h => ?_
    unfold ExchangeLaw at h ⊢
    simp only [port_countPeriods]; exact h
  case quarantined => exact fun s p _ h => exchangeLaw_quarantine h
  case holdRestarted => exact fun s p _ h => exchangeLaw_modPort rfl h
  case holdExpired => exact fun s p _ h => exchangeLaw_modPort rfl h
  case joined => exact fun s p _ h => ⟨fun _ => ⟨p, .inl (by simp [State.port, State.modPort])⟩, fun _ => rfl⟩
  case leaving => exact fun s p hs h => exchangeLaw_modPort (by rw [hs]; rfl) h
  case left => exact fun s p _ h => exchangeLaw_teardown h.2
  case recovered => exact fun s p hs h => exchangeLaw_modPort (by rw [hs]; rfl) h
  case waiting => exact fun _ _ h => h
  case parameterSet => exact fun _ _ _ _ h => h

/-! ## The parameters -/

theorem parameterLaw_setParameter {s : State} {i : ParamId} {v : Nat} (hv : i.inRange v = true) (h : ParameterLaw s) :
    ParameterLaw (setParameter i v s) := by
  cases i <;> simp only [ParamId.inRange, Bool.and_eq_true, decide_eq_true_eq] at hv
  case fetchDeadline =>
    exact ⟨hv, h.deliveryDeadline, h.quarThreshold, h.quarHold, h.tickDiv, h.divider⟩
  case deliveryDeadline => exact ⟨h.fetchDeadline, hv, h.quarThreshold, h.quarHold, h.tickDiv, h.divider⟩
  case quarThreshold => exact ⟨h.fetchDeadline, h.deliveryDeadline, hv, h.quarHold, h.tickDiv, h.divider⟩
  case quarHold => exact ⟨h.fetchDeadline, h.deliveryDeadline, h.quarThreshold, hv, h.tickDiv, h.divider⟩
  case tickDiv =>
    exact ⟨h.fetchDeadline, h.deliveryDeadline, h.quarThreshold, h.quarHold, hv, Nat.lt_of_lt_of_le Nat.one_pos
      (Nat.le_trans (by decide : 1 ≤ 1000) hv.1)⟩

theorem parameterLaw_congr {s t : State} (hp : t.params = s.params) (hd : t.divider = s.divider) (h : ParameterLaw s) :
    ParameterLaw t := by
  constructor <;> rw [hp]
  · exact h.fetchDeadline
  · exact h.deliveryDeadline
  · exact h.quarThreshold
  · exact h.quarHold
  · exact h.tickDiv
  · rw [hd]; exact h.divider

/-- A property of the parameters and of the divider is kept by every routine event when the ticks keep it. -/
theorem routineKeeps_of_params {P : State → Prop}
    (hP : ∀ s t : State, t.params = s.params → t.divider = s.divider → P s → P t)
    (tick : ∀ s n, P s → P (countPeriods n s)) : RoutineKeeps P := by
  have a := exchangeBlind_params
  have d := exchangeBlind_divider
  refine (sessionSight_of fun s t _ hp hd _ => hP s t hp hd).routine tick ?quarantined (fun s p _ => hP s _ rfl rfl)
    (fun s p _ => hP s _ rfl rfl) (fun s p _ => hP s _ rfl rfl) (fun s p _ => hP s _ rfl rfl) ?left
    (fun s p _ => hP s _ rfl rfl)
  case quarantined =>
    exact fun s p _ => hP s _
      (see_quarantine a.queues a.pool a.slots a.cursors a.sessions a.fetches a.solicits a.topics a.subscriptions
        ⟨fun _ _ _ => rfl⟩ ⟨fun _ _ _ => rfl⟩ p s)
      (see_quarantine d.queues d.pool d.slots d.cursors d.sessions d.fetches d.solicits d.topics d.subscriptions
        ⟨fun _ _ _ => rfl⟩ ⟨fun _ _ _ => rfl⟩ p s)
  case left =>
    exact fun s p _ => hP s _ (see_teardown a.queues a.pool a.slots a.cursors a.sessions _ _ _)
      (see_teardown d.queues d.pool d.slots d.cursors d.sessions _ _ _)

theorem parameterLaw_events : EventsKeep ParameterLaw := by
  refine ⟨routineKeeps_of_params (fun s t => parameterLaw_congr) ?tick,
    fun _ _ h => ⟨h.fetchDeadline, h.deliveryDeadline, h.quarThreshold, h.quarHold, h.tickDiv, h.divider⟩,
    ?reset, ?parameterSet⟩
  case tick =>
    exact fun s n h => ⟨h.fetchDeadline, h.deliveryDeadline, h.quarThreshold, h.quarHold, h.tickDiv,
      Nat.mod_lt _ (Nat.lt_of_lt_of_le Nat.one_pos (Nat.le_trans (by decide : 1 ≤ 1000) h.tickDiv.1))⟩
  case reset =>
    intro s straps _
    have hp : (resetDevice straps s).params = Params.reset := rfl
    have hd : (resetDevice straps s).divider = 0 := rfl
    constructor <;> rw [hp] <;> [skip; skip; skip; skip; skip; rw [hd]] <;> decide
  case parameterSet => exact fun s i v hv h => parameterLaw_setParameter hv h

/-- No event but SET_PARAM in SETUP and a device reset changes the parameters (R164, R165). -/
theorem params_of_exec {c : Instr} {s t : State} (ht : exec c s = .next t) (h : t.params ≠ s.params) :
    (∃ straps, c = .deviceReset straps) ∨ ∃ p, c = .setParam p ∧ s.exchange = .setup := by
  by_contra hc
  obtain ⟨hreset, hset⟩ := not_or.1 hc
  refine h (exec_keeps_of_routine (P := fun u => u.params = s.params)
    (routineKeeps_of_params (fun _ _ hp _ hs => hp.trans hs) fun _ _ hs => hs) rfl
    (fun straps hr => absurd ⟨straps, hr⟩ hreset) (fun p hp _ _ _ hx => absurd ⟨p, hp, hx⟩ hset) ht)

/-- Settles O55: the law of the exchange state is kept by every event, and the parameters by all but two. -/
theorem stepKeepsTheExchangeLaw : Obligations.StepKeepsTheExchangeLaw :=
  ⟨fun _ _ h ht => step_keeps_of_events exchangeLaw_events h ht, fun _ _ _ ht h => params_of_exec ht h⟩

/-! ## The hold timers -/

theorem holdLaw_sight : SessionSight HoldLaw :=
  sessionSight_of fun s t _ _ _ hp h p => by rw [(hp p).1, (hp p).2]; exact h p

/-- HoldLaw everywhere but at a port that is QUARANTINED, whose hold is about to be started. -/
def HoldLawBut (p : Port) (s : State) : Prop :=
  (s.port p).state = .quarantined ∧ ∀ q, q ≠ p → ((s.port q).hold = .stopped ↔ (s.port q).state ≠ .quarantined)

theorem holdLaw_startHold {p : Port} {s : State} (h : HoldLawBut p s) : HoldLaw (startHold p s) := by
  intro q
  rw [startHold, port_modPort]
  split
  · next e => subst e; simp [h.1]
  · next e => exact h.2 q (Ne.symm e)

theorem hold_teardown (quarantine : Bool) (p q : Port) (s : State) :
    ((teardown quarantine p s).1.port q).hold = (s.port q).hold := by
  rw [port_teardown]; split <;> rfl

/-- The teardown of another port keeps the law but at the quarantined port. -/
theorem holdLawBut_teardown {p q : Port} {s : State} (hq : (s.port q).state = .leaving) (h : HoldLawBut p s) :
    HoldLawBut p (teardown false q s).1 := by
  have hne : q ≠ p := by rintro rfl; rw [h.1] at hq; cases hq
  refine ⟨by rw [state_teardown, if_neg hne]; exact h.1, fun r hr => ?_⟩
  rw [hold_teardown, state_teardown]
  split
  · next e => subst e; simpa [hq] using h.2 q hr
  · exact h.2 r hr

theorem holdLaw_quarantine {p : Port} {s : State} (h : HoldLaw s) : HoldLaw (quarantine p s) := by
  have sight := holdLaw_sight
  have cut : HoldLaw (cutRequest p s) := by
    rw [cutRequest, sight.link]
    · exact h
    · exact fun _ => rfl
  have torn {u : State} (hu : HoldLaw u) :
      HoldLaw (startHold p (endDrains (teardown true p (abortDeferredSlots p u)))) := by
    rw [← sight.abortDeferredSlots p] at hu
    refine holdLaw_startHold (endDrains_keeps
      (fun v q hq hv => holdLawBut_teardown ((drainEnded_iff v q).1 hq).1 hv) ⟨?_, fun q hq => ?_⟩)
    · rw [state_teardown, if_pos rfl]; rfl
    · rw [hold_teardown, state_teardown, if_neg hq.symm]; exact hu q
  unfold quarantine; dsimp only
  split
  · refine holdLaw_startHold ⟨by simp [closePort], fun q hq => ?_⟩
    rw [closePort, port_modPort_ne _ _ hq.symm]; exact cut q
  · exact torn (sight.leaveEffects p cut)
  · exact torn cut
  · next hs => exact holdLaw_startHold ⟨hs, fun q _ => cut q⟩

/-- A change of one port that keeps its hold STOPPED or not, and in quarantine or not, keeps the law. -/
theorem holdLaw_modPort {p : Port} {s : State} {f : PortRecord → PortRecord}
    (hf : (f (s.port p)).hold = .stopped ↔ (f (s.port p)).state ≠ .quarantined) (h : HoldLaw s) :
    HoldLaw (s.modPort p f) := by
  intro q
  rw [port_modPort]; split
  · next e => subst e; exact hf
  · exact h q

theorem holdLaw_events : EventsKeep HoldLaw := by
  refine ⟨holdLaw_sight.routine ?tick ?quarantined ?holdRestarted ?holdExpired ?joined ?leaving ?left ?recovered,
    ?waiting, ?reset, ?parameterSet⟩
  case tick =>
    intro s n h p
    rw [port_countPeriods]
    change (s.port p).hold.after _ = .stopped ↔ (s.port p).state ≠ .quarantined
    rw [← h p]
    cases (s.port p).hold <;> simp [HoldTimer.after]
  case quarantined => exact fun s p _ h => holdLaw_quarantine h
  case holdRestarted => exact fun s p hs h => holdLaw_startHold ⟨hs, fun q _ => h q⟩
  case holdExpired =>
    intro s p hd h
    have hs := h p
    rw [hd] at hs
    exact holdLaw_modPort (by simpa using hs) h
  case joined =>
    intro s p hs h
    exact holdLaw_modPort (s := s) (f := fun r => { r with state := .online }) (by simpa [hs] using h p) h
  case leaving => exact fun s p hs h => holdLaw_modPort (by simpa [hs] using h p) h
  case left =>
    intro s p hs h q
    rw [hold_teardown, state_teardown]
    split
    · next e => subst e; simpa [hs] using h p
    · exact h q
  case recovered => exact fun s p _ h => holdLaw_modPort (by simp) h
  case reset =>
    intro s straps _ p
    rw [port_resetDevice]; simp [PortRecord.reset]
  case waiting => exact fun _ _ h => h
  case parameterSet => exact fun _ _ _ _ h => h

end Sys2Proof.Machine
end

