-- ==== Sys2Proof/Proofs/ObligationLaw.lean ====
section
/-! The law of the fetch obligations (O58): an answer takes the place of the fetch that waited for it, so only a FETCH adds an
obligation, and it checks first. -/
namespace Sys2Proof.Machine
set_option Elab.async false

/-! ## Counting obligations -/

theorem obligationLaw_of {s t : State} (hf : ∀ i, t.fetch i = s.fetch i)
    (hd : ∀ q, (t.port q).deferral.countP (·.isAnswer) ≤ (s.port q).deferral.countP (·.isAnswer))
    (h : ObligationLaw s) : ObligationLaw t := by
  intro q
  refine Nat.le_trans ?_ (h q)
  unfold obligations
  simp only [hf]
  exact Nat.add_le_add_left (hd q) _

theorem obligationLaw_congr {s t : State} (hf : ∀ i, t.fetch i = s.fetch i)
    (hd : ∀ q, (t.port q).deferral = (s.port q).deferral) : ObligationLaw t = ObligationLaw s :=
  propext ⟨obligationLaw_of (fun i => (hf i).symm) fun q => by rw [hd], obligationLaw_of hf fun q => by rw [hd]⟩

/-- A change of a port's record that adds no answer entry keeps the law. -/
theorem obligationLaw_modPort {s : State} {p : Port} {f : PortRecord → PortRecord}
    (hf : (f (s.port p)).deferral.countP (·.isAnswer) ≤ (s.port p).deferral.countP (·.isAnswer))
    (h : ObligationLaw s) : ObligationLaw (s.modPort p f) := by
  refine obligationLaw_of (s := s) (fun _ => rfl) (fun q => ?_) h
  rw [port_modPort]; split
  · next e => subst e; exact hf
  · exact Nat.le_refl _

theorem obligationLaw_modPort_eq {s : State} {p : Port} {f : PortRecord → PortRecord}
    (hf : ∀ r, (f r).deferral = r.deferral) : ObligationLaw (s.modPort p f) = ObligationLaw s := by
  refine obligationLaw_congr (fun _ => rfl) fun q => ?_
  rw [port_modPort]; split <;> [exact hf _; rfl]

theorem obligationLaw_pool : PoolBlind ObligationLaw := ⟨fun _ _ _ => rfl⟩
theorem obligationLaw_topics : TopicBlind ObligationLaw := ⟨fun _ _ _ => rfl⟩
theorem obligationLaw_subscriptions : SubscriptionBlind ObligationLaw := ⟨fun _ _ => rfl⟩
theorem obligationLaw_slots : SlotBlind ObligationLaw :=
  ⟨fun _ _ _ => obligationLaw_modPort_eq fun _ => by rfl, fun _ _ => rfl⟩
theorem obligationLaw_solicits : SolicitBlind ObligationLaw := ⟨fun _ _ _ => obligationLaw_modPort_eq fun _ => by rfl⟩

/-- An entry of the fetch table is counted once at most. -/
theorem countP_update_le {n : Nat} (c : Fin n → Bool) (i : Fin n) (b : Bool) :
    (List.finRange n).countP (fun j => if i = j then b else c j) + (if c i then 1 else 0) =
      (List.finRange n).countP c + (if b then 1 else 0) := by
  have split_at (d : Fin n → Bool) : (List.finRange n).countP d =
      ((List.finRange n).erase i).countP d + if d i then 1 else 0 := by
    rw [(List.perm_cons_erase (List.mem_finRange i)).countP_eq, List.countP_cons]
  have others : ((List.finRange n).erase i).countP (fun j => if i = j then b else c j) =
      ((List.finRange n).erase i).countP c := by
    refine List.countP_congr fun j hj => ?_
    have hne : j ≠ i := ((List.nodup_finRange n).mem_erase_iff.1 hj).1
    rw [if_neg hne.symm]
  rw [split_at, split_at c, others, if_pos rfl]; omega

/-- Setting one entry of the fetch table changes the obligations by that entry alone. -/
theorem obligations_setFetch (s : State) (i : FetchId) (e : Option WaitingFetch) (q : Port) :
    obligations (s.setFetch i e) q + (if requestedBy q (s.fetch i) then 1 else 0) =
      obligations s q + (if requestedBy q e then 1 else 0) := by
  have hc : ((List.finRange 16).countP fun j => requestedBy q ((s.setFetch i e).fetch j)) =
      (List.finRange 16).countP fun j => if i = j then requestedBy q e else requestedBy q (s.fetch j) :=
    List.countP_congr fun j _ => by rw [fetch_setFetch]; split <;> rfl
  have h : ((List.finRange 16).countP fun j => if i = j then requestedBy q e else requestedBy q (s.fetch j)) +
      (if requestedBy q (s.fetch i) then 1 else 0) =
      ((List.finRange 16).countP fun j => requestedBy q (s.fetch j)) + (if requestedBy q e then 1 else 0) :=
    countP_update_le _ i _
  unfold obligations
  rw [hc, port_setFetch, Nat.add_right_comm, h, Nat.add_right_comm]

theorem fetch_giveAnswer (p : Port) (d : Delivery) (s : State) (j : FetchId) :
    (giveAnswer p d s).fetch j = s.fetch j :=
  see_giveAnswer (see := fun s => s.fetch j) ⟨fun _ _ _ => rfl, fun _ _ _ => rfl, fun _ _ _ => rfl⟩ ⟨fun _ _ _ => rfl⟩ p d s

/-- An answer adds at most one obligation, at its requester. -/
theorem obligations_giveAnswer (p q : Port) (d : Delivery) (s : State) :
    obligations (giveAnswer p d s) q ≤ obligations s q + if p = q then 1 else 0 := by
  have hf : ((List.finRange 16).countP fun j => requestedBy q ((giveAnswer p d s).fetch j)) =
      (List.finRange 16).countP fun j => requestedBy q (s.fetch j) :=
    List.countP_congr fun j _ => by rw [fetch_giveAnswer]
  unfold obligations
  rw [hf, port_giveAnswer]
  split
  · have hw : ((s.port q).withAnswers 1 d).deferral.countP (·.isAnswer) ≤
        (s.port q).deferral.countP (·.isAnswer) + 1 := by
      unfold PortRecord.withAnswers; split
      · exact Nat.le_trans List.countP_le_length (by rw [List.length_replicate]; omega)
      · rw [List.countP_append]; exact Nat.add_le_add_left List.countP_le_length _
    omega
  · exact Nat.le_refl _

/-- The answer to a waiting fetch takes its place. -/
theorem obligationLaw_answered {s : State} {i : FetchId} {f : WaitingFetch} (d : Delivery) (hf : s.fetch i = some f)
    (h : ObligationLaw s) : ObligationLaw ((giveAnswer f.requester d s).setFetch i none) := by
  intro q
  have h1 := obligations_setFetch (giveAnswer f.requester d s) i none q
  rw [fetch_giveAnswer, hf] at h1
  have h2 := obligations_giveAnswer f.requester q d s
  have h3 := h q
  by_cases e : f.requester = q
  · subst e; simp [requestedBy] at h1 h2; omega
  · simp [requestedBy, e] at h1 h2; omega

theorem obligationLaw_setFetch_none {s : State} {i : FetchId} (h : ObligationLaw s) :
    ObligationLaw (s.setFetch i none) := by
  intro q
  have h1 := obligations_setFetch s i none q
  have h2 := h q
  simp [requestedBy] at h1; omega

/-! ## The shared operations -/

theorem obligationLaw_placeNotice {s : State} {p : Port} {d : Delivery} (h : ObligationLaw s) :
    ObligationLaw (placeNotice p d s) := by
  unfold placeNotice; split <;> exact obligationLaw_modPort (Nat.le_refl _) h

theorem obligationLaw_placePost {s : State} {x : SlotName} {p : Port} {i : SubIndex} {latest : Bool}
    (h : ObligationLaw s) : ObligationLaw (placePost x p i latest s).1 := by
  have taken (v : Option Payload) : ObligationLaw (takePayload v s) := by
    rw [see_takePayload obligationLaw_pool]; exact h
  have deferred : ObligationLaw (appendDeferral p (.slot x i latest) s) :=
    obligationLaw_modPort (by simp [DeferralEntry.isAnswer]) h
  unfold placePost; dsimp only; split
  · split
    · rw [see_releasePayload obligationLaw_pool]; exact obligationLaw_modPort (Nat.le_refl _) (taken _)
    · split <;> [exact obligationLaw_modPort (Nat.le_refl _) (taken _); exact deferred]
  · exact deferred

theorem obligationLaw_teardown {s : State} {p : Port} {quarantine : Bool} (h : ObligationLaw s) :
    ObligationLaw (teardown quarantine p s).1 := by
  refine obligationLaw_of (fun i => see_teardown (see := fun s => s.fetch i)
    ⟨fun _ _ _ => rfl, fun _ _ _ => rfl, fun _ _ _ => rfl⟩ ⟨fun _ _ _ => rfl⟩ ⟨fun _ _ _ => rfl, fun _ _ => rfl⟩
    ⟨fun _ _ _ => rfl⟩ ⟨fun _ _ _ => rfl, fun _ _ _ => rfl, fun _ _ => rfl⟩ quarantine p s) (fun q => ?_) h
  rw [port_teardown]
  split <;> [exact Nat.zero_le _; exact Nat.le_refl _]

theorem obligationLaw_endDrains {y : State × List Port} (h : ObligationLaw y.1) : ObligationLaw (endDrains y) :=
  endDrains_keeps (fun _ _ _ hs => obligationLaw_teardown hs) h

theorem obligationLaw_endDeferred {s : State} {x : SlotName} {c : Completion} (h : ObligationLaw s) :
    ObligationLaw (endDeferred x c s) := by
  unfold endDeferred; dsimp only
  rw [see_finishSlot obligationLaw_pool obligationLaw_slots, obligationLaw_slots.slot]
  refine foldl_keeps _ (fun s p _ hs => ?_) h
  unfold deleteEntryAt; split
  · exact obligationLaw_modPort (List.Sublist.countP_le List.filter_sublist) hs
  · exact hs

theorem obligationLaw_answerAll {s : State} {d : Delivery} (h : ObligationLaw s) : ObligationLaw (answerAll d s) :=
  answerAll_keeps (fun _ _ _ hf _ hs => obligationLaw_answered d hf hs) h

theorem obligationLaw_leaveEffects {s : State} {p : Port} (h : ObligationLaw s) : ObligationLaw (leaveEffects p s) := by
  unfold leaveEffects
  rw [see_clearSolicits obligationLaw_solicits]
  refine orphanTopics_keeps (fun s i t _ hs => orphanRecord_keeps (fun s j f d hf _ _ hs => obligationLaw_answered d hf hs)
    (fun s t hs => ?_) (fun s hs => ?_) (fun s t v q j hs => obligationLaw_placeNotice hs) (fun s hs => ?_) hs)
    (removeFetches_keeps (fun s i f _ _ hs => ?_) ?_)
  · rw [see_removeSolicit obligationLaw_solicits]; exact hs
  · rw [obligationLaw_topics.topic]; exact hs
  · rw [see_freeRecord obligationLaw_pool obligationLaw_topics]; exact hs
  · rw [see_dropIdleSolicit obligationLaw_solicits]; exact obligationLaw_setFetch_none hs
  · rw [see_freeSubscriptionsOf obligationLaw_subscriptions, see_leaveSlots obligationLaw_pool obligationLaw_slots]
    exact h

theorem obligationLaw_quarantine {s : State} {p : Port} (h : ObligationLaw s) : ObligationLaw (quarantine p s) := by
  have cut : ObligationLaw (cutRequest p s) := obligationLaw_modPort (Nat.le_refl _) h
  have held {u : State} (hu : ObligationLaw u) : ObligationLaw (startHold p u) :=
    obligationLaw_modPort (Nat.le_refl _) hu
  have torn {u : State} (hu : ObligationLaw u) :
      ObligationLaw (endDrains (teardown true p (abortDeferredSlots p u))) :=
    obligationLaw_endDrains (obligationLaw_teardown
      (abortDeferredSlots_keeps (fun _ _ _ _ hs => obligationLaw_endDeferred hs) hu))
  unfold quarantine; dsimp only
  split
  · exact held (obligationLaw_modPort (Nat.le_refl _) cut)
  · exact held (torn (obligationLaw_leaveEffects cut))
  · exact held (torn cut)
  · exact held cut

theorem obligationLaw_consumption {s : State} {p : Port} {d : Delivery} {rest : List Delivery} (h : ObligationLaw s) :
    ObligationLaw (consumption p d rest s).1 := by
  have consumed {g : PortRecord → PortRecord}
      (hg : (g (s.port p)).deferral.countP (·.isAnswer) ≤ (s.port p).deferral.countP (·.isAnswer)) :
      ObligationLaw ((releasePayload d.payload s).modPort p g) :=
    obligationLaw_modPort (by rw [port_releasePayload]; exact hg)
      (by rw [see_releasePayload obligationLaw_pool]; exact h)
  unfold consumption; split
  · split
    · exact consumed (Nat.zero_le _)
    · next e entries hd => exact consumed (by rw [hd, List.countP_cons]; exact Nat.le_add_right _ _)
    · next x i c entries hd =>
      rw [see_serveSlot obligationLaw_pool obligationLaw_slots, see_takePayload obligationLaw_pool]
      exact consumed (by rw [hd, List.countP_cons]; exact Nat.le_add_right _ _)
  · exact consumed (Nat.le_refl _)

theorem obligationLaw_consumeHead {s : State} {p : Port} (hq : (s.port p).queue ≠ []) (h : ObligationLaw s) :
    ObligationLaw (consumeHead p s) := by
  obtain ⟨d, rest, hq⟩ := List.exists_cons_of_ne_nil hq
  rw [consumeHead_eq hq]
  exact obligationLaw_endDrains (obligationLaw_consumption h)

theorem obligationLaw_passByte {s : State} {p : Port} (hq : (s.port p).queue ≠ []) (h : ObligationLaw s) :
    ObligationLaw (passByte p s) := by
  obtain ⟨d, rest, hd⟩ := List.exists_cons_of_ne_nil hq
  by_cases hc : (s.port p).view.cursor = (s.port p).view.stop
  · cases hm : (s.port p).view.mode with
    | hold => rw [passByte_atEnd_hold hd hc hm]; exact obligationLaw_modPort (Nat.le_refl _) h
    | advance => rw [passByte_atEnd_advance hq hc hm]; exact obligationLaw_consumeHead hq h
  · rw [passByte_within hd hc]; exact obligationLaw_modPort (Nat.le_refl _) h

theorem obligationLaw_takePost {s : State} {x : SlotName} {i : RecordNo} (h : ObligationLaw s) :
    ObligationLaw (takePost x i s) := by
  have slots := obligationLaw_slots
  have settled (y : Placements) (hy : ObligationLaw y.state) : ObligationLaw (settleSlot x y) := by
    unfold settleSlot; dsimp only; split
    · rw [see_finishSlot obligationLaw_pool slots, slots.slot]; exact hy
    · rw [slots.slot, slots.slot]; exact hy
  unfold takePost; dsimp only
  refine settled _ (placeAll_keeps (fun _ _ _ _ hs => obligationLaw_placePost hs) (obligationLaw_answerAll ?_))
  rw [see_removeSolicit obligationLaw_solicits]
  unfold stampSlot; dsimp only
  rw [slots.order, slots.slot, see_stampRecord obligationLaw_pool obligationLaw_topics]
  exact h

theorem obligationLaw_events : EventsKeep ObligationLaw := by
  have pool := obligationLaw_pool
  have slots := obligationLaw_slots
  have topics := obligationLaw_topics
  have solicits := obligationLaw_solicits
  have port {s : State} {p : Port} {f : PortRecord → PortRecord} (hf : ∀ r, (f r).deferral = r.deferral)
      (h : ObligationLaw s) : ObligationLaw (s.modPort p f) := by rw [obligationLaw_modPort_eq hf]; exact h
  refine ⟨?_, ?waiting, ?reset, ?parameterSet⟩
  constructor
  case waiting => exact fun _ _ h => h
  case link => exact fun s p f hf h => port (fun r => by rw [hf r]) h
  case reset =>
    intro s straps _ q
    unfold obligations
    simp only [fetch_resetDevice, port_resetDevice, requestedBy, List.countP_false]
    exact Nat.zero_le 4
  case tick =>
    intro s n h
    refine fun q => Nat.le_trans (Nat.le_of_eq ?_) (h q)
    unfold obligations
    rw [port_countPeriods]
    congr 1
    refine List.countP_congr fun j _ => ?_
    rw [fetch_countPeriods]
    cases s.fetch j <;> simp [requestedBy]
  case quarantined => exact fun s p _ h => obligationLaw_quarantine h
  case holdRestarted => exact fun s p _ h => port (fun _ => by rfl) h
  case holdExpired => exact fun s p _ h => port (fun _ => by rfl) h
  case joined =>
    exact fun s p _ h => port (s := s) (p := p) (f := fun r => { r with state := .online }) (fun _ => rfl) h
  case left =>
    exact fun s p _ h => leavePort_keeps (Q := ObligationLaw) (obligationLaw_leaveEffects (port (fun _ => by rfl) h))
      (fun _ _ hs => obligationLaw_teardown hs) (fun _ _ _ hs => obligationLaw_teardown hs) fun _ hs => hs
  case recovered => exact fun s p _ _ h => port (fun _ => by rfl) h
  case missedCleared => exact fun s p h => port (fun _ => by rfl) h
  case parameterSet => exact fun _ _ _ _ h => h
  case topicDeclared => exact fun _ _ _ _ _ _ _ _ _ _ h => h
  case topicRedeclared => exact fun _ _ _ _ _ _ _ _ _ h => h
  case topicAdopted => exact fun _ _ _ _ _ _ _ _ h => h
  case topicRetired =>
    intro s p i t _ _ _ _ h
    unfold retireRecord; dsimp only
    rw [see_freeRecord pool topics, see_removeSolicit solicits]
    exact obligationLaw_answerAll h
  case topicPurged => exact fun s i t _ _ _ h => by rw [see_freeRecord pool topics]; exact h
  case subscribed => exact fun _ _ _ _ _ _ _ _ _ h => h
  case unsubscribed => exact fun _ _ h => h
  case postOpened =>
    exact fun s x t priority i b _ _ _ _ _ _ h => by
      unfold openSlot allocateBuffer; rw [slots.slot, pool.buffer]; exact h
  case payloadWritten =>
    intro s x offset data _ h
    unfold writePayload; dsimp only; rw [slots.slot]
    split <;> [exact h; (rw [pool.buffer]; exact h)]
  case submitted => exact fun s x _ h => by rw [see_submitSlot slots fun _ _ => rfl]; exact h
  case slotEmptied => exact fun s x _ h => by rw [see_emptySlot pool slots]; exact h
  case readyAborted => exact fun s x _ h => by rw [see_finishSlot pool slots]; exact h
  case deferredEnded => exact fun s x c _ h => obligationLaw_endDrains (obligationLaw_endDeferred h)
  case windowSet => exact fun s p _ _ _ _ _ h => port (fun _ => by rfl) h
  case viewRead => exact fun s p n h => readBytes_keeps (fun _ hq hs => obligationLaw_passByte hq hs) n [] h
  case consumed => exact fun s p hq h => obligationLaw_consumeHead hq h
  case answeredNow =>
    intro s p d _ hlt _ h q
    have h1 := obligations_giveAnswer p q d s
    by_cases e : p = q
    · subst e; simp at h1; omega
    · have h2 := h q; simp [e] at h1; omega
  case fetchWaits =>
    intro s p t i j wait _ hlt _ _ _ hj h
    rw [see_solicit solicits]
    intro q
    have h1 := obligations_setFetch s j (some { requester := p, topic := t, deadline := .running wait }) q
    by_cases e : p = q
    · subst e; simp [requestedBy] at h1; omega
    · have h2 := h q; simp [requestedBy, e] at h1; omega
  case fetchCancelled =>
    exact fun s i f _ h => by rw [see_dropIdleSolicit solicits]; exact obligationLaw_setFetch_none h
  case solicitsRead => exact fun s p h => port (fun _ => by rfl) h
  case taken => exact fun s x i _ _ h => obligationLaw_takePost h
  case lapsed => exact fun s i t _ _ _ h => issueNotices_keeps (fun _ _ _ _ hs => obligationLaw_placeNotice hs) h
  case fetchExpired =>
    exact fun s i f hf h => by rw [see_dropIdleSolicit solicits]; exact obligationLaw_answered _ hf h

/-- Settles O58: each of the three laws is kept by every event. -/
theorem stepKeepsObligationsHoldsAndParameters : Obligations.StepKeepsObligationsHoldsAndParameters :=
  ⟨fun _ _ h ht => step_keeps_of_events obligationLaw_events h ht,
    fun _ _ h ht => step_keeps_of_events holdLaw_events h ht,
    fun _ _ h ht => step_keeps_of_events parameterLaw_events h ht⟩

end Sys2Proof.Machine
end

