-- ==== Sys2Proof/Proofs/StepsAndResets.lean ====
section
/-! Steps, the state after reset, and the timebase: O1 to O6, O49 and O50. -/
namespace Sys2Proof.Machine
set_option Elab.async false

/-! ## Steps -/

/-- Settles O1: a step takes the command at the front. -/
theorem stepRunsFrontCommand : Obligations.StepRunsFrontCommand := fun _ _ => rfl

/-- No event changes the commands that wait. -/
theorem routineKeeps_pending (l : List Instr) : RoutineKeeps fun s => s.pending = l := by
  have e := exchangeBlind_pending
  have lift {see : State → Prop} (h : ∀ s t : State, t.pending = s.pending → see t = see s) :
      SessionSight see :=
    { pool := ⟨fun _ _ _ => h _ _ rfl⟩
      slots := ⟨fun _ _ _ => h _ _ rfl, fun _ _ => h _ _ rfl⟩
      queues := ⟨fun _ _ _ => h _ _ rfl, fun _ _ _ => h _ _ rfl, fun _ _ _ => h _ _ rfl⟩
      solicits := ⟨fun _ _ _ => h _ _ rfl⟩
      topics := ⟨fun _ _ _ => h _ _ rfl⟩
      fetches := ⟨fun _ _ _ => h _ _ rfl⟩
      view := fun _ _ _ => h _ _ rfl
      link := fun _ _ _ _ => h _ _ rfl
      readySequence := fun _ _ => h _ _ rfl
      subscriptionsFreed := fun s p hs => (h s (freeSubscriptionsOf p s) rfl).mpr hs
      subscribed := fun s _ i _ _ _ _ _ hs => (h s (s.modSubscription i _) rfl).mpr hs
      unsubscribed := fun s i hs => (h s (s.modSubscription i _) rfl).mpr hs }
  refine (lift fun s t ht => by rw [ht]).routine (fun _ _ h => h) (fun s p _ h => ?_) (fun _ _ _ h => h)
    (fun _ _ _ h => h) (fun _ _ _ h => h) (fun _ _ _ h => h) (fun s p _ h => ?_) (fun _ _ _ h => h)
  · exact (see_quarantine e.queues e.pool e.slots e.cursors e.sessions e.fetches e.solicits e.topics e.subscriptions
      ⟨fun _ _ _ => rfl⟩ ⟨fun _ _ _ => rfl⟩ p s).trans h
  · exact (see_teardown e.queues e.pool e.slots e.cursors e.sessions _ _ _).trans h

/-- Every command of the part has a next state. -/
theorem exec_next (c : Instr) (s : State) : ∃ t, exec c s = .next t := by cases c <;> exact ⟨_, rfl⟩

/-- Settles O2: no command is refused, and none but `step` touches the queue of commands. -/
theorem everyCommandCompletes : Obligations.EveryCommandCompletes := fun c s => by
  obtain ⟨t, ht⟩ := exec_next c s
  exact ⟨t, ht, exec_keeps_of_routine (routineKeeps_pending s.pending) rfl (fun _ _ => rfl) (fun _ _ _ _ _ _ => rfl) ht⟩

/-! ## The state after reset -/

section reset

theorem port_reset (p : Port) : State.reset.port p = PortRecord.reset Strap.reset := Vector.getElem_replicate ..
theorem topic_reset (i : RecordNo) : State.reset.topic i = TopicRecord.reset := Vector.getElem_replicate ..
theorem subscription_reset (i : SubIndex) : State.reset.subscription i = Subscription.reset :=
  Vector.getElem_replicate ..
theorem fetch_reset (i : FetchId) : State.reset.fetch i = none := Vector.getElem_replicate ..
theorem buffer_reset (b : BufferNo) : State.reset.buffer b = Buffer.reset := Vector.getElem_replicate ..

theorem slot_reset (x : SlotName) : State.reset.slot x = Slot.reset := by
  rw [slot_def, port_reset]; exact Vector.getElem_replicate ..

end reset

/-- Settles O3: the reset values are those of the records' own definitions. -/
theorem resetHoldsTheSpecsValues : Obligations.ResetHoldsTheSpecsValues := by
  refine ⟨topic_reset, subscription_reset, slot_reset, fun b => by rw [buffer_reset]; rfl, ?_, fetch_reset,
    fun p => ?_, rfl, rfl, rfl, rfl⟩
  · unfold freeBuffers
    rw [List.countP_eq_length.2 fun b _ => by rw [buffer_reset]; rfl, List.length_finRange]
  · rw [port_reset]
    exact ⟨rfl, rfl, rfl, rfl, rfl, rfl, rfl, rfl, rfl, rfl, rfl, rfl, rfl⟩

/-- Settles O4: the port records after a device reset are those of the reset state with the straps sampled. -/
theorem deviceResetRestoresEveryBlock : Obligations.DeviceResetRestoresEveryBlock := by
  refine fun straps s => ⟨congrArg Host.Outcome.next ?_, fun t ht p => ?_⟩
  · refine state_ext (fun p => ?_) rfl (fun _ => rfl) (fun _ => rfl) (fun _ => rfl) (fun _ => rfl) rfl rfl rfl rfl rfl
    rw [port_resetDevice]
    refine Eq.trans ?_ (Vector.getElem_ofFn p.isLt).symm
    rw [port_reset]; rfl
  · obtain rfl := Host.Outcome.next.inj ht
    rw [port_resetDevice]
    exact ⟨rfl, rfl⟩

/-! ## Ticks -/

/-- Settles O5: the timers of every record count the ticks, as the lemmas on each kind of record say. -/
theorem tickCountsEveryTimer : Obligations.TickCountsEveryTimer := by
  refine fun n s => ⟨countPeriods n s, rfl, rfl, ⟨fun i => ?_, fun x => ?_, fun i => ?_, fun p => ?_⟩, rfl, rfl, rfl, rfl,
    rfl, rfl, rfl⟩
  · rw [topic_countPeriods]; rfl
  · rw [slot_countPeriods]; rfl
  · rw [fetch_countPeriods]; rfl
  · rw [port_countPeriods]; rfl

/-- One tick is exactly the tick of its period: a divider that begins below TICK_DIV stands where it stood. -/
theorem divider_countPeriods_tick {s : State} (h : s.divider < s.params.tickDiv) :
    (countPeriods s.params.tickDiv s).divider = s.divider := by
  change (s.divider + s.params.tickDiv) % s.params.tickDiv = s.divider
  rw [Nat.add_mod_right, Nat.mod_eq_of_lt h]

theorem ticksOf_tick {s : State} (h : s.divider < s.params.tickDiv) : ticksOf s.params.tickDiv s = 1 := by
  rw [ticksOf, Nat.add_div_right _ (Nat.zero_lt_of_lt h), Nat.div_eq_of_lt h]

theorem run_succ_of_next {M : Host.Core} {s u : M.State} (h : M.step s = .next u) (k : Nat) :
    M.run (k + 1) s = M.run k u := by rw [Host.Core.run, h]

/-- Settles O6, by induction on the ticks: one tick takes one from every running timer. -/
theorem timerIsDueAtItsTick : Obligations.TimerIsDueAtItsTick := by
  intro k
  induction k with
  | zero => exact fun s _ _ _ => ⟨s, rfl, rfl, fun _ _ h => h, fun _ _ h => h, fun i f v h hd => by
      rw [h, Nat.sub_zero, ← hd], fun _ _ h => h⟩
  | succ k ih =>
    intro s hpos hdiv hpend
    let u : State := countPeriods s.params.tickDiv { s with pending := List.replicate k (.tick s.params.tickDiv) }
    have hstep : step s = .next u := by unfold step; rw [hpend]; rfl
    have hticks : ticksOf s.params.tickDiv { s with pending := List.replicate k (.tick s.params.tickDiv) } = 1 :=
      ticksOf_tick (s := { s with pending := _ }) hdiv
    have hdivider : u.divider = s.divider := divider_countPeriods_tick (s := { s with pending := _ }) hdiv
    obtain ⟨t, hrun, hd, ht, hx, hf, hp⟩ := ih u hpos (by rw [hdivider]; exact hdiv) rfl
    have sub (v : Nat) : v - (k + 1) = v - 1 - k := by omega
    refine ⟨t, ?_, hd.trans hdivider, fun i v h => ?_, fun x v h => ?_, fun i f v h hv => ?_, fun p v h => ?_⟩
    · exact (run_succ_of_next (M := Sys2Proof.core) hstep k).trans hrun
    · refine (ht i (v - 1) ?_).trans (by rw [sub])
      change ((countPeriods _ _).topic i).freshness = _
      rw [topic_countPeriods, hticks]
      change (s.topic i).freshness.after 1 = _
      rw [h]; rfl
    · refine (hx x (v - 1) ?_).trans (by rw [sub])
      change ((countPeriods _ _).slot x).deadline = _
      rw [slot_countPeriods, hticks]
      change (s.slot x).deadline.after 1 = _
      rw [h]; rfl
    · refine (hf i { f with deadline := .running (v - 1) } (v - 1) ?_ rfl).trans (by rw [sub])
      change (countPeriods _ _).fetch i = _
      rw [fetch_countPeriods, hticks]
      change (s.fetch i).map _ = _
      rw [h, Option.map_some, hv]; rfl
    · refine (hp p (v - 1) ?_).trans (by rw [sub])
      change ((countPeriods _ _).port p).hold = _
      rw [port_countPeriods, hticks]
      change (s.port p).hold.after 1 = _
      rw [h]; rfl

/-! ## Expiries -/

/-- A change of a port's record that leaves the record that stands there alone changes nothing. -/
theorem modPort_eq_self {s : State} {p : Port} {f : PortRecord → PortRecord} (h : f (s.port p) = s.port p) :
    s.modPort p f = s := by
  have hu : update s.ports p f = s.ports := update_eq_self _ _ _ h
  unfold State.modPort; rw [hu]

/-- Settles O49: an expiry looks at its timer first. -/
theorem expiriesHappenWhenDue : Obligations.ExpiriesHappenWhenDue := by
  refine fun s => ⟨fun p h => ?_, fun p h => ?_, fun x h => ?_, fun i h => ?_, fun t h => ?_⟩ <;>
    refine congrArg Host.Outcome.next ?_
  · exact modPort_congr s (by simp [h])
  · exact modPort_eq_self (by simp [h])
  · exact if_neg fun hd => h hd.2
  · unfold expireFetch; split
    · rfl
    · next f hf => exact if_neg (h f hf)
  · unfold expireFreshness; split
    · rfl
    · next i hi => exact if_neg fun hd => h i hi hd.2

/-! ## The laws at reset -/

theorem poolLaw_reset : PoolLaw State.reset where
  references b := by
    have hs : allSlots.countP (fun x => (State.reset.slot x).buffer == some b) = 0 :=
      List.countP_eq_zero.2 fun x _ => by rw [slot_reset]; simp [Slot.reset]
    have ht : (List.finRange 128).countP (fun i => carries b (State.reset.topic i).retained) = 0 :=
      List.countP_eq_zero.2 fun i _ => by rw [topic_reset]; simp [TopicRecord.reset, carries]
    unfold holders
    simp only [hs, ht, port_reset, buffer_reset]
    rfl
  emptySlots x _ := by rw [slot_reset]; rfl
  freeRecords i _ := by rw [topic_reset]; rfl

theorem slotLaw_reset : SlotLaw State.reset where
  fields x := by rw [slot_reset]; rfl
  entries x p := by rw [slot_reset, port_reset]; fin_cases p <;> rfl

theorem queueLaw_reset : QueueLaw State.reset where
  depth p := by rw [port_reset]; exact Nat.zero_le _
  full p h := by rw [port_reset] at h; exact absurd rfl h
  headOpen p d h := by rw [port_reset] at h; cases h
  answersClosed p d h := by rw [port_reset] at h; cases h
  noticesMissed p := by rw [port_reset]; exact Nat.zero_le _

theorem viewLaw_reset : ViewLaw State.reset where
  windowEnd p := by rw [port_reset]; exact Nat.le_refl _
  window p := by rw [port_reset]; exact Nat.zero_le _
  cursorLow p := by rw [port_reset]; exact Nat.le_refl _
  cursorHigh p := by rw [port_reset]; exact Nat.zero_le _
  home p _ := by rw [port_reset]; rfl

theorem exchangeLaw_reset : ExchangeLaw State.reset := by
  refine ⟨fun h => (by cases h), fun ⟨p, h⟩ => ?_⟩
  rw [port_reset] at h; rcases h with h | h <;> cases h

theorem holdLaw_reset : HoldLaw State.reset := fun p => by rw [port_reset]; simp [PortRecord.reset]

theorem dispatcherLaw_reset : DispatcherLaw State.reset where
  once := List.nodup_nil
  ready x := by rw [slot_reset]; simp [State.reset, Slot.reset]

theorem linkLaw_reset : LinkLaw State.reset where
  receiver p := by rw [port_reset]; rfl
  score p := by rw [port_reset]; exact Nat.zero_le _
  notReady p := by rw [port_reset]; simp [PortRecord.reset]
  length p q h := by rw [port_reset] at h; cases h
  ready p r h := by rw [port_reset] at h; cases h
  repeated p r h := by rw [port_reset] at h; cases h
  quota p := by
    unfold ownedSubscriptions
    rw [List.countP_eq_zero.2 fun i _ => by rw [subscription_reset]; simp [Subscription.ownedBy, Subscription.reset]]
    exact Nat.zero_le _

theorem obligationLaw_reset : ObligationLaw State.reset := fun p => by
  unfold obligations
  simp only [fetch_reset, port_reset, requestedBy, List.countP_false]
  exact Nat.zero_le 4

theorem parameterLaw_reset : ParameterLaw State.reset := by constructor <;> decide

theorem directoryLaw_reset : DirectoryLaw State.reset where
  unique i _ h := absurd (congrArg TopicRecord.state (topic_reset i)) h
  numbers i h := absurd (congrArg TopicRecord.state (topic_reset i)) h
  fields i := by rw [topic_reset]; rfl
  producers i p h := by rw [topic_reset] at h; cases h
  posts x h := by rw [slot_reset] at h; rcases h with h | h <;> cases h
  fetches j f h := by rw [fetch_reset] at h; cases h
  solicitsOnce p := by rw [port_reset]; exact List.nodup_nil
  solicits p t h := by rw [port_reset] at h; cases h

theorem sessionLaw_reset : SessionLaw State.reset where
  closed p _ :=
    { subscriptions := fun i h => by rw [subscription_reset] at h; cases h
      slots := fun k => slot_reset _
      queue := by rw [port_reset]; rfl
      deferral := by rw [port_reset]; rfl
      fetches := fun i f h => by rw [fetch_reset] at h; cases h
      solicits := by rw [port_reset]; rfl
      topics := fun i h => by rw [topic_reset] at h; cases h
      noticesMissed := by rw [port_reset]; rfl }
  leavingSubscriptions p h := by rw [port_reset] at h; cases h
  draining p h := by rw [port_reset] at h; cases h

/-- Settles O50, law by law: after reset no table holds a record that a law speaks of. -/
theorem resetMeetsEveryLaw : Obligations.ResetMeetsEveryLaw :=
  ⟨poolLaw_reset, slotLaw_reset, queueLaw_reset, viewLaw_reset, exchangeLaw_reset, holdLaw_reset, dispatcherLaw_reset,
    linkLaw_reset, obligationLaw_reset, parameterLaw_reset, directoryLaw_reset, sessionLaw_reset⟩

end Sys2Proof.Machine
end

