-- ==== Sys2Proof/Proofs/Frames.lean ====
section
/-! Request frames that are taken, the refusals by port state, and the CRC: O7, O15 and O16. -/
namespace Sys2Proof.Machine
set_option Elab.async false

/-! ## The handling of a request by its name -/

/-- The command of a request hands it to one owner, whatever the state. -/
theorem exec_commandOf (c : RequestName) (p : Port) :
    ∃ act, ∀ s, exec (commandOf c p) s = .next (handleRequest p c act s) := by
  cases c <;> exact ⟨_, fun _ => rfl⟩

/-- Settles O16: Table 7-1 is what the handling consults before the owner. -/
theorem portStateRefusesByTable : Obligations.PortStateRefusesByTable := by
  intro c p tag args s e hp he
  obtain ⟨act, hact⟩ := exec_commandOf c p
  rw [hact, handleRequest_refused hp ((stateRefusal_eq _ _).trans he)]

/-! ## The CRC -/

/-- One bit of the division by the generator polynomial (R137). -/
def crcBit (r : Byte) (b : Bool) : Byte := if r.msb != b then (r <<< 1) ^^^ 0x07 else r <<< 1

/-- A shift of the register with bits still to come takes in the first of them. -/
theorem crcShift_xor (r x : Byte) : crcShift (r ^^^ x) = crcBit r x.msb ^^^ (x <<< 1) := by
  unfold crcShift crcBit
  have swap (a b c : Byte) : a ^^^ b ^^^ c = a ^^^ c ^^^ b := by
    rw [BitVec.xor_assoc, BitVec.xor_comm b, BitVec.xor_assoc]
  rw [BitVec.msb_xor, BitVec.shiftLeft_xor_distrib]
  cases r.msb <;> cases x.msb <;> simp [swap _ (x <<< 1)]

/-- The register after one byte is the register after its eight bits, most significant first. -/
theorem crcByte_eq_foldl (r b : Byte) : crcByte r b = [b.getLsbD 7, b.getLsbD 6, b.getLsbD 5, b.getLsbD 4, b.getLsbD 3,
    b.getLsbD 2, b.getLsbD 1, b.getLsbD 0].foldl crcBit r := by
  have h8 : b <<< 8 = 0#8 := by simp
  have msb (n : Nat) (hn : n < 8) : (b <<< n).msb = b.getLsbD (7 - n) := by
    rw [BitVec.msb_eq_getLsbD_last, BitVec.getLsbD_shiftLeft]; simp; omega
  have next (n : Nat) : b <<< n <<< 1 = b <<< (n + 1) := (BitVec.shiftLeft_add b n 1).symm
  have h0 : r ^^^ b = r ^^^ (b <<< 0) := by simp
  unfold crcByte
  rw [h0, crcShift_xor, next, crcShift_xor, next, crcShift_xor, next, crcShift_xor, next, crcShift_xor, next,
    crcShift_xor, next, crcShift_xor, next, crcShift_xor, next, h8]
  simp only [msb, Nat.reduceLT, List.foldl_cons, List.foldl_nil, BitVec.xor_zero, Nat.reduceAdd, Nat.reduceSub]

theorem crc8_eq_foldl (bytes : List Byte) : crc8 bytes = (bitsOf bytes).foldl crcBit 0xFF := by
  unfold crc8 bitsOf
  rw [List.foldl_flatMap]
  congr 1
  funext r b
  exact crcByte_eq_foldl r b

/-- The register before a shift. -/
def crcUnshift (r : Byte) : Byte := if r.getLsbD 0 then ((r ^^^ 0x07) >>> 1) ||| 0x80 else r >>> 1

theorem crcUnshift_crcShift : ∀ r : Byte, crcUnshift (crcShift r) = r := by decide +kernel

theorem crcShift_injective : Function.Injective crcShift := Function.LeftInverse.injective crcUnshift_crcShift

theorem crcByte_injective (f : Byte → Byte → Byte) (hf : ∀ a, Function.Injective (f a)) (a : Byte) :
    Function.Injective fun b => crcShift (crcShift (crcShift (crcShift (crcShift (crcShift (crcShift (crcShift
      (f a b)))))))) := by
  have h := crcShift_injective
  exact (h.comp (h.comp (h.comp (h.comp (h.comp (h.comp (h.comp (h.comp (hf a)))))))) :)

theorem crcByte_right_injective (r : Byte) : Function.Injective (crcByte r) :=
  crcByte_injective (· ^^^ ·) (fun _ _ _ h => (BitVec.xor_right_inj _).1 h) r

theorem crcByte_left_injective (b : Byte) : Function.Injective (crcByte · b) :=
  crcByte_injective (fun a r => r ^^^ a) (fun _ _ _ h => (BitVec.xor_left_inj _).1 h) b

/-- Registers that differ stay different whatever bytes follow. -/
theorem foldl_crcByte_injective (bytes : List Byte) : Function.Injective fun r => bytes.foldl crcByte r := by
  induction bytes with
  | nil => exact fun _ _ h => h
  | cons b bytes ih => exact fun _ _ h => crcByte_left_injective b (ih h)

/-- Settles O15: the register takes the bits one at a time, and each byte acts on it as a permutation. -/
theorem crcIsTheRemainderOfTheBits : Obligations.CrcIsTheRemainderOfTheBits := by
  refine ⟨crc8_eq_foldl, fun before after a b hne h => hne ?_⟩
  unfold crc8 at h
  rw [List.foldl_append, List.foldl_append] at h
  exact crcByte_right_injective _ (foldl_crcByte_injective after h)

/-! ## Well-formed frames -/

/-- A table whose keys are distinct is read back entry by entry. -/
theorem lookup_eq_some_iff {α β : Type} [BEq α] [LawfulBEq α] {l : List (α × β)} (h : (l.map Prod.fst).Nodup) (a : α)
    (b : β) : l.lookup a = some b ↔ (a, b) ∈ l := by
  induction l with
  | nil => simp
  | cons e l ih =>
    obtain ⟨k, v⟩ := e
    rw [List.map_cons, List.nodup_cons] at h
    rw [List.lookup_cons, List.mem_cons, Prod.mk.injEq]
    by_cases hk : a = k
    · subst hk
      have hnot : (a, b) ∉ l := fun hm => h.1 (List.mem_map.2 ⟨_, hm, rfl⟩)
      simp [hnot, eq_comm]
    · simp [hk, ih h.2, beq_false_of_ne hk]

theorem requestOf_iff (code : Byte) (c : RequestName) : requestOf code = some c ↔ (code, c) ∈ requestCodes :=
  lookup_eq_some_iff (by decide) code c

/-- No request admits more than 66 argument bytes. -/
theorem admitsLength_le {c : RequestName} {n : Nat} (h : admitsLength c n = true) : n ≤ 66 := by
  cases c <;> simp only [admitsLength, beq_iff_eq, Bool.and_eq_true, decide_eq_true_eq] at h <;> omega

theorem toNat_numByte {n : Nat} (h : n < 256) : (numByte n).toNat = n := by
  rw [numByte, BitVec.toNat_ofNat]; exact Nat.mod_eq_of_lt h

/-- A frame with a correct CRC, a listed code and a length that its request admits fails no check (R144). -/
theorem frameFault_frameBytes {code tag : Byte} {c : RequestName} {args : List Byte} (hc : requestOf code = some c)
    (hn : admitsLength c args.length = true) : frameFault (frameBytes code tag args) = none := by
  have hle := admitsLength_le hn
  have h2 : ((frameBytes code tag args).getD 2 0).toNat = args.length := toNat_numByte (by omega)
  have h0 : (frameBytes code tag args).getD 0 0 = code := rfl
  have hlen : (frameBytes code tag args).length = args.length + 4 := by simp [frameBytes]
  have hcovered : (frameBytes code tag args).take (args.length + 3) = code :: tag :: numByte args.length :: args := by
    simp [frameBytes]
  have hcrc : (frameBytes code tag args).getD (args.length + 3) 0 =
      crc8 (code :: tag :: numByte args.length :: args) := by simp [frameBytes]
  unfold frameFault; dsimp only
  rw [h2, h0, hlen, hcovered, hcrc, hc]
  simp only [ne_eq, not_true, ↓reduceIte, hn]
  rw [if_neg (by omega), if_neg (by omega), if_neg (by omega), if_neg (by omega)]

/-- A frame that fails no check is taken when no request is in progress (R138, R144). -/
theorem receiveFrame_taken {p : Port} {bytes : List Byte} {c : RequestName} {s : State}
    (hq : (s.port p).inProgress = none) (hf : frameFault bytes = none) (hc : requestOf (bytes.getD 0 0) = some c) :
    receiveFrame p bytes s = takeRequest p c (bytes.getD 1 0) ((bytes.drop 3).take (bytes.getD 2 0).toNat)
      (s.modPort p fun r => { r with receiver := Receiver.idle }) := by
  simp only [receiveFrame, endFrame, port_modPort_same, modPort_modPort, hq, Option.isSome_none, judgeFrame_gather, hf, hc]
  rfl

/-- Settles O7: the tables as they stand, and the frame that passes every check of R144. -/
theorem wellFormedFrameIsTaken : Obligations.WellFormedFrameIsTaken := by
  refine ⟨requestOf_iff, fun c n => ?_, fun p s transaction code tag c args hends hc hn hq => ?_⟩
  · cases c <;> simp [admitsLength]
  · have hargs : ((frameBytes code tag args).drop 3).take ((frameBytes code tag args).getD 2 0).toNat = args := by
      have hle := admitsLength_le hn
      have h2 : ((frameBytes code tag args).getD 2 0).toNat = args.length := toNat_numByte (by omega)
      rw [h2]; simp [frameBytes]
    have hlen : (frameBytes code tag args).length = args.length + 4 := by simp [frameBytes]
    refine congrArg Host.Outcome.next ?_
    rw [linkTransaction_frame p transaction _ s hends,
      receiveFrame_taken (by rw [setOutput, port_modPort_same]; exact hq) (frameFault_frameBytes hc hn) hc, hargs, hlen,
      setOutput, takeRequest, modPort_modPort, modPort_modPort]
    exact modPort_congr s rfl

end Sys2Proof.Machine
end

