-- ==== Sys2Proof/Proofs/Responses.lean ====
section
/-! Response reads: O13 and O14. -/
namespace Sys2Proof.Machine
set_option Elab.async false

theorem length_stream_ready (r : Response) : (ResponseBuffer.ready r).stream.length = r.body.length + 5 := by
  simp [ResponseBuffer.stream, Response.bytes, Response.covered]

/-- Settles O13: what a completion writes is read back, whole or in part. -/
theorem completedResponseReadsBack : Obligations.CompletedResponseReadsBack := by
  refine ⟨rfl, fun p s tag result body => ⟨rfl, fun n transaction hends => ⟨fun hn => ?_, fun hn => ?_⟩⟩⟩ <;>
    refine congrArg Host.Outcome.next ?_ <;>
    rw [linkTransaction_read p transaction n _ hends] <;>
    refine modPort_congr _ ?_
  · have hafter : (ResponseBuffer.ready (mkResponse tag result body)).afterRead n = .ready (mkResponse tag result body) :=
      if_neg (Nat.not_le.2 hn)
    have h0 : n - ((mkResponse tag result body).body.length + 5) = 0 := by
      simp only [mkResponse]; omega
    rw [complete_response, presents_pad, length_stream_ready, hafter, h0, List.replicate_zero, List.append_nil,
      ← complete_response p tag result body s]
    exact congrArg (fun b => { (complete p tag result body s).port p with
      output := readOutput ((complete p tag result body s).port p).isI2c (b.stream.take n) })
      (complete_response p tag result body s)
  · have hafter : (ResponseBuffer.ready (mkResponse tag result body)).afterRead n =
        .repeated (mkResponse tag result body) := if_pos hn
    have htake : (ResponseBuffer.ready (mkResponse tag result body)).stream.take n =
        (ResponseBuffer.ready (mkResponse tag result body)).stream :=
      List.take_of_length_le (by rw [length_stream_ready]; exact hn)
    rw [complete_response, presents_pad, length_stream_ready, hafter, htake]
    rfl

/-- Settles O14: the three conditions that a read leaves as they are. -/
theorem readsThatChangeNothing : Obligations.ReadsThatChangeNothing := by
  intro p s n stream transaction hends h
  have reads (b : ResponseBuffer) (hb : (s.port p).response = b) (hafter : b.afterRead n = b) :
      exec (.responseRead p transaction) s = .next (s.modPort p fun r =>
        { r with output := readOutput r.isI2c (b.stream.take n ++ List.replicate (n - b.stream.length) 0xFF) }) := by
    refine congrArg Host.Outcome.next ?_
    rw [linkTransaction_read p transaction n s hends]
    refine modPort_congr s ?_
    rw [hb, hafter, presents_pad, ← hb]
  rcases h with ⟨hr, rfl⟩ | ⟨hr, rfl⟩ | ⟨r, hr, rfl⟩
  · exact reads .empty hr rfl
  · exact reads .notReady hr rfl
  · exact reads (.repeated r) hr rfl

end Sys2Proof.Machine
end

