-- ==== Sys2Proof/Proofs/LinkFaults.lean ====
section
/-! Link faults and what a quarantine leaves of its port's own record: O8, O9, O10 and O12. -/
namespace Sys2Proof.Machine
set_option Elab.async false

/-! ## The port that is quarantined -/

/-- A port's record at its quarantine: the state, the hold begun, and the request in progress cut (R126 to R128). -/
def PortRecord.quarantinedWith (hold : Nat) (r : PortRecord) : PortRecord :=
  { r with state := .quarantined, hold := .running hold, inProgress := r.inProgress.map fun q => { q with cut := true } }

/-- The view with its cursor at the window start (R151). -/
def View.homed (v : View) : View := { v with cursor := v.start }

section quarantine
variable {s : State} {p : Port}

/-- From OFFLINE a quarantine changes the port's own record alone (R126). -/
theorem quarantine_offline (h : (s.port p).state = .offline) :
    quarantine p s = s.modPort p (PortRecord.quarantinedWith s.params.quarHold) := by
  have hc : ((cutRequest p s).port p).state = .offline := by rw [cutRequest, port_modPort_same]; exact h
  unfold quarantine; dsimp only
  rw [hc]; dsimp only
  rw [startHold, closePort, cutRequest, modPort_modPort, modPort_modPort]
  rfl

theorem params_teardown (quarantine : Bool) (p : Port) (s : State) :
    (teardown quarantine p s).1.params = s.params := by
  have e := exchangeBlind_params
  exact see_teardown e.queues e.pool e.slots e.cursors e.sessions _ _ _

/-- The session of a port as its quarantine ends it: the LEAVE effects of an ONLINE port (R127 step 1). -/
def departed (p : Port) (s : State) : State :=
  if (s.port p).state = .online then leaveEffects p (cutRequest p s) else cutRequest p s

theorem quarantine_session (h : (s.port p).state = .online ∨ (s.port p).state = .leaving) :
    quarantine p s = startHold p (endDrains (teardown true p (abortDeferredSlots p (departed p s)))) := by
  have hc : ((cutRequest p s).port p).state = (s.port p).state := by rw [cutRequest, port_modPort_same]
  unfold quarantine departed; dsimp only
  rw [hc]
  rcases h with h | h <;> simp [h]

theorem standing_departed (q : Port) : ((departed p s).port q).standing =
    if p = q then { (s.port q).standing with inProgress := (s.port q).inProgress.map fun r => { r with cut := true } }
    else (s.port q).standing := by
  have cut : ((cutRequest p s).port q).standing =
      if p = q then { (s.port q).standing with inProgress := (s.port q).inProgress.map fun r => { r with cut := true } }
      else (s.port q).standing := by
    rw [cutRequest, port_modPort]; split <;> rfl
  unfold departed; split <;> [rw [standing_leaveEffects, cut]; exact cut]

theorem standing_teardown (quarantine : Bool) (p q : Port) (s : State) :
    ((teardown quarantine p s).1.port q).standing =
      if p = q then (s.port q).standing.closed quarantine else (s.port q).standing := by
  have h := congrArg PortRecord.standing (unslotted_teardown quarantine p q s)
  generalize (teardown quarantine p s).1.port q = r at h ⊢
  refine Eq.trans h ?_
  split <;> rfl

theorem PortRecord.standing_of_unslotted {r r' : PortRecord} (h : r.unslotted = r'.unslotted) :
    r.standing = r'.standing := (congrArg PortRecord.standing h :)

/-- The drains that end in an event leave what stands of a port that is not LEAVING. -/
theorem standing_endDrains {y : State × List Port} {q : Port} (h : (y.1.port q).state ≠ .leaving) :
    ((endDrains y).port q).standing = (y.1.port q).standing :=
  PortRecord.standing_of_unslotted (unslotted_endDrains h)

theorem params_torn :
    (endDrains (teardown true p (abortDeferredSlots p (departed p s)))).params = s.params := by
  have e := exchangeBlind_params
  have hd : (departed p s).params = s.params := by
    unfold departed; split
    · exact see_leaveEffects e.queues e.pool e.slots e.fetches e.solicits e.topics e.subscriptions p _
    · rfl
  rw [see_endDrains e.queues e.pool e.slots e.cursors e.sessions, params_teardown,
    see_abortDeferredSlots e.queues e.pool e.slots, hd]

/-- From a session a quarantine leaves of its port's record what stands of it, in QUARANTINED with its hold begun and its
request cut, the cursor at the window start (R127). -/
theorem standing_quarantine (h : (s.port p).state = .online ∨ (s.port p).state = .leaving) :
    ((quarantine p s).port p).standing =
      { ((s.port p).quarantinedWith s.params.quarHold).standing with view := (s.port p).view.homed } := by
  have hparams := params_torn (s := s) (p := p)
  have htorn : ((endDrains (teardown true p (abortDeferredSlots p (departed p s)))).port p).standing =
      ((departed p s).port p).standing.closed true := by
    rw [standing_endDrains (by rw [state_teardown, if_pos rfl]; decide), standing_teardown, if_pos rfl,
      standing_abortDeferredSlots]
  rw [standing_departed, if_pos rfl] at htorn
  rw [quarantine_session h]
  generalize endDrains (teardown true p (abortDeferredSlots p (departed p s))) = u at hparams htorn ⊢
  rw [startHold, port_modPort_same, hparams]
  exact congrArg (fun r : PortRecord => { r with hold := .running s.params.quarHold }) htorn

/-- What a quarantine keeps and sets in its port's own record, from any state but QUARANTINED. -/
theorem link_quarantine (h : (s.port p).state ≠ .quarantined) :
    let r := (quarantine p s).port p
    r.state = .quarantined ∧ r.response = (s.port p).response ∧ r.lastFault = (s.port p).lastFault ∧
      r.score = (s.port p).score ∧ r.inProgress = (s.port p).inProgress.map (fun q => { q with cut := true }) ∧
      r.receiver = (s.port p).receiver ∧ r.output = (s.port p).output := by
  dsimp only
  rcases hs : (s.port p).state
  case offline => rw [quarantine_offline hs, port_modPort_same]; exact ⟨rfl, rfl, rfl, rfl, rfl, rfl, rfl⟩
  case quarantined => exact absurd hs h
  all_goals
    have e := standing_quarantine (s := s) (p := p) (by rw [hs]; decide)
    exact ⟨(congrArg PortRecord.state e :), (congrArg PortRecord.response e :), (congrArg PortRecord.lastFault e :),
      (congrArg PortRecord.score e :), (congrArg PortRecord.inProgress e :), (congrArg PortRecord.receiver e :),
      (congrArg PortRecord.output e :)⟩

end quarantine

/-! ## The three outcomes of a fault -/

/-- What a link fault writes into its port's record before the score is judged (R124). -/
def PortRecord.faulted (kind : FaultKind) (r : PortRecord) : PortRecord :=
  { r with lastFault := some kind, score := min 255 (r.score + 16) }

section faults
variable {s : State} {p : Port} (kind : FaultKind)

/-- A fault on a QUARANTINED port restarts its hold (R125, R129). -/
theorem scoreFault_quarantined (h : (s.port p).state = .quarantined) : scoreFault p kind s =
    (s.modPort p (PortRecord.faulted kind)).modPort p fun r => { r with hold := .running s.params.quarHold } := by
  unfold scoreFault; dsimp only
  rw [if_pos (by rw [port_modPort_same]; exact h)]
  rfl

/-- A fault that leaves the score below the threshold ends no session (R125). -/
theorem scoreFault_below (h : (s.port p).state ≠ .quarantined)
    (ht : min 255 ((s.port p).score + 16) < s.params.quarThreshold) :
    scoreFault p kind s = s.modPort p (PortRecord.faulted kind) := by
  unfold scoreFault; dsimp only
  rw [if_neg (by rw [port_modPort_same]; exact h), if_neg (by rw [port_modPort_same]; exact Nat.not_le.2 ht)]
  rfl

/-- A fault that brings the score to the threshold quarantines the port (R125). -/
theorem scoreFault_threshold (h : (s.port p).state ≠ .quarantined)
    (ht : s.params.quarThreshold ≤ min 255 ((s.port p).score + 16)) :
    scoreFault p kind s = quarantine p (s.modPort p (PortRecord.faulted kind)) := by
  unfold scoreFault; dsimp only
  rw [if_neg (by rw [port_modPort_same]; exact h), if_pos (by rw [port_modPort_same]; exact ht)]
  rfl

end faults

/-! ## Frames that are faults -/

section frames
variable {s : State} {p : Port} {transaction : Transaction} {bytes : List Byte}
  (hends : FrameEnds s p transaction bytes)
include hends

/-- A frame with a fault of its own: the LINK_FAULT response, and the fault scored (R145). -/
theorem exec_faultyFrame {kind : FaultKind} (hq : (s.port p).inProgress = none) (hf : frameFault bytes = some kind) :
    exec (.requestFrame p transaction) s = .next (scoreFault p kind (s.modPort p fun r =>
      { r with
        response := .ready (mkResponse (bytes.getD 1 0) .linkFault [kind.code])
        receiver := Receiver.idle
        output := frameOutput r.isI2c bytes.length })) := by
  refine congrArg Host.Outcome.next ?_
  rw [linkTransaction_frame p transaction bytes s hends,
    endFrame_fault p bytes _ kind (by rw [setOutput, port_modPort_same]; exact hq) hf, linkFault, setOutput,
    modPort_modPort, modPort_modPort]
  exact congrArg (scoreFault p kind) (modPort_congr s rfl)

/-- A frame that ends while a request is in progress: the fault BUSY is scored (R146). -/
theorem exec_busyFrame (hq : (s.port p).inProgress.isSome) :
    exec (.requestFrame p transaction) s = .next (scoreFault p .busy (s.modPort p fun r =>
      { r with receiver := Receiver.idle, output := frameOutput r.isI2c bytes.length })) := by
  refine congrArg Host.Outcome.next ?_
  rw [linkTransaction_frame p transaction bytes s hends,
    endFrame_busy p bytes _ (by rw [setOutput, port_modPort_same]; exact hq), busyFault, setOutput, modPort_modPort]
  exact congrArg (scoreFault p .busy) (modPort_congr s rfl)

end frames

/-- Settles O8: the fault named by the first failed check is scored, and no outcome of that touches the response. -/
theorem firstFailedCheckNamesTheFault : Obligations.FirstFailedCheckNamesTheFault := by
  refine ⟨rfl, fun p s transaction bytes kind hends hq hf => ⟨_, exec_faultyFrame hends hq hf, ?_⟩⟩
  generalize hu : (s.modPort p fun r =>
      { r with
        response := .ready (mkResponse (bytes.getD 1 0) .linkFault [kind.code])
        receiver := Receiver.idle
        output := frameOutput r.isI2c bytes.length }) = u
  have hp : u.port p = { s.port p with
      response := .ready (mkResponse (bytes.getD 1 0) .linkFault [kind.code])
      receiver := Receiver.idle
      output := frameOutput (s.port p).isI2c bytes.length } := by rw [← hu, port_modPort_same]
  by_cases hs : (u.port p).state = .quarantined
  · rw [scoreFault_quarantined kind hs, port_modPort_same, port_modPort_same, hp]
    exact ⟨rfl, rfl, rfl, hq, rfl, rfl⟩
  by_cases ht : u.params.quarThreshold ≤ min 255 ((u.port p).score + 16)
  · have hl := link_quarantine (s := u.modPort p (PortRecord.faulted kind)) (p := p) (by rw [port_modPort_same]; exact hs)
    rw [port_modPort_same, hp] at hl
    obtain ⟨_, hresponse, hfault, hscore, hprogress, hreceiver, houtput⟩ := hl
    rw [scoreFault_threshold kind hs ht]
    exact ⟨hresponse, hfault, hscore, hprogress.trans (congrArg _ hq), hreceiver, houtput⟩
  · rw [scoreFault_below kind hs (Nat.lt_of_not_le ht), port_modPort_same, hp]
    exact ⟨rfl, rfl, rfl, hq, rfl, rfl⟩

/-- Settles O9: the outcomes of a fault below the threshold and of a fault on a QUARANTINED port, for either kind of
frame. -/
theorem faultsThatEndNoSession : Obligations.FaultsThatEndNoSession := by
  intro p s transaction bytes hends
  refine ⟨fun kind hq hf hs ht => ?_, fun q hq hs ht => ?_, fun kind hq hf hs => ?_, fun q hq hs => ?_⟩
  · rw [exec_faultyFrame hends hq hf, scoreFault_below _ (by rw [port_modPort_same]; exact hs)
      (by rw [port_modPort_same]; exact ht), modPort_modPort]
    rfl
  · rw [exec_busyFrame hends (by rw [hq]; rfl), scoreFault_below _ (by rw [port_modPort_same]; exact hs)
      (by rw [port_modPort_same]; exact ht), modPort_modPort]
    rfl
  · rw [exec_faultyFrame hends hq hf, scoreFault_quarantined _ (by rw [port_modPort_same]; exact hs), modPort_modPort,
      modPort_modPort]
    rfl
  · rw [exec_busyFrame hends (by rw [hq]; rfl), scoreFault_quarantined _ (by rw [port_modPort_same]; exact hs),
      modPort_modPort, modPort_modPort]
    rfl

/-- Settles O10: from OFFLINE the quarantine is a change of the port's own record, and so is the fault before it. -/
theorem quarantineFromOfflineClearsNothing : Obligations.QuarantineFromOfflineClearsNothing := by
  intro p s transaction bytes hends hfault hs ht
  have quarantined (kind : FaultKind) (f : PortRecord → PortRecord) (hstate : (f (s.port p)).state = .offline)
      (hscore : (f (s.port p)).score = (s.port p).score) : scoreFault p kind (s.modPort p f) =
      s.modPort p fun r => ((f r).faulted kind).quarantinedWith s.params.quarHold := by
    rw [scoreFault_threshold _ (by rw [port_modPort_same, hstate]; decide)
      (by rw [port_modPort_same, hscore]; exact ht), quarantine_offline (by rw [port_modPort_same, port_modPort_same]; exact hstate),
      modPort_modPort, modPort_modPort]
    rfl
  refine ⟨_, rfl, ?_⟩
  have hexec : linkTransaction p transaction s = s.modPort p fun r =>
        { r with
          state := .quarantined
          hold := .running s.params.quarHold
          inProgress := r.inProgress.map fun q => { q with cut := true }
          response := match r.inProgress, frameFault bytes with
            | none, some kind => .ready (mkResponse (bytes.getD 1 0) .linkFault [kind.code])
            | _, _ => r.response
          lastFault := if r.inProgress.isSome then some .busy else frameFault bytes
          score := min 255 (r.score + 16)
          receiver := Receiver.idle
          output := frameOutput r.isI2c bytes.length } := by
    cases hq : (s.port p).inProgress with
    | some q =>
      refine (Host.Outcome.next.inj (exec_busyFrame hends (by rw [hq]; rfl))).trans ?_
      rw [quarantined _ _ hs rfl]
      exact modPort_congr s (by simp only [hq]; rfl)
    | none =>
      obtain ⟨kind, hf⟩ : ∃ kind, frameFault bytes = some kind := by
        rcases hfault with h | h
        · rw [hq] at h; cases h
        · exact Option.isSome_iff_exists.1 h
      refine (Host.Outcome.next.inj (exec_faultyFrame hends hq hf)).trans ?_
      rw [quarantined _ _ hs rfl]
      exact modPort_congr s (by simp only [hq, hf]; rfl)
  refine ⟨(congrArg State.exchange hexec :), (congrArg (fun u => (u.port p).attnQuarantine) hexec).trans ?_, hexec⟩
  rw [port_modPort_same]; rfl

/-- Settles O12: the cut request is refused by its own mark, whatever it asked for. -/
theorem quarantineCutsTheRequest : Obligations.QuarantineCutsTheRequest := by
  intro p s transaction bytes q hends hq hs ht
  refine ⟨_, exec_busyFrame hends (by rw [hq]; rfl), ?_⟩
  rw [scoreFault_threshold _ (by rw [port_modPort_same]; exact hs) (by rw [port_modPort_same]; exact ht)]
  have hl := link_quarantine (p := p) (s := (s.modPort p fun r =>
    { r with receiver := Receiver.idle, output := frameOutput r.isI2c bytes.length }).modPort p
      (PortRecord.faulted .busy)) (by rw [port_modPort_same, port_modPort_same]; exact hs)
  rw [port_modPort_same, port_modPort_same] at hl
  obtain ⟨hstate, hresponse, hfault, _, hprogress, _, _⟩ := hl
  have hcut := hprogress.trans (congrArg _ hq)
  obtain ⟨act, hact⟩ := exec_commandOf q.name p
  exact ⟨hcut, hresponse, hstate, hfault, by rw [hact, handleRequest_cut hcut rfl rfl]⟩

end Sys2Proof.Machine
end

