-- ==== Sys2Proof/Proofs/Lookups.lean ====
section
/-! What the lookups find: O23, with the facts on them that the requests need. -/
namespace Sys2Proof.Machine
set_option Elab.async false

section find
variable {n : Nat} (f : Fin n → Bool)

/-- The search through a table finds the lowest index that fits. -/
theorem find?_finRange_eq_some (i : Fin n) :
    (List.finRange n).find? f = some i ↔ f i = true ∧ ∀ j, j < i → f j = false := by
  rw [List.find?_eq_some_iff_getElem]
  refine and_congr_right fun _ => ⟨fun ⟨k, hk, he, hbefore⟩ j hj => ?_, fun h => ⟨i.val, ?_, ?_, fun j hj => ?_⟩⟩
  · rw [List.getElem_finRange] at he
    have hlt : j.val < k := by rw [← he] at hj; exact hj
    have := hbefore j.val hlt
    rw [List.getElem_finRange] at this
    simpa using this
  · rw [List.length_finRange]; exact i.isLt
  · rw [List.getElem_finRange]; rfl
  · rw [List.getElem_finRange, h]
    · rfl
    · exact hj

theorem find?_finRange_eq_none : (List.finRange n).find? f = none ↔ ∀ i, f i = false := by
  rw [List.find?_eq_none]; simp

end find

section lookups
variable {s : State} {t : Word}

theorem standsFor_iff (r : TopicRecord) (t : Word) : r.standsFor t = true ↔ r.state ≠ .free ∧ r.number = t := by
  simp [TopicRecord.standsFor]

theorem findTopic_eq_none : findTopic s t = none ↔ ∀ i, ¬ ((s.topic i).state ≠ .free ∧ (s.topic i).number = t) := by
  simp only [findTopic, find?_finRange_eq_none, ← Bool.not_eq_true, standsFor_iff]

/-- The record found for a topic is not FREE and carries its number (R3). -/
theorem findTopic_some {i : RecordNo} (h : findTopic s t = some i) :
    (s.topic i).state ≠ .free ∧ (s.topic i).number = t :=
  (standsFor_iff _ _).1 ((find?_finRange_eq_some _ i).1 h).1

end lookups

/-- Two words agree in every bit of a mask. -/
theorem covers_iff (e : Subscription) (t : Word) : e.covers t = true ↔
    ∀ n, n < 16 → e.mask.getLsbD n = true → t.getLsbD n = e.pattern.getLsbD n := by
  unfold Subscription.covers
  rw [beq_iff_eq]
  refine ⟨fun h n _ hm => ?_, fun h => BitVec.eq_of_getLsbD_eq fun n hn => ?_⟩
  · have := congrArg (·.getLsbD n) h
    simpa [hm] using this
  · rw [BitVec.getLsbD_and, BitVec.getLsbD_and]
    cases hm : e.mask.getLsbD n
    · simp
    · rw [h n hn hm]

theorem matchesPost_iff (e : Subscription) (t : Word) (q : Port) : e.matchesPost t q = true ↔
    e.active = true ∧ e.covers t = true ∧ (e.owner ≠ q ∨ e.self = true) := by
  simp [Subscription.matchesPost, and_assoc]

theorem matchesNotice_iff (e : Subscription) (t : Word) (producer : Option Port) :
    e.matchesNotice t producer = true ↔
      e.active = true ∧ e.staleNotice = true ∧ e.covers t = true ∧ (producer = some e.owner → e.self = true) := by
  cases producer with
  | none => simp [Subscription.matchesNotice, and_assoc]
  | some q =>
    have h : (e.owner ≠ q ∨ e.self = true) ↔ (some q = some e.owner → e.self = true) := by
      rw [Option.some.injEq, eq_comm (a := q), ← imp_iff_not_or]
    rw [← h]
    simp [Subscription.matchesNotice, and_assoc]

/-- Settles O23: each lookup is a search through its table in ascending order. -/
theorem lookupsFindTheLowest : Obligations.LookupsFindTheLowest := by
  intro s
  refine ⟨fun t i => ?_, fun t => findTopic_eq_none, fun i => ?_, ?_, fun i => ?_, ?_, fun b => ?_, ?_, fun i => ?_, ?_,
    fun p q t producer => ?_⟩
  · simp only [findTopic, find?_finRange_eq_some, ← Bool.not_eq_true, standsFor_iff]
  · simp [lowestFreeRecord, find?_finRange_eq_some]
  · simp [lowestFreeRecord]
  · simp [lowestFreeSubscription, find?_finRange_eq_some]
  · simp [lowestFreeSubscription]
  · simp [lowestFreeBuffer, find?_finRange_eq_some, Buffer.isFree]
  · simp [lowestFreeBuffer, Buffer.isFree]
  · simp [lowestFreeFetch, find?_finRange_eq_some, Option.isSome_iff_ne_none]
  · simp [lowestFreeFetch]
  · intro covers matching notified
    have hmatch (i : SubIndex) : ((s.subscription i).owner == p && (s.subscription i).matchesPost t q) = true ↔
        matching i := by
      rw [Bool.and_eq_true, beq_iff_eq, matchesPost_iff, covers_iff]
      constructor
      · rintro ⟨rfl, ha, hc, hs⟩; exact ⟨⟨ha, rfl, hc⟩, hs⟩
      · rintro ⟨⟨ha, rfl, hc⟩, hs⟩; exact ⟨rfl, ha, hc, hs⟩
    have hnotice (i : SubIndex) : ((s.subscription i).owner == p && (s.subscription i).matchesNotice t producer) = true ↔
        notified i := by
      rw [Bool.and_eq_true, beq_iff_eq, matchesNotice_iff, covers_iff]
      constructor
      · rintro ⟨rfl, ha, hn, hc, hs⟩; exact ⟨⟨ha, rfl, hc⟩, hn, hs⟩
      · rintro ⟨⟨ha, rfl, hc⟩, hn, hs⟩; exact ⟨rfl, ha, hn, hc, hs⟩
    simp only [governing, find?_finRange_eq_some, ← Bool.not_eq_true, hmatch, hnotice, implies_true, and_self]

end Sys2Proof.Machine
end

