-- ==== Sys2Proof/Proofs/StatusRequests.lean ====
section
/-! JOIN, RECOVER, the status requests and the attention unit: O17, O20 and O22. -/
namespace Sys2Proof.Machine
set_option Elab.async false

/-- Settles O17: the two requests that a port without a session may make. -/
theorem joinAndRecover : Obligations.JoinAndRecover := by
  refine fun p tag s => ⟨fun hp hs => ?_, fun hp hs => ⟨fun hh => ?_, fun hh => ?_⟩⟩ <;>
    refine congrArg Host.Outcome.next ?_
  · rw [handleRequest_taken hp (by rw [hs]; rfl)]; rfl
  · have hy : actRecover p [] s =
        accept (s.modPort p fun r => { r with state := .offline, score := 0, hold := .stopped }) := if_pos hh
    rw [handleRequest_taken hp (by rw [hs]; rfl), hy]; rfl
  · have hy : actRecover p [] s = refuse .holding s := if_neg hh
    rw [handleRequest_taken hp (by rw [hs]; rfl), hy]; rfl

theorem lastFaultCode_eq (x : Option FaultKind) : lastFaultCode x = match x with
    | none => 0x00 | some .crc => 0x01 | some .length => 0x02 | some .unknownCode => 0x03 | some .short => 0x04
    | some .long => 0x05 | some .busy => 0x06 := by
  rcases x with _ | _ | _ <;> rfl

section topicInfo
variable {s : State} {t : Word}

theorem actTopicInfo_unnamed (h : t = 0 ∨ t = 65535) : actTopicInfo (wordBytes t) s = refuse .badArgument s := by
  have ht : argWord (wordBytes t) 0 = t := argWord_wordBytes t []
  simp [actTopicInfo, ht, isTopicNumber_false h]

theorem actTopicInfo_absent (h : isTopicNumber t = true) (hf : findTopic s t = none) :
    actTopicInfo (wordBytes t) s = refuse .noTopic s := by
  have ht : argWord (wordBytes t) 0 = t := argWord_wordBytes t []
  simp [actTopicInfo, ht, h, hf]

theorem actTopicInfo_found {i : RecordNo} (h : isTopicNumber t = true) (hf : findTopic s t = some i) :
    actTopicInfo (wordBytes t) s = { state := s, result := .ok, body := topicInfoBody (s.topic i) s } := by
  have ht : argWord (wordBytes t) 0 = t := argWord_wordBytes t []
  simp [actTopicInfo, ht, h, hf]

end topicInfo

/-- Settles O20: each body field by field. -/
theorem statusRequestsReport : Obligations.StatusRequestsReport := by
  intro p tag s
  refine ⟨fun hp => ?port, fun hp hst => ?exchange, fun hp hst => ?queue, fun t hp hst => ?topic⟩
  case port =>
    have ht : stateRefusal .portStatus (s.port p).state = none := rfl
    refine congrArg Host.Outcome.next ((handleRequest_taken hp ht).trans ?_)
    refine congrArg (complete p tag .ok · _) ?_
    unfold actPortStatus portStatusBody; dsimp only
    rw [lastFaultCode_eq]
    rfl
  case exchange => exact exec_completes_of_unlessQuarantined (act := actExchStatus) rfl rfl hst hp rfl
  case queue =>
    refine (exec_completes_of_session (act := actQueueStatus p) rfl rfl hst hp rfl).trans ?_
    refine congrArg (fun b => Host.Outcome.next (complete p tag .ok b s)) ?_
    unfold actQueueStatus queueStatusBody; dsimp only
    cases hq : (s.port p).queue <;> rfl
  case topic =>
    have answers {y : Reply} := exec_completes_of_unlessQuarantined (k := .topicInfo p) (act := actTopicInfo) (y := y)
      rfl rfl hst hp
    refine ⟨fun h => answers (actTopicInfo_unnamed h), fun h0 h1 hf => ?_, fun i h0 h1 hf => ?_⟩
    · exact answers (actTopicInfo_absent ((isTopicNumber_iff t).2 ⟨h0, h1⟩) hf)
    · refine (answers (actTopicInfo_found ((isTopicNumber_iff t).2 ⟨h0, h1⟩) hf)).trans ?_
      refine congrArg (fun b => Host.Outcome.next (complete p tag .ok b s)) ?_
      dsimp only [topicInfoBody]
      rw [(findTopic_some hf).2]
      rfl

/-! ## Attention -/

theorem isAttnMask_iff : ∀ b : Byte, isAttnMask b = true ↔ b.toNat < 64 := by decide +kernel

/-- Two bytes meet where both have a bit. -/
theorem and_ne_zero_iff (a b : Byte) :
    a &&& b ≠ 0 ↔ ∃ i : Fin 8, a.getLsbD i.val = true ∧ b.getLsbD i.val = true := by
  constructor
  · intro h
    by_contra hn
    refine h (BitVec.eq_of_getLsbD_eq fun i hi => ?_)
    have := fun h1 h2 => hn ⟨⟨i, hi⟩, h1, h2⟩
    rw [BitVec.getLsbD_and]
    cases ha : a.getLsbD i <;> cases hb : b.getLsbD i <;> simp_all
  · rintro ⟨i, ha, hb⟩ h
    have := congrArg (·.getLsbD i.val) h
    rw [BitVec.getLsbD_and, ha, hb] at this
    simp at this

theorem attnSlotDone_iff (s : State) (p : Port) :
    (s.port p).attnSlotDone = true ↔ ∃ k, (s.slot ⟨p, k⟩).state = .done := by
  simp [PortRecord.attnSlotDone, State.slot]

/-- The byte of six conditions as the union of those that hold, RESPONSE and QUARANTINE being false (Table 11-1). -/
theorem conditionsByte : ∀ q l d m : Bool,
    (BitVec.ofBoolListLE [q, l, d, false, false, m, false, false] : Byte) =
      (if q = false then 0 else 0x01) ||| (if l = false then 0 else 0x02) ||| (if d = true then 0x04 else 0) |||
      (if m = false then 0 else 0x20) := by decide

/-- Settles O22: the mask and the conditions bit by bit. -/
theorem attentionMaskStatusAndLine : Obligations.AttentionMaskStatusAndLine := by
  intro p tag s
  refine ⟨fun hst mask hp => ⟨fun h => ?_, fun h => ?_⟩, fun hst hp hr => ?_, rfl, ?_⟩
  · exact exec_completes_of_unlessQuarantined (act := actSetAttnMask p) rfl rfl hst hp
      (if_pos ((isAttnMask_iff mask).2 h))
  · exact exec_completes_of_unlessQuarantined (act := actSetAttnMask p) rfl rfl hst hp
      (if_neg fun hm => Nat.not_lt.2 h ((isAttnMask_iff mask).1 hm))
  · refine (exec_completes_of_unlessQuarantined (act := actAttnStatus p) rfl rfl hst hp rfl).trans ?_
    refine congrArg (fun b => Host.Outcome.next (complete p tag .ok [(s.port p).mask, b] s)) ?_
    have hresponse : (s.port p).attnResponse = false := by simp [PortRecord.attnResponse, hr]
    have hquarantine : (s.port p).attnQuarantine = false := by simp [PortRecord.attnQuarantine, hst]
    unfold PortRecord.conditions
    rw [hresponse, hquarantine, conditionsByte]
    simp only [attnSlotDone_iff]
    simp [PortRecord.attnQueue, PortRecord.attnSolicit, PortRecord.attnNoticeMissed]
  · have hbits : attnDrivenLow true s p = true ↔
        ∃ i : Fin 8, (s.port p).mask.getLsbD i.val = true ∧ (s.port p).conditions.getLsbD i.val = true := by
      rw [← and_ne_zero_iff]; simp [attnDrivenLow]
    have hslot := attnSlotDone_iff s p
    have hresponse : (s.port p).attnResponse = true ↔ ∃ r, (s.port p).response = .ready r := by
      unfold PortRecord.attnResponse; cases (s.port p).response <;> simp
    rw [hbits, ← hslot, ← hresponse]
    simp only [Fin.exists_fin_succ, PortRecord.conditions, BitVec.getLsbD_ofBoolListLE]
    simp [PortRecord.attnQueue, PortRecord.attnSolicit, PortRecord.attnNoticeMissed, PortRecord.attnQuarantine]

end Sys2Proof.Machine
end

