-- ==== Sys2Proof/Proofs/DirectoryRequests.lean ====
section
/-! DECLARE, and the checks of RETIRE and PURGE: O24 and O25. -/
namespace Sys2Proof.Machine
set_option Elab.async false

/-! ## DECLARE -/

section declareArguments
variable (t limit : Word) (kindByte : Byte)

theorem declare_topic : argWord (wordBytes t ++ [kindByte] ++ wordBytes limit) 0 = t := by simp [wordBytes]
theorem declare_kind : argByte (wordBytes t ++ [kindByte] ++ wordBytes limit) 2 = kindByte := rfl
theorem declare_limit : argWord (wordBytes t ++ [kindByte] ++ wordBytes limit) 3 = limit := by simp [wordBytes]

end declareArguments

section declare
variable {p : Port} {t limit : Word} {kindByte : Byte} {s : State}

/-- The kind that a valid kind byte names (Table 11-1). -/
def kindOfByte (b : Byte) : TopicKind := if b = 0 then .state else .event

/-- What makes the arguments of a DECLARE bad (R11). -/
def DeclareBad (t limit : Word) (kindByte : Byte) : Prop :=
  t = 0 ∨ t = 65535 ∨ (kindByte ≠ 0 ∧ kindByte ≠ 1) ∨ 60000 < limit.toNat ∨ (kindByte = 1 ∧ limit ≠ 0)

theorem topicKindOf_eq_none {b : Byte} (h0 : b ≠ 0) (h1 : b ≠ 1) : topicKindOf b = none := by
  rw [topicKindOf, if_neg h0, if_neg h1]

theorem topicKindOf_eq_some {b : Byte} (h : b = 0 ∨ b = 1) : topicKindOf b = some (kindOfByte b) := by
  rcases h with rfl | rfl <;> rfl

/-- The arguments of a DECLARE are valid exactly when none of R11's reasons makes them bad. -/
theorem declareValid_iff (hk : kindByte = 0 ∨ kindByte = 1) :
    declareValid t (kindOfByte kindByte) limit.toNat = true ↔ ¬ DeclareBad t limit kindByte := by
  have hl : limit.toNat = 0 ↔ limit = 0 := BitVec.toNat_inj (y := 0)
  rcases hk with rfl | rfl
  · simp [declareValid, DeclareBad, kindOfByte, isTopicNumber_iff, and_assoc]
  · simp [declareValid, DeclareBad, kindOfByte, isTopicNumber_iff, and_assoc, hl]

theorem actDeclare_bad (h : DeclareBad t limit kindByte) :
    actDeclare p (wordBytes t ++ [kindByte] ++ wordBytes limit) s = refuse .badArgument s := by
  unfold actDeclare
  rw [declare_kind, declare_topic, declare_limit]
  by_cases hk : kindByte = 0 ∨ kindByte = 1
  · rw [topicKindOf_eq_some hk]
    exact if_neg fun hv => (declareValid_iff hk).1 hv h
  · rw [topicKindOf_eq_none (fun h0 => hk (.inl h0)) fun h1 => hk (.inr h1)]

theorem actDeclare_good (h : ¬ DeclareBad t limit kindByte) :
    actDeclare p (wordBytes t ++ [kindByte] ++ wordBytes limit) s =
      declareTopic p t (kindOfByte kindByte) limit.toNat s := by
  have hk : kindByte = 0 ∨ kindByte = 1 := by
    by_contra hk
    exact h (.inr (.inr (.inl (not_or.1 hk))))
  unfold actDeclare
  rw [declare_kind, declare_topic, declare_limit, topicKindOf_eq_some hk]
  exact if_pos ((declareValid_iff hk).2 h)

/-! The rows of the table of R11, by the record found. -/

variable {kind : TopicKind} {n : Nat} {i : RecordNo}

theorem declareTopic_full (hf : findTopic s t = none) (hr : lowestFreeRecord s = none) :
    declareTopic p t kind n s = refuse .directoryFull s := by
  simp [declareTopic, hf, hr]

theorem declareTopic_new (hf : findTopic s t = none) (hr : lowestFreeRecord s = some i) :
    declareTopic p t kind n s = declareAs .new i (TopicRecord.declared t kind p n) s := by
  simp [declareTopic, hf, hr]

theorem declareTopic_owned (hf : findTopic s t = some i) (hd : (s.topic i).state = .declared)
    (hp : (s.topic i).producer ≠ some p) : declareTopic p t kind n s = refuse .topicOwned s := by
  simp [declareTopic, hf, hd, hp]

theorem declareTopic_otherKind (hf : findTopic s t = some i) (hd : (s.topic i).state = .declared)
    (hp : (s.topic i).producer = some p) (hk : (s.topic i).kind ≠ kind) :
    declareTopic p t kind n s = refuse .kindMismatch s := by
  simp [declareTopic, hf, hd, hp, hk]

theorem declareTopic_again (hf : findTopic s t = some i) (hd : (s.topic i).state = .declared)
    (hp : (s.topic i).producer = some p) (hk : (s.topic i).kind = kind) :
    declareTopic p t kind n s = declareAs .redeclared i ((s.topic i).redeclared n) s := by
  simp [declareTopic, hf, hd, hp, hk]

theorem declareTopic_orphanedEvent (hf : findTopic s t = some i) (ho : (s.topic i).state = .orphaned) :
    declareTopic p t .event n s = refuse .kindMismatch s := by
  simp [declareTopic, hf, ho]

theorem declareTopic_adopted (hf : findTopic s t = some i) (ho : (s.topic i).state = .orphaned) :
    declareTopic p t .state n s = declareAs .adopted i ((s.topic i).adopted p n) s := by
  simp [declareTopic, hf, ho]

/-- The freshness timer of R13, its two conditions taken together. -/
theorem redeclaredTimer_eq (r : TopicRecord) (limit : Word) : r.redeclaredTimer limit.toNat =
    if limit ≠ 0 ∧ r.retained.isSome ∧ r.stale = false then .running limit.toNat else .stopped := by
  have hl : limit.toNat = 0 ↔ limit = 0 := BitVec.toNat_inj (y := 0)
  unfold TopicRecord.redeclaredTimer
  simp only [hl, Bool.and_eq_true, Bool.not_eq_true']
  by_cases h : limit = 0
  · rw [if_pos h, if_neg fun hc => hc.1 h]
  · rw [if_neg h]; exact if_congr (by rw [and_iff_right h]) rfl rfl

end declare

/-- Settles O24: the arguments are good or bad by R11, and a good DECLARE follows the row of the record found. -/
theorem declareFollowsItsTable : Obligations.DeclareFollowsItsTable := by
  intro p tag kindByte t limit s hp ho bad kind refused accepted
  have answers {y : Reply} := exec_completes_of_online (k := .declare p) (act := actDeclare p) (y := y) rfl
    (by decide) (by decide) hp ho
  have good {y : Reply} (h : ¬ bad) (hy : declareTopic p t (kindOfByte kindByte) limit.toNat s = y) :=
    answers ((actDeclare_good h).trans hy)
  refine ⟨fun h => answers (actDeclare_bad h), fun h hf hr => good h (declareTopic_full hf hr),
    fun i h hf hr => good h (declareTopic_new hf hr), fun i h hf hd hq => good h (declareTopic_owned hf hd hq),
    fun i h hf hd hq hk => good h (declareTopic_otherKind hf hd hq hk), fun i h hf hd hq hk => ?_,
    fun i h hf hd hk => ?_, fun i h hf hd hk => ?_⟩
  · refine (good h (declareTopic_again hf hd hq hk)).trans ?_
    unfold TopicRecord.redeclared; rw [redeclaredTimer_eq]; rfl
  · subst hk; exact good h (declareTopic_orphanedEvent hf hd)
  · subst hk; exact good h (declareTopic_adopted hf hd)

/-! ## The checks of RETIRE and PURGE -/

theorem mem_allSlots (x : SlotName) : x ∈ allSlots := by
  obtain ⟨p, k⟩ := x
  exact List.mem_flatMap.2 ⟨p, by fin_cases p <;> decide, List.mem_map.2 ⟨k, List.mem_finRange k, rfl⟩⟩

/-- A topic is busy when some slot holds a post for it that has not ended (R15, R19). -/
theorem topicBusy_iff (s : State) (t : Word) : topicBusy s t = true ↔
    ∃ x, ((s.slot x).state = .loading ∨ (s.slot x).state = .ready ∨ (s.slot x).state = .deferred) ∧
      (s.slot x).topic = t := by
  simp [topicBusy, mem_allSlots, or_assoc]

section checks
variable {p : Port} {t : Word} {s : State} {i : RecordNo}

theorem actRetire_unnamed (h : isTopicNumber t = false) : actRetire p (wordBytes t) s = refuse .badArgument s := by
  have ht : argWord (wordBytes t) 0 = t := argWord_wordBytes t []
  simp [actRetire, ht, h]

theorem actRetire_absent (h : isTopicNumber t = true) (hf : findTopic s t = none) :
    actRetire p (wordBytes t) s = refuse .noTopic s := by
  have ht : argWord (wordBytes t) 0 = t := argWord_wordBytes t []
  simp [actRetire, ht, h, hf]

theorem actRetire_notProducer (h : isTopicNumber t = true) (hf : findTopic s t = some i)
    (hp : (s.topic i).state ≠ .declared ∨ (s.topic i).producer ≠ some p) :
    actRetire p (wordBytes t) s = refuse .notProducer s := by
  have ht : argWord (wordBytes t) 0 = t := argWord_wordBytes t []
  simp [actRetire, ht, h, hf, hp]

theorem actRetire_busy (h : isTopicNumber t = true) (hf : findTopic s t = some i)
    (hd : (s.topic i).state = .declared) (hp : (s.topic i).producer = some p) (hb : topicBusy s t = true) :
    actRetire p (wordBytes t) s = refuse .topicBusy s := by
  have ht : argWord (wordBytes t) 0 = t := argWord_wordBytes t []
  simp [actRetire, ht, h, hf, hd, hp, hb]

theorem actRetire_passes (h : isTopicNumber t = true) (hf : findTopic s t = some i)
    (hd : (s.topic i).state = .declared) (hp : (s.topic i).producer = some p) (hb : topicBusy s t = false) :
    actRetire p (wordBytes t) s = accept (retireRecord p i s) := by
  have ht : argWord (wordBytes t) 0 = t := argWord_wordBytes t []
  simp [actRetire, ht, h, hf, hd, hp, hb]

theorem actPurge_unnamed (h : isTopicNumber t = false) : actPurge (wordBytes t) s = refuse .badArgument s := by
  have ht : argWord (wordBytes t) 0 = t := argWord_wordBytes t []
  simp [actPurge, ht, h]

theorem actPurge_absent (h : isTopicNumber t = true) (hf : findTopic s t = none) :
    actPurge (wordBytes t) s = refuse .noTopic s := by
  have ht : argWord (wordBytes t) 0 = t := argWord_wordBytes t []
  simp [actPurge, ht, h, hf]

theorem actPurge_declared (h : isTopicNumber t = true) (hf : findTopic s t = some i)
    (hd : (s.topic i).state = .declared) : actPurge (wordBytes t) s = refuse .notOrphaned s := by
  have ht : argWord (wordBytes t) 0 = t := argWord_wordBytes t []
  simp [actPurge, ht, h, hf, hd]

theorem actPurge_busy (h : isTopicNumber t = true) (hf : findTopic s t = some i)
    (hd : (s.topic i).state = .orphaned) (hb : topicBusy s t = true) :
    actPurge (wordBytes t) s = refuse .topicBusy s := by
  have ht : argWord (wordBytes t) 0 = t := argWord_wordBytes t []
  simp [actPurge, ht, h, hf, hd, hb]

theorem actPurge_passes (h : isTopicNumber t = true) (hf : findTopic s t = some i)
    (hd : (s.topic i).state = .orphaned) (hb : topicBusy s t = false) :
    actPurge (wordBytes t) s = accept (freeRecord i s) := by
  have ht : argWord (wordBytes t) 0 = t := argWord_wordBytes t []
  simp [actPurge, ht, h, hf, hd, hb]

end checks

/-- Settles O25: the checks of each request in their order. -/
theorem retireAndPurgeRefuseInOrder : Obligations.RetireAndPurgeRefuseInOrder := by
  intro p tag t s ho named busy
  have hunnamed (h : ¬ named) : isTopicNumber t = false := by
    rw [← Bool.not_eq_true, isTopicNumber_iff]; exact h
  have hnamed (h : named) : isTopicNumber t = true := (isTopicNumber_iff t).2 h
  have hbusy (h : busy) : topicBusy s t = true := (topicBusy_iff s t).2 h
  refine ⟨fun hp => ?retire, fun hp => ?purge⟩
  case retire =>
    have answers {y : Reply} := exec_completes_of_online (k := .retire p) (act := actRetire p) (y := y) rfl
      (by decide) (by decide) hp ho
    refine ⟨fun h => answers (actRetire_unnamed (hunnamed h)), fun h hf => answers (actRetire_absent (hnamed h) hf),
      fun i h hf hi => answers (actRetire_notProducer (hnamed h) hf (hi.imp_left fun hs => ?_)),
      fun i h hf hd hq hb => answers (actRetire_busy (hnamed h) hf hd hq (hbusy hb))⟩
    rw [hs]; decide
  case purge =>
    have answers {y : Reply} := exec_completes_of_online (k := .purge p) (act := actPurge) (y := y) rfl
      (by decide) (by decide) hp ho
    exact ⟨fun h => answers (actPurge_unnamed (hunnamed h)), fun h hf => answers (actPurge_absent (hnamed h) hf),
      fun i h hf hd => answers (actPurge_declared (hnamed h) hf hd),
      fun i h hf hd hb => answers (actPurge_busy (hnamed h) hf hd (hbusy hb))⟩

end Sys2Proof.Machine
end

