-- ==== Sys2Proof/Proofs/PostRequests.lean ====
section
/-! OPEN_POST, WRITE_PAYLOAD, SUBMIT, ABORT_POST and RELEASE_SLOT: O29, O30 and O31. -/
namespace Sys2Proof.Machine
set_option Elab.async false

/-! ## OPEN_POST -/

section openPost
variable {p : Port} {slot priority : Byte} {t : Word} {s : State} {k : SlotNo}

theorem openPost_topic : argWord (slot :: wordBytes t ++ [priority]) 1 = t := by simp [wordBytes]
theorem openPost_priority : argByte (slot :: wordBytes t ++ [priority]) 3 = priority := rfl

theorem actOpenPost_bad (h : 3 < slot.toNat ∨ t = 0 ∨ t = 65535 ∨ 3 < priority.toNat) :
    actOpenPost p (slot :: wordBytes t ++ [priority]) s = refuse .badArgument s := by
  unfold actOpenPost
  rw [openPost_topic, openPost_priority]
  by_cases hs : 3 < slot.toNat
  · rw [List.cons_append, argSlot_none p _ hs]
  · have hk : slot.toNat = (⟨slot.toNat, by omega⟩ : SlotNo).val := rfl
    rw [List.cons_append, argSlot_of p _ hk]
    refine if_neg fun hv => ?_
    rw [Bool.and_eq_true, isTopicNumber_iff, decide_eq_true_eq] at hv
    obtain ⟨⟨h0, h1⟩, hle⟩ := hv
    rcases h with h | h | h | h
    · exact hs h
    · exact h0 h
    · exact h1 h
    · omega

theorem actOpenPost_good (hk : slot.toNat = k.val) (h : ¬ (3 < slot.toNat ∨ t = 0 ∨ t = 65535 ∨ 3 < priority.toNat)) :
    actOpenPost p (slot :: wordBytes t ++ [priority]) s = openPost ⟨p, k⟩ t priority.toNat s := by
  obtain ⟨_, h0, h1, h3⟩ : _ ∧ t ≠ 0 ∧ t ≠ 65535 ∧ ¬ 3 < priority.toNat := by simpa [not_or] using h
  unfold actOpenPost
  rw [openPost_topic, openPost_priority, List.cons_append, argSlot_of p _ hk]
  exact if_pos (by simp [(isTopicNumber_iff t).2 ⟨h0, h1⟩]; omega)

end openPost

/-- Settles O29: the checks of R39 one after another, then the allocation. -/
theorem openPostChecksThenAllocates : Obligations.OpenPostChecksThenAllocates := by
  intro p tag slot priority t s hp ho bad refused
  have answers {y : Reply} := exec_completes_of_online (k := .openPost p) (act := actOpenPost p) (y := y) rfl
    (by decide) (by decide) hp ho
  refine ⟨fun h => answers (actOpenPost_bad h), fun k hk h => ?_⟩
  have good {y : Reply} (hy : openPost ⟨p, k⟩ t priority.toNat s = y) := answers ((actOpenPost_good hk h).trans hy)
  have refuses {e : Result} (hy : openPost ⟨p, k⟩ t priority.toNat s = refuse e s) : refused e := good hy
  refine ⟨fun he => refuses (by simp [openPost, he]), fun he => ⟨fun hf => refuses (by simp [openPost, he, hf]),
    fun i hf => ⟨fun hn => refuses (by simp [openPost, he, hf, hn]), fun hd hq =>
      ⟨fun hb => refuses (by simp [openPost, he, hf, hd, hq, hb]),
        fun b hb => good (y := accept (openSlot ⟨p, k⟩ t priority.toNat b s)) (by simp [openPost, he, hf, hd, hq, hb])⟩⟩⟩⟩

/-! ## WRITE_PAYLOAD -/

/-- Each data byte stands in its place, and every other byte where it stood (R40). -/
theorem getElem_writeBytes (data : List Byte) (v : Vector Byte 64) (offset : Nat) (j : Fin 64) :
    (writeBytes v offset data)[j.val] =
      if offset ≤ j.val ∧ j.val < offset + data.length then data.getD (j.val - offset) 0 else v[j.val] := by
  induction data generalizing v offset with
  | nil => rw [if_neg (by simp only [List.length_nil]; omega)]; rfl
  | cons b rest ih =>
    rw [writeBytes, ih, Vector.getElem_setIfInBounds]
    by_cases he : offset = j.val
    · rw [if_neg (by omega), if_pos he, if_pos (by simp only [List.length_cons]; omega), he, Nat.sub_self]
      rfl
    · rw [if_neg he]
      by_cases h : offset + 1 ≤ j.val ∧ j.val < offset + 1 + rest.length
      · obtain ⟨m, hm⟩ : ∃ m, j.val - offset = m + 1 := ⟨j.val - offset - 1, by omega⟩
        rw [if_pos h, if_pos (by simp only [List.length_cons]; omega), hm, List.getD_cons_succ]
        congr 1; omega
      · rw [if_neg h, if_neg (by simp only [List.length_cons]; omega)]

theorem writeBytes_eq (v : Vector Byte 64) (offset : Nat) (data : List Byte) : writeBytes v offset data =
    Vector.ofFn fun j : Fin 64 => if offset ≤ j.val ∧ j.val < offset + data.length then data.getD (j.val - offset) 0
      else v[j.val] :=
  vector_ext fun j => by rw [getElem_writeBytes, Vector.getElem_ofFn]

section writePayload
variable {p : Port} {slot offset : Byte} {data : List Byte} {s : State} {k : SlotNo}

theorem actWritePayload_bad (h : 3 < slot.toNat ∨ 64 < offset.toNat + data.length) :
    actWritePayload p (slot :: offset :: data) s = refuse .badArgument s := by
  by_cases hs : 3 < slot.toNat
  · simp [actWritePayload, argSlot_none p _ hs]
  · have hk : slot.toNat = (⟨slot.toNat, by omega⟩ : SlotNo).val := rfl
    simp [actWritePayload, argSlot_of p _ hk, h.resolve_left hs]

theorem actWritePayload_state (hk : slot.toNat = k.val) (hle : offset.toNat + data.length ≤ 64)
    (hs : (s.slot ⟨p, k⟩).state ≠ .loading) :
    actWritePayload p (slot :: offset :: data) s = refuse .slotState s := by
  simp [actWritePayload, argSlot_of p _ hk, Nat.not_lt.2 hle, hs]

theorem actWritePayload_written (hk : slot.toNat = k.val) (hle : offset.toNat + data.length ≤ 64)
    (hs : (s.slot ⟨p, k⟩).state = .loading) :
    actWritePayload p (slot :: offset :: data) s = accept (writePayload ⟨p, k⟩ offset.toNat data s) := by
  simp [actWritePayload, argSlot_of p _ hk, Nat.not_lt.2 hle, hs]

end writePayload

/-! ## SUBMIT -/

section slotArgument
variable {p : Port} {slot : Byte} {s : State} {k : SlotNo}

theorem actSubmit_badSlot (h : 3 < slot.toNat) : actSubmit p [slot] s = refuse .badArgument s := by
  simp [actSubmit, argSlot_none p [] h]

theorem actSubmit_state (h : slot.toNat = k.val) (hs : (s.slot ⟨p, k⟩).state ≠ .loading) :
    actSubmit p [slot] s = refuse .slotState s := by
  simp [actSubmit, argSlot_of p [] h, hs]

theorem actSubmit_submitted (h : slot.toNat = k.val) (hs : (s.slot ⟨p, k⟩).state = .loading) :
    actSubmit p [slot] s = accept (submitSlot ⟨p, k⟩ s) := by
  simp [actSubmit, argSlot_of p [] h, hs]

/-! ## ABORT_POST and RELEASE_SLOT -/

theorem actAbortPost_empty (h : slot.toNat = k.val) (hs : (s.slot ⟨p, k⟩).state = .empty) :
    actAbortPost p [slot] s = refuse .slotState s := by
  simp [actAbortPost, argSlot_of p [] h, hs]

theorem actAbortPost_loading (h : slot.toNat = k.val) (hs : (s.slot ⟨p, k⟩).state = .loading) :
    actAbortPost p [slot] s = accept (emptySlot ⟨p, k⟩ s) := by
  simp [actAbortPost, argSlot_of p [] h, hs]

theorem actAbortPost_ready (h : slot.toNat = k.val) (hs : (s.slot ⟨p, k⟩).state = .ready) :
    actAbortPost p [slot] s = accept (finishSlot ⟨p, k⟩ .aborted s) := by
  simp [actAbortPost, argSlot_of p [] h, hs]

theorem actAbortPost_deferred (h : slot.toNat = k.val) (hs : (s.slot ⟨p, k⟩).state = .deferred) :
    actAbortPost p [slot] s = accept (endDrains (endDeferred ⟨p, k⟩ .aborted s, [p])) := by
  simp [actAbortPost, argSlot_of p [] h, hs]

theorem actAbortPost_done (h : slot.toNat = k.val) (hs : (s.slot ⟨p, k⟩).state = .done) :
    actAbortPost p [slot] s = refuse .tooLate s := by
  simp [actAbortPost, argSlot_of p [] h, hs]

theorem actReleaseSlot_state (h : slot.toNat = k.val) (hs : (s.slot ⟨p, k⟩).state ≠ .done) :
    actReleaseSlot p [slot] s = refuse .slotState s := by
  simp [actReleaseSlot, argSlot_of p [] h, hs]

theorem actReleaseSlot_released (h : slot.toNat = k.val) (hs : (s.slot ⟨p, k⟩).state = .done) :
    actReleaseSlot p [slot] s = accept (emptySlot ⟨p, k⟩ s) := by
  simp [actReleaseSlot, argSlot_of p [] h, hs]

end slotArgument

/-- The ready sequence counter after it has stamped a slot: from 65535 it passes to 0 (R41). -/
theorem readySequence_succ (w : Word) : w + 1 = if w = 65535 then 0 else w + 1 := by
  split
  · next h => subst h; rfl
  · rfl

/-- Settles O30: the payload written byte by byte, and the slot stamped with the counter. -/
theorem writeThenSubmit : Obligations.WriteThenSubmit := by
  refine fun p tag slot s ho => ⟨fun offset data hp => ?write, fun hp => ?submit⟩
  case write =>
    have answers {y : Reply} := exec_completes_of_online (k := .writePayload p) (act := actWritePayload p) (y := y) rfl
      (by decide) (by decide) hp ho
    refine ⟨fun h => answers (actWritePayload_bad h), fun k hk hle =>
      ⟨fun hs => answers (actWritePayload_state hk hle hs), fun b hs hb => ?_⟩⟩
    refine (answers (actWritePayload_written hk hle hs)).trans ?_
    refine congrArg (fun u => Host.Outcome.next (complete p tag .ok [] u)) ?_
    unfold writePayload
    rw [hb]
    simp only [writeBytes_eq]
    rfl
  case submit =>
    have answers {y : Reply} := exec_completes_of_online (k := .submit p) (act := actSubmit p) (y := y) rfl
      (by decide) (by decide) hp ho
    refine ⟨fun h => answers (actSubmit_badSlot h), fun k hk => ⟨fun hs => answers (actSubmit_state hk hs), fun hs => ?_⟩⟩
    refine (answers (actSubmit_submitted hk hs)).trans ?_
    rw [← readySequence_succ]; rfl

/-- Settles O31: the outcome by the state of the slot. -/
theorem abortAndReleaseEndASlot : Obligations.AbortAndReleaseEndASlot := by
  intro p tag slot s hst k hk ended
  refine ⟨fun hp => ?abort, fun hp => ?release⟩
  case abort =>
    have answers {y : Reply} (hy : actAbortPost p [slot] s = y) :=
      exec_completes_of_session (k := .abortPost p) (act := actAbortPost p) rfl rfl hst hp hy
    refine ⟨fun hs => answers (actAbortPost_empty hk hs), fun hs => answers (actAbortPost_done hk hs),
      fun hs => (answers (actAbortPost_loading hk hs)).trans ?_,
      fun hs => (answers (actAbortPost_ready hk hs)).trans ?_⟩
    · unfold emptySlot; cases (s.slot ⟨p, k⟩).buffer <;> rfl
    · unfold finishSlot; cases (s.slot ⟨p, k⟩).buffer <;> rfl
  case release =>
    refine ⟨fun hs => (exec_completes_of_session (k := .releaseSlot p) (act := actReleaseSlot p) rfl rfl hst hp
      (actReleaseSlot_released hk hs)).trans ?_, fun hs => exec_completes_of_session (k := .releaseSlot p)
      (act := actReleaseSlot p) rfl rfl hst hp (actReleaseSlot_state hk hs)⟩
    unfold emptySlot; cases (s.slot ⟨p, k⟩).buffer <;> rfl

end Sys2Proof.Machine
end

