-- ==== Sys2Proof/Proofs/FetchRequests.lean ====
section
/-! FETCH and the expiry of a fetch deadline: O44, O45 and O47. -/
namespace Sys2Proof.Machine
set_option Elab.async false

/-- The placement of an answer by R71, as a change of its port's record. -/
theorem placeAnswer_eq (p : Port) (d : Delivery) (s : State) : placeAnswer p d s = s.modPort p fun r =>
    if r.deferral = [] ∧ r.queue.length < 32 then { r with queue := r.queue ++ [d] }
    else { r with deferral := r.deferral ++ [.answer d] } := by
  unfold placeAnswer
  by_cases hr : (s.port p).deferral = [] ∧ (s.port p).queue.length < 32
  · rw [if_pos ((hasRoom_iff _).2 hr)]
    exact modPort_congr s (if_pos hr).symm
  · rw [if_neg fun h => hr ((hasRoom_iff _).1 h)]
    exact modPort_congr s (if_neg hr).symm

theorem giveAnswer_eq (p : Port) (d : Delivery) (s : State) : giveAnswer p d s = withAnswer p d s := by
  rw [giveAnswer, placeAnswer_eq]
  unfold withAnswer
  cases d.payload <;> rfl

section fetchArguments
variable (t deadline : Word)

theorem fetch_topic : argWord (wordBytes t ++ wordBytes deadline) 0 = t := argWord_wordBytes t _
theorem fetch_deadline : argWord (wordBytes t ++ wordBytes deadline) 2 = deadline := by simp [wordBytes]

end fetchArguments

section fetch
variable {p : Port} {t deadline : Word} {s : State} {i : RecordNo}

theorem actFetch_bad (h : t = 0 ∨ t = 65535 ∨ 1000 < deadline.toNat) :
    actFetch p (wordBytes t ++ wordBytes deadline) s = refuse .badArgument s := by
  unfold actFetch; dsimp only
  rw [fetch_topic, fetch_deadline]
  refine if_pos ?_
  rcases h with h | h | h
  · simp [isTopicNumber_false (.inl h)]
  · simp [isTopicNumber_false (.inr h)]
  · simp [h]

/-- A FETCH with good arguments is refused at the obligation limit, and acts by the record found below it (R99). -/
theorem actFetch_good (h : ¬ (t = 0 ∨ t = 65535 ∨ 1000 < deadline.toNat)) :
    actFetch p (wordBytes t ++ wordBytes deadline) s =
      if 4 ≤ obligations s p then refuse .fetchLimit s else fetchTopic p t deadline.toNat s := by
  obtain ⟨h0, h1, h2⟩ : t ≠ 0 ∧ t ≠ 65535 ∧ ¬ 1000 < deadline.toNat := by simpa [not_or] using h
  unfold actFetch; dsimp only
  rw [fetch_topic, fetch_deadline]
  exact if_neg (by simpa [(isTopicNumber_iff t).2 ⟨h0, h1⟩] using h2)

theorem fetchTopic_absent {n : Nat} (hf : findTopic s t = none) :
    fetchTopic p t n s = answerNow p t .noTopic none 0 none s := by
  simp [fetchTopic, hf]

theorem fetchTopic_orphaned {n : Nat} (hf : findTopic s t = some i) (ho : (s.topic i).state = .orphaned) :
    fetchTopic p t n s = answerNow p t .stale (s.topic i).retained (s.topic i).valueVersion none s := by
  simp [fetchTopic, hf, ho]

theorem fetchTopic_retained {n : Nat} (hf : findTopic s t = some i) (hd : (s.topic i).state = .declared)
    (hk : (s.topic i).kind = .state) (hv : (s.topic i).retained.isSome) (hs : (s.topic i).stale = false) :
    fetchTopic p t n s =
      answerNow p t .retained (s.topic i).retained (s.topic i).version (s.topic i).producer s := by
  simp [fetchTopic, hf, hd, hk, hv, hs]

/-- A FETCH of a topic whose value is missing or stale waits (R99, R101). -/
theorem fetchTopic_waits {n : Nat} (hf : findTopic s t = some i) (hd : (s.topic i).state = .declared)
    (hw : (s.topic i).kind = .event ∨ (s.topic i).retained = none ∨ (s.topic i).stale = true) :
    fetchTopic p t n s = waitFetch p t n (s.topic i).producer s := by
  have hn : ¬ ((s.topic i).kind = .state ∧ (s.topic i).retained.isSome ∧ (s.topic i).stale = false) := by
    rintro ⟨hk, hv, hs⟩
    rcases hw with h | h | h <;> simp_all
  simp only [fetchTopic, hf, hd, ↓reduceIte, if_neg hn]

end fetch

/-- Settles O44: the refusals of R99 in order, and the answers by the record found. -/
theorem fetchIsRefusedOrAnsweredAtOnce : Obligations.FetchIsRefusedOrAnsweredAtOnce := by
  intro p tag t deadline s hp ho bad answered
  have answers {y : Reply} := exec_completes_of_online (k := .fetch p) (act := actFetch p) (y := y) rfl
    (by decide) (by decide) hp ho
  refine ⟨fun h => answers (actFetch_bad h), fun h hlimit => answers ((actFetch_good h).trans (if_pos hlimit)),
    fun h hlimit => ?_⟩
  have atOnce {status : AnswerStatus} {value : Option Payload} {version : Word} {producer : Option Port}
      (hy : fetchTopic p t deadline.toNat s = answerNow p t status value version producer s) :
      answered status.code { kind := .answer status, topic := t, version := version, payload := value,
                             producer := producer, isOpen := false } := by
    refine (answers (((actFetch_good h).trans (if_neg (Nat.not_le.2 hlimit))).trans hy)).trans ?_
    exact congrArg (fun u => Host.Outcome.next (complete p tag .ok [0x00, status.code] u)) (giveAnswer_eq p _ s)
  refine ⟨fun hf => atOnce (fetchTopic_absent hf), fun i v hf hi hv => ?_, fun i v hf hd hk hv hs => ?_⟩
  · have hversion : (s.topic i).valueVersion = (s.topic i).version := if_pos (by rw [hv]; rfl)
    exact atOnce ((fetchTopic_orphaned hf hi).trans (by rw [hv, hversion]))
  · exact atOnce ((fetchTopic_retained hf hd hk (by rw [hv]; rfl) hs).trans (by rw [hv]))

/-- Settles O45: the lowest FREE entry waits, and the producer is solicited once. -/
theorem fetchWaitsAndSolicits : Obligations.FetchWaitsAndSolicits := by
  intro p q tag t deadline s i hp ho h0 h1 hle hlimit hf hd hq hw
  have hgood : ¬ (t = 0 ∨ t = 65535 ∨ 1000 < deadline.toNat) := by
    rintro (h | h | h)
    exacts [h0 h, h1 h, Nat.not_lt.2 hle h]
  have waits {y : Reply} (hy : waitFetch p t deadline.toNat (some q) s = y) :=
    exec_completes_of_online (k := .fetch p) (act := actFetch p) (y := y) rfl (by decide) (by decide) hp ho
      (((actFetch_good hgood).trans (if_neg (Nat.not_le.2 hlimit))).trans
        ((fetchTopic_waits hf hd hw).trans (by rw [hq]; exact hy)))
  have hwait : fetchWait deadline.toNat s = if deadline = 0 then s.params.fetchDeadline else deadline.toNat :=
    if_congr (BitVec.toNat_inj (y := 0)) rfl rfl
  refine ⟨fun hj => waits (y := refuse .fetchFull s) (by simp [waitFetch, hj]), fun j hj => ?_⟩
  refine (waits (y := { state := _, result := _, body := _ }) (by simp only [waitFetch, hj]; rfl)).trans ?_
  rw [hwait]
  refine congrArg (fun u => Host.Outcome.next (complete p tag .ok [0x01, numByte j.val] u)) ?_
  refine modPort_congr _ ?_
  split <;> simp_all

/-- Settles O47: the TIMEOUT answer is built from the record, and the solicit goes with the last fetch. -/
theorem fetchDeadlineAnswersTimeout : Obligations.FetchDeadlineAnswersTimeout := by
  intro s i f r q hf hdue hr hq timedOut
  have hanswer : timeoutAnswer f.topic s =
      { kind := .answer .timeout, topic := f.topic
        version := if (s.topic r).retained.isSome then (s.topic r).version else 0
        payload := (s.topic r).retained, producer := some q, isOpen := false } := by
    unfold timeoutAnswer; rw [hr]; dsimp only; rw [hq]; rfl
  have hexec : exec (.fetchDeadlineExpiry i) s = .next (dropIdleSolicit f.topic timedOut) := by
    refine congrArg Host.Outcome.next ?_
    unfold expireFetch
    rw [hf]; dsimp only
    rw [if_pos hdue, hanswer, giveAnswer_eq]
  have hfetch (j : FetchId) : (withAnswer f.requester (timeoutAnswer f.topic s) s).fetch j = s.fetch j := by
    rw [← giveAnswer_eq]; exact fetch_giveAnswer _ _ _ j
  have htopic (j : RecordNo) : timedOut.topic j = s.topic j := by
    have h : (withAnswer f.requester (timeoutAnswer f.topic s) s).topic j = s.topic j := by
      rw [← giveAnswer_eq]
      exact see_giveAnswer (see := fun s => s.topic j) ⟨fun _ _ _ => rfl, fun _ _ _ => rfl, fun _ _ _ => rfl⟩
        ⟨fun _ _ _ => rfl⟩ _ _ _
    rw [hanswer] at h; exact h
  have hcount : waitingCount timedOut f.topic = 0 ↔ ∀ j g, j ≠ i → s.fetch j = some g → g.topic ≠ f.topic := by
    rw [waitingCount_setFetch_none_eq_zero_iff]
    rw [hanswer] at hfetch
    simp only [hfetch]
  have hfind : findTopic timedOut f.topic = some r := by
    rw [← hr]; unfold findTopic; simp only [htopic]
  refine ⟨fun ⟨j, g, hj, hg, ht⟩ => ?_, fun hw => ?_⟩
  · rw [hexec, dropIdleSolicit_waiting fun h0 => hcount.1 h0 j g hj hg ht]
  · rw [hexec, dropIdleSolicit_idle (hcount.2 hw) hfind ((congrArg TopicRecord.producer (htopic r)).trans hq)]
    rfl

end Sys2Proof.Machine
end

