-- ==== Sys2Proof/Proofs/Placements.lean ====
section
/-! One POST placement by the cases of R67, and the choice of the dispatcher: O34 and O36. -/
namespace Sys2Proof.Machine
set_option Elab.async false

/-! ## The cases of a placement -/

section placePost
variable {x : SlotName} {p : Port} {i : SubIndex} {latest : Bool} {s : State}

/-- The target into which a post at a queue may be coalesced, when its entry has LATEST (R68). -/
def mayCoalesceInto (s : State) (x : SlotName) (p : Port) (latest : Bool) : Option (Nat × Delivery) :=
  if latest then coalescingTarget (s.slot x).topic (s.port p).queue else none

theorem placePost_behindList (hd : (s.port p).deferral ≠ []) :
    placePost x p i latest s = (appendDeferral p (.slot x i latest) s, .pending) := by
  have he : (s.port p).deferral.isEmpty = false := by simpa using hd
  simp [placePost, he]

theorem placePost_coalesced {n : Nat} {old : Delivery} (hd : (s.port p).deferral = [])
    (hc : mayCoalesceInto s x p latest = some (n, old)) : placePost x p i latest s =
      (releasePayload old.payload ((takePayload (s.slot x).value s).modPort p fun r =>
        { r with
          queue := (s.port p).queue.set n
            (old.coalesced (s.slot x).value ((s.slot x).version.getD 0) x.owner i) }), .reached) := by
  unfold mayCoalesceInto at hc
  unfold placePost; dsimp only
  rw [hd, hc]
  refine congrArg (fun u => (releasePayload old.payload u, Placed.reached)) (modPort_congr _ ?_)
  rw [port_takePayload]

theorem placePost_appended (hd : (s.port p).deferral = []) (hc : mayCoalesceInto s x p latest = none)
    (hl : (s.port p).queue.length < 32) : placePost x p i latest s =
      (appendDelivery p (postDelivery (s.slot x) x.owner i latest) (takePayload (s.slot x).value s), .reached) := by
  unfold mayCoalesceInto at hc
  unfold placePost; dsimp only
  rw [hd, hc]
  exact if_pos hl

theorem placePost_full (hd : (s.port p).deferral = []) (hc : mayCoalesceInto s x p latest = none)
    (hl : 32 ≤ (s.port p).queue.length) :
    placePost x p i latest s = (appendDeferral p (.slot x i latest) s, .pending) := by
  unfold mayCoalesceInto at hc
  unfold placePost; dsimp only
  rw [hd, hc]
  exact if_neg (Nat.not_lt.2 hl)

end placePost

/-- Settles O36: the coalescing target is the newest POST of the topic, and the four cases exclude each other. -/
theorem placementFollowsItsCases : Obligations.PlacementFollowsItsCases := by
  intro x p i latest s k queue value isPost newest coalesces deferred
  have htarget (n : Nat) (d : Delivery) : coalesces n d ↔ mayCoalesceInto s x p latest = some (n, d) := by
    have hpost (e : Delivery) : isPost e ↔ e.isPostOf k.topic = true := (isPostOf_iff e k.topic).symm
    unfold mayCoalesceInto
    cases latest
    · simp only [Bool.false_eq_true, ↓reduceIte, reduceCtorEq, iff_false]
      exact fun h => absurd h.1 (by decide)
    · simp only [↓reduceIte, coalescingTarget_eq_some, newestPost_eq_some]
      constructor
      · rintro ⟨_, ⟨hn, hd, hlast⟩, hopen, hkind⟩
        exact ⟨⟨⟨d, hn, (hpost d).1 hd⟩, fun m e hm he => by
          simpa only [hpost, Bool.not_eq_true] using hlast m e hm he⟩, hn, hopen, hkind⟩
      · rintro ⟨⟨⟨e, he, hp⟩, hlast⟩, hn, hopen, hkind⟩
        obtain rfl : e = d := Option.some.inj (he.symm.trans hn)
        exact ⟨rfl, ⟨hn, (hpost e).2 hp, fun m f hm hf hpf => by
          have := hlast m f hm hf
          rw [(hpost f).1 hpf] at this; cases this⟩, hopen, hkind⟩
  have hnone (h : ∀ n d, ¬ coalesces n d) : mayCoalesceInto s x p latest = none := by
    cases hc : mayCoalesceInto s x p latest with
    | none => rfl
    | some y => exact absurd ((htarget y.1 y.2).2 hc) (h y.1 y.2)
  refine ⟨placePost_behindList, fun hd n d hc => ?_, fun hd hc hl => placePost_appended hd (hnone hc) hl,
    fun hd hc hl => placePost_full hd (hnone hc) hl⟩
  rw [placePost_coalesced hd ((htarget n d).1 hc)]
  obtain ⟨_, _, hopen, j, c, hkind⟩ := hc
  have hnew : d.coalesced k.value (k.version.getD 0) x.owner i =
      { kind := .post i true (min 31 (d.kind.count + 1)), topic := d.topic, version := k.version.getD 0,
        payload := value, producer := some x.owner, isOpen := false } := by
    unfold Delivery.coalesced; rw [hkind, hopen]; rfl
  rw [hnew]
  rfl

/-! ## The choice of the dispatcher -/

/-- A slot stands before every other one of a list, by priority and then by its place (R42). -/
def IsChosen (s : State) (l : List SlotName) (x : SlotName) : Prop :=
  x ∈ l ∧ ∀ y ∈ l, y ≠ x → (s.slot y).priority < (s.slot x).priority ∨
    ((s.slot y).priority = (s.slot x).priority ∧ l.idxOf x < l.idxOf y)

theorem isChosen_unique {s : State} {l : List SlotName} {x y : SlotName} (hx : IsChosen s l x) (hy : IsChosen s l y) :
    x = y := by
  by_contra hne
  have h1 := hx.2 y hy.1 (Ne.symm hne)
  have h2 := hy.2 x hx.1 hne
  omega

/-- The choice over a list and one slot behind it is the better of the choice over the list and that slot. -/
theorem isChosen_append {s : State} {l : List SlotName} {x a : SlotName} (ha : a ∉ l) (h : IsChosen s l x) :
    IsChosen s (l ++ [a]) (if outranks s a x then a else x) := by
  obtain ⟨hx, hbest⟩ := h
  have old {y : SlotName} (hy : y ∈ l) : (l ++ [a]).idxOf y = l.idxOf y := List.idxOf_append_of_mem hy
  have last : (l ++ [a]).idxOf a = l.length := by rw [List.idxOf_append_of_notMem ha]; simp
  by_cases hr : outranks s a x = true
  · rw [if_pos hr]
    have hlt : (s.slot x).priority < (s.slot a).priority := by simpa [outranks] using hr
    refine ⟨by simp, fun y hy hne => .inl ?_⟩
    have hyl : y ∈ l := by simpa [hne] using hy
    by_cases hyx : y = x
    · rw [hyx]; exact hlt
    · have := hbest y hyl hyx; omega
  · rw [if_neg hr]
    have hle : (s.slot a).priority ≤ (s.slot x).priority := by simpa [outranks] using hr
    refine ⟨by simp [hx], fun y hy hne => ?_⟩
    rcases List.mem_append.1 hy with hyl | hya
    · rw [old hx, old hyl]; exact hbest y hyl hne
    · obtain rfl : y = a := by simpa using hya
      rw [old hx, last]
      rcases Nat.lt_or_eq_of_le hle with h | h
      · exact .inl h
      · exact .inr ⟨h, List.idxOf_lt_length_iff.2 hx⟩

/-- The fold of the dispatcher chooses from every list that is not empty (R42, R43). -/
theorem foldl_betterSlot (s : State) (l : List SlotName) (hl : l.Nodup) :
    (l = [] ∧ l.foldl (betterSlot s) none = none) ∨ ∃ x, l.foldl (betterSlot s) none = some x ∧ IsChosen s l x := by
  induction l using List.reverseRecOn with
  | nil => exact .inl ⟨rfl, rfl⟩
  | append_singleton l a ih =>
    have hnot : a ∉ l := fun h => (List.nodup_append.1 hl).2.2 a h a (by simp) rfl
    refine .inr ?_
    rw [List.foldl_append, List.foldl_cons, List.foldl_nil]
    rcases ih (List.nodup_append.1 hl).1 with ⟨rfl, he⟩ | ⟨x, he, hx⟩
    · rw [he]; exact ⟨a, rfl, by simp, fun y hy hne => absurd (by simpa using hy) hne⟩
    · rw [he]
      refine ⟨_, ?_, isChosen_append hnot hx⟩
      unfold betterSlot; dsimp only; split <;> rfl

/-- Under the law of the dispatcher, the choice is over the order as it stands. -/
theorem chosenSlot_eq {s : State} (h : DispatcherLaw s) : chosenSlot s = s.readyOrder.foldl (betterSlot s) none := by
  unfold chosenSlot
  rw [List.filter_eq_self.2 fun x hx => by rw [(h.ready x).1 hx]; rfl]

/-- Settles O34: the fold of the dispatcher leaves the slot that stands before every other. -/
theorem dispatcherChoosesPriorityThenAge : Obligations.DispatcherChoosesPriorityThenAge := by
  intro s h
  have hchosen (x : SlotName) : IsChosen s s.readyOrder x ↔ (s.slot x).state = .ready ∧
      ∀ y, (s.slot y).state = .ready → y ≠ x → (s.slot y).priority < (s.slot x).priority ∨
        ((s.slot y).priority = (s.slot x).priority ∧ s.readyOrder.idxOf x < s.readyOrder.idxOf y) := by
    simp only [IsChosen, h.ready]
  have hfold := foldl_betterSlot s s.readyOrder h.once
  rw [← chosenSlot_eq h] at hfold
  refine ⟨fun x => ?_, fun hnone => ?_⟩
  · rw [← hchosen]
    rcases hfold with ⟨hnil, he⟩ | ⟨y, he, hy⟩
    · rw [he]; exact ⟨fun hx => (by cases hx), fun hx => by have := hx.1; rw [hnil] at this; cases this⟩
    · rw [he]
      exact ⟨fun hx => Option.some.inj hx ▸ hy, fun hx => congrArg some (isChosen_unique hy hx)⟩
  · have he : chosenSlot s = none := by
      rcases hfold with ⟨_, he⟩ | ⟨y, _, hy⟩
      · exact he
      · exact absurd ((h.ready y).1 hy.1) (hnone y)
    refine ⟨he, congrArg Host.Outcome.next ?_⟩
    unfold dispatch; rw [he]

end Sys2Proof.Machine
end

