-- ==== Sys2Proof/Proofs/Views.lean ====
section
/-! The bytes of the view, CONSUME, the reading of the view in HOLD, and the notices of a freshness expiry: O37, O41, O43
and O48. -/
namespace Sys2Proof.Machine
set_option Elab.async false

/-! ## CONSUME -/

/-- An event that brings no report ends no drain. -/
theorem endDrains_nil (s : State) : endDrains (s, []) = s := rfl

section consumption
variable {s : State} {p : Port} {d : Delivery} {rest : List Delivery}

theorem consumption_noList (hd : (s.port p).deferral = []) : consumption p d rest s =
    ((releasePayload d.payload s).modPort p (PortRecord.consumed rest []), []) := by
  unfold consumption; split
  · rw [hd]
  · refine congrArg (·, []) (modPort_congr _ ?_)
    rw [port_releasePayload, hd]

theorem consumption_answer {e : Delivery} {entries : List DeferralEntry} (hl : rest.length < 32)
    (hd : (s.port p).deferral = .answer e :: entries) : consumption p d rest s =
    ((releasePayload d.payload s).modPort p (PortRecord.consumed (rest ++ [e]) entries), []) := by
  unfold consumption; rw [if_pos hl, hd]

theorem consumption_slot {x : SlotName} {i : SubIndex} {c : Bool} {entries : List DeferralEntry} (hl : rest.length < 32)
    (hd : (s.port p).deferral = .slot x i c :: entries) : consumption p d rest s =
    serveSlot x p (takePayload (s.slot x).value ((releasePayload d.payload s).modPort p
      (PortRecord.consumed (rest ++ [postDelivery (s.slot x) x.owner i c]) entries))) := by
  unfold consumption; rw [if_pos hl, hd]

theorem actConsume_empty (args : List Byte) (hq : (s.port p).queue = []) :
    actConsume p args s = refuse .queueEmpty s := by
  simp [actConsume, hq]

theorem actConsume_head (args : List Byte) (hq : (s.port p).queue = d :: rest) : actConsume p args s =
    { state := consumeHead p s, result := .ok
      body := [numByte ((consumeHead p s).port p).queue.length, numByte ((consumeHead p s).port p).deferral.length] } := by
  simp [actConsume, hq]

end consumption

/-- Settles O37: the head goes, and an answer entry may take its place. -/
theorem consumeRemovesTheHead : Obligations.ConsumeRemovesTheHead := by
  intro p tag s hp hst released
  have hreleased (d : Delivery) : released d = releasePayload d.payload s := by
    dsimp only [released]; cases d.payload <;> rfl
  have answers {y : Reply} (hy : actConsume p [] s = y) :=
    exec_completes_of_session (k := .consume p) (act := actConsume p) rfl rfl hst hp hy
  have consumed {d : Delivery} {rest queue : List Delivery} {entries : List DeferralEntry}
      (hq : (s.port p).queue = d :: rest) (hc : consumption p d rest s =
        ((releasePayload d.payload s).modPort p (PortRecord.consumed queue entries), [])) :
      exec (.consume p) s = .next (complete p tag .ok [numByte queue.length, numByte entries.length]
        ((released d).modPort p (PortRecord.consumed queue entries))) := by
    have he : consumeHead p s = (released d).modPort p (PortRecord.consumed queue entries) := by
      rw [consumeHead_eq hq, hc, endDrains_nil, hreleased]
    refine (answers (actConsume_head [] hq)).trans ?_
    rw [he, port_modPort_same]
    rfl
  refine ⟨fun hq => answers (actConsume_empty [] hq), fun d rest hq hd => ?_, fun d rest e entries hq hl hd => ?_⟩
  · refine (consumed hq (consumption_noList hd)).trans ?_
    refine congrArg (fun u => Host.Outcome.next (complete p tag .ok [numByte rest.length, 0] u)) (modPort_congr _ ?_)
    rw [hreleased, port_releasePayload, PortRecord.consumed, hd]
  · refine (consumed hq (consumption_answer (by omega) hd)).trans ?_
    rw [List.length_append, hl]
    rfl

/-! ## The bytes of the view -/

/-- The producer byte of R169 as a union of numbers. -/
theorem producerByte_eq (q : Option Port) (n : Nat) : producerByte q n =
    (match q with | none => 0x80 | some q => numByte (32 * q.val)) ||| numByte n := by
  have shifted : ∀ q : Port, numByte q.val <<< 5 = numByte (32 * q.val) := by decide
  cases q with
  | none => rfl
  | some q => exact congrArg (· ||| numByte n) (shifted q)

/-- Settles O43: the header byte by byte, and the payload behind it. -/
theorem viewPresentsHeaderThenPayload : Obligations.ViewPresentsHeaderThenPayload := by
  intro s d
  have header (n : Nat) (h : n < 8) : viewByte s d n = d.header.getD n 0x00 := if_pos h
  have behind (n : Nat) : viewByte s d (8 + n) = payloadByte s d n := by
    unfold viewByte; rw [if_neg (by simp [Config.headerBytes])]; simp [Config.headerBytes]
  refine ⟨(header 0 (by omega)).trans ?_, ?_, ?_, (header 5 (by omega)).trans ?_, (header 6 (by omega)).trans ?_,
    (header 7 (by omega)).trans ?_, fun n hv => ?_, fun v n hv hn => ?_, fun v n hv hn => ?_⟩
  · cases h : d.kind <;> simp [Delivery.header, DeliveryKind.code, h]
  · rw [header 1 (by omega), header 2 (by omega)]; rfl
  · rw [header 3 (by omega), header 4 (by omega)]; rfl
  · cases h : d.payload <;> simp [Delivery.header, Delivery.payloadLength, wordBytes, h]; rfl
  · rcases h : d.kind with _ | status | _
    · simp [Delivery.header, DeliveryKind.selector, wordBytes, h]
    · cases status <;> simp [Delivery.header, DeliveryKind.selector, AnswerStatus.code, wordBytes, h]
    · simp [Delivery.header, DeliveryKind.selector, wordBytes, h]
  · change producerByte d.producer d.kind.count = _
    rw [producerByte_eq]
    cases d.kind <;> rfl
  · rw [behind, payloadByte, hv]
  · rw [behind, payloadByte, hv]; dsimp only
    rw [if_pos hn, List.getD_eq_getElem?_getD, Vector.getElem?_toList, Vector.getElem?_eq_getElem n.isLt]
    rfl
  · rw [behind, payloadByte, hv]; exact if_neg (Nat.not_lt.2 hn)

/-! ## Reading the view -/

/-- The port with a head and a cursor set: what a reading passes through. -/
def reading (p : Port) (d : Delivery) (rest : List Delivery) (cursor : Nat) (s : State) : State :=
  s.modPort p fun r => { r with queue := d :: rest, view := { r.view with cursor := cursor } }

section reading
variable {p : Port} {d : Delivery} {rest : List Delivery} {s : State} {c : Nat}

theorem reading_self (hq : (s.port p).queue = d :: rest) : reading p d rest (s.port p).view.cursor s = s :=
  modPort_eq_self (by rw [← hq])

theorem port_reading : (reading p d rest c s).port p =
    { s.port p with queue := d :: rest, view := { (s.port p).view with cursor := c } } := by
  unfold reading; rw [port_modPort_same]

/-- The view of a delivery does not depend on its open mark, or on the records of the ports. -/
theorem viewByte_reading (e : Delivery) (he : { e with isOpen := d.isOpen } = d) (c' n : Nat) :
    viewByte (reading p e rest c' s) e n = viewByte s d n := by
  conv_rhs => rw [← he]
  rfl

theorem readBytes_succ (n : Nat) (got : List Byte) (hq : (s.port p).queue = d :: rest) :
    readBytes p (n + 1) s got = readBytes p n (passByte p s) (got ++ [viewByte s d (s.port p).view.cursor]) := by
  rw [readBytes, hq]

theorem readBytes_empty (n : Nat) (got : List Byte) (hq : (s.port p).queue = []) :
    readBytes p (n + 1) s got = (s, got, true) := by
  rw [readBytes, hq]

/-- A byte in HOLD mode opens the head and moves the cursor round the window (R153, R154). -/
theorem passByte_hold (hm : (s.port p).view.mode = .hold) : passByte p (reading p d rest c s) =
    reading p { d with isOpen := true } rest
      (if c = (s.port p).view.stop then (s.port p).view.start else c + 1) s := by
  have hport := port_reading (p := p) (d := d) (rest := rest) (s := s) (c := c)
  split
  · next h =>
    rw [passByte_atEnd_hold (d := d) (rest := rest) (by rw [hport]) (by rw [hport]; exact h) (by rw [hport]; exact hm)]
    unfold reading; rw [modPort_modPort]
    exact modPort_congr s rfl
  · next h =>
    rw [passByte_within (d := d) (rest := rest) (by rw [hport]) (by rw [hport]; exact h)]
    unfold reading; rw [modPort_modPort]

/-- The place in the window after `n` steps from `c`. -/
def View.place (v : View) (c n : Nat) : Nat := v.start + (c - v.start + n) % (v.stop - v.start + 1)

theorem View.place_zero {v : View} (h1 : v.start ≤ c) (h2 : c ≤ v.stop) : v.place c 0 = c := by
  unfold place; rw [Nat.add_zero, Nat.mod_eq_of_lt (by omega)]; omega

/-- One step round the window, and `n` more. -/
theorem View.place_succ {v : View} (h1 : v.start ≤ c) (n : Nat) :
    v.place (if c = v.stop then v.start else c + 1) n = v.place c (n + 1) := by
  unfold place
  split
  · next h =>
    have hw : c - v.start + (n + 1) = n + (v.stop - v.start + 1) := by omega
    rw [hw, Nat.add_mod_right, Nat.sub_self, Nat.zero_add]
  · have hw : c + 1 - v.start + n = c - v.start + (n + 1) := by omega
    rw [hw]

/-- A reading of at least one byte in HOLD mode, from any place in the window. -/
theorem readBytes_hold (hm : (s.port p).view.mode = .hold) (n : Nat) (e : Delivery)
    (he : { e with isOpen := d.isOpen } = d) (h1 : (s.port p).view.start ≤ c) (h2 : c ≤ (s.port p).view.stop)
    (got : List Byte) : readBytes p (n + 1) (reading p e rest c s) got =
      (reading p { e with isOpen := true } rest ((s.port p).view.place c (n + 1)) s,
        got ++ (List.range (n + 1)).map fun m => viewByte s d ((s.port p).view.place c m), false) := by
  induction n generalizing e c got with
  | zero =>
    rw [readBytes_succ (d := e) (rest := rest) 0 got (by rw [port_reading]), passByte_hold hm, viewByte_reading e he]
    have hplace := View.place_succ h1 0
    rw [View.place_zero (by split <;> omega) (by split <;> omega)] at hplace
    have h0 : ((reading p e rest c s).port p).view.cursor = (s.port p).view.place c 0 := by
      rw [port_reading, View.place_zero h1 h2]
    rw [h0, hplace]; rfl
  | succ n ih =>
    have h0 : ((reading p e rest c s).port p).view.cursor = (s.port p).view.place c 0 := by
      rw [port_reading, View.place_zero h1 h2]
    rw [readBytes_succ (d := e) (rest := rest) _ got (by rw [port_reading]), passByte_hold hm, viewByte_reading e he,
      ih { e with isOpen := true } he (by split <;> omega) (by split <;> omega), h0, View.place_succ h1 (n + 1)]
    refine congrArg (fun b => (reading p { e with isOpen := true } rest ((s.port p).view.place c (n + 1 + 1)) s, b,
      false)) ?_
    rw [List.range_succ_eq_map (n := n + 1), List.map_cons, List.map_map, List.append_assoc]
    refine congrArg (fun b => got ++ _ :: b) (List.map_congr_left fun m _ => ?_)
    rw [View.place_succ h1 m]; rfl

end reading

theorem actReadView_good {p : Port} {count : Byte} {s : State} (h0 : 0 < count.toNat) (h1 : count.toNat ≤ 64) :
    actReadView p [count] s =
      { state := (readBytes p count.toNat s []).1
        result := if (readBytes p count.toNat s []).2.2 then .queueEmpty else .ok
        body := (readBytes p count.toNat s []).2.1 } :=
  if_neg (by simp only [argByte_zero, not_or, Nat.not_lt]; exact ⟨by omega, h1⟩)

/-- Settles O41: each byte moves the cursor one place round the window. -/
theorem holdReadGoesRoundTheWindow : Obligations.HoldReadGoesRoundTheWindow := by
  intro p tag count s d rest hp hst h0 h1 hq hm hlow hhigh v place
  refine (exec_completes_of_session (k := .readView p) (act := actReadView p) rfl rfl hst hp
    (actReadView_good h0 h1)).trans ?_
  obtain ⟨n, hn⟩ : ∃ n, count.toNat = n + 1 := ⟨count.toNat - 1, by omega⟩
  have hread := readBytes_hold (d := d) (rest := rest) (s := s) hm n d rfl hlow hhigh []
  rw [reading_self hq] at hread
  rw [hn, hread]
  exact congrArg (fun u => Host.Outcome.next (complete p tag .ok _ u)) (modPort_congr s rfl)

/-! ## Freshness -/

/-- Settles O48: the record is stale, and each port has its notice by its governing entry. -/
theorem freshnessExpiryIssuesNotices : Obligations.FreshnessExpiryIssuesNotices := by
  intro s t i hf hd hdue
  refine congrArg Host.Outcome.next ?_
  have hnumber := (findTopic_some hf).2
  have queues {β : Type} {see : State → β} (h : QueueBlind see) (htopic : TopicBlind see) :
      see (lapse i s) = see s := by
    unfold lapse; dsimp only; rw [see_issueNotices h, htopic.topic]
  have ports (g : State → State) (hg : ∀ s p f, g (State.modPort s p f) = g s) : QueueBlind g :=
    ⟨fun _ _ _ => hg _ _ _, fun _ _ _ => hg _ _ _, fun _ _ _ => hg _ _ _⟩
  have hexpire : expireFreshness t s = lapse i s := by
    unfold expireFreshness; rw [hf]; exact if_pos ⟨hd, hdue⟩
  rw [hexpire]
  refine state_ext (fun p => ?_) ?_ (fun j => ?_) (fun j => ?_) (fun j => ?_) (fun j => ?_) ?_ ?_ ?_ ?_ ?_
  · unfold lapse; dsimp only
    rw [port_issueNotices, hnumber]
    refine Eq.trans ?_ (Vector.getElem_ofFn p.isLt).symm
    rfl
  · exact queues (see := State.exchange) ⟨fun _ _ _ => rfl, fun _ _ _ => rfl, fun _ _ _ => rfl⟩ ⟨fun _ _ _ => rfl⟩
  · unfold lapse; dsimp only
    rw [see_issueNotices (see := fun s => s.topic j) ⟨fun _ _ _ => rfl, fun _ _ _ => rfl, fun _ _ _ => rfl⟩]
    rfl
  · exact queues (see := fun s => s.subscription j) ⟨fun _ _ _ => rfl, fun _ _ _ => rfl, fun _ _ _ => rfl⟩ ⟨fun _ _ _ => rfl⟩
  · exact queues (see := fun s => s.fetch j) ⟨fun _ _ _ => rfl, fun _ _ _ => rfl, fun _ _ _ => rfl⟩ ⟨fun _ _ _ => rfl⟩
  · exact queues (see := fun s => s.buffer j) ⟨fun _ _ _ => rfl, fun _ _ _ => rfl, fun _ _ _ => rfl⟩ ⟨fun _ _ _ => rfl⟩
  · exact queues (see := State.params) ⟨fun _ _ _ => rfl, fun _ _ _ => rfl, fun _ _ _ => rfl⟩ ⟨fun _ _ _ => rfl⟩
  · exact queues (see := State.readySequence) ⟨fun _ _ _ => rfl, fun _ _ _ => rfl, fun _ _ _ => rfl⟩ ⟨fun _ _ _ => rfl⟩
  · exact queues (see := State.readyOrder) ⟨fun _ _ _ => rfl, fun _ _ _ => rfl, fun _ _ _ => rfl⟩ ⟨fun _ _ _ => rfl⟩
  · exact queues (see := State.divider) ⟨fun _ _ _ => rfl, fun _ _ _ => rfl, fun _ _ _ => rfl⟩ ⟨fun _ _ _ => rfl⟩
  · exact queues (see := State.pending) ⟨fun _ _ _ => rfl, fun _ _ _ => rfl, fun _ _ _ => rfl⟩ ⟨fun _ _ _ => rfl⟩

end Sys2Proof.Machine
end

