-- ==== Sys2Proof/Proofs/AdvanceReads.lean ====
section
/-! The reading of the view in ADVANCE: O42. A read past the window end goes on as a READ_VIEW of its own would, and so
what stands in progress on a port must not matter to a consumption: the two commute. -/
namespace Sys2Proof.Machine
set_option Elab.async false

/-! ## What stands in progress does not matter to a reading -/

/-- The record of a port with a request put in progress. -/
def PortRecord.withRequest (x : Option Request) (r : PortRecord) : PortRecord := { r with inProgress := x }

/-- The state with a request put in progress on a port. -/
def State.withRequest (p : Port) (x : Option Request) (s : State) : State := s.modPort p (PortRecord.withRequest x)

theorem slotFree_withRequest (x : Option Request) : SlotFree (PortRecord.withRequest x) := fun _ _ => rfl

theorem modPort_comm {f g : PortRecord → PortRecord} (h : ∀ r, f (g r) = g (f r)) (p q : Port) (s : State) :
    (s.modPort p g).modPort q f = (s.modPort q f).modPort p g := by
  unfold State.modPort; dsimp only
  rw [update_comm _ _ _ h]

section withRequest
variable (p : Port) (x : Option Request) (s : State)

theorem port_withRequest (q : Port) : (s.withRequest p x).port q =
    { s.port q with inProgress := if p = q then x else (s.port q).inProgress } := by
  unfold State.withRequest; rw [port_modPort]; split <;> rfl

theorem slot_withRequest (y : SlotName) : (s.withRequest p x).slot y = s.slot y :=
  slot_modPort_free (slotFree_withRequest x) s p y

/-- A change of a port's record that does not look at the request in progress. -/
theorem modPort_withRequest {f : PortRecord → PortRecord} (h : ∀ r, f (r.withRequest x) = (f r).withRequest x) (q : Port) :
    (s.withRequest p x).modPort q f = (s.modPort q f).withRequest p x := modPort_comm h p q s

theorem releasePayload_withRequest (v : Option Payload) :
    releasePayload v (s.withRequest p x) = (releasePayload v s).withRequest p x := releasePayload_modPort v s p _

theorem takePayload_withRequest (v : Option Payload) :
    takePayload v (s.withRequest p x) = (takePayload v s).withRequest p x := takePayload_modPort v s p _

theorem finishSlot_withRequest (y : SlotName) (c : Completion) :
    finishSlot y c (s.withRequest p x) = (finishSlot y c s).withRequest p x :=
  finishSlot_modPort (slotFree_withRequest x) s p y c

theorem serveSlot_withRequest (y : SlotName) (q : Port) : serveSlot y q (s.withRequest p x) =
    ((serveSlot y q s).1.withRequest p x, (serveSlot y q s).2) :=
  serveSlot_modPort (slotFree_withRequest x) s p y q

theorem modSlot_withRequest (y : SlotName) (g : Slot → Slot) :
    (s.withRequest p x).modSlot y g = (s.modSlot y g).withRequest p x :=
  modSlot_modPort (slotFree_withRequest x) s p y g

theorem failSlot_withRequest (y : SlotName) (q : Port) : failSlot y q (s.withRequest p x) =
    ((failSlot y q s).1.withRequest p x, (failSlot y q s).2) := by
  unfold failSlot; dsimp only
  rw [modSlot_withRequest, slot_withRequest]
  split
  · rw [finishSlot_withRequest]
  · rfl

theorem emptySlot_withRequest (y : SlotName) : emptySlot y (s.withRequest p x) = (emptySlot y s).withRequest p x := by
  unfold emptySlot; dsimp only
  rw [slot_withRequest]
  unfold State.withRequest
  rw [releaseBuffer_modPort, modSlot_modPort (slotFree_withRequest x)]
  rfl

theorem emptyQueue_withRequest (q : Port) : emptyQueue q (s.withRequest p x) = (emptyQueue q s).withRequest p x := by
  have fold (l : List Delivery) (u : State) :
      l.foldl (fun u d => releasePayload d.payload u) (u.withRequest p x) =
        (l.foldl (fun u d => releasePayload d.payload u) u).withRequest p x := by
    induction l generalizing u with
    | nil => rfl
    | cons d l ih => rw [List.foldl_cons, releasePayload_withRequest, ih, List.foldl_cons]
  have hq : ((s.withRequest p x).port q).queue = (s.port q).queue := by rw [port_withRequest]
  unfold emptyQueue
  rw [hq, fold, modPort_withRequest]
  exact fun _ => rfl

theorem discardEntry_withRequest (q : Port) (reports : List Port) (e : DeferralEntry) :
    discardEntry q (s.withRequest p x, reports) e =
      ((discardEntry q (s, reports) e).1.withRequest p x, (discardEntry q (s, reports) e).2) := by
  cases e with
  | answer d => exact congrArg (·, reports) (releasePayload_withRequest p x s d.payload)
  | slot y i c => unfold discardEntry; dsimp only; rw [failSlot_withRequest]

theorem emptyDeferral_withRequest (q : Port) : emptyDeferral q (s.withRequest p x) =
    ((emptyDeferral q s).1.withRequest p x, (emptyDeferral q s).2) := by
  have fold (l : List DeferralEntry) (y : State × List Port) : l.foldl (discardEntry q) (y.1.withRequest p x, y.2) =
      ((l.foldl (discardEntry q) y).1.withRequest p x, (l.foldl (discardEntry q) y).2) := by
    induction l generalizing y with
    | nil => rfl
    | cons e l ih =>
      rw [List.foldl_cons, discardEntry_withRequest]
      exact ih (discardEntry q y e)
  have hd : ((s.withRequest p x).port q).deferral = (s.port q).deferral := by rw [port_withRequest]
  unfold emptyDeferral; dsimp only
  rw [hd, modPort_withRequest]
  · exact fold _ (_, [])
  · exact fun _ => rfl

theorem emptySlots_withRequest (q : Port) : emptySlots q (s.withRequest p x) = (emptySlots q s).withRequest p x := by
  have fold (l : List SlotNo) (u : State) : l.foldl (fun u k => emptySlot ⟨q, k⟩ u) (u.withRequest p x) =
      (l.foldl (fun u k => emptySlot ⟨q, k⟩ u) u).withRequest p x := by
    induction l generalizing u with
    | nil => rfl
    | cons k l ih => rw [List.foldl_cons, emptySlot_withRequest, ih, List.foldl_cons]
  exact fold _ s

theorem judgeExchange_withRequest : judgeExchange (s.withRequest p x) = (judgeExchange s).withRequest p x := by
  have hany : anySession (s.withRequest p x) = anySession s := by
    unfold anySession
    refine congrArg (List.any allPorts) (funext fun q => ?_)
    rw [port_withRequest]
  unfold judgeExchange
  rw [hany]
  split <;> rfl

theorem teardown_withRequest (b : Bool) (q : Port) : teardown b q (s.withRequest p x) =
    ((teardown b q s).1.withRequest p x, (teardown b q s).2) := by
  unfold teardown homeCursor closePort; dsimp only
  rw [emptyQueue_withRequest, emptyDeferral_withRequest, modPort_withRequest, emptySlots_withRequest, modPort_withRequest,
    modPort_withRequest, judgeExchange_withRequest]
  · intro r; cases b <;> rfl
  · exact fun _ => rfl
  · exact fun _ => rfl

theorem drainEnded_withRequest (q : Port) : drainEnded (s.withRequest p x) q = drainEnded s q := by
  unfold drainEnded deferredSlots
  simp only [slot_withRequest, port_withRequest]

theorem endDrains_withRequest (y : State × List Port) :
    endDrains (y.1.withRequest p x, y.2) = (endDrains y).withRequest p x := by
  have fold (n : Nat) (l : List Port) (u : State) :
      handleReports n l (u.withRequest p x) = (handleReports n l u).withRequest p x := by
    induction n generalizing l u with
    | zero => rw [handleReports, handleReports]
    | succ n ih =>
      cases l with
      | nil => rw [handleReports, handleReports]
      | cons q l =>
        rw [handleReports, handleReports, drainEnded_withRequest, teardown_withRequest]
        generalize teardown false q u = z
        split
        · exact ih (l ++ z.2) z.1
        · exact ih l u
  exact fold 64 y.2 y.1

theorem consumption_withRequest (q : Port) (d : Delivery) (rest : List Delivery) :
    consumption q d rest (s.withRequest p x) =
      ((consumption q d rest s).1.withRequest p x, (consumption q d rest s).2) := by
  have hd : ((s.withRequest p x).port q).deferral = (s.port q).deferral := by rw [port_withRequest]
  unfold consumption
  split
  · rw [hd]
    cases (s.port q).deferral with
    | nil =>
      dsimp only; rw [releasePayload_withRequest, modPort_withRequest]
      exact fun _ => rfl
    | cons e entries =>
      cases e with
      | answer a =>
        dsimp only; rw [releasePayload_withRequest, modPort_withRequest]
        exact fun _ => rfl
      | slot y i c =>
        dsimp only
        rw [slot_withRequest, releasePayload_withRequest, modPort_withRequest, takePayload_withRequest,
          serveSlot_withRequest]
        exact fun _ => rfl
  · rw [releasePayload_withRequest, modPort_withRequest]
    exact fun _ => rfl

theorem consumeHead_withRequest {q : Port} (hq : (s.port q).queue ≠ []) :
    consumeHead q (s.withRequest p x) = (consumeHead q s).withRequest p x := by
  obtain ⟨d, rest, hd⟩ := List.exists_cons_of_ne_nil hq
  rw [consumeHead_eq hd, consumeHead_eq (d := d) (rest := rest) (by rw [port_withRequest]; exact hd),
    consumption_withRequest, endDrains_withRequest p x (consumption q d rest s)]

theorem passByte_withRequest {q : Port} (hq : (s.port q).queue ≠ []) :
    passByte q (s.withRequest p x) = (passByte q s).withRequest p x := by
  obtain ⟨d, rest, hd⟩ := List.exists_cons_of_ne_nil hq
  have hd' : ((s.withRequest p x).port q).queue = d :: rest := by rw [port_withRequest]; exact hd
  have hv : ((s.withRequest p x).port q).view = (s.port q).view := by rw [port_withRequest]
  by_cases hc : (s.port q).view.cursor = (s.port q).view.stop
  · cases hm : (s.port q).view.mode with
    | hold =>
      rw [passByte_atEnd_hold hd hc hm, passByte_atEnd_hold hd' (by rw [hv]; exact hc) (by rw [hv]; exact hm),
        modPort_withRequest]
      exact fun _ => rfl
    | advance =>
      rw [passByte_atEnd_advance hq hc hm, passByte_atEnd_advance (by rw [hd']; simp) (by rw [hv]; exact hc)
        (by rw [hv]; exact hm), consumeHead_withRequest p x s hq]
  · rw [passByte_within hd hc, passByte_within hd' (by rw [hv]; exact hc), modPort_withRequest]
    exact fun _ => rfl

theorem readBytes_withRequest (q : Port) (n : Nat) (got : List Byte) : readBytes q n (s.withRequest p x) got =
    ((readBytes q n s got).1.withRequest p x, (readBytes q n s got).2) := by
  induction n generalizing s got with
  | zero => rfl
  | succ n ih =>
    cases hq : (s.port q).queue with
    | nil => rw [readBytes_empty n got hq, readBytes_empty n got (by rw [port_withRequest]; exact hq)]
    | cons d rest =>
      rw [readBytes_succ n got hq, readBytes_succ (d := d) (rest := rest) n got (by rw [port_withRequest]; exact hq),
        passByte_withRequest p x s (by rw [hq]; simp), ih, port_withRequest]
      rfl

end withRequest

/-! ## Reading in pieces -/

section pieces
variable {p : Port} {s : State}

/-- The bytes read are appended to those gathered. -/
theorem readBytes_gathered (n : Nat) (s : State) (got : List Byte) : readBytes p n s got =
    ((readBytes p n s []).1, got ++ (readBytes p n s []).2.1, (readBytes p n s []).2.2) := by
  induction n generalizing s got with
  | zero => simp [readBytes]
  | succ n ih =>
    cases hq : (s.port p).queue with
    | nil => simp [readBytes_empty n _ hq]
    | cons d rest =>
      rw [readBytes_succ n got hq, readBytes_succ n [] hq, ih _ (got ++ _), ih _ ([] ++ _)]
      simp

variable {d : Delivery} {rest : List Delivery} {c : Nat}

/-- Whether the head is open after `n` bytes of it have been read: as it was, or open. -/
def Delivery.openedBy (n : Nat) (d : Delivery) : Delivery := if n = 0 then d else { d with isOpen := true }

theorem openedBy_opened (n : Nat) (d : Delivery) :
    Delivery.openedBy n { d with isOpen := true } = d.openedBy (n + 1) := by
  unfold Delivery.openedBy; rw [if_neg (Nat.succ_ne_zero n)]; split <;> rfl

/-- The bytes short of the window end, in either mode. -/
theorem readBytes_within (n m : Nat) (d : Delivery) (h : c + n ≤ (s.port p).view.stop) :
    readBytes p (n + m) (reading p d rest c s) [] =
      ((readBytes p m (reading p (d.openedBy n) rest (c + n) s) []).1,
        ((List.range n).map fun k => viewByte s d (c + k)) ++
          (readBytes p m (reading p (d.openedBy n) rest (c + n) s) []).2.1,
        (readBytes p m (reading p (d.openedBy n) rest (c + n) s) []).2.2) := by
  induction n generalizing c d with
  | zero => rw [Nat.zero_add]; rfl
  | succ n ih =>
    have hpass : passByte p (reading p d rest c s) = reading p { d with isOpen := true } rest (c + 1) s := by
      rw [passByte_within (d := d) (rest := rest) (by rw [port_reading]) (by rw [port_reading]; dsimp only; omega)]
      unfold reading; rw [modPort_modPort]
    have hopened := ih (c := c + 1) { d with isOpen := true } (by omega)
    rw [openedBy_opened, Nat.add_right_comm c 1 n] at hopened
    rw [Nat.add_right_comm, readBytes_succ (d := d) (rest := rest) _ [] (by rw [port_reading]), hpass, readBytes_gathered,
      hopened, List.range_succ_eq_map, List.map_cons, List.map_map, port_reading, ← Nat.add_assoc c n 1]
    generalize readBytes p m (reading p (d.openedBy (n + 1)) rest (c + n + 1) s) [] = y
    refine Prod.ext rfl (Prod.ext ?_ rfl)
    refine congrArg (fun l => viewByte s d c :: (l ++ y.2.1)) (List.map_congr_left fun k _ => ?_)
    exact congrArg (viewByte s d) (by simp only [Nat.succ_eq_add_one]; omega)

/-- The consumption of a head does not depend on its open mark or on the cursor. -/
theorem consumeHead_reading (n : Nat) (hq : (s.port p).queue = d :: rest) :
    consumeHead p (reading p (d.openedBy n) rest c s) = consumeHead p s := by
  have hopened : consumption p (d.openedBy n) rest (reading p (d.openedBy n) rest c s) = consumption p d rest s := by
    have h := consumption_opened p d rest s (d.openedBy n :: rest) fun _ => c
    refine Eq.trans ?_ h
    unfold Delivery.openedBy; split <;> rfl
  rw [consumeHead_eq hq, consumeHead_eq (d := d.openedBy n) (rest := rest) (by rw [port_reading]), hopened]

/-- A read up to the window end in ADVANCE mode: the bytes of the head, and then what is read of the state after its
consumption (R154). -/
theorem readBytes_pastEnd (m : Nat) (hq : (s.port p).queue = d :: rest) (hm : (s.port p).view.mode = .advance)
    (hc : (s.port p).view.cursor ≤ (s.port p).view.stop) :
    let first := (s.port p).view.stop + 1 - (s.port p).view.cursor
    readBytes p (first + m) s [] = ((readBytes p m (consumeHead p s) []).1,
      ((List.range first).map fun k => viewByte s d ((s.port p).view.cursor + k)) ++
        (readBytes p m (consumeHead p s) []).2.1, (readBytes p m (consumeHead p s) []).2.2) := by
  dsimp only
  obtain ⟨n, hn⟩ : ∃ n, (s.port p).view.stop = (s.port p).view.cursor + n := ⟨_, (Nat.add_sub_cancel' hc).symm⟩
  have hfirst : (s.port p).view.stop + 1 - (s.port p).view.cursor = n + 1 := by omega
  have hself := readBytes_within (rest := rest) (c := (s.port p).view.cursor) n (m + 1) d (Nat.le_of_eq hn.symm)
  rw [reading_self hq] at hself
  have hpass : passByte p (reading p (d.openedBy n) rest ((s.port p).view.cursor + n) s) = consumeHead p s := by
    rw [passByte_atEnd_advance (by rw [port_reading]; simp) (by rw [port_reading]; exact hn.symm)
      (by rw [port_reading]; exact hm), consumeHead_reading n hq]
  have hlast := readBytes_succ (d := d.openedBy n) (rest := rest)
    (s := reading p (d.openedBy n) rest ((s.port p).view.cursor + n) s) m [] (by rw [port_reading])
  rw [hpass, readBytes_gathered m] at hlast
  rw [hlast] at hself
  have hcount : n + 1 + m = n + (m + 1) := by omega
  rw [hfirst, hcount, hself, List.range_succ, List.map_append]
  refine Prod.ext rfl (Prod.ext ?_ rfl)
  have hbyte : viewByte (reading p (d.openedBy n) rest ((s.port p).view.cursor + n) s) (d.openedBy n)
      ((reading p (d.openedBy n) rest ((s.port p).view.cursor + n) s).port p).view.cursor =
      viewByte s d ((s.port p).view.cursor + n) := by
    rw [port_reading]
    unfold Delivery.openedBy; split <;> rfl
  dsimp only
  rw [hbyte]
  simp

/-- A port that leaves its session within a consumption leaves it with an empty queue (R122). -/
theorem queue_of_consumeHead (hq : (s.port p).queue ≠ []) (hst : (s.port p).state = .online ∨ (s.port p).state = .leaving)
    (h : ((consumeHead p s).port p).state = .offline) : ((consumeHead p s).port p).queue = [] := by
  obtain ⟨d, rest, hd⟩ := List.exists_cons_of_ne_nil hq
  have hstate : ((consumption p d rest s).1.port p).state = (s.port p).state := by
    have sight : SessionSight fun u => (u.port p).state = (s.port p).state :=
      sessionSight_of fun _ _ _ _ _ hp hs => (hp p).1.trans hs
    exact (sight.consumption p d rest s).mpr rfl
  rw [consumeHead_eq hd] at h ⊢
  refine endDrains_keeps (P := fun u => (u.port p).state = .offline → (u.port p).queue = []) (fun u q _ hu ho => ?_)
    (fun ho => ?_) h
  · rw [port_teardown]; rw [state_teardown] at ho
    split
    · rfl
    · next e => rw [if_neg e] at ho; exact hu ho
  · rw [hstate] at ho; rw [ho] at hst; rcases hst with hst | hst <;> cases hst

end pieces

theorem actReadView_bad {p : Port} {count : Byte} {s : State} (h : count = 0 ∨ 64 < count.toNat) :
    actReadView p [count] s = refuse .badArgument s := by
  refine if_pos ?_
  rcases h with rfl | h
  · exact .inl rfl
  · exact .inr h

/-- The completion of a request does not depend on what stood in progress before it. -/
theorem complete_withRequest (p : Port) (x : Option Request) (tag : Byte) (r : Result) (body : List Byte) (s : State) :
    complete p tag r body (s.withRequest p x) = complete p tag r body s := by
  unfold complete State.withRequest
  rw [modPort_modPort]; rfl

/-- Settles O42: a read past the window end is the read up to it, and then a read of the state after the consumption. -/
theorem advanceReadConsumesAtTheWindowEnd : Obligations.AdvanceReadConsumesAtTheWindowEnd := by
  intro p tag count s hp hst v bytes
  have answers {y : Reply} (hy : actReadView p [count] s = y) :=
    exec_completes_of_session (k := .readView p) (act := actReadView p) rfl rfl hst hp hy
  refine ⟨fun h => answers (actReadView_bad h), fun h0 h1 hq => ?_, fun d rest h0 h1 hq hm => ?_⟩
  · obtain ⟨n, hn⟩ : ∃ n, count.toNat = n + 1 := ⟨count.toNat - 1, by omega⟩
    refine (answers (actReadView_good h0 h1)).trans ?_
    rw [hn, readBytes_empty n [] hq]; rfl
  have past {m : Nat} (hc : v.cursor ≤ v.stop) (hcount : count.toNat = v.stop + 1 - v.cursor + m) :
      exec (.readView p) s = .next (complete p tag
        (if (readBytes p m (consumeHead p s) []).2.2 then .queueEmpty else .ok)
        (bytes d (v.stop + 1 - v.cursor) ++ (readBytes p m (consumeHead p s) []).2.1)
        (readBytes p m (consumeHead p s) []).1) := by
    refine (answers (actReadView_good h0 h1)).trans ?_
    rw [hcount, readBytes_pastEnd m hq hm hc]
  refine ⟨fun he => ?_, fun hle => ?_, fun hc hlt hrest hd => ?_, fun hc hlt => ?_⟩
  · have hfirst : v.stop + 1 - v.cursor = count.toNat := by omega
    refine (past (m := 0) (by omega) (by omega)).trans ?_
    rw [hfirst, readBytes]
    simp
  · refine (answers (actReadView_good h0 h1)).trans ?_
    have hread := readBytes_within (rest := rest) (c := v.cursor) (s := s) (p := p) count.toNat 0 d hle
    rw [reading_self hq, Nat.add_zero, readBytes, List.append_nil] at hread
    have hopen : d.openedBy count.toNat = { d with isOpen := true } := if_neg (by omega)
    rw [hread, hopen]
    rfl
  · obtain ⟨m, hcount⟩ : ∃ m, count.toNat = v.stop + 1 - v.cursor + (m + 1) :=
      ⟨count.toNat - (v.stop + 1 - v.cursor) - 1, by omega⟩
    have hempty : ((consumeHead p s).port p).queue = [] := by
      rw [consumeHead_eq hq, consumption_noList hd, endDrains_nil, port_modPort_same]; exact hrest
    refine (past hc hcount).trans ?_
    rw [readBytes_empty m [] hempty]
    simp
  · intro first u again
    obtain ⟨m, hcount⟩ : ∃ m, count.toNat = v.stop + 1 - v.cursor + (m + 1) :=
      ⟨count.toNat - (v.stop + 1 - v.cursor) - 1, by omega⟩
    have hrest : (numByte (count.toNat - first)).toNat = m + 1 := by
      rw [toNat_numByte (by omega)]; omega
    refine ⟨fun hu => ?_, fun hu => ?_⟩
    · have hagain : again = u.withRequest p
          (some { name := .readView, tag := tag, arguments := [numByte (count.toNat - first)], cut := false }) := rfl
      have hstate : (again.port p).state = .online ∨ (again.port p).state = .leaving := by
        rw [hagain, port_withRequest]; exact hu
      have hprogress : InProgress again p .readView tag [numByte (count.toNat - first)] := by
        rw [InProgress, hagain, port_withRequest]; exact if_pos rfl
      have hread := readBytes_withRequest p
        (some { name := .readView, tag := tag, arguments := [numByte (count.toNat - first)], cut := false }) u p (m + 1) []
      rw [← hagain] at hread
      refine ⟨_, _, _, exec_completes_of_session (k := .readView p) (act := actReadView p) rfl rfl hstate hprogress
        (actReadView_good (by rw [hrest]; omega) (by rw [hrest]; omega)), ?_⟩
      rw [hrest, hread]
      dsimp only
      rw [complete_withRequest]
      exact past hc hcount
    · refine (past hc hcount).trans ?_
      rw [readBytes_empty m [] (queue_of_consumeHead (by rw [hq]; simp) hst hu)]
      simp only [List.append_nil]
      rfl

end Sys2Proof.Machine
end

