-- ==== Sys2Proof/Proofs/DispatcherLaw.lean ====
section
/-! The law of the dispatcher (O56): a slot enters the order when it becomes READY and leaves it when it ceases to be. -/
namespace Sys2Proof.Machine
set_option Elab.async false

/-! ## What a slot reads after it ends -/

theorem slot_releaseBuffer (b : Option BufferNo) (s : State) (y : SlotName) : (releaseBuffer b s).slot y = s.slot y := by
  cases b <;> rfl

/-- A slot that ends: it holds nothing and waits for nobody. -/
def Slot.ended (c : Completion) (k : Slot) : Slot :=
  { k with state := .done, buffer := none, pending := PortSet.none, status := some c, deadline := .stopped }

theorem slot_finishSlot (x y : SlotName) (c : Completion) (s : State) :
    (finishSlot x c s).slot y = if x = y then (s.slot x).ended c else s.slot y := by
  change ((releaseBuffer _ s).modSlot x (Slot.ended c)).slot y = _
  rw [slot_modSlot]; simp only [slot_releaseBuffer]
  split <;> [(next e => rw [e]); rfl]

theorem slot_emptySlot (x y : SlotName) (s : State) :
    (emptySlot x s).slot y = if x = y then Slot.reset else s.slot y := by
  change ((releaseBuffer _ s).modSlot x fun _ => Slot.reset).slot y = _
  rw [slot_modSlot, slot_releaseBuffer]

/-! ## A property that sees slots but no queue, kept through a teardown -/

section teardown
variable {P : State → Prop} {s : State} {p : Port}

theorem serveSlot_keeps {x : SlotName} (hm : ∀ s, P s → P (s.modSlot x fun k =>
    { k with pending := k.pending.erase p, reached := k.reached.insert p }))
    (hf : ∀ s c, P s → P (finishSlot x c s)) (hs : P s) : P (serveSlot x p s).1 := by
  unfold serveSlot; dsimp only; split
  · exact hf _ _ (hm _ hs)
  · exact hm _ hs

theorem failSlot_keeps {x : SlotName} (hm : ∀ s, P s → P (s.modSlot x fun k =>
    { k with pending := k.pending.erase p, unreached := k.unreached.insert p }))
    (hf : ∀ s c, P s → P (finishSlot x c s)) (hs : P s) : P (failSlot x p s).1 := by
  unfold failSlot; dsimp only; split
  · exact hf _ _ (hm _ hs)
  · exact hm _ hs

theorem emptySlots_keeps (h : ∀ s x, x.owner = p → P s → P (emptySlot x s)) (hs : P s) : P (emptySlots p s) :=
  foldl_keeps _ (fun _ _ _ hs => h _ _ rfl hs) hs

theorem emptyDeferral_keeps (hq : QueueBlind P) (hp : PoolBlind P) (hfail : ∀ s x, P s → P (failSlot x p s).1)
    (hs : P s) : P (emptyDeferral p s).1 := by
  have fold (l : List DeferralEntry) (y : State × List Port) (hy : P y.1) : P (l.foldl (discardEntry p) y).1 := by
    induction l generalizing y with
    | nil => exact hy
    | cons e l ih =>
      refine ih _ ?_
      cases e with
      | answer d => exact (see_releasePayload hp d.payload y.1).mpr hy
      | slot x i c => exact hfail _ _ hy
  exact fold _ (_, []) ((hq.deferral s p fun _ => []).mpr hs)

/-- A property that sees neither queues nor buffers is kept by a teardown when its slot events and its closing keep it. -/
theorem teardown_keeps {b : Bool} (hq : QueueBlind P) (hp : PoolBlind P) (hc : CursorBlind P)
    (hfail : ∀ s x, P s → P (failSlot x p s).1) (hempty : ∀ s x, x.owner = p → P s → P (emptySlot x s))
    (hclose : ∀ s, P s → P (closePort b p s)) (hjudge : ∀ s, P s → P (judgeExchange s)) (hs : P s) :
    P (teardown b p s).1 := by
  rw [teardown_fst]
  refine hjudge _ (hclose _ ((see_homeCursor hc p _).mpr (emptySlots_keeps hempty ?_)))
  exact (hq.missed _ p fun _ => 0).mpr (emptyDeferral_keeps hq hp hfail ((see_emptyQueue hq hp p s).mpr hs))

end teardown

/-! ## The law -/

theorem dispatcherLaw_congr {s t : State} (ho : t.readyOrder = s.readyOrder)
    (hx : ∀ x, (t.slot x).state = (s.slot x).state) : DispatcherLaw t = DispatcherLaw s :=
  propext ⟨fun h => ⟨ho ▸ h.once, fun x => by rw [← ho, ← hx]; exact h.ready x⟩,
    fun h => ⟨ho.symm ▸ h.once, fun x => by rw [ho, hx]; exact h.ready x⟩⟩

theorem dispatcherLaw_of_eq {s t : State} (ho : t.readyOrder = s.readyOrder)
    (hx : ∀ x, (t.slot x).state = (s.slot x).state) (h : DispatcherLaw s) : DispatcherLaw t :=
  (dispatcherLaw_congr ho hx).mpr h

/-- A change of a port's record that leaves its slots alone. -/
theorem dispatcherLaw_modPort {p : Port} {f : PortRecord → PortRecord} (s : State) (hf : ∀ r, (f r).slots = r.slots) :
    DispatcherLaw (s.modPort p f) = DispatcherLaw s :=
  dispatcherLaw_congr rfl fun x => by rw [slot_modPort s hf]

theorem dispatcherLaw_pool : PoolBlind DispatcherLaw := ⟨fun _ _ _ => dispatcherLaw_congr rfl fun _ => rfl⟩
theorem dispatcherLaw_topics : TopicBlind DispatcherLaw := ⟨fun _ _ _ => dispatcherLaw_congr rfl fun _ => rfl⟩
theorem dispatcherLaw_fetches : FetchBlind DispatcherLaw := ⟨fun _ _ _ => dispatcherLaw_congr rfl fun _ => rfl⟩
theorem dispatcherLaw_subscriptions : SubscriptionBlind DispatcherLaw :=
  ⟨fun _ _ => dispatcherLaw_congr rfl fun _ => rfl⟩
theorem dispatcherLaw_queues : QueueBlind DispatcherLaw :=
  ⟨fun s _ _ => dispatcherLaw_modPort s fun _ => by rfl, fun s _ _ => dispatcherLaw_modPort s fun _ => by rfl,
    fun s _ _ => dispatcherLaw_modPort s fun _ => by rfl⟩
theorem dispatcherLaw_solicits : SolicitBlind DispatcherLaw := ⟨fun s _ _ => dispatcherLaw_modPort s fun _ => by rfl⟩
theorem dispatcherLaw_cursors : CursorBlind DispatcherLaw := ⟨fun s _ _ => dispatcherLaw_modPort s fun _ => by rfl⟩
theorem dispatcherLaw_sessions : SessionBlind DispatcherLaw :=
  ⟨fun s _ _ => dispatcherLaw_modPort s fun _ => by rfl, fun s _ _ => dispatcherLaw_modPort s fun _ => by rfl,
    fun _ _ => dispatcherLaw_congr rfl fun _ => rfl⟩

/-! ## Changes of a slot -/

/-- A change of a slot that keeps whether it is READY. -/
theorem dispatcherLaw_modSlot {s : State} {x : SlotName} {f : Slot → Slot}
    (hf : (f (s.slot x)).state = .ready ↔ (s.slot x).state = .ready) (h : DispatcherLaw s) :
    DispatcherLaw (s.modSlot x f) := by
  refine ⟨h.once, fun y => (h.ready y).trans ?_⟩
  rw [slot_modSlot]; split
  · next e => subst e; exact hf.symm
  · exact Iff.rfl

/-- A slot that ends leaves the order. -/
theorem dispatcherLaw_ended {s : State} {x : SlotName} {f : Slot → Slot} (hf : (f (s.slot x)).state ≠ .ready)
    (h : DispatcherLaw s) :
    DispatcherLaw { s.modSlot x f with readyOrder := s.readyOrder.filter (· != x) } := by
  refine ⟨h.once.filter _, fun y => ?_⟩
  change y ∈ s.readyOrder.filter (· != x) ↔ ((s.modSlot x f).slot y).state = .ready
  rw [List.mem_filter, h.ready, slot_modSlot]
  split
  · next e => subst e; simp [hf]
  · next e => simp [Ne.symm e]

theorem dispatcherLaw_released {s : State} (b : Option BufferNo) (h : DispatcherLaw s) :
    DispatcherLaw (releaseBuffer b s) := (see_releaseBuffer dispatcherLaw_pool b s).mpr h

theorem dispatcherLaw_emptySlot {s : State} (x : SlotName) (h : DispatcherLaw s) : DispatcherLaw (emptySlot x s) :=
  dispatcherLaw_ended (by simp [Slot.reset]) (dispatcherLaw_released _ h)

theorem dispatcherLaw_finishSlot {s : State} (x : SlotName) (c : Completion) (h : DispatcherLaw s) :
    DispatcherLaw (finishSlot x c s) :=
  dispatcherLaw_ended (by simp) (dispatcherLaw_released _ h)

theorem dispatcherLaw_failSlot {s : State} (x : SlotName) (p : Port) (h : DispatcherLaw s) :
    DispatcherLaw (failSlot x p s).1 :=
  failSlot_keeps (fun _ hs => dispatcherLaw_modSlot Iff.rfl hs) (fun _ _ hs => dispatcherLaw_finishSlot x _ hs) h

theorem dispatcherLaw_serveSlot {s : State} (x : SlotName) (p : Port) (h : DispatcherLaw s) :
    DispatcherLaw (serveSlot x p s).1 :=
  serveSlot_keeps (fun _ hs => dispatcherLaw_modSlot Iff.rfl hs) (fun _ _ hs => dispatcherLaw_finishSlot x _ hs) h

theorem dispatcherLaw_endDeferred {s : State} (x : SlotName) (c : Completion) (h : DispatcherLaw s) :
    DispatcherLaw (endDeferred x c s) := by
  have deleted : DispatcherLaw (deleteEntries x s) := by rw [see_deleteEntries dispatcherLaw_queues]; exact h
  unfold endDeferred; dsimp only
  generalize deleteEntries x s = u at deleted ⊢
  exact dispatcherLaw_finishSlot x c (dispatcherLaw_modSlot Iff.rfl deleted)

/-! ## The events -/

theorem dispatcherLaw_teardown {s : State} {p : Port} {b : Bool} (h : DispatcherLaw s) :
    DispatcherLaw (teardown b p s).1 :=
  teardown_keeps dispatcherLaw_queues dispatcherLaw_pool dispatcherLaw_cursors
    (fun _ x hs => dispatcherLaw_failSlot x p hs) (fun _ x _ hs => dispatcherLaw_emptySlot x hs)
    (fun _ hs => (see_closePort dispatcherLaw_sessions b p _).mpr hs)
    (fun _ hs => (see_judgeExchange dispatcherLaw_sessions _).mpr hs) h

theorem dispatcherLaw_endDrains {y : State × List Port} (h : DispatcherLaw y.1) : DispatcherLaw (endDrains y) :=
  endDrains_keeps (fun _ _ _ hs => dispatcherLaw_teardown hs) h

theorem dispatcherLaw_leaveEffects {s : State} {p : Port} (h : DispatcherLaw s) : DispatcherLaw (leaveEffects p s) := by
  unfold leaveEffects
  rw [see_clearSolicits dispatcherLaw_solicits, see_orphanTopics dispatcherLaw_queues dispatcherLaw_pool
    dispatcherLaw_fetches dispatcherLaw_solicits dispatcherLaw_topics, see_removeFetches dispatcherLaw_solicits
    dispatcherLaw_fetches, see_freeSubscriptionsOf dispatcherLaw_subscriptions]
  exact leaveSlots_keeps (fun _ x _ _ hs => dispatcherLaw_emptySlot x hs)
    (fun _ x _ _ hs => dispatcherLaw_finishSlot x _ hs) h

theorem dispatcherLaw_quarantine {s : State} {p : Port} (h : DispatcherLaw s) : DispatcherLaw (quarantine p s) := by
  have cut : DispatcherLaw (cutRequest p s) := (dispatcherLaw_modPort s fun _ => by rfl).mpr h
  have held {u : State} (hu : DispatcherLaw u) : DispatcherLaw (startHold p u) :=
    (dispatcherLaw_modPort u fun _ => by rfl).mpr hu
  have torn {u : State} (hu : DispatcherLaw u) :
      DispatcherLaw (endDrains (teardown true p (abortDeferredSlots p u))) :=
    dispatcherLaw_endDrains (dispatcherLaw_teardown
      (abortDeferredSlots_keeps (fun _ x _ _ hs => dispatcherLaw_endDeferred x _ hs) hu))
  unfold quarantine; dsimp only
  split
  · exact held ((see_closePort dispatcherLaw_sessions _ p _).mpr cut)
  · exact held (torn (dispatcherLaw_leaveEffects cut))
  · exact held (torn cut)
  · exact held cut

theorem dispatcherLaw_consumeHead {s : State} {p : Port} (hq : (s.port p).queue ≠ []) (h : DispatcherLaw s) :
    DispatcherLaw (consumeHead p s) := by
  obtain ⟨d, rest, hq⟩ := List.exists_cons_of_ne_nil hq
  rw [consumeHead_eq hq]
  have consumed (g : PortRecord → PortRecord) (hg : ∀ r, (g r).slots = r.slots) :
      DispatcherLaw ((releasePayload d.payload s).modPort p g) := by
    rw [dispatcherLaw_modPort _ hg, see_releasePayload dispatcherLaw_pool]; exact h
  refine dispatcherLaw_endDrains ?_
  unfold consumption; split
  · split
    · exact consumed _ fun _ => rfl
    · exact consumed _ fun _ => rfl
    · refine dispatcherLaw_serveSlot _ p ?_
      rw [see_takePayload dispatcherLaw_pool]
      exact consumed _ fun _ => rfl
  · exact consumed _ fun _ => rfl

theorem dispatcherLaw_passByte {s : State} {p : Port} (hq : (s.port p).queue ≠ []) (h : DispatcherLaw s) :
    DispatcherLaw (passByte p s) := by
  obtain ⟨d, rest, hd⟩ := List.exists_cons_of_ne_nil hq
  by_cases hc : (s.port p).view.cursor = (s.port p).view.stop
  · cases hm : (s.port p).view.mode with
    | hold =>
      rw [passByte_atEnd_hold hd hc hm, dispatcherLaw_modPort]
      · exact h
      · exact fun _ => rfl
    | advance => rw [passByte_atEnd_advance hq hc hm]; exact dispatcherLaw_consumeHead hq h
  · rw [passByte_within hd hc, dispatcherLaw_modPort]
    · exact h
    · exact fun _ => rfl

/-! ## A take -/

/-- The order of the READY slots while slot `x` is being taken: `x` has left it, and its state is not yet written. -/
def OrderedBut (x : SlotName) (s : State) : Prop :=
  s.readyOrder.Nodup ∧ ∀ y, y ∈ s.readyOrder ↔ y ≠ x ∧ (s.slot y).state = .ready

section taking
variable {x : SlotName}

theorem orderedBut_congr {s t : State} (ho : t.readyOrder = s.readyOrder)
    (hy : ∀ y, (t.slot y).state = (s.slot y).state) : OrderedBut x t = OrderedBut x s := by
  unfold OrderedBut; simp only [ho, hy]

theorem orderedBut_modPort (s : State) {p : Port} {f : PortRecord → PortRecord} (hf : ∀ r, (f r).slots = r.slots) :
    OrderedBut x (s.modPort p f) = OrderedBut x s := orderedBut_congr rfl fun y => by rw [slot_modPort s hf]

theorem orderedBut_pool : PoolBlind (OrderedBut x) := ⟨fun _ _ _ => orderedBut_congr rfl fun _ => rfl⟩
theorem orderedBut_fetches : FetchBlind (OrderedBut x) := ⟨fun _ _ _ => orderedBut_congr rfl fun _ => rfl⟩
theorem orderedBut_solicits : SolicitBlind (OrderedBut x) := ⟨fun s _ _ => orderedBut_modPort s fun _ => by rfl⟩
theorem orderedBut_queues : QueueBlind (OrderedBut x) :=
  ⟨fun s _ _ => orderedBut_modPort s fun _ => by rfl, fun s _ _ => orderedBut_modPort s fun _ => by rfl,
    fun s _ _ => orderedBut_modPort s fun _ => by rfl⟩

theorem orderedBut_stampSlot {s : State} (v : Word) (h : DispatcherLaw s) : OrderedBut x (stampSlot x v s) := by
  refine ⟨h.once.filter _, fun y => ?_⟩
  change y ∈ s.readyOrder.filter (· != x) ↔ y ≠ x ∧ ((s.modSlot x _).slot y).state = .ready
  rw [List.mem_filter, h.ready, slot_modSlot]
  by_cases e : x = y
  · subst e; simp
  · simp [e, Ne.symm e]

theorem orderedBut_modSlot {s : State} (f : Slot → Slot) (h : OrderedBut x s) : OrderedBut x (s.modSlot x f) := by
  refine ⟨h.1, fun y => (h.2 y).trans (and_congr_right fun hne => ?_)⟩
  rw [slot_modSlot, if_neg (Ne.symm hne)]

/-- Once the taken slot reads something else than READY, the order is again that of the READY slots. -/
theorem dispatcherLaw_of_orderedBut {s : State} (hx : (s.slot x).state ≠ .ready) (h : OrderedBut x s) :
    DispatcherLaw s :=
  ⟨h.1, fun y => (h.2 y).trans ⟨And.right, fun hy => ⟨fun e => hx (e ▸ hy), hy⟩⟩⟩

theorem orderedBut_finishSlot {s : State} (c : Completion) (h : OrderedBut x s) : OrderedBut x (finishSlot x c s) := by
  have released : OrderedBut x (releaseBuffer (s.slot x).buffer s) := by
    rw [see_releaseBuffer orderedBut_pool]; exact h
  have absent : x ∉ s.readyOrder := fun hx => ((h.2 x).mp hx).1 rfl
  unfold finishSlot; dsimp only
  generalize releaseBuffer (s.slot x).buffer s = u at released ⊢
  exact ⟨released.1.filter _, fun y => by
    have hy := (orderedBut_modSlot (fun k => { k with
      state := .done, buffer := none, pending := PortSet.none, status := some c, deadline := .stopped }) released).2 y
    refine Iff.trans ?_ hy
    change y ∈ u.readyOrder.filter (· != x) ↔ y ∈ u.readyOrder
    rw [List.filter_eq_self.mpr]
    intro z hz
    simpa using ((released.2 z).mp hz).1⟩

/-- A slot that is taken leaves the order while it still reads READY, and is READY no more when the take has settled. -/
theorem dispatcherLaw_takePost {s : State} {i : RecordNo} (h : DispatcherLaw s) :
    DispatcherLaw (takePost x i s) := by
  have stamped : DispatcherLaw (stampRecord i (s.slot x).value s) := by
    rw [see_stampRecord dispatcherLaw_pool dispatcherLaw_topics]; exact h
  have settled (y : Placements) (hy : OrderedBut x y.state) : DispatcherLaw (settleSlot x y) := by
    unfold settleSlot; dsimp only; split
    · refine dispatcherLaw_of_orderedBut ?_ (orderedBut_finishSlot _ (orderedBut_modSlot _ hy))
      rw [slot_finishSlot, if_pos rfl]; simp [Slot.ended]
    · rw [modSlot_modSlot]
      exact dispatcherLaw_of_orderedBut (by simp) (orderedBut_modSlot _ hy)
  unfold takePost; dsimp only
  refine settled _ ?_
  rw [see_placeAll orderedBut_queues orderedBut_pool, see_answerAll orderedBut_queues orderedBut_pool
    orderedBut_fetches, see_removeSolicit orderedBut_solicits]
  exact orderedBut_stampSlot _ stamped

end taking

/-! ## Every event -/

theorem dispatcherLaw_events : EventsKeep DispatcherLaw := by
  have pool := dispatcherLaw_pool
  have queues := dispatcherLaw_queues
  have fetches := dispatcherLaw_fetches
  have topics := dispatcherLaw_topics
  have solicits := dispatcherLaw_solicits
  have port {s : State} {p : Port} {f : PortRecord → PortRecord} (hf : ∀ r, (f r).slots = r.slots)
      (h : DispatcherLaw s) : DispatcherLaw (s.modPort p f) := by rw [dispatcherLaw_modPort _ hf]; exact h
  refine ⟨?_, ?waiting, ?reset, ?parameterSet⟩
  constructor
  case waiting => exact fun s _ h => dispatcherLaw_of_eq (s := s) rfl (fun _ => rfl) h
  case link => exact fun s p f hf h => port (fun r => by rw [hf r]) h
  case reset =>
    refine fun s straps _ => ⟨List.nodup_nil, fun x => ?_⟩
    rw [slot_resetDevice]
    exact ⟨fun hx => absurd hx List.not_mem_nil, fun hx => nomatch hx⟩
  case tick =>
    refine fun s n h => dispatcherLaw_of_eq (s := s) rfl (fun x => ?_) h
    rw [slot_countPeriods]
  case quarantined => exact fun s p _ h => dispatcherLaw_quarantine h
  case holdRestarted => exact fun s p _ h => port (fun _ => by rfl) h
  case holdExpired => exact fun s p _ h => port (fun _ => by rfl) h
  case joined =>
    exact fun s p _ h => (dispatcherLaw_sessions.exchange _ _).mpr
      (port (s := s) (p := p) (f := fun r => { r with state := .online }) (fun _ => rfl) h)
  case left =>
    exact fun s p _ h => leavePort_keeps (Q := DispatcherLaw) (dispatcherLaw_leaveEffects (port (fun _ => by rfl) h))
      (fun _ _ hs => dispatcherLaw_teardown hs) (fun _ _ _ hs => dispatcherLaw_teardown hs) fun _ hs => hs
  case recovered => exact fun s p _ _ h => port (fun _ => by rfl) h
  case missedCleared => exact fun s p h => port (fun _ => by rfl) h
  case parameterSet => exact fun s i v _ h => dispatcherLaw_of_eq (s := s) rfl (fun _ => rfl) h
  case topicDeclared => exact fun s p i t kind limit _ _ _ _ h => (topics.topic s i _).mpr h
  case topicRedeclared => exact fun s i t kind limit _ _ _ _ h => (topics.topic s i _).mpr h
  case topicAdopted => exact fun s p i t limit _ _ _ h => (topics.topic s i _).mpr h
  case topicRetired =>
    intro s p i t _ _ _ _ h
    unfold retireRecord; dsimp only
    rw [see_freeRecord pool topics, see_removeSolicit solicits, see_answerAll queues pool fetches]
    exact h
  case topicPurged => exact fun s i t _ _ _ h => by rw [see_freeRecord pool topics]; exact h
  case subscribed => exact fun s p i pattern mask options _ _ _ h => (dispatcherLaw_subscriptions.subscriptions s _).mpr h
  case unsubscribed => exact fun s i h => (dispatcherLaw_subscriptions.subscriptions s _).mpr h
  case postOpened =>
    intro s x t priority i b _ he _ _ _ _ h
    have allocated : DispatcherLaw (allocateBuffer b s) := (pool.buffer s b _).mpr h
    exact dispatcherLaw_modSlot (s := allocateBuffer b s) (by change _ ↔ (s.slot x).state = _; simp [he]) allocated
  case payloadWritten =>
    intro s x offset data _ h
    unfold writePayload; dsimp only
    refine dispatcherLaw_modSlot Iff.rfl ?_
    split <;> [exact h; (rw [pool.buffer]; exact h)]
  case submitted =>
    intro s x hx h
    have absent : x ∉ s.readyOrder := fun hr => by rw [h.ready, hx] at hr; cases hr
    refine ⟨List.nodup_append.mpr ⟨h.once, List.nodup_singleton x, fun a ha b hb e => ?_⟩, fun y => ?_⟩
    · rw [e, List.mem_singleton.mp hb] at ha; exact absent ha
    · change y ∈ s.readyOrder ++ [x] ↔ ((s.modSlot x _).slot y).state = .ready
      rw [List.mem_append, List.mem_singleton, h.ready, slot_modSlot]
      by_cases e : x = y
      · subst e; simp
      · simp [e, Ne.symm e]
  case slotEmptied => exact fun s x _ h => dispatcherLaw_emptySlot x h
  case readyAborted => exact fun s x _ h => dispatcherLaw_finishSlot x _ h
  case deferredEnded => exact fun s x c _ h => dispatcherLaw_endDrains (dispatcherLaw_endDeferred x c h)
  case windowSet => exact fun s p _ _ _ _ _ h => port (fun _ => by rfl) h
  case viewRead => exact fun s p n h => readBytes_keeps (fun _ hq hs => dispatcherLaw_passByte hq hs) n [] h
  case consumed => exact fun s p hq h => dispatcherLaw_consumeHead hq h
  case answeredNow => exact fun s p d _ _ _ h => by rw [see_giveAnswer queues pool]; exact h
  case fetchWaits =>
    intro s p t i j wait _ hlt _ _ _ hj h
    rw [see_solicit solicits, fetches.fetch]; exact h
  case fetchCancelled => exact fun s i f _ h => by rw [see_dropIdleSolicit solicits, fetches.fetch]; exact h
  case solicitsRead => exact fun s p h => port (fun _ => by rfl) h
  case taken => exact fun s x i _ _ h => dispatcherLaw_takePost h
  case lapsed =>
    intro s i t _ _ _ h
    unfold lapse; dsimp only
    rw [see_issueNotices queues, topics.topic]; exact h
  case fetchExpired =>
    intro s i f hf h
    rw [see_dropIdleSolicit solicits, fetches.fetch, see_giveAnswer queues pool]; exact h

/-- Settles O56. -/
theorem stepKeepsTheDispatcherLaw : Obligations.StepKeepsTheDispatcherLaw :=
  fun _ _ h ht => step_keeps_of_events dispatcherLaw_events h ht

end Sys2Proof.Machine
end

