-- ==== Sys2Proof/Proofs/PoolLaw.lean ====
section
/-! The law of the payload buffer pool (O51): in the midst of an event a buffer has as many references as holders and
as many more as the event owes. Each operation says by how much it changes what is owed. -/
namespace Sys2Proof.Machine
set_option Elab.async false

/-! ## Counts that change at one place -/

section counts
variable {α : Type} [DecidableEq α] {l : List α} {a : α}

theorem countP_change (hn : l.Nodup) (ha : a ∈ l) {c d : α → Bool} (h : ∀ b, b ≠ a → c b = d b) :
    l.countP c + (d a).toNat = l.countP d + (c a).toNat := by
  have split_at (e : α → Bool) : l.countP e = (l.erase a).countP e + (e a).toNat := by
    rw [(List.perm_cons_erase ha).countP_eq, List.countP_cons]; cases e a <;> rfl
  have others : (l.erase a).countP c = (l.erase a).countP d :=
    List.countP_congr fun b hb => by rw [h b (hn.mem_erase_iff.1 hb).1]
  rw [split_at c, split_at d, others]; omega

theorem sum_change (hn : l.Nodup) (ha : a ∈ l) {f g : α → Nat} (h : ∀ b, b ≠ a → f b = g b) :
    (l.map f).sum + g a = (l.map g).sum + f a := by
  have split_at (e : α → Nat) : (l.map e).sum = e a + ((l.erase a).map e).sum :=
    ((List.perm_cons_erase ha).map e).sum_eq
  have others : (l.erase a).map f = (l.erase a).map g :=
    List.map_congr_left fun b hb => h b (hn.mem_erase_iff.1 hb).1
  rw [split_at f, split_at g, others]; omega

end counts

theorem nodup_allPorts : allPorts.Nodup := by decide
theorem mem_allPorts (p : Port) : p ∈ allPorts := by fin_cases p <;> decide
theorem nodup_allSlots : allSlots.Nodup := by decide

/-! ## Holders -/

/-- The references that a port's queue and deferral list hold on a buffer. -/
def PortRecord.holds (b : BufferNo) (r : PortRecord) : Nat :=
  r.queue.countP (fun d => carries b d.payload) + r.deferral.countP (·.carries b)

theorem countP_carries_append (b : BufferNo) (l : List Delivery) (d : Delivery) :
    (l ++ [d]).countP (fun d => carries b d.payload) =
      l.countP (fun d => carries b d.payload) + (carries b d.payload).toNat := by
  rw [List.countP_append, List.countP_singleton]; cases carries b d.payload <;> rfl

theorem countP_carries_cons (b : BufferNo) (l : List Delivery) (d : Delivery) :
    (d :: l).countP (fun d => carries b d.payload) =
      l.countP (fun d => carries b d.payload) + (carries b d.payload).toNat := by
  rw [List.countP_cons]; cases carries b d.payload <;> rfl

theorem countP_entries_cons (b : BufferNo) (l : List DeferralEntry) (e : DeferralEntry) :
    (e :: l).countP (·.carries b) = l.countP (·.carries b) + (e.carries b).toNat := by
  rw [List.countP_cons]; cases e.carries b <;> rfl

theorem holds_appendQueue (b : BufferNo) (r : PortRecord) (d : Delivery) :
    PortRecord.holds b { r with queue := r.queue ++ [d] } = r.holds b + (carries b d.payload).toNat := by
  unfold PortRecord.holds; rw [countP_carries_append, Nat.add_right_comm]

theorem holds_appendDeferral (b : BufferNo) (r : PortRecord) (e : DeferralEntry) :
    PortRecord.holds b { r with deferral := r.deferral ++ [e] } = r.holds b + (e.carries b).toNat := by
  have he : [e].countP (fun e => e.carries b) = (e.carries b).toNat := by
    rw [List.countP_singleton]; cases e.carries b <;> rfl
  unfold PortRecord.holds; rw [List.countP_append, he, Nat.add_assoc]

theorem holders_eq (s : State) (b : BufferNo) : holders s b =
    allSlots.countP (fun x => (s.slot x).buffer == some b) +
      (List.finRange 128).countP (fun i => carries b (s.topic i).retained) +
      (allPorts.map fun p => (s.port p).holds b).sum := rfl

/-- The references and the holders of every buffer agree but for the `owed` references that stand over; neither an
EMPTY slot nor a FREE record is a holder. -/
structure PoolOwes (owed : BufferNo → Nat) (s : State) : Prop where
  references : ∀ b, (s.buffer b).references = holders s b + owed b
  emptySlots : ∀ x, (s.slot x).state = .empty → (s.slot x).buffer = none
  freeRecords : ∀ i, (s.topic i).state = .free → (s.topic i).retained = none

theorem poolLaw_iff {s : State} : PoolLaw s ↔ PoolOwes (fun _ => 0) s :=
  ⟨fun h => ⟨h.references, h.emptySlots, h.freeRecords⟩, fun h => ⟨h.references, h.emptySlots, h.freeRecords⟩⟩

section rules
variable {o o' : BufferNo → Nat} {s : State}

/-! ### What the pool law sees -/

/-- What the law sees: of a slot its buffer, of a record its value, of a port what its lists hold. -/
theorem poolOwes_of_seen {t : State}
    (hx : ∀ x, (t.slot x).buffer = (s.slot x).buffer ∧ ((t.slot x).state = .empty → (s.slot x).state = .empty))
    (hi : ∀ i, (t.topic i).retained = (s.topic i).retained ∧ ((t.topic i).state = .free → (s.topic i).state = .free))
    (hp : ∀ p b, (t.port p).holds b = (s.port p).holds b)
    (hb : ∀ b, (t.buffer b).references = (s.buffer b).references) (h : PoolOwes o s) : PoolOwes o t where
  references b := by
    have held : holders t b = holders s b := by simp only [holders_eq, hx, hi, hp]
    rw [hb, h.references, held]
  emptySlots x e := (hx x).1.trans (h.emptySlots x ((hx x).2 e))
  freeRecords i e := (hi i).1.trans (h.freeRecords i ((hi i).2 e))

theorem poolOwes_congr {t : State} (hx : ∀ x, t.slot x = s.slot x) (hi : ∀ i, t.topic i = s.topic i)
    (hp : ∀ p b, (t.port p).holds b = (s.port p).holds b)
    (hb : ∀ b, (t.buffer b).references = (s.buffer b).references) : PoolOwes o t = PoolOwes o s :=
  propext ⟨poolOwes_of_seen (fun x => by simp [hx]) (fun i => by simp [hi]) (fun p b => (hp p b).symm) fun b => (hb b).symm,
    poolOwes_of_seen (fun x => by simp [hx]) (fun i => by simp [hi]) hp hb⟩

theorem poolOwes_of_eq {t : State} (hx : ∀ x, t.slot x = s.slot x) (hi : ∀ i, t.topic i = s.topic i)
    (hp : ∀ p b, (t.port p).holds b = (s.port p).holds b)
    (hb : ∀ b, (t.buffer b).references = (s.buffer b).references) (h : PoolOwes o s) : PoolOwes o t :=
  (poolOwes_congr hx hi hp hb).mpr h

/-- A change of a port's record that leaves its slots alone changes what is owed by what its lists hold. -/
theorem poolOwes_modPort {p : Port} {f : PortRecord → PortRecord} (hf : ∀ r, (f r).slots = r.slots)
    (hh : ∀ b, (f (s.port p)).holds b + o' b = (s.port p).holds b + o b) (h : PoolOwes o s) :
    PoolOwes o' (s.modPort p f) where
  references b := by
    have sums := sum_change nodup_allPorts (mem_allPorts p) (f := fun q => ((s.modPort p f).port q).holds b)
      (g := fun q => (s.port q).holds b) fun q hq => by rw [port_modPort_ne s f (Ne.symm hq)]
    have held := hh b
    rw [port_modPort_same] at sums
    rw [buffer_modPort, h.references, holders_eq, holders_eq]
    simp only [slot_modPort s hf, topic_modPort]
    omega
  emptySlots x hx := by rw [slot_modPort s hf] at hx ⊢; exact h.emptySlots x hx
  freeRecords := h.freeRecords

theorem poolOwes_modPort_eq {p : Port} {f : PortRecord → PortRecord} (s : State) (hf : ∀ r, (f r).slots = r.slots)
    (hq : ∀ r, (f r).queue = r.queue) (hd : ∀ r, (f r).deferral = r.deferral) :
    PoolOwes o (s.modPort p f) = PoolOwes o s := by
  refine poolOwes_congr (fun x => slot_modPort s hf x) (fun _ => rfl) (fun q b => ?_) fun _ => rfl
  rw [port_modPort]; split
  · unfold PortRecord.holds; rw [hq, hd]
  · rfl

theorem poolOwes_solicits : SolicitBlind (PoolOwes o) :=
  ⟨fun s _ _ => poolOwes_modPort_eq s (fun _ => by rfl) (fun _ => by rfl) fun _ => by rfl⟩
theorem poolOwes_cursors : CursorBlind (PoolOwes o) :=
  ⟨fun s _ _ => poolOwes_modPort_eq s (fun _ => by rfl) (fun _ => by rfl) fun _ => by rfl⟩
theorem poolOwes_sessions : SessionBlind (PoolOwes o) :=
  ⟨fun s _ _ => poolOwes_modPort_eq s (fun _ => by rfl) (fun _ => by rfl) fun _ => by rfl,
    fun s _ _ => poolOwes_modPort_eq s (fun _ => by rfl) (fun _ => by rfl) fun _ => by rfl,
    fun s _ => poolOwes_congr (s := s) (fun _ => rfl) (fun _ => rfl) (fun _ _ => rfl) fun _ => rfl⟩
theorem poolOwes_fetches : FetchBlind (PoolOwes o) :=
  ⟨fun s _ _ => poolOwes_congr (s := s) (fun _ => rfl) (fun _ => rfl) (fun _ _ => rfl) fun _ => rfl⟩
theorem poolOwes_subscriptions : SubscriptionBlind (PoolOwes o) :=
  ⟨fun s _ => poolOwes_congr (s := s) (fun _ => rfl) (fun _ => rfl) (fun _ _ => rfl) fun _ => rfl⟩

/-! ### References -/

theorem poolOwes_takePayload (v : Option Payload) (h : PoolOwes o s) :
    PoolOwes (fun b => o b + (carries b v).toNat) (takePayload v s) := by
  cases v with
  | none => exact h
  | some v =>
    refine ⟨fun b => ?_, h.emptySlots, h.freeRecords⟩
    change ((s.modBuffer v.buffer _).buffer b).references = holders s b + _
    rw [buffer_modBuffer]
    by_cases e : v.buffer = b
    · simp [e, h.references, carries, Nat.add_assoc]
    · simp [e, h.references, carries]

theorem poolOwes_releasePayload {v : Option Payload} (h : PoolOwes (fun b => o b + (carries b v).toNat) s) :
    PoolOwes o (releasePayload v s) := by
  cases v with
  | none => exact h
  | some v =>
    refine ⟨fun b => ?_, h.emptySlots, h.freeRecords⟩
    change ((s.modBuffer v.buffer _).buffer b).references = holders s b + _
    rw [buffer_modBuffer]
    by_cases e : v.buffer = b
    · simp [e, h.references, carries, ← Nat.add_assoc]
    · simp [e, h.references, carries]

/-! ### Slots and records -/

/-- A change of a slot changes what is owed by what the slot holds. -/
theorem poolOwes_modSlot {x : SlotName} {f : Slot → Slot}
    (he : (f (s.slot x)).state = .empty → (f (s.slot x)).buffer = none)
    (hh : ∀ b, ((f (s.slot x)).buffer == some b).toNat + o' b = ((s.slot x).buffer == some b).toNat + o b)
    (h : PoolOwes o s) : PoolOwes o' (s.modSlot x f) where
  references b := by
    have sums := countP_change nodup_allSlots (mem_allSlots x) (c := fun y => ((s.modSlot x f).slot y).buffer == some b)
      (d := fun y => (s.slot y).buffer == some b) fun y hy => by rw [slot_modSlot_ne s f (Ne.symm hy)]
    have held := hh b
    have lists (q : Port) : ((s.modSlot x f).port q).holds b = (s.port q).holds b := by
      rw [port_modSlot]; split <;> rfl
    rw [slot_modSlot_same] at sums
    rw [buffer_modSlot, h.references, holders_eq, holders_eq]
    simp only [topic_modSlot, lists]
    omega
  emptySlots y hy := by
    by_cases e : x = y
    · subst e; rw [slot_modSlot_same] at hy ⊢; exact he hy
    · rw [slot_modSlot_ne s f e] at hy ⊢; exact h.emptySlots y hy
  freeRecords := h.freeRecords

theorem poolOwes_modSlot_buffer {x : SlotName} {f : Slot → Slot} (hb : (f (s.slot x)).buffer = (s.slot x).buffer)
    (he : (f (s.slot x)).state = .empty → (s.slot x).state = .empty) (h : PoolOwes o s) :
    PoolOwes o (s.modSlot x f) :=
  poolOwes_modSlot (fun e => hb.trans (h.emptySlots x (he e))) (fun b => by rw [hb]) h

/-- A change of a record changes what is owed by what the record retains. -/
theorem poolOwes_modTopic {i : RecordNo} {f : TopicRecord → TopicRecord}
    (he : (f (s.topic i)).state = .free → (f (s.topic i)).retained = none)
    (hh : ∀ b, (carries b (f (s.topic i)).retained).toNat + o' b = (carries b (s.topic i).retained).toNat + o b)
    (h : PoolOwes o s) : PoolOwes o' (s.modTopic i f) where
  references b := by
    have sums : (List.finRange 128).countP (fun j => carries b ((s.modTopic i f).topic j).retained) +
        (carries b (s.topic i).retained).toNat =
        (List.finRange 128).countP (fun j => carries b (s.topic j).retained) +
        (carries b ((s.modTopic i f).topic i).retained).toNat :=
      countP_change (List.nodup_finRange 128) (List.mem_finRange i)
        (c := fun j => carries b ((s.modTopic i f).topic j).retained) (d := fun j => carries b (s.topic j).retained)
        fun j hj => by rw [topic_modTopic, if_neg (Ne.symm hj)]
    have held := hh b
    rw [topic_modTopic_same] at sums
    rw [buffer_modTopic, h.references, holders_eq, holders_eq]
    simp only [slot_modTopic, port_modTopic]
    omega
  emptySlots := h.emptySlots
  freeRecords j hj := by
    by_cases e : i = j
    · subst e; rw [topic_modTopic_same] at hj ⊢; exact he hj
    · rw [topic_modTopic, if_neg e] at hj ⊢; exact h.freeRecords j hj

theorem poolOwes_modTopic_retained {i : RecordNo} {f : TopicRecord → TopicRecord}
    (hb : (f (s.topic i)).retained = (s.topic i).retained)
    (he : (f (s.topic i)).state = .free → (s.topic i).state = .free) (h : PoolOwes o s) :
    PoolOwes o (s.modTopic i f) :=
  poolOwes_modTopic (fun e => hb.trans (h.freeRecords i (he e))) (fun b => by rw [hb]) h

end rules

/-! ## The operations -/

section operations
variable {o : BufferNo → Nat} {s : State}

theorem releaseBuffer_modSlot (b : Option BufferNo) (x : SlotName) (f : Slot → Slot) (s : State) :
    (releaseBuffer b s).modSlot x f = releaseBuffer b (s.modSlot x f) := by cases b <;> rfl

theorem releaseBuffer_eq (b : Option BufferNo) (s : State) :
    releaseBuffer b s = releasePayload (b.map fun c => { buffer := c, length := 0 }) s := by cases b <;> rfl

theorem releasePayload_modTopic (v : Option Payload) (i : RecordNo) (f : TopicRecord → TopicRecord) (s : State) :
    (releasePayload v s).modTopic i f = releasePayload v (s.modTopic i f) := by cases v <;> rfl

theorem takePayload_modTopic (v : Option Payload) (i : RecordNo) (f : TopicRecord → TopicRecord) (s : State) :
    (takePayload v s).modTopic i f = takePayload v (s.modTopic i f) := by cases v <;> rfl

theorem modTopic_modTopic (s : State) (i : RecordNo) (f g : TopicRecord → TopicRecord) :
    (s.modTopic i f).modTopic i g = s.modTopic i fun r => g (f r) := by simp [State.modTopic, update_update]

theorem modTopic_congr (s : State) {i : RecordNo} {f g : TopicRecord → TopicRecord}
    (h : f (s.topic i) = g (s.topic i)) : s.modTopic i f = s.modTopic i g := by
  unfold State.modTopic update; rw [show f s.topics[i.val] = g s.topics[i.val] from h]

theorem topic_releasePayload (v : Option Payload) (s : State) (i : RecordNo) :
    (releasePayload v s).topic i = s.topic i := by cases v <;> rfl

theorem topic_takePayload (v : Option Payload) (s : State) (i : RecordNo) :
    (takePayload v s).topic i = s.topic i := by cases v <;> rfl

/-- A slot that gives up its buffer releases the reference. -/
theorem poolOwes_slotEnded {x : SlotName} {f : Slot → Slot} (hf : (f (s.slot x)).buffer = none) (h : PoolOwes o s) :
    PoolOwes o ((releaseBuffer (s.slot x).buffer s).modSlot x f) := by
  rw [releaseBuffer_modSlot, releaseBuffer_eq]
  refine poolOwes_releasePayload (poolOwes_modSlot (fun _ => hf) (fun b => ?_) h)
  rw [hf]
  cases (s.slot x).buffer with
  | none => rfl
  | some c => simp [carries, Nat.add_comm]

theorem poolOwes_order (l : List SlotName) : PoolOwes o { s with readyOrder := l } = PoolOwes o s :=
  poolOwes_congr (s := s) (fun _ => rfl) (fun _ => rfl) (fun _ _ => rfl) fun _ => rfl

theorem poolOwes_emptySlot (x : SlotName) (h : PoolOwes o s) : PoolOwes o (emptySlot x s) :=
  (poolOwes_order _).mpr (poolOwes_slotEnded (f := fun _ => Slot.reset) rfl h)

theorem poolOwes_finishSlot (x : SlotName) (c : Completion) (h : PoolOwes o s) : PoolOwes o (finishSlot x c s) :=
  (poolOwes_order _).mpr (poolOwes_slotEnded (f := Slot.ended c) rfl h)

theorem poolOwes_serveSlot (x : SlotName) (p : Port) (h : PoolOwes o s) : PoolOwes o (serveSlot x p s).1 :=
  serveSlot_keeps (fun _ hs => poolOwes_modSlot_buffer (by rfl) id hs) (fun _ _ hs => poolOwes_finishSlot x _ hs) h

theorem poolOwes_failSlot (x : SlotName) (p : Port) (h : PoolOwes o s) : PoolOwes o (failSlot x p s).1 :=
  failSlot_keeps (fun _ hs => poolOwes_modSlot_buffer (by rfl) id hs) (fun _ _ hs => poolOwes_finishSlot x _ hs) h

/-! ### Placements -/

theorem poolOwes_appended {p : Port} {d : Delivery}
    (h : PoolOwes (fun b => o b + (carries b d.payload).toNat) s) : PoolOwes o (appendDelivery p d s) :=
  poolOwes_modPort (fun _ => by rfl) (fun b => by rw [holds_appendQueue]; omega) h

theorem poolOwes_deferred {p : Port} {e : DeferralEntry} (h : PoolOwes (fun b => o b + (e.carries b).toNat) s) :
    PoolOwes o (appendDeferral p e s) :=
  poolOwes_modPort (fun _ => by rfl) (fun b => by rw [holds_appendDeferral]; omega) h

theorem poolOwes_giveAnswer (p : Port) (d : Delivery) (h : PoolOwes o s) : PoolOwes o (giveAnswer p d s) := by
  have taken := poolOwes_takePayload d.payload h
  unfold giveAnswer placeAnswer
  split
  · exact poolOwes_appended taken
  · exact poolOwes_deferred (e := .answer d) taken

/-- A notice carries no value. -/
theorem poolOwes_placeNotice (p : Port) {d : Delivery} (hd : d.payload = none) (h : PoolOwes o s) :
    PoolOwes o (placeNotice p d s) := by
  unfold placeNotice; split
  · exact poolOwes_appended (by rw [hd]; exact h)
  · rw [poolOwes_modPort_eq]
    · exact h
    all_goals exact fun _ => rfl

theorem coalescingTarget_get {t : Word} {queue : List Delivery} {n : Nat} {d : Delivery}
    (h : coalescingTarget t queue = some (n, d)) : queue[n]? = some d := by
  unfold coalescingTarget at h
  cases hn : newestPost t queue with
  | none => rw [hn] at h; cases h
  | some m =>
    cases hm : queue[m]? with
    | none => simp [hn, hm] at h
    | some e => simp [hn, hm] at h; obtain ⟨_, rfl, rfl⟩ := h; exact hm

theorem holds_setQueue {b : BufferNo} {r : PortRecord} {n : Nat} {old new : Delivery} (hn : r.queue[n]? = some old) :
    PortRecord.holds b { r with queue := r.queue.set n new } + (carries b old.payload).toNat =
      r.holds b + (carries b new.payload).toNat := by
  obtain ⟨hlt, rfl⟩ := List.getElem?_eq_some_iff.mp hn
  have hle := (List.countP_pos_iff (p := fun d : Delivery => carries b d.payload) (l := r.queue)).mpr
  unfold PortRecord.holds
  dsimp only
  rw [List.countP_set hlt]
  by_cases ho : carries b r.queue[n].payload = true
  · have := hle ⟨_, List.getElem_mem hlt, ho⟩
    simp only [ho, if_true, Bool.toNat_true]
    cases carries b new.payload <;> (simp; omega)
  · simp only [ho, Bool.toNat_false]
    cases carries b new.payload <;> simp [Nat.add_right_comm]

theorem poolOwes_placePost (x : SlotName) (p : Port) (i : SubIndex) (latest : Bool) (h : PoolOwes o s) :
    PoolOwes o (placePost x p i latest s).1 := by
  have taken := poolOwes_takePayload (s.slot x).value h
  have deferred : PoolOwes o (appendDeferral p (.slot x i latest) s) := poolOwes_deferred h
  by_cases hd : (s.port p).deferral = []
  · cases hc : mayCoalesceInto s x p latest with
    | none =>
      by_cases hl : (s.port p).queue.length < 32
      · rw [placePost_appended hd hc hl]; exact poolOwes_appended taken
      · rw [placePost_full hd hc (Nat.le_of_not_lt hl)]; exact deferred
    | some target =>
      obtain ⟨n, old⟩ := target
      have hn : (s.port p).queue[n]? = some old := by
        unfold mayCoalesceInto at hc
        cases latest with
        | false => cases hc
        | true => exact coalescingTarget_get hc
      rw [placePost_coalesced hd hc]
      refine poolOwes_releasePayload (poolOwes_modPort (fun _ => by rfl) (fun b => ?_) taken)
      have hset := holds_setQueue (b := b) hn
        (new := old.coalesced (s.slot x).value ((s.slot x).version.getD 0) x.owner i)
      rw [port_takePayload]
      have payload : (old.coalesced (s.slot x).value ((s.slot x).version.getD 0) x.owner i).payload = (s.slot x).value :=
        rfl
      rw [payload] at hset
      omega
  · rw [placePost_behindList hd]; exact deferred

/-! ### Records -/

theorem poolOwes_freeRecord (i : RecordNo) (h : PoolOwes o s) : PoolOwes o (freeRecord i s) := by
  unfold freeRecord
  rw [releasePayload_modTopic]
  refine poolOwes_releasePayload (poolOwes_modTopic (fun _ => rfl) (fun b => ?_) h)
  rw [show (TopicRecord.reset).retained = none from rfl]
  simp [carries, Nat.add_comm]

/-- A record that has given up its value. -/
def TopicRecord.vacated (r : TopicRecord) : TopicRecord := { r with retained := none }

theorem poolOwes_stampRecord {i : RecordNo} (v : Option Payload) (hi : (s.topic i).state ≠ .free) (h : PoolOwes o s) :
    PoolOwes o (stampRecord i v s) := by
  unfold stampRecord; dsimp only
  cases hk : (s.topic i).kind with
  | event =>
    exact poolOwes_modTopic_retained (by simp [TopicRecord.stamped, hk]) (by simp [TopicRecord.stamped, hk]) h
  | state =>
    have released : PoolOwes o ((releasePayload (s.topic i).retained s).modTopic i TopicRecord.vacated) := by
      rw [releasePayload_modTopic]
      exact poolOwes_releasePayload (poolOwes_modTopic (fun _ => rfl) (fun b => Nat.add_left_comm _ _ _ ▸ by
        simp [TopicRecord.vacated, carries, Nat.add_comm]) h)
    have split : (takePayload v (releasePayload (s.topic i).retained s)).modTopic i (fun r => r.stamped v) =
        (takePayload v ((releasePayload (s.topic i).retained s).modTopic i TopicRecord.vacated)).modTopic i
          fun _ => (s.topic i).stamped v := by
      rw [← takePayload_modTopic, modTopic_modTopic]
      exact modTopic_congr _ (by rw [topic_takePayload, topic_releasePayload])
    dsimp only
    rw [split]
    refine poolOwes_modTopic ?_ ?_ (poolOwes_takePayload v released)
    · intro e; exact absurd (by simpa [TopicRecord.stamped, hk] using e) hi
    · intro b
      rw [topic_takePayload, topic_modTopic_same]
      simp [TopicRecord.stamped, hk, TopicRecord.vacated, carries, Nat.add_comm]

/-! ### A queue and a deferral list that are emptied -/

theorem poolOwes_releaseAll (l : List Delivery) (h : PoolOwes (fun b => o b + l.countP fun d => carries b d.payload) s) :
    PoolOwes o (l.foldl (fun s d => releasePayload d.payload s) s) := by
  induction l generalizing s with
  | nil => exact h
  | cons d l ih =>
    refine ih (poolOwes_releasePayload ?_)
    convert h using 2 with b
    rw [countP_carries_cons, Nat.add_assoc]

theorem releaseAll_modPort (l : List Delivery) (p : Port) (f : PortRecord → PortRecord) (s : State) :
    (l.foldl (fun s d => releasePayload d.payload s) s).modPort p f =
      l.foldl (fun s d => releasePayload d.payload s) (s.modPort p f) := by
  induction l generalizing s with
  | nil => rfl
  | cons d l ih => rw [List.foldl_cons, List.foldl_cons, ih, releasePayload_modPort]

theorem poolOwes_emptyQueue (p : Port) (h : PoolOwes o s) : PoolOwes o (emptyQueue p s) := by
  unfold emptyQueue
  rw [releaseAll_modPort]
  refine poolOwes_releaseAll _ (poolOwes_modPort (fun _ => by rfl) (fun b => ?_) h)
  unfold PortRecord.holds; dsimp only
  rw [List.countP_nil]; omega

theorem poolOwes_discardAll {p : Port} (l : List DeferralEntry) (y : State × List Port)
    (h : PoolOwes (fun b => o b + l.countP (·.carries b)) y.1) : PoolOwes o (l.foldl (discardEntry p) y).1 := by
  induction l generalizing y with
  | nil => exact h
  | cons e l ih =>
    refine ih _ ?_
    cases e with
    | answer d =>
      refine poolOwes_releasePayload (v := d.payload) ?_
      convert h using 2 with b
      rw [countP_entries_cons, Nat.add_assoc]
      rfl
    | slot x i c => exact poolOwes_failSlot x p h

theorem poolOwes_emptyDeferral (p : Port) (h : PoolOwes o s) : PoolOwes o (emptyDeferral p s).1 := by
  refine poolOwes_discardAll _ (_, []) (poolOwes_modPort (fun _ => by rfl) (fun b => ?_) h)
  unfold PortRecord.holds; dsimp only
  rw [List.countP_nil]; omega

/-! ### The events -/

theorem poolOwes_teardown {p : Port} {q : Bool} (h : PoolOwes o s) : PoolOwes o (teardown q p s).1 := by
  rw [teardown_fst, see_judgeExchange poolOwes_sessions]
  unfold teardownBlocks
  rw [see_closePort poolOwes_sessions, see_homeCursor poolOwes_cursors]
  refine emptySlots_keeps (fun _ x _ hs => poolOwes_emptySlot x hs) ?_
  rw [poolOwes_modPort_eq]
  · exact poolOwes_emptyDeferral p (poolOwes_emptyQueue p h)
  all_goals exact fun _ => rfl

theorem poolOwes_endDrains {y : State × List Port} (h : PoolOwes o y.1) : PoolOwes o (endDrains y) :=
  endDrains_keeps (fun _ _ _ hs => poolOwes_teardown hs) h

theorem poolOwes_deleteEntries (x : SlotName) (h : PoolOwes o s) : PoolOwes o (deleteEntries x s) := by
  refine foldl_keeps _ (fun s p _ hs => ?_) h
  unfold deleteEntryAt; split
  · refine poolOwes_modPort (fun _ => by rfl) (fun b => ?_) hs
    unfold PortRecord.holds; dsimp only
    rw [List.countP_filter]
    congr 3
    funext e
    cases e <;> simp [DeferralEntry.carries, DeferralEntry.standsFor]
  · exact hs

theorem poolOwes_endDeferred (x : SlotName) (c : Completion) (h : PoolOwes o s) : PoolOwes o (endDeferred x c s) := by
  have deleted := poolOwes_deleteEntries x h
  unfold endDeferred; dsimp only
  generalize deleteEntries x s = u at deleted ⊢
  exact poolOwes_finishSlot x c (poolOwes_modSlot_buffer (by rfl) id deleted)

theorem poolOwes_answerAll (d : Delivery) (h : PoolOwes o s) : PoolOwes o (answerAll d s) :=
  answerAll_keeps (fun s i f _ _ hs => by rw [poolOwes_fetches.fetch]; exact poolOwes_giveAnswer f.requester d hs) h

theorem poolOwes_leaveEffects {p : Port} (h : PoolOwes o s) : PoolOwes o (leaveEffects p s) := by
  unfold leaveEffects
  rw [see_clearSolicits poolOwes_solicits]
  refine orphanTopics_keeps (fun s i t _ hs => orphanRecord_keeps (fun s j f d _ _ _ hs => ?_)
    (fun s t hs => ?_) (fun s hs => ?_) (fun s t v q j hs => poolOwes_placeNotice _ rfl hs)
    (fun s hs => poolOwes_freeRecord i hs) hs) ?_
  · rw [poolOwes_fetches.fetch]; exact poolOwes_giveAnswer f.requester d hs
  · rw [see_removeSolicit poolOwes_solicits]; exact hs
  · exact poolOwes_modTopic_retained (by rfl) (fun e => by cases e) hs
  · rw [see_removeFetches poolOwes_solicits poolOwes_fetches, see_freeSubscriptionsOf poolOwes_subscriptions]
    exact leaveSlots_keeps (fun _ x _ _ hs => poolOwes_emptySlot x hs) (fun _ x _ _ hs => poolOwes_finishSlot x _ hs) h

theorem poolOwes_quarantine {p : Port} (h : PoolOwes o s) : PoolOwes o (quarantine p s) := by
  have port {u : State} {f : PortRecord → PortRecord} (hf : ∀ r, (f r).slots = r.slots)
      (hq : ∀ r, (f r).queue = r.queue) (hd : ∀ r, (f r).deferral = r.deferral) (hu : PoolOwes o u) :
      PoolOwes o (u.modPort p f) := by rw [poolOwes_modPort_eq u hf hq hd]; exact hu
  have cut : PoolOwes o (cutRequest p s) := port (fun _ => by rfl) (fun _ => by rfl) (fun _ => by rfl) h
  have held {u : State} (hu : PoolOwes o u) : PoolOwes o (startHold p u) :=
    port (fun _ => by rfl) (fun _ => by rfl) (fun _ => by rfl) hu
  have torn {u : State} (hu : PoolOwes o u) :
      PoolOwes o (endDrains (teardown true p (abortDeferredSlots p u))) :=
    poolOwes_endDrains (poolOwes_teardown
      (abortDeferredSlots_keeps (fun _ x _ _ hs => poolOwes_endDeferred x _ hs) hu))
  unfold quarantine; dsimp only
  split
  · exact held ((see_closePort poolOwes_sessions _ p _).mpr cut)
  · exact held (torn (poolOwes_leaveEffects cut))
  · exact held (torn cut)
  · exact held cut

/-- The head gone and its reference released, before an entry moves into the place. -/
theorem poolOwes_headRemoved {p : Port} {d : Delivery} {rest : List Delivery} (hq : (s.port p).queue = d :: rest)
    (h : PoolOwes o s) : PoolOwes o ((releasePayload d.payload s).modPort p fun r => { r with queue := rest }) := by
  rw [← releasePayload_modPort]
  refine poolOwes_releasePayload (poolOwes_modPort (fun _ => by rfl) (fun b => ?_) h)
  unfold PortRecord.holds; dsimp only
  rw [hq, countP_carries_cons]; omega

theorem consumed_headRemoved (u : State) (p : Port) (rest queue : List Delivery) (entries : List DeferralEntry) :
    (u.modPort p fun r => { r with queue := rest }).modPort p (PortRecord.consumed queue entries) =
      u.modPort p (PortRecord.consumed queue entries) := modPort_modPort ..

theorem holds_consumed (b : BufferNo) (r : PortRecord) (queue : List Delivery) (entries : List DeferralEntry) :
    (r.consumed queue entries).holds b =
      queue.countP (fun d => carries b d.payload) + entries.countP (·.carries b) := rfl

theorem poolOwes_consumption {p : Port} {d : Delivery} {rest : List Delivery} (hq : (s.port p).queue = d :: rest)
    (h : PoolOwes o s) : PoolOwes o (consumption p d rest s).1 := by
  have removed := poolOwes_headRemoved hq h
  have held (b : BufferNo) : (((releasePayload d.payload s).modPort p fun r => { r with queue := rest }).port p).holds b =
      rest.countP (fun d => carries b d.payload) + (s.port p).deferral.countP (·.carries b) := by
    rw [port_modPort_same, port_releasePayload]; rfl
  unfold consumption; split
  · split
    · next hd =>
      rw [← consumed_headRemoved]
      exact poolOwes_modPort (fun _ => by rfl) (fun b => by rw [held, holds_consumed, hd]) removed
    · next e entries hd =>
      rw [← consumed_headRemoved]
      refine poolOwes_modPort (fun _ => by rfl) (fun b => ?_) removed
      rw [held, holds_consumed, hd, countP_carries_append, countP_entries_cons]
      change _ = _ + (_ + (carries b e.payload).toNat) + _
      omega
    · next x i c entries hd =>
      refine poolOwes_serveSlot x p ?_
      rw [takePayload_modPort, ← consumed_headRemoved, ← takePayload_modPort]
      refine poolOwes_modPort (fun _ => by rfl) (fun b => ?_) (poolOwes_takePayload (s.slot x).value removed)
      rw [port_takePayload, held, holds_consumed, hd, countP_carries_append, countP_entries_cons]
      change _ + (carries b (s.slot x).value).toNat + _ + _ = _ + (_ + 0) + _
      omega
  · have homed : (releasePayload d.payload s).modPort p (fun r => r.consumed rest r.deferral) =
        homeCursor p ((releasePayload d.payload s).modPort p fun r => { r with queue := rest }) := by
      unfold homeCursor; rw [modPort_modPort]; rfl
    rw [homed, see_homeCursor poolOwes_cursors]
    exact removed

theorem poolOwes_consumeHead {p : Port} (hq : (s.port p).queue ≠ []) (h : PoolOwes o s) :
    PoolOwes o (consumeHead p s) := by
  obtain ⟨d, rest, hq⟩ := List.exists_cons_of_ne_nil hq
  rw [consumeHead_eq hq]
  exact poolOwes_endDrains (poolOwes_consumption hq h)

theorem poolOwes_passByte {p : Port} (hq : (s.port p).queue ≠ []) (h : PoolOwes o s) : PoolOwes o (passByte p s) := by
  obtain ⟨d, rest, hd⟩ := List.exists_cons_of_ne_nil hq
  have opened (v : PortRecord → View) : PoolOwes o (s.modPort p fun r =>
      { r with queue := { d with isOpen := true } :: rest, view := v r }) :=
    poolOwes_modPort (fun _ => by rfl)
      (fun b => by unfold PortRecord.holds; rw [hd, List.countP_cons, List.countP_cons]) h
  by_cases hc : (s.port p).view.cursor = (s.port p).view.stop
  · cases hm : (s.port p).view.mode with
    | hold => rw [passByte_atEnd_hold hd hc hm]; exact opened _
    | advance => rw [passByte_atEnd_advance hq hc hm]; exact poolOwes_consumeHead hq h
  · rw [passByte_within hd hc]; exact opened _

theorem poolOwes_takePost {x : SlotName} {i : RecordNo} (hi : (s.topic i).state ≠ .free)
    (h : PoolOwes o s) : PoolOwes o (takePost x i s) := by
  have settled (y : Placements) (hy : PoolOwes o y.state) : PoolOwes o (settleSlot x y) := by
    unfold settleSlot; dsimp only; split
    · exact poolOwes_finishSlot x _ (poolOwes_modSlot_buffer (by rfl) id hy)
    · exact poolOwes_modSlot_buffer (by rfl) (fun e => by cases e) (poolOwes_modSlot_buffer (by rfl) id hy)
  unfold takePost; dsimp only
  refine settled _ (placeAll_keeps (fun s p j _ hs => poolOwes_placePost x p j _ hs) (poolOwes_answerAll _ ?_))
  rw [see_removeSolicit poolOwes_solicits]
  unfold stampSlot; dsimp only
  rw [poolOwes_order]
  exact poolOwes_modSlot_buffer (by rfl) id (poolOwes_stampRecord _ hi h)

end operations

/-! ## Every event -/

theorem poolOwes_resetDevice (straps : Vector Strap 4) (s : State) : PoolOwes (fun _ => 0) (resetDevice straps s) := by
  refine poolOwes_of_eq (s := State.reset) (fun x => ?_) (fun i => ?_) (fun p b => ?_) (fun b => ?_)
    (poolLaw_iff.mp poolLaw_reset)
  · rw [slot_resetDevice, slot_reset]
  · rw [topic_resetDevice, topic_reset]
  · rw [port_resetDevice, port_reset]; rfl
  · rw [buffer_resetDevice, buffer_reset]

theorem poolLaw_openSlot {s : State} {x : SlotName} {t : Word} {priority : Nat} {b : BufferNo}
    (hx : (s.slot x).state = .empty) (hb : lowestFreeBuffer s = some b) (h : PoolLaw s) :
    PoolLaw (openSlot x t priority b s) := by
  have free : (s.buffer b).references = 0 := by
    simpa [Buffer.isFree] using List.find?_some hb
  have none_held : (s.slot x).buffer = none := h.emptySlots x hx
  have h := poolLaw_iff.mp h
  have allocated : PoolOwes (fun c => if b = c then 1 else 0) (allocateBuffer b s) := by
    refine ⟨fun c => ?_, h.emptySlots, h.freeRecords⟩
    have hc := h.references c
    change ((s.modBuffer b _).buffer c).references = holders s c + _
    rw [buffer_modBuffer]
    split
    · next e => subst e; dsimp only; omega
    · exact hc
  refine poolLaw_iff.mpr (poolOwes_modSlot (fun e => by cases e) (fun c => ?_) allocated)
  change (some b == some c).toNat + 0 = ((s.slot x).buffer == some c).toNat + _
  rw [none_held]
  by_cases e : b = c <;> simp [e]

theorem poolOwes_events : EventsKeep (PoolOwes fun _ => 0) := by
  have solicits := poolOwes_solicits (o := fun _ => 0)
  have fetches := poolOwes_fetches (o := fun _ => 0)
  have port {s : State} {p : Port} {f : PortRecord → PortRecord} (hf : ∀ r, (f r).slots = r.slots)
      (hq : ∀ r, (f r).queue = r.queue) (hd : ∀ r, (f r).deferral = r.deferral) (h : PoolOwes (fun _ => 0) s) :
      PoolOwes (fun _ => 0) (s.modPort p f) := by rw [poolOwes_modPort_eq s hf hq hd]; exact h
  refine ⟨?_, ?waiting, ?reset, ?parameterSet⟩
  constructor
  case waiting => exact fun s _ h => poolOwes_of_eq (s := s) (fun _ => rfl) (fun _ => rfl) (fun _ _ => rfl) (fun _ => rfl) h
  case link => exact fun s p f hf h => port (fun r => by rw [hf r]) (fun r => by rw [hf r]) (fun r => by rw [hf r]) h
  case reset => exact fun s straps _ => poolOwes_resetDevice straps s
  case tick =>
    refine fun s n h => poolOwes_of_seen (s := s) (fun x => ?_) (fun i => ?_) (fun p b => ?_) (fun b => ?_) h
    · rw [slot_countPeriods]; exact ⟨rfl, id⟩
    · rw [topic_countPeriods]; exact ⟨rfl, id⟩
    · rw [port_countPeriods]; rfl
    · rw [buffer_countPeriods]
  case quarantined => exact fun s p _ h => poolOwes_quarantine h
  case holdRestarted => exact fun s p _ h => port (fun _ => by rfl) (fun _ => by rfl) (fun _ => by rfl) h
  case holdExpired => exact fun s p _ h => port (fun _ => by rfl) (fun _ => by rfl) (fun _ => by rfl) h
  case joined =>
    exact fun s p _ h => (poolOwes_sessions.exchange _ _).mpr (port (s := s) (p := p)
      (f := fun r => { r with state := .online }) (fun _ => rfl) (fun _ => rfl) (fun _ => rfl) h)
  case left =>
    exact fun s p _ h => leavePort_keeps (Q := PoolOwes fun _ => 0)
      (poolOwes_leaveEffects (port (fun _ => by rfl) (fun _ => by rfl) (fun _ => by rfl) h))
      (fun _ _ hs => poolOwes_teardown hs) (fun _ _ _ hs => poolOwes_teardown hs) fun _ hs => hs
  case recovered => exact fun s p _ _ h => port (fun _ => by rfl) (fun _ => by rfl) (fun _ => by rfl) h
  case missedCleared => exact fun s p h => port (fun _ => by rfl) (fun _ => by rfl) (fun _ => by rfl) h
  case parameterSet =>
    exact fun s i v _ h => poolOwes_of_eq (s := s) (fun _ => rfl) (fun _ => rfl) (fun _ _ => rfl) (fun _ => rfl) h
  case topicDeclared =>
    intro s p i t kind limit _ _ _ hi h
    have free : (s.topic i).state = .free := by simpa using List.find?_some hi
    exact poolOwes_modTopic_retained (h.freeRecords i free).symm (fun _ => free) h
  case topicRedeclared =>
    intro s i t kind limit _ _ _ _ h
    exact poolOwes_modTopic_retained (by rfl) id h
  case topicAdopted =>
    intro s p i t limit _ _ _ h
    exact poolOwes_modTopic_retained (by rfl) (fun e => by cases e) h
  case topicRetired =>
    intro s p i t _ _ _ _ h
    unfold retireRecord; dsimp only
    refine poolOwes_freeRecord i ?_
    rw [see_removeSolicit solicits]
    exact poolOwes_answerAll _ h
  case topicPurged => exact fun s i t _ _ _ h => poolOwes_freeRecord i h
  case subscribed => exact fun s p i pattern mask options _ _ _ h => (poolOwes_subscriptions.subscriptions s _).mpr h
  case unsubscribed => exact fun s i h => (poolOwes_subscriptions.subscriptions s _).mpr h
  case postOpened =>
    intro s x t priority i b _ he _ _ _ hb h
    exact poolLaw_iff.mp (poolLaw_openSlot he hb (poolLaw_iff.mpr h))
  case payloadWritten =>
    intro s x offset data _ h
    have written : PoolOwes (fun _ => 0) (writePayload x offset data s) := by
      unfold writePayload; dsimp only
      refine poolOwes_modSlot_buffer (by rfl) id ?_
      split
      · exact h
      · refine poolOwes_of_eq (s := s) (fun _ => rfl) (fun _ => rfl) (fun _ _ => rfl) (fun b => ?_) h
        rw [buffer_modBuffer]; split <;> rfl
    exact written
  case submitted =>
    intro s x _ h
    have ready := poolOwes_modSlot_buffer (x := x)
      (f := fun k => { k with state := .ready, readySequence := s.readySequence }) (by rfl) (fun e => by cases e) h
    refine poolOwes_of_eq ?_ ?_ ?_ ?_ ready <;> intros <;> rfl
  case slotEmptied => exact fun s x _ h => poolOwes_emptySlot x h
  case readyAborted => exact fun s x _ h => poolOwes_finishSlot x _ h
  case deferredEnded => exact fun s x c _ h => poolOwes_endDrains (poolOwes_endDeferred x c h)
  case windowSet => exact fun s p _ _ _ _ _ h => port (fun _ => by rfl) (fun _ => by rfl) (fun _ => by rfl) h
  case viewRead => exact fun s p n h => readBytes_keeps (fun _ hq hs => poolOwes_passByte hq hs) n [] h
  case consumed => exact fun s p hq h => poolOwes_consumeHead hq h
  case answeredNow => exact fun s p d _ _ _ h => poolOwes_giveAnswer p d h
  case fetchWaits =>
    intro s p t i j wait _ hlt _ _ _ hj h
    rw [see_solicit solicits, fetches.fetch]; exact h
  case fetchCancelled => exact fun s i f _ h => by rw [see_dropIdleSolicit solicits, fetches.fetch]; exact h
  case solicitsRead => exact fun s p h => port (fun _ => by rfl) (fun _ => by rfl) (fun _ => by rfl) h
  case taken => exact fun s x i _ hi h => poolOwes_takePost (findTopic_some hi).1 h
  case lapsed =>
    intro s i t _ _ _ h
    unfold lapse; dsimp only
    exact issueNotices_keeps (fun _ p _ _ hs => poolOwes_placeNotice p rfl hs)
      (poolOwes_modTopic_retained (by rfl) id h)
  case fetchExpired =>
    intro s i f hf h
    rw [see_dropIdleSolicit solicits, fetches.fetch]; exact poolOwes_giveAnswer _ _ h

/-- Settles O51. -/
theorem stepKeepsThePoolLaw : Obligations.StepKeepsThePoolLaw :=
  fun _ _ h ht => poolLaw_iff.mpr (step_keeps_of_events poolOwes_events (poolLaw_iff.mp h) ht)

end Sys2Proof.Machine
end

