-- ==== Sys2Proof/Proofs/LinkLaw.lean ====
section
/-! The law of the host ports (O57). What a port's link holds is changed by transactions, completions and faults alone, so
the blocks keep it unseen; the quota of subscriptions bounds the longest body. -/
namespace Sys2Proof.Machine
set_option Elab.async false

/-! ## The record of one link -/

/-- The law of one host port. -/
structure PortRecord.linked (r : PortRecord) : Prop where
  receiver : r.receiver = Receiver.idle
  score : r.score ≤ 255
  notReady : r.inProgress.isSome ↔ r.response = .notReady
  length : ∀ q, r.inProgress = some q → admitsLength q.name q.arguments.length = true
  ready : ∀ a, r.response = .ready a → a.whole
  repeated : ∀ a, r.response = .repeated a → a.whole

/-- The law of every host port. -/
def Linked (s : State) : Prop := ∀ p, (s.port p).linked

/-- The quota of R25. -/
def QuotaLaw (s : State) : Prop := ∀ p, ownedSubscriptions s p ≤ 24

theorem linkLaw_iff {s : State} : LinkLaw s ↔ Linked s ∧ QuotaLaw s :=
  ⟨fun h => ⟨fun p => ⟨h.receiver p, h.score p, h.notReady p, h.length p, h.ready p, h.repeated p⟩, h.quota⟩,
    fun ⟨h, hq⟩ => ⟨fun p => (h p).receiver, fun p => (h p).score, fun p => (h p).notReady, fun p => (h p).length,
      fun p => (h p).ready, fun p => (h p).repeated, hq⟩⟩

/-- A link keeps its law when its score falls and its request is cut. -/
theorem PortRecord.linked.of {r r' : PortRecord} (h : r.linked) (hr : r'.receiver = r.receiver)
    (hs : r'.score ≤ r.score)
    (hp : r'.inProgress = r.inProgress ∨ r'.inProgress = r.inProgress.map fun q => { q with cut := true })
    (hb : r'.response = r.response) : r'.linked where
  receiver := hr.trans h.receiver
  score := Nat.le_trans hs h.score
  notReady := by
    rw [hb, ← h.notReady]
    rcases hp with e | e <;> rw [e]
    rw [Option.isSome_map]
  length q hq := by
    rcases hp with e | e <;> rw [e] at hq
    · exact h.length q hq
    · obtain ⟨q', hq', rfl⟩ := Option.map_eq_some_iff.mp hq
      exact h.length q' hq'
  ready := hb ▸ h.ready
  repeated := hb ▸ h.repeated

theorem PortRecord.linked.same {r r' : PortRecord} (h : r.linked) (hr : r'.receiver = r.receiver)
    (hs : r'.score = r.score) (hp : r'.inProgress = r.inProgress) (hb : r'.response = r.response) : r'.linked :=
  h.of hr (Nat.le_of_eq hs) (.inl hp) hb

theorem mkResponse_whole (tag : Byte) (res : Result) {body : List Byte} (h : body.length ≤ 64) :
    (mkResponse tag res body).whole := ⟨rfl, h⟩

section linked
variable {s : State} {p : Port}

theorem linked_modPort {f : PortRecord → PortRecord} (h : Linked s) (hf : (f (s.port p)).linked) :
    Linked (s.modPort p f) := by
  intro q; rw [port_modPort]; split
  · next e => subst e; exact hf
  · exact h q

/-- A change of a port's mask alone. -/
def MaskOnly (f : PortRecord → PortRecord) : Prop := ∀ r, f r = { r with mask := (f r).mask }

/-- What the law of the links does not see. -/
theorem linked_sight : SessionSight Linked MaskOnly := by
  have same {s t : State} (h : ∀ q, (t.port q).receiver = (s.port q).receiver ∧ (t.port q).score = (s.port q).score ∧
      (t.port q).inProgress = (s.port q).inProgress ∧ (t.port q).response = (s.port q).response) : Linked t = Linked s :=
    propext ⟨fun ht q => (ht q).same (h q).1.symm (h q).2.1.symm (h q).2.2.1.symm (h q).2.2.2.symm,
      fun hs q => (hs q).same (h q).1 (h q).2.1 (h q).2.2.1 (h q).2.2.2⟩
  have port {s : State} {p : Port} {f : PortRecord → PortRecord} (hf : ∀ r, (f r).receiver = r.receiver ∧
      (f r).score = r.score ∧ (f r).inProgress = r.inProgress ∧ (f r).response = r.response) :
      Linked (s.modPort p f) = Linked s := by
    refine same fun q => ?_
    rw [port_modPort]; split <;> [exact hf _; exact ⟨rfl, rfl, rfl, rfl⟩]
  have blocks {s t : State} (h : t.ports = s.ports) : Linked t = Linked s :=
    same fun q => by simp only [State.port, h, and_self]
  exact
    { pool := ⟨fun _ _ _ => blocks rfl⟩
      slots := ⟨fun _ _ _ => port fun _ => ⟨rfl, rfl, rfl, rfl⟩, fun _ _ => blocks rfl⟩
      queues := ⟨fun _ _ _ => port fun _ => ⟨rfl, rfl, rfl, rfl⟩, fun _ _ _ => port fun _ => ⟨rfl, rfl, rfl, rfl⟩,
        fun _ _ _ => port fun _ => ⟨rfl, rfl, rfl, rfl⟩⟩
      solicits := ⟨fun _ _ _ => port fun _ => ⟨rfl, rfl, rfl, rfl⟩⟩
      topics := ⟨fun _ _ _ => blocks rfl⟩
      fetches := ⟨fun _ _ _ => blocks rfl⟩
      view := fun _ _ _ => port fun _ => ⟨rfl, rfl, rfl, rfl⟩
      link := fun _ _ f hf => port fun r => by rw [hf r]; exact ⟨rfl, rfl, rfl, rfl⟩
      readySequence := fun _ _ => blocks rfl
      subscriptionsFreed := fun s p hs => (blocks (s := s) (t := freeSubscriptionsOf p s) rfl).mpr hs
      subscribed := fun s _ i _ _ _ _ _ hs => (blocks (s := s) (t := s.modSubscription i _) rfl).mpr hs
      unsubscribed := fun s i hs => (blocks (s := s) (t := s.modSubscription i _) rfl).mpr hs }

theorem linked_closePort (b : Bool) (h : Linked s) : Linked (closePort b p s) := by
  refine linked_modPort h ?_
  cases b
  · exact (h p).of rfl (Nat.zero_le _) (.inl rfl) rfl
  · exact (h p).same rfl rfl rfl rfl

theorem linked_teardown {b : Bool} (h : Linked s) : Linked (teardown b p s).1 := by
  have v := linked_sight
  rw [teardown_fst]
  have judged {u : State} (hu : Linked u) : Linked (judgeExchange u) := fun q => by
    rw [port_judgeExchange]; exact hu q
  unfold teardownBlocks
  refine judged (linked_closePort b ?_)
  rw [see_homeCursor v.cursors, see_emptySlots v.pool v.slots, v.queues.missed _ _ fun _ => 0,
    see_emptyDeferral v.queues v.pool v.slots, see_emptyQueue v.queues v.pool]
  exact h

theorem linked_quarantine (h : Linked s) : Linked (quarantine p s) := by
  have v := linked_sight
  have cut : Linked (cutRequest p s) :=
    linked_modPort h ((h p).of rfl (Nat.le_refl _) (.inr rfl) rfl)
  have held {u : State} (hu : Linked u) : Linked (startHold p u) :=
    linked_modPort hu ((hu p).same rfl rfl rfl rfl)
  have torn {u : State} (hu : Linked u) : Linked (endDrains (teardown true p (abortDeferredSlots p u))) := by
    refine endDrains_keeps (fun _ _ _ hs => linked_teardown hs) (linked_teardown ?_)
    rw [v.abortDeferredSlots]; exact hu
  unfold quarantine; dsimp only
  split
  · exact held (linked_closePort _ cut)
  · exact held (torn (v.leaveEffects p cut))
  · exact held (torn cut)
  · exact held cut

theorem linked_routine : RoutineKeeps Linked MaskOnly := by
  have port {s : State} {p : Port} {f : PortRecord → PortRecord} (hf : ∀ r, (f r).receiver = r.receiver ∧
      (f r).score ≤ r.score ∧ (f r).inProgress = r.inProgress ∧ (f r).response = r.response) (h : Linked s) :
      Linked (s.modPort p f) := by
    obtain ⟨hr, hs, hp, hb⟩ := hf (s.port p)
    exact linked_modPort h ((h p).of hr hs (.inl hp) hb)
  refine linked_sight.routine (fun s n h p => ?_) (fun _ _ _ h => linked_quarantine h)
    (fun _ _ _ h => port (fun _ => ⟨rfl, Nat.le_refl _, rfl, rfl⟩) h)
    (fun _ _ _ h => port (fun _ => ⟨rfl, Nat.le_refl _, rfl, rfl⟩) h)
    (fun s p _ h => port (s := s) (p := p) (f := fun r => { r with state := .online }) (fun _ => ⟨rfl, Nat.le_refl _, rfl, rfl⟩) h)
    (fun _ _ _ h => port (fun _ => ⟨rfl, Nat.le_refl _, rfl, rfl⟩) h) (fun _ _ _ h => linked_teardown h)
    (fun _ _ _ h => port (fun _ => ⟨rfl, Nat.zero_le _, rfl, rfl⟩) h)
  rw [port_countPeriods]
  exact (h p).same rfl rfl rfl rfl

/-! ## Transactions -/

theorem linked_scoreFault (kind : FaultKind) (h : Linked s) : Linked (scoreFault p kind s) := by
  have faulted : Linked (s.modPort p fun r => { r with lastFault := some kind, score := raisedScore r.score }) :=
    linked_modPort h ⟨(h p).receiver, Nat.min_le_left _ _, (h p).notReady, (h p).length, (h p).ready, (h p).repeated⟩
  unfold scoreFault; dsimp only
  split
  · exact linked_modPort faulted ((faulted p).same rfl rfl rfl rfl)
  · split <;> [exact linked_quarantine faulted; exact faulted]

/-- A frame without a fault names a request, and carries as many argument bytes as its length byte says, which the request
admits (R144). -/
theorem request_of_frameFault_none {bytes : List Byte} (h : frameFault bytes = none) :
    ∃ c, requestOf (bytes.getD 0 0) = some c ∧
      admitsLength c ((bytes.drop 3).take (bytes.getD 2 0).toNat).length = true := by
  unfold frameFault at h; dsimp only at h
  split at h <;> [cases h; skip]
  split at h <;> [cases h; skip]
  split at h <;> [cases h; skip]
  split at h <;> [cases h; skip]
  split at h <;> [cases h; skip]
  cases hc : requestOf (bytes.getD 0 0) with
  | none => rw [hc] at h; cases h
  | some c =>
    rw [hc] at h; dsimp only at h
    split at h <;> [skip; cases h]
    next ha =>
      refine ⟨c, rfl, ?_⟩
      rw [List.length_take, List.length_drop, Nat.min_eq_left (by omega)]
      exact ha

theorem linked_receiveFrame (bytes : List Byte) (h : Linked s) : Linked (receiveFrame p bytes s) := by
  have idle : Linked (s.modPort p fun r => { r with receiver := Receiver.idle }) :=
    linked_modPort h ⟨rfl, (h p).score, (h p).notReady, (h p).length, (h p).ready, (h p).repeated⟩
  cases hq : (s.port p).inProgress with
  | some q =>
    rw [endFrame_busy p bytes s (by rw [hq]; rfl)]
    exact linked_scoreFault _ idle
  | none =>
    cases hf : frameFault bytes with
    | some k =>
      rw [endFrame_fault p bytes s k hq hf]
      refine linked_scoreFault _ (linked_modPort idle ?_)
      rw [port_modPort_same]
      refine ⟨rfl, (h p).score, by simp [hq], by simp [hq], fun a ha => ?_, fun a ha => by cases ha⟩
      cases ha; exact mkResponse_whole _ _ (Nat.le_add_left 1 63)
    | none =>
      obtain ⟨c, hc, hl⟩ := request_of_frameFault_none hf
      rw [receiveFrame_taken hq hf hc]
      refine linked_modPort idle ?_
      rw [port_modPort_same]
      refine ⟨rfl, Nat.le_trans (Nat.sub_le _ _) (h p).score, by simp, fun q hq => ?_, by simp, by simp⟩
      cases hq; exact hl

theorem afterRead_eq_notReady (b : ResponseBuffer) (n : Nat) : b.afterRead n = .notReady ↔ b = .notReady := by
  cases b with
  | ready r => dsimp only [ResponseBuffer.afterRead]; split <;> simp
  | empty | notReady | repeated => simp [ResponseBuffer.afterRead]

theorem ready_of_afterRead {b : ResponseBuffer} {n : Nat} {a : Response} (h : b.afterRead n = .ready a) : b = .ready a := by
  cases b with
  | ready r => dsimp only [ResponseBuffer.afterRead] at h; split at h <;> [cases h; exact h]
  | empty | notReady | repeated => cases h

theorem response_of_afterRead {b : ResponseBuffer} {n : Nat} {a : Response} (h : b.afterRead n = .repeated a) :
    b = .ready a ∨ b = .repeated a := by
  cases b with
  | ready r => dsimp only [ResponseBuffer.afterRead] at h; split at h <;> cases h; exact .inl rfl
  | empty | notReady => cases h
  | repeated r => exact .inr h

theorem linked_linkTransaction (t : Transaction) (h : Linked s) : Linked (linkTransaction p t s) := by
  have output (o : LinkOutput) : Linked (setOutput p o s) := linked_modPort h ((h p).same rfl rfl rfl rfl)
  have read {u : State} (n : Nat) (hu : Linked u) : Linked (readResponse p n u) := by
    refine linked_modPort hu ?_
    obtain ⟨hr, hs, hn, hl, hready, hrep⟩ := hu p
    refine ⟨hr, hs, hn.trans (afterRead_eq_notReady _ _).symm, hl, fun a ha => hready a (ready_of_afterRead ha),
      fun a ha => (response_of_afterRead ha).elim (hready a) (hrep a)⟩
  unfold linkTransaction
  split
  · unfold spiTransaction; split
    · exact h
    · split
      · exact read _ (output _)
      · exact linked_receiveFrame _ (output _)
  · unfold i2cWrite; split
    · dsimp only; split <;> [exact output _; exact linked_receiveFrame _ (output _)]
    · exact output _
  · unfold i2cRead; split
    · exact read _ (output _)
    · exact output _
  · exact h

end linked

/-! ## Bodies -/

theorem length_listSubsBody {s : State} {p : Port} (h : ownedSubscriptions s p ≤ 24) : (listSubsBody p s).length ≤ 64 := by
  rw [ownedSubscriptions_eq_length] at h
  unfold listSubsBody
  rw [List.length_append, List.length_flatMap]
  simp
  omega

theorem length_readBytes (p : Port) (n : Nat) (s : State) (got : List Byte) :
    (readBytes p n s got).2.1.length ≤ got.length + n := by
  induction n generalizing s got with
  | zero => exact Nat.le_refl _
  | succ n ih =>
    rw [readBytes]; split
    · exact Nat.le_add_right _ _
    · refine Nat.le_trans (ih _ _) ?_
      rw [List.length_append]; simp; omega

theorem length_readSolicits (p : Port) (args : List Byte) (s : State) : (actReadSolicits p args s).body.length ≤ 64 := by
  rw [actReadSolicits_eq]
  simp [List.length_flatMap, wordBytes]
  omega

theorem length_readView (p : Port) (args : List Byte) (s : State) : (actReadView p args s).body.length ≤ 64 := by
  unfold actReadView; dsimp only; split
  · exact Nat.zero_le _
  · next hn =>
    refine Nat.le_trans (length_readBytes p _ s []) ?_
    simp [Config.maxReadCount] at hn
    simp; omega

theorem length_queueStatus (p : Port) (s : State) : (queueStatusBody p s).length = 8 := by
  unfold queueStatusBody; dsimp only
  cases (s.port p).queue <;> rfl

theorem length_slotStatus (k : Slot) : (slotStatusBody k).length = 13 := by
  unfold slotStatusBody; split
  · rfl
  · simp only [List.length_append]
    have sets : (if k.state.hasSets then [k.pending.byte, k.reached.byte, k.unreached.byte] else [0x00, 0x00, 0x00]).length
        = 3 := by split <;> rfl
    rw [sets]; rfl

theorem length_declare (p : Port) (args : List Byte) (s : State) : (actDeclare p args s).body.length ≤ 4 := by
  have done (o : DeclareOutcome) (i : RecordNo) (r : TopicRecord) : (declareAs o i r s).body.length ≤ 4 := Nat.le_refl 4
  unfold actDeclare; split
  · exact Nat.zero_le _
  · split
    · unfold declareTopic; split
      · split <;> [exact Nat.zero_le _; exact done _ _ _]
      · dsimp only; split
        · split <;> [exact Nat.zero_le _; (split <;> [exact done _ _ _; exact Nat.zero_le _])]
        · split <;> [exact done _ _ _; exact Nat.zero_le _]
    · exact Nat.zero_le _

theorem length_fetch (p : Port) (args : List Byte) (s : State) : (actFetch p args s).body.length ≤ 2 := by
  unfold actFetch; dsimp only; split
  · exact Nat.zero_le _
  · split
    · exact Nat.zero_le _
    · unfold fetchTopic; split
      · exact Nat.le_refl 2
      · dsimp only; split
        · split
          · exact Nat.le_refl 2
          · unfold waitFetch; split <;> [exact Nat.zero_le _; exact Nat.le_refl 2]
        · exact Nat.le_refl 2

/-- No request has a body longer than 64 bytes (R139). -/
theorem length_body (p : Port) (c : RequestName) (args : List Byte) {s : State} (h : QuotaLaw s) :
    (actOf p c args s).body.length ≤ 64 := by
  cases c
  case listSubs => exact length_listSubsBody (h p)
  case readView => exact length_readView p args s
  case readSolicits => exact length_readSolicits p args s
  case queueStatus => exact Nat.le_trans (Nat.le_of_eq (length_queueStatus p s)) (by decide)
  case declare => exact Nat.le_trans (length_declare p args s) (by decide)
  case fetch => exact Nat.le_trans (length_fetch p args s) (by decide)
  case slotStatus =>
    change (actSlotStatus p args s).body.length ≤ 64
    unfold actSlotStatus; split
    · exact Nat.zero_le _
    · exact Nat.le_trans (Nat.le_of_eq (length_slotStatus _)) (by decide)
  case join | leave | portStatus | exchStatus | attnStatus => exact Nat.le_of_ble_eq_true rfl
  all_goals
    simp only [actOf, actRecover, actSetParam, actGetParam, actRetire, actPurge, actTopicInfo, actSubscribe,
      actUnsubscribe, actOpenPost, openPost, actWritePayload, actSubmit, actAbortPost, actReleaseSlot, actSetWindow,
      actConsume, actCancelFetch, actSetAttnMask]
    repeat' split
    all_goals exact Nat.le_of_ble_eq_true rfl

/-! ## The quota -/

theorem quotaLaw_congr {s t : State} (h : t.subscriptions = s.subscriptions) : QuotaLaw t = QuotaLaw s := by
  unfold QuotaLaw ownedSubscriptions State.subscription; rw [h]

/-- The entry that changes is the only one counted anew. -/
theorem ownedSubscriptions_modSubscription (s : State) (i : SubIndex) (e : Subscription) (q : Port) :
    ownedSubscriptions (s.modSubscription i fun _ => e) q + ((s.subscription i).ownedBy q).toNat =
      ownedSubscriptions s q + (e.ownedBy q).toNat := by
  have h := countP_change (List.nodup_finRange 64) (List.mem_finRange i)
    (c := fun j => ((s.modSubscription i fun _ => e).subscription j).ownedBy q)
    (d := fun j => (s.subscription j).ownedBy q)
    fun j hj => by rw [subscription_modSubscription, if_neg (Ne.symm hj)]
  rwa [subscription_modSubscription, if_pos rfl] at h

theorem ownedSubscriptions_freed (s : State) (p q : Port) :
    ownedSubscriptions (freeSubscriptionsOf p s) q ≤ ownedSubscriptions s q := by
  refine List.countP_mono_left fun j _ hj => ?_
  have entry : (freeSubscriptionsOf p s).subscription j =
      if (s.subscription j).ownedBy p then Subscription.reset else s.subscription j := getElem_updateAll ..
  rw [entry] at hj
  split at hj
  · cases hj
  · exact hj

theorem quotaLaw_sight : SessionSight QuotaLaw where
  pool := ⟨fun _ _ _ => quotaLaw_congr rfl⟩
  slots := ⟨fun _ _ _ => quotaLaw_congr rfl, fun _ _ => quotaLaw_congr rfl⟩
  queues := ⟨fun _ _ _ => quotaLaw_congr rfl, fun _ _ _ => quotaLaw_congr rfl, fun _ _ _ => quotaLaw_congr rfl⟩
  solicits := ⟨fun _ _ _ => quotaLaw_congr rfl⟩
  topics := ⟨fun _ _ _ => quotaLaw_congr rfl⟩
  fetches := ⟨fun _ _ _ => quotaLaw_congr rfl⟩
  view := fun _ _ _ => quotaLaw_congr rfl
  link := fun _ _ _ _ => quotaLaw_congr rfl
  readySequence := fun _ _ => quotaLaw_congr rfl
  subscriptionsFreed s p h q := Nat.le_trans (ownedSubscriptions_freed s p q) (h q)
  subscribed s p i pattern mask options hn hi h q := by
    have hc := ownedSubscriptions_modSubscription s i (Subscription.ofRequest p pattern mask options) q
    have old := h q
    by_cases e : p = q
    · subst e
      have := Bool.toNat_le ((Subscription.ofRequest p pattern mask options).ownedBy p)
      omega
    · have hnew : (Subscription.ofRequest p pattern mask options).ownedBy q = false := by
        simp [Subscription.ofRequest, Subscription.ownedBy, e]
      rw [hnew] at hc
      simp only [Bool.toNat_false] at hc
      omega
  unsubscribed s i h q := by
    have hc := ownedSubscriptions_modSubscription s i Subscription.reset q
    have old := h q
    have hnew : Subscription.reset.ownedBy q = false := rfl
    rw [hnew] at hc
    simp only [Bool.toNat_false] at hc
    omega

theorem quotaLaw_teardown {s : State} {p : Port} {b : Bool} (h : QuotaLaw s) : QuotaLaw (teardown b p s).1 := by
  have v := quotaLaw_sight
  rwa [see_teardown v.queues v.pool v.slots v.cursors
    ⟨fun _ _ _ => quotaLaw_congr rfl, fun _ _ _ => quotaLaw_congr rfl, fun _ _ => quotaLaw_congr rfl⟩]

theorem quotaLaw_quarantine {s : State} {p : Port} (h : QuotaLaw s) : QuotaLaw (quarantine p s) := by
  have v := quotaLaw_sight
  have cut : QuotaLaw (cutRequest p s) := (quotaLaw_congr rfl).mpr h
  have held {u : State} (hu : QuotaLaw u) : QuotaLaw (startHold p u) :=
    (quotaLaw_congr (s := u) (t := startHold p u) rfl).mpr hu
  have torn {u : State} (hu : QuotaLaw u) : QuotaLaw (endDrains (teardown true p (abortDeferredSlots p u))) := by
    refine endDrains_keeps (fun _ _ _ hs => quotaLaw_teardown hs) (quotaLaw_teardown ?_)
    rw [v.abortDeferredSlots]; exact hu
  unfold quarantine; dsimp only
  split
  · exact held ((quotaLaw_congr rfl).mpr cut)
  · exact held (torn (v.leaveEffects p cut))
  · exact held (torn cut)
  · exact held cut

theorem quotaLaw_events : EventsKeep QuotaLaw := by
  have blocks {s t : State} (ht : t.subscriptions = s.subscriptions) (h : QuotaLaw s) : QuotaLaw t :=
    (quotaLaw_congr ht).mpr h
  refine ⟨quotaLaw_sight.routine ?_ ?_ ?_ ?_ ?_ ?_ ?_ ?_, fun s _ => blocks rfl, fun s straps _ q => ?_,
    fun s _ _ _ => blocks rfl⟩
  · exact fun s _ => blocks rfl
  · exact fun _ _ _ => quotaLaw_quarantine
  · exact fun s _ _ => blocks rfl
  · exact fun s _ _ => blocks rfl
  · exact fun s _ _ => blocks rfl
  · exact fun s _ _ => blocks rfl
  · exact fun _ _ _ => quotaLaw_teardown
  · exact fun s _ _ => blocks rfl
  · have none_owned : ownedSubscriptions (resetDevice straps s) q = 0 :=
      List.countP_eq_zero.2 fun j _ => by rw [subscription_resetDevice]; simp [Subscription.reset, Subscription.ownedBy]
    rw [none_owned]; exact Nat.zero_le _

/-! ## Every step -/

theorem linkLaw_exec (c : Instr) (s t : State) (h : LinkLaw s) (ht : exec c s = .next t) : LinkLaw t := by
  obtain ⟨linked, quota⟩ := linkLaw_iff.mp h
  refine linkLaw_iff.mpr ⟨?_, exec_keeps_of_events quotaLaw_events c s t quota ht⟩
  refine exec_keeps_of_parts linked_routine (fun _ _ => rfl) linked (fun p c ha => ?_)
    (fun p u => linked_linkTransaction u linked) (fun straps _ q => ?_) (fun _ _ i v _ _ => linked) ht
  · have completed {u : State} (tag : Byte) (res : Result) {body : List Byte} (hb : body.length ≤ 64) (hu : Linked u) :
        Linked (complete p tag res body u) := by
      refine linked_modPort hu ⟨(hu p).receiver, (hu p).score, by simp, by simp, fun a ha => ?_, by simp⟩
      cases ha; exact mkResponse_whole _ _ hb
    rcases handleRequest_cases p c (actOf p c) s with e | ⟨q, r, _, _, _, e⟩ | ⟨q, _, _, _, hst, e⟩ <;> rw [e]
    · exact linked
    · exact completed _ _ (Nat.zero_le _) linked
    · exact completed _ _ (length_body p c _ quota) (ha _ hst)
  · rw [port_resetDevice]
    exact ⟨rfl, Nat.zero_le _, by simp [PortRecord.reset], by simp [PortRecord.reset],
      by simp [PortRecord.reset], by simp [PortRecord.reset]⟩

/-- Settles O57. -/
theorem stepKeepsTheLinkLaw : Obligations.StepKeepsTheLinkLaw :=
  fun _ _ h ht => step_keeps (P := LinkLaw) (fun _ _ h => ⟨h.receiver, h.score, h.notReady, h.length, h.ready, h.repeated, h.quota⟩)
    linkLaw_exec h ht

end Sys2Proof.Machine
end

