-- ==== Sys2Proof/Proofs/SlotLaw.lean ====
section
/-! The law of the pending sets (O52): in the midst of an event that takes entries out of a port's deferral list, the
pending sets agree with the lists and with the entries that are owed. -/
namespace Sys2Proof.Machine
set_option Elab.async false

/-! ## Sets of ports -/

section sets
variable (a : PortSet) (p q : Port)

theorem PortSet.has_none : PortSet.none.has p = false := Vector.getElem_replicate ..

theorem PortSet.has_erase : (a.erase p).has q = if p = q then false else a.has q := getElem_update ..

variable {a}

theorem PortSet.eq_none_iff : a = PortSet.none ↔ ∀ p, a.has p = false :=
  ⟨fun h p => h ▸ has_none p, fun h => vector_ext fun p => (h p).trans (has_none p).symm⟩

end sets

/-! ## What the slots read after each operation -/

section slots
variable (x y : SlotName) (p : Port) (s : State)

theorem slot_serveSlot_ne (h : x ≠ y) : (serveSlot x p s).1.slot y = s.slot y := by
  unfold serveSlot; dsimp only; split
  · rw [slot_finishSlot, if_neg h, slot_modSlot_ne s _ h]
  · exact slot_modSlot_ne s _ h

theorem slot_failSlot_ne (h : x ≠ y) : (failSlot x p s).1.slot y = s.slot y := by
  unfold failSlot; dsimp only; split
  · rw [slot_finishSlot, if_neg h, slot_modSlot_ne s _ h]
  · exact slot_modSlot_ne s _ h

theorem slot_deleteEntries : (deleteEntries x s).slot y = s.slot y :=
  see_deleteEntries (queueBlind_slot y) x s

theorem slot_endDeferred (c : Completion) : (endDeferred x c s).slot y =
    if x = y then Slot.ended c { s.slot x with unreached := (s.slot x).unreached.union (s.slot x).pending }
    else s.slot y := by
  unfold endDeferred; dsimp only
  rw [slot_finishSlot, slot_modSlot_same, slot_deleteEntries]
  split <;> [rfl; (next e => rw [slot_modSlot_ne _ _ e, slot_deleteEntries])]

/-- A slot that is failed at a port is DONE or in its state. -/
theorem state_failSlot : ((failSlot x p s).1.slot y).state = (s.slot y).state ∨ ((failSlot x p s).1.slot y).state = .done := by
  by_cases e : x = y
  · subst e
    unfold failSlot; dsimp only; split
    · rw [slot_finishSlot, if_pos rfl]; exact .inr rfl
    · rw [slot_modSlot_same]; exact .inl rfl
  · rw [slot_failSlot_ne x y p s e]; exact .inl rfl

theorem slot_releaseAll (l : List Delivery) : (l.foldl (fun s d => releasePayload d.payload s) s).slot y = s.slot y :=
  see_foldl (see := fun s => s.slot y) (fun s d => slot_releasePayload d.payload s y) l s

theorem slot_emptyQueue : (emptyQueue p s).slot y = s.slot y := by
  unfold emptyQueue
  rw [slot_modPort]
  · exact slot_releaseAll y s _
  · exact fun _ => rfl

end slots

/-! ## The law with entries owed -/

/-- Beside the slots' fields, every port has one entry for a slot that is pending there and none for another, when the
entries `owed` of port `p` are counted with those in its deferral list. -/
structure SlotOwes (p : Port) (owed : List DeferralEntry) (s : State) : Prop where
  fields : ∀ x, (s.slot x).fitsState
  entries : ∀ x q, (s.port q).deferral.countP (·.standsFor x) + (if q = p then owed.countP (·.standsFor x) else 0) =
    if (s.slot x).pending.has q then 1 else 0

theorem slotLaw_iff {s : State} (p : Port) : SlotLaw s ↔ SlotOwes p [] s := by
  constructor <;> intro h <;> refine ⟨h.fields, fun x q => ?_⟩
  · rw [h.entries]; simp
  · have := h.entries x q; simpa using this

section rules
variable {p : Port} {l : List DeferralEntry} {s : State}

theorem slotOwes_congr {t : State} (hx : ∀ x, t.slot x = s.slot x) (hp : ∀ q, (t.port q).deferral = (s.port q).deferral) :
    SlotOwes p l t = SlotOwes p l s :=
  propext ⟨fun h => ⟨fun x => hx x ▸ h.fields x, fun x q => by rw [← hp, ← hx]; exact h.entries x q⟩,
    fun h => ⟨fun x => (hx x).symm ▸ h.fields x, fun x q => by rw [hp, hx]; exact h.entries x q⟩⟩

theorem slotOwes_modPort_eq {q : Port} {f : PortRecord → PortRecord} (s : State) (hf : ∀ r, (f r).slots = r.slots)
    (hd : ∀ r, (f r).deferral = r.deferral) : SlotOwes p l (s.modPort q f) = SlotOwes p l s := by
  refine slotOwes_congr (fun x => slot_modPort s hf x) fun r => ?_
  rw [port_modPort]; split <;> [exact hd _; rfl]

theorem slotOwes_pool : PoolBlind (SlotOwes p l) := ⟨fun s _ _ => slotOwes_congr (s := s) (fun _ => rfl) fun _ => rfl⟩

/-- A change of a deferral list that moves entries between the list and what is owed. -/
theorem slotOwes_modPort {l' : List DeferralEntry} {f : PortRecord → PortRecord} (hf : ∀ r, (f r).slots = r.slots)
    (hd : ∀ x, (f (s.port p)).deferral.countP (·.standsFor x) + l'.countP (·.standsFor x) =
      (s.port p).deferral.countP (·.standsFor x) + l.countP (·.standsFor x)) (h : SlotOwes p l s) :
    SlotOwes p l' (s.modPort p f) where
  fields x := by rw [slot_modPort s hf]; exact h.fields x
  entries x q := by
    rw [slot_modPort s hf, ← h.entries x q, port_modPort]
    by_cases e : p = q
    · subst e; simpa using hd x
    · simp [e, Ne.symm e]

/-- A change of a slot that leaves its pending set alone. -/
theorem slotOwes_modSlot {x : SlotName} {f : Slot → Slot} (hf : (f (s.slot x)).fitsState)
    (hp : (f (s.slot x)).pending = (s.slot x).pending) (h : SlotOwes p l s) : SlotOwes p l (s.modSlot x f) where
  fields y := by
    rw [slot_modSlot]; split
    · next e => subst e; exact hf
    · exact h.fields y
  entries y q := by
    have list : ((s.modSlot x f).port q).deferral = (s.port q).deferral := by rw [port_modSlot]; split <;> rfl
    have same : ((s.modSlot x f).slot y).pending = (s.slot y).pending := by
      rw [slot_modSlot]; split <;> [(next e => subst e; exact hp); rfl]
    rw [list, same]; exact h.entries y q

theorem Slot.pending_of_fitsState {k : Slot} (h : k.fitsState) (hs : k.state ≠ .deferred) : k.pending = PortSet.none := by
  unfold Slot.fitsState at h
  cases hk : k.state <;> rw [hk] at h <;> simp only at h
  · rw [h]; rfl
  · exact h.2.2.2.1
  · exact h.2.2.1
  · exact absurd hk hs
  · exact h.2.1

theorem Slot.fitsState_ended (c : Completion) (k : Slot) : (k.ended c).fitsState := ⟨rfl, rfl, rfl, rfl⟩

theorem deferral_finishSlot (x : SlotName) (c : Completion) (s : State) (q : Port) :
    ((finishSlot x c s).port q).deferral = (s.port q).deferral := by
  have h := see_finishSlot (unslotted_poolBlind q) (unslotted_slotBlind q) x c s
  exact (congrArg PortRecord.deferral h :)

theorem deferral_emptySlot (x : SlotName) (s : State) (q : Port) :
    ((emptySlot x s).port q).deferral = (s.port q).deferral := by
  have h := see_emptySlot (unslotted_poolBlind q) (unslotted_slotBlind q) x s
  exact (congrArg PortRecord.deferral h :)

/-- A slot that is pending nowhere may end. -/
theorem slotOwes_finishSlot {x : SlotName} (c : Completion) (hx : (s.slot x).pending = PortSet.none) (h : SlotOwes p l s) :
    SlotOwes p l (finishSlot x c s) where
  fields y := by
    rw [slot_finishSlot]; split <;> [exact Slot.fitsState_ended _ _; exact h.fields y]
  entries y q := by
    have same : ((finishSlot x c s).slot y).pending = (s.slot y).pending := by
      rw [slot_finishSlot]; split <;> [(next e => subst e; exact hx.symm); rfl]
    rw [deferral_finishSlot, same]; exact h.entries y q

theorem slotOwes_emptySlot {x : SlotName} (hx : (s.slot x).state ≠ .deferred) (h : SlotOwes p l s) :
    SlotOwes p l (emptySlot x s) where
  fields y := by
    rw [slot_emptySlot]; split <;> [rfl; exact h.fields y]
  entries y q := by
    have same : ((emptySlot x s).slot y).pending = (s.slot y).pending := by
      rw [slot_emptySlot]; split
      · next e => subst e; exact (Slot.pending_of_fitsState (h.fields x) hx).symm
      · rfl
    rw [deferral_emptySlot, same]; exact h.entries y q

/-! ### A slot served or failed at a port -/

/-- The pending set loses a port whose entry was owed. -/
theorem slotOwes_dropPending {x : SlotName} {i : SubIndex} {c : Bool} {f : Slot → Slot}
    (hf : ∀ k, (f k).pending = k.pending.erase p ∧ (f k).state = k.state ∧ (f k).buffer = k.buffer ∧
      (f k).version = k.version ∧ (f k).status = k.status ∧ (f k).deadline = k.deadline)
    (h : SlotOwes p (.slot x i c :: l) s) :
    (∀ y q, ((s.modSlot x f).port q).deferral.countP (·.standsFor y) +
      (if q = p then l.countP (·.standsFor y) else 0) = if ((s.modSlot x f).slot y).pending.has q then 1 else 0) ∧
    (((s.modSlot x f).slot x).pending ≠ PortSet.none → ((s.modSlot x f).slot x).fitsState) := by
  have stands (y : SlotName) : (DeferralEntry.slot x i c :: l).countP (·.standsFor y) =
      l.countP (·.standsFor y) + if x = y then 1 else 0 := by
    rw [List.countP_cons]; simp [DeferralEntry.standsFor]
  have list (q : Port) : ((s.modSlot x f).port q).deferral = (s.port q).deferral := by
    rw [port_modSlot]; split <;> rfl
  obtain ⟨hpending, hstate, hbuffer, hversion, hstatus, hdeadline⟩ := hf (s.slot x)
  constructor
  · intro y q
    have old := h.entries y q
    rw [stands] at old
    rw [list, slot_modSlot]
    by_cases e : x = y
    · subst e
      rw [if_pos rfl, hpending, PortSet.has_erase]
      by_cases eq : p = q
      · subst eq
        simp only [if_true, Bool.false_eq_true, if_false] at old ⊢
        split at old <;> omega
      · simpa [eq, Ne.symm eq] using old
    · simpa [e] using old
  · intro hne
    rw [slot_modSlot_same] at hne ⊢
    have held := h.entries x p
    rw [stands] at held
    simp only [if_true] at held
    have deferred : (s.slot x).state = .deferred := by
      by_contra hs
      rw [Slot.pending_of_fitsState (h.fields x) hs, PortSet.has_none] at held
      simp at held
    have fits := h.fields x
    unfold Slot.fitsState at fits ⊢
    rw [deferred] at fits
    rw [hstate, deferred, hbuffer, hversion, hstatus, hdeadline]
    exact ⟨fits.1, fits.2.1, hne, fits.2.2.2⟩

theorem slotOwes_dropped {x : SlotName} {i : SubIndex} {c : Bool} {f : Slot → Slot} (e : Completion)
    (hf : ∀ k, (f k).pending = k.pending.erase p ∧ (f k).state = k.state ∧ (f k).buffer = k.buffer ∧
      (f k).version = k.version ∧ (f k).status = k.status ∧ (f k).deadline = k.deadline)
    (h : SlotOwes p (.slot x i c :: l) s) :
    SlotOwes p l (if ((s.modSlot x f).slot x).pending = PortSet.none then finishSlot x e (s.modSlot x f)
      else s.modSlot x f) := by
  obtain ⟨entries, fits⟩ := slotOwes_dropPending hf h
  have others (y : SlotName) (hy : x ≠ y) : ((s.modSlot x f).slot y).fitsState := by
    rw [slot_modSlot_ne s f hy]; exact h.fields y
  split
  · next hn =>
    refine ⟨fun y => ?_, fun y q => ?_⟩
    · rw [slot_finishSlot]; split <;> [exact Slot.fitsState_ended _ _; (next hy => exact others y hy)]
    · have same : ((finishSlot x e (s.modSlot x f)).slot y).pending = ((s.modSlot x f).slot y).pending := by
        rw [slot_finishSlot]; split <;> [(next e => subst e; exact hn.symm); rfl]
      rw [deferral_finishSlot, same]; exact entries y q
  · next hn =>
    refine ⟨fun y => ?_, entries⟩
    by_cases hy : x = y
    · subst hy; exact fits hn
    · exact others y hy

theorem slotOwes_serveSlot {x : SlotName} {i : SubIndex} {c : Bool} (h : SlotOwes p (.slot x i c :: l) s) :
    SlotOwes p l (serveSlot x p s).1 := by
  have served := slotOwes_dropped (servedStatus ((s.modSlot x fun k =>
    { k with pending := k.pending.erase p, reached := k.reached.insert p }).slot x))
    (f := fun k => { k with pending := k.pending.erase p, reached := k.reached.insert p })
    (fun _ => ⟨rfl, rfl, rfl, rfl, rfl, rfl⟩) h
  unfold serveSlot; dsimp only
  rw [apply_ite Prod.fst]
  exact served

theorem slotOwes_failSlot {x : SlotName} {i : SubIndex} {c : Bool} (h : SlotOwes p (.slot x i c :: l) s) :
    SlotOwes p l (failSlot x p s).1 := by
  have failed := slotOwes_dropped .partially
    (f := fun k => { k with pending := k.pending.erase p, unreached := k.unreached.insert p })
    (fun _ => ⟨rfl, rfl, rfl, rfl, rfl, rfl⟩) h
  unfold failSlot; dsimp only
  rw [apply_ite Prod.fst]
  exact failed

theorem slotOwes_answer {d : Delivery} : SlotOwes p (.answer d :: l) s = SlotOwes p l s := by
  have same (x : SlotName) : (DeferralEntry.answer d :: l).countP (·.standsFor x) = l.countP (·.standsFor x) := by
    rw [List.countP_cons]; rfl
  exact propext ⟨fun h => ⟨h.fields, fun x q => by rw [← same]; exact h.entries x q⟩,
    fun h => ⟨h.fields, fun x q => by rw [same]; exact h.entries x q⟩⟩

theorem slotOwes_discardAll (entries : List DeferralEntry) (y : State × List Port) (h : SlotOwes p (entries ++ l) y.1) :
    SlotOwes p l (entries.foldl (discardEntry p) y).1 := by
  induction entries generalizing y with
  | nil => exact h
  | cons e entries ih =>
    refine ih _ ?_
    cases e with
    | answer d =>
      rw [List.cons_append, slotOwes_answer] at h
      exact (see_releasePayload slotOwes_pool _ _).mpr h
    | slot x i c => exact slotOwes_failSlot h

end rules

/-! ## The operations -/

section operations
variable {s : State} {p : Port}

theorem slotLaw_of_owes (h : SlotOwes p [] s) : SlotLaw s := (slotLaw_iff p).mpr h

/-- A change of a port's record that leaves its slots and its deferral list alone. -/
theorem slotLaw_modPort_eq {q : Port} {f : PortRecord → PortRecord} (s : State) (hf : ∀ r, (f r).slots = r.slots)
    (hd : ∀ r, (f r).deferral = r.deferral) : SlotLaw (s.modPort q f) = SlotLaw s := by
  simp only [slotLaw_iff q]; exact slotOwes_modPort_eq s hf hd

theorem slotLaw_congr {t : State} (hx : ∀ x, t.slot x = s.slot x) (hp : ∀ q, (t.port q).deferral = (s.port q).deferral) :
    SlotLaw t = SlotLaw s := by
  simp only [slotLaw_iff 0]; exact slotOwes_congr hx hp

theorem slotLaw_pool : PoolBlind SlotLaw := ⟨fun s _ _ => slotLaw_congr (s := s) (fun _ => rfl) fun _ => rfl⟩
theorem slotLaw_topics : TopicBlind SlotLaw := ⟨fun s _ _ => slotLaw_congr (s := s) (fun _ => rfl) fun _ => rfl⟩
theorem slotLaw_fetches : FetchBlind SlotLaw := ⟨fun s _ _ => slotLaw_congr (s := s) (fun _ => rfl) fun _ => rfl⟩
theorem slotLaw_subscriptions : SubscriptionBlind SlotLaw :=
  ⟨fun s _ => slotLaw_congr (s := s) (fun _ => rfl) fun _ => rfl⟩
theorem slotLaw_solicits : SolicitBlind SlotLaw :=
  ⟨fun s _ _ => slotLaw_modPort_eq s (fun _ => by rfl) fun _ => by rfl⟩
theorem slotLaw_cursors : CursorBlind SlotLaw :=
  ⟨fun s _ _ => slotLaw_modPort_eq s (fun _ => by rfl) fun _ => by rfl⟩
theorem slotLaw_sessions : SessionBlind SlotLaw :=
  ⟨fun s _ _ => slotLaw_modPort_eq s (fun _ => by rfl) fun _ => by rfl,
    fun s _ _ => slotLaw_modPort_eq s (fun _ => by rfl) fun _ => by rfl,
    fun s _ => slotLaw_congr (s := s) (fun _ => rfl) fun _ => rfl⟩

theorem slotLaw_emptySlot {x : SlotName} (hx : (s.slot x).state ≠ .deferred) (h : SlotLaw s) : SlotLaw (emptySlot x s) :=
  slotLaw_of_owes (p := 0) (slotOwes_emptySlot hx ((slotLaw_iff 0).mp h))

theorem slotLaw_finishSlot {x : SlotName} (c : Completion) (hx : (s.slot x).state ≠ .deferred) (h : SlotLaw s) :
    SlotLaw (finishSlot x c s) :=
  slotLaw_of_owes (p := 0)
    (slotOwes_finishSlot c (Slot.pending_of_fitsState (h.fields x) hx) ((slotLaw_iff 0).mp h))

theorem slotLaw_modSlot {x : SlotName} {f : Slot → Slot} (hf : (f (s.slot x)).fitsState)
    (hp : (f (s.slot x)).pending = (s.slot x).pending) (h : SlotLaw s) : SlotLaw (s.modSlot x f) :=
  slotLaw_of_owes (p := 0) (slotOwes_modSlot hf hp ((slotLaw_iff 0).mp h))

theorem slotLaw_appendDelivery (d : Delivery) (h : SlotLaw s) : SlotLaw (appendDelivery p d s) := by
  unfold appendDelivery
  rw [slotLaw_modPort_eq]
  · exact h
  all_goals exact fun _ => rfl

theorem slotLaw_giveAnswer (p : Port) (d : Delivery) (h : SlotLaw s) : SlotLaw (giveAnswer p d s) := by
  have taken : SlotLaw (takePayload d.payload s) := (see_takePayload slotLaw_pool _ _).mpr h
  unfold giveAnswer placeAnswer
  split
  · exact slotLaw_appendDelivery d taken
  · refine slotLaw_of_owes (slotOwes_modPort (fun _ => by rfl) (fun x => ?_) ((slotLaw_iff p).mp taken))
    dsimp only
    rw [List.countP_append]; rfl

theorem slotLaw_placeNotice (p : Port) (d : Delivery) (h : SlotLaw s) : SlotLaw (placeNotice p d s) := by
  unfold placeNotice; split
  · exact slotLaw_appendDelivery d h
  · rw [slotLaw_modPort_eq]
    · exact h
    all_goals exact fun _ => rfl

/-- After the deletion no list of a pending port has an entry for the slot, and the entries of others stand. -/
theorem deferral_deleteEntries (x : SlotName) (s : State) (q : Port) : ((deleteEntries x s).port q).deferral =
    if (s.slot x).pending.has q then (s.port q).deferral.filter fun e => !e.standsFor x else (s.port q).deferral := by
  have slot (u : State) (p : Port) : (deleteEntryAt x u p).slot x = u.slot x := by
    unfold deleteEntryAt; split
    · rw [slot_modPort]; exact fun _ => rfl
    · rfl
  have fold (l : List Port) (hl : l.Nodup) (u : State) (hu : u.slot x = s.slot x) :
      ((l.foldl (deleteEntryAt x) u).port q).deferral =
        if q ∈ l ∧ (s.slot x).pending.has q then (u.port q).deferral.filter fun e => !e.standsFor x
        else (u.port q).deferral := by
    induction l generalizing u with
    | nil => simp
    | cons p l ih =>
      obtain ⟨hp, hl⟩ := List.nodup_cons.mp hl
      rw [List.foldl_cons, ih hl _ ((slot u p).trans hu)]
      by_cases e : p = q
      · subst e
        have here : ((deleteEntryAt x u p).port p).deferral = if (s.slot x).pending.has p then
            (u.port p).deferral.filter fun e => !e.standsFor x else (u.port p).deferral := by
          unfold deleteEntryAt; rw [hu]; split <;> simp
        rw [here]; simp [hp]
      · have there : ((deleteEntryAt x u p).port q).deferral = (u.port q).deferral := by
          unfold deleteEntryAt; split <;> [rw [port_modPort_ne _ _ e]; rfl]
        rw [there]; simp [Ne.symm e]
  have all := fold allPorts nodup_allPorts s rfl
  unfold deleteEntries
  simpa [mem_allPorts] using all

theorem countP_filter_standsFor (x y : SlotName) (l : List DeferralEntry) :
    (l.filter fun e => !e.standsFor x).countP (·.standsFor y) = if x = y then 0 else l.countP (·.standsFor y) := by
  rw [List.countP_filter]
  split
  · next e => subst e; exact List.countP_eq_zero.mpr fun e _ => by cases e.standsFor x <;> simp
  · next e =>
    refine List.countP_congr fun d _ => ?_
    cases d with
    | answer d => simp [DeferralEntry.standsFor]
    | slot z i c =>
      simp only [DeferralEntry.standsFor, Bool.and_eq_true, beq_iff_eq, Bool.not_eq_true', beq_eq_false_iff_ne]
      exact ⟨And.left, fun hz => ⟨hz, fun hx => e (hx.symm.trans hz)⟩⟩

theorem deferral_endDeferred (x : SlotName) (c : Completion) (s : State) (q : Port) :
    ((endDeferred x c s).port q).deferral = ((deleteEntries x s).port q).deferral := by
  unfold endDeferred; dsimp only
  generalize deleteEntries x s = u
  rw [deferral_finishSlot, port_modSlot]; split <;> rfl

theorem slotLaw_endDeferred (x : SlotName) (c : Completion) (h : SlotLaw s) : SlotLaw (endDeferred x c s) := by
  have slots := fun y => slot_endDeferred x y s c
  have lists := fun q => deferral_endDeferred x c s q
  generalize endDeferred x c s = u at slots lists
  refine ⟨fun y => ?_, fun y q => ?_⟩
  · rw [slots]; split
    · exact Slot.fitsState_ended _ _
    · exact h.fields y
  · have old := h.entries y q
    rw [lists, deferral_deleteEntries, slots]
    by_cases e : x = y
    · subst e
      rw [if_pos rfl]
      change _ = if PortSet.none.has q then 1 else 0
      rw [PortSet.has_none]
      split
      · rw [countP_filter_standsFor, if_pos rfl]; rfl
      · next hn => rw [old, if_neg hn]; rfl
    · rw [if_neg e, ← old]
      split
      · rw [countP_filter_standsFor, if_neg e]
      · rfl

end operations

/-! ## The events -/

section events
variable {s : State} {p : Port}

/-- No slot of the port is DEFERRED. -/
def NoneDeferred (p : Port) (s : State) : Prop := ∀ k, (s.slot ⟨p, k⟩).state ≠ .deferred

theorem state_discardAll (y : SlotName) (l : List DeferralEntry) (z : State × List Port) :
    ((l.foldl (discardEntry p) z).1.slot y).state = (z.1.slot y).state ∨
      ((l.foldl (discardEntry p) z).1.slot y).state = .done := by
  induction l generalizing z with
  | nil => exact .inl rfl
  | cons e l ih =>
    have first : ((discardEntry p z e).1.slot y).state = (z.1.slot y).state ∨
        ((discardEntry p z e).1.slot y).state = .done := by
      cases e with
      | answer d => exact .inl (congrArg Slot.state (slot_releasePayload d.payload z.1 y))
      | slot x i c => exact state_failSlot x y p z.1
    rcases ih (discardEntry p z e) with h | h
    · rw [List.foldl_cons, h]; exact first
    · exact .inr h

theorem state_emptyDeferral (y : SlotName) (p : Port) (s : State) :
    ((emptyDeferral p s).1.slot y).state = (s.slot y).state ∨ ((emptyDeferral p s).1.slot y).state = .done := by
  have h := state_discardAll (p := p) y (s.port p).deferral (s.modPort p fun r => { r with deferral := [] }, [])
  have same : (s.modPort p fun r => { r with deferral := [] }).slot y = s.slot y := by
    rw [slot_modPort]; exact fun _ => rfl
  rwa [same] at h

theorem slotLaw_emptyDeferral (p : Port) (h : SlotLaw s) : SlotLaw (emptyDeferral p s).1 :=
  slotLaw_of_owes (slotOwes_discardAll _ (_, []) (slotOwes_modPort (l := []) (fun _ => by rfl) (fun x => by simp)
    ((slotLaw_iff p).mp h)))

theorem slotLaw_emptyQueue (p : Port) (h : SlotLaw s) : SlotLaw (emptyQueue p s) := by
  unfold emptyQueue
  rw [slotLaw_modPort_eq]
  · exact (see_foldl (fun s (d : Delivery) => see_releasePayload slotLaw_pool d.payload s) _ s).mpr h
  all_goals exact fun _ => rfl

/-- A port without a DEFERRED slot is torn down. -/
theorem slotLaw_teardown {b : Bool} (hp : NoneDeferred p s) (h : SlotLaw s) : SlotLaw (teardown b p s).1 := by
  rw [teardown_fst, see_judgeExchange slotLaw_sessions]
  unfold teardownBlocks
  rw [see_closePort slotLaw_sessions, see_homeCursor slotLaw_cursors]
  have discarded := slotLaw_emptyDeferral p (slotLaw_emptyQueue p h)
  have drained : NoneDeferred p (emptyDeferral p (emptyQueue p s)).1 := fun k => by
    rcases state_emptyDeferral ⟨p, k⟩ p (emptyQueue p s) with e | e <;> rw [e]
    · rw [slot_emptyQueue]; exact hp k
    · exact nofun
  generalize (emptyDeferral p (emptyQueue p s)).1 = u at discarded drained
  refine (emptySlots_keeps (P := fun u => SlotLaw u ∧ NoneDeferred p u) (fun v x hx hv => ?_) ⟨?_, fun k => ?_⟩).1
  · obtain ⟨q, k⟩ := x
    subst hx
    refine ⟨slotLaw_emptySlot (hv.2 k) hv.1, fun j => ?_⟩
    rw [slot_emptySlot]; split <;> [exact nofun; exact hv.2 j]
  · rw [slotLaw_modPort_eq]
    · exact discarded
    all_goals exact fun _ => rfl
  · rw [slot_modPort]
    · exact drained k
    · exact fun _ => rfl

theorem slotLaw_endDrains {y : State × List Port} (h : SlotLaw y.1) : SlotLaw (endDrains y) :=
  endDrains_keeps (fun s q hq hs => slotLaw_teardown ((drainEnded_iff s q).mp hq).2 hs) h

theorem slotLaw_answerAll (d : Delivery) (h : SlotLaw s) : SlotLaw (answerAll d s) :=
  answerAll_keeps (fun s i f _ _ hs => by rw [slotLaw_fetches.fetch]; exact slotLaw_giveAnswer f.requester d hs) h

theorem slotLaw_freeRecord (i : RecordNo) (h : SlotLaw s) : SlotLaw (freeRecord i s) := by
  rw [see_freeRecord slotLaw_pool slotLaw_topics]; exact h

theorem slotLaw_leaveEffects (h : SlotLaw s) : SlotLaw (leaveEffects p s) := by
  unfold leaveEffects
  rw [see_clearSolicits slotLaw_solicits]
  refine orphanTopics_keeps (fun s i t _ hs => orphanRecord_keeps (fun s j f d _ _ _ hs => ?_)
    (fun s t hs => ?_) (fun s hs => ?_) (fun s t v q j hs => slotLaw_placeNotice _ _ hs)
    (fun s hs => slotLaw_freeRecord i hs) hs) ?_
  · rw [slotLaw_fetches.fetch]; exact slotLaw_giveAnswer f.requester d hs
  · rw [see_removeSolicit slotLaw_solicits]; exact hs
  · rw [slotLaw_topics.topic]; exact hs
  · rw [see_removeFetches slotLaw_solicits slotLaw_fetches, see_freeSubscriptionsOf slotLaw_subscriptions]
    exact leaveSlots_keeps (fun _ x _ hx hs => slotLaw_emptySlot (by rw [hx]; exact nofun) hs)
      (fun _ x _ hx hs => slotLaw_finishSlot _ (by rw [hx]; exact nofun) hs) h

/-- No slot of the port is DEFERRED once they have been aborted. -/
theorem noneDeferred_abortDeferredSlots (p : Port) (s : State) : NoneDeferred p (abortDeferredSlots p s) := by
  have step (u : State) (j k : SlotNo) (h : j = k ∨ (u.slot ⟨p, k⟩).state ≠ .deferred) :
      ((abortDeferredSlot p u j).slot ⟨p, k⟩).state ≠ .deferred := by
    unfold abortDeferredSlot; split
    · rw [slot_endDeferred]; split
      · exact nofun
      · next e => exact h.resolve_left fun e' => e (e' ▸ rfl)
    · next hn => rcases h with e | h <;> [exact e ▸ hn; exact h]
  have fold (l : List SlotNo) (u : State) (k : SlotNo) (h : k ∈ l ∨ (u.slot ⟨p, k⟩).state ≠ .deferred) :
      ((l.foldl (abortDeferredSlot p) u).slot ⟨p, k⟩).state ≠ .deferred := by
    induction l generalizing u with
    | nil => exact h.resolve_left List.not_mem_nil
    | cons j l ih =>
      refine ih _ ?_
      rcases h with h | h
      · rcases List.mem_cons.mp h with e | h
        · exact .inr (step u j k (.inl e.symm))
        · exact .inl h
      · exact .inr (step u j k (.inr h))
  exact fun k => fold _ s k (.inl (List.mem_finRange k))

theorem slotLaw_quarantine (h : SlotLaw s) : SlotLaw (quarantine p s) := by
  have port {u : State} {f : PortRecord → PortRecord} (hf : ∀ r, (f r).slots = r.slots)
      (hd : ∀ r, (f r).deferral = r.deferral) (hu : SlotLaw u) : SlotLaw (u.modPort p f) := by
    rw [slotLaw_modPort_eq u hf hd]; exact hu
  have cut : SlotLaw (cutRequest p s) := port (fun _ => by rfl) (fun _ => by rfl) h
  have held {u : State} (hu : SlotLaw u) : SlotLaw (startHold p u) := port (fun _ => by rfl) (fun _ => by rfl) hu
  have torn {u : State} (hu : SlotLaw u) : SlotLaw (endDrains (teardown true p (abortDeferredSlots p u))) :=
    slotLaw_endDrains (slotLaw_teardown (noneDeferred_abortDeferredSlots p u)
      (abortDeferredSlots_keeps (fun _ x _ _ hs => slotLaw_endDeferred x _ hs) hu))
  unfold quarantine; dsimp only
  split
  · exact held ((see_closePort slotLaw_sessions _ p _).mpr cut)
  · exact held (torn (slotLaw_leaveEffects cut))
  · exact held (torn cut)
  · exact held cut

theorem slotLaw_consumption {d : Delivery} {rest : List Delivery} (h : SlotLaw s) :
    SlotLaw (consumption p d rest s).1 := by
  have released : SlotOwes p [] (releasePayload d.payload s) :=
    (slotLaw_iff p).mp ((see_releasePayload slotLaw_pool _ _).mpr h)
  unfold consumption; split
  · split
    · next hd =>
      refine slotLaw_of_owes (slotOwes_modPort (fun _ => by rfl) (fun x => ?_) released)
      rw [port_releasePayload, hd]; rfl
    · next e entries hd =>
      refine slotLaw_of_owes (slotOwes_modPort (fun _ => by rfl) (fun x => ?_) released)
      rw [port_releasePayload, hd, List.countP_cons]; rfl
    · next x i c entries hd =>
      refine slotLaw_of_owes (slotOwes_serveSlot (i := i) (c := c) ?_)
      rw [see_takePayload slotOwes_pool]
      refine slotOwes_modPort (fun _ => by rfl) (fun y => ?_) released
      rw [port_releasePayload, hd, List.countP_cons, List.countP_cons]
      exact (Nat.add_assoc _ _ _).symm.trans (by simp [PortRecord.consumed])
  · rw [slotLaw_modPort_eq]
    · exact slotLaw_of_owes released
    all_goals exact fun _ => rfl

theorem slotLaw_consumeHead (hq : (s.port p).queue ≠ []) (h : SlotLaw s) : SlotLaw (consumeHead p s) := by
  obtain ⟨d, rest, hq⟩ := List.exists_cons_of_ne_nil hq
  rw [consumeHead_eq hq]
  exact slotLaw_endDrains (slotLaw_consumption h)

theorem slotLaw_passByte (hq : (s.port p).queue ≠ []) (h : SlotLaw s) : SlotLaw (passByte p s) := by
  obtain ⟨d, rest, hd⟩ := List.exists_cons_of_ne_nil hq
  have opened (v : PortRecord → View) : SlotLaw (s.modPort p fun r =>
      { r with queue := { d with isOpen := true } :: rest, view := v r }) := by
    rw [slotLaw_modPort_eq]
    · exact h
    all_goals exact fun _ => rfl
  by_cases hc : (s.port p).view.cursor = (s.port p).view.stop
  · cases hm : (s.port p).view.mode with
    | hold => rw [passByte_atEnd_hold hd hc hm]; exact opened _
    | advance => rw [passByte_atEnd_advance hq hc hm]; exact slotLaw_consumeHead hq h
  · rw [passByte_within hd hc]; exact opened _

end events

/-! ## A take -/

section taking
variable {s : State}

/-- The number of entries that stand for a slot in the deferral list of a port. -/
def entriesFor (x : SlotName) (s : State) (q : Port) : Nat := (s.port q).deferral.countP (·.standsFor x)

theorem entriesFor_answerAll (y : SlotName) (q : Port) (d : Delivery) (s : State) :
    entriesFor y (answerAll d s) q = entriesFor y s q := by
  refine answerAll_keeps (P := fun u => entriesFor y u q = entriesFor y s q) (fun u i f _ _ hu => ?_) rfl
  rw [← hu]
  change entriesFor y (giveAnswer f.requester d u) q = _
  unfold giveAnswer placeAnswer entriesFor
  split
  · unfold appendDelivery
    rw [port_modPort]; split <;> rw [port_takePayload]
  · unfold appendDeferral
    rw [port_modPort]; split
    · rw [port_takePayload, List.countP_append]; rfl
    · rw [port_takePayload]

theorem deferral_placePost (x : SlotName) (p : Port) (i : SubIndex) (latest : Bool) (s : State) :
    ((placePost x p i latest s).1.port p).deferral = if (placePost x p i latest s).2 = .pending then
      (s.port p).deferral ++ [.slot x i latest] else (s.port p).deferral := by
  have deferred : ((appendDeferral p (.slot x i latest) s).port p).deferral =
      (s.port p).deferral ++ [.slot x i latest] := by simp [appendDeferral]
  by_cases hd : (s.port p).deferral = []
  · cases hc : mayCoalesceInto s x p latest with
    | none =>
      by_cases hl : (s.port p).queue.length < 32
      · rw [placePost_appended hd hc hl]; simp [appendDelivery, port_takePayload]
      · rw [placePost_full hd hc (Nat.le_of_not_lt hl)]; simpa using deferred
    | some target => rw [placePost_coalesced hd hc]; simp [port_releasePayload, port_takePayload]
  · rw [placePost_behindList hd]; simpa using deferred

/-- The placements of a post add one entry for its slot at every port that is pending, and no other entry. -/
theorem entriesFor_placeAll (x y : SlotName) (t : Word) (s : State) (q : Port) :
    entriesFor y (placeAll x t s).state q =
      entriesFor y s q + if x = y ∧ (placeAll x t s).pending.has q then 1 else 0 := by
  have placed := placeAll_placedAt x t s q
  generalize placeAll x t s = z at placed
  unfold PlacedAt at placed
  unfold entriesFor
  cases hg : governing s q fun e => e.matchesPost t x.owner with
  | none =>
    rw [hg] at placed
    obtain ⟨port, -, pending⟩ := placed
    simp [port, pending]
  | some i =>
    rw [hg] at placed
    obtain ⟨port, -, pending⟩ := placed
    rw [port, pending, deferral_placePost]
    cases hz : (placePost x q i (s.subscription i).latest s).2 with
    | reached => simp
    | pending => simp [List.countP_append, List.countP_singleton, DeferralEntry.standsFor]

theorem slot_placeAll (x y : SlotName) (t : Word) (s : State) : (placeAll x t s).state.slot y = s.slot y :=
  see_placeAll (queueBlind_slot y) ⟨fun _ _ _ => rfl⟩ x t s

/-- What a slot reads when its take has settled. -/
def Slot.settled (reached pending : PortSet) (deadline : Nat) (k : Slot) : Slot :=
  if pending = PortSet.none then
    Slot.ended .delivered { k with reached := reached, pending := pending, unreached := PortSet.none }
  else { k with
    reached := reached, pending := pending, unreached := PortSet.none, state := .deferred
    deadline := .running deadline }

theorem Slot.settled_pending (reached pending : PortSet) (deadline : Nat) (k : Slot) :
    (k.settled reached pending deadline).pending = pending := by
  unfold Slot.settled; split <;> [(next e => exact e.symm); rfl]

theorem slot_settleSlot (x y : SlotName) (z : Placements) : (settleSlot x z).slot y =
    if x = y then (z.state.slot x).settled z.reached z.pending z.state.params.deliveryDeadline else z.state.slot y := by
  unfold settleSlot Slot.settled; dsimp only
  split
  · rw [slot_finishSlot, slot_modSlot_same]
    split <;> [rfl; (next e => rw [slot_modSlot_ne _ _ e])]
  · rw [modSlot_modSlot, slot_modSlot]
    split <;> [(next e => subst e; rfl); rfl]

theorem entriesFor_settleSlot (x y : SlotName) (z : Placements) (q : Port) :
    entriesFor y (settleSlot x z) q = entriesFor y z.state q := by
  unfold settleSlot entriesFor; dsimp only
  split
  · rw [deferral_finishSlot, port_modSlot]; split <;> rfl
  · rw [modSlot_modSlot, port_modSlot]; split <;> rfl

theorem slot_stampRecord (i : RecordNo) (v : Option Payload) (s : State) (y : SlotName) :
    (stampRecord i v s).slot y = s.slot y :=
  see_stampRecord (see := fun s => s.slot y) ⟨fun _ _ _ => rfl⟩ ⟨fun _ _ _ => rfl⟩ i v s

theorem slot_stampSlot (x : SlotName) (v : Word) (s : State) (y : SlotName) : (stampSlot x v s).slot y =
    if x = y then { s.slot x with version := some v } else s.slot y := by
  change (s.modSlot x _).slot y = _
  rw [slot_modSlot]; split <;> [(next e => rw [e]); rfl]

theorem slot_removeSolicit (q : Port) (t : Word) (s : State) (y : SlotName) : (removeSolicit q t s).slot y = s.slot y := by
  unfold removeSolicit; rw [slot_modPort]; exact fun _ => rfl

theorem slot_answerAll (d : Delivery) (s : State) (y : SlotName) : (answerAll d s).slot y = s.slot y :=
  see_answerAll (queueBlind_slot y) ⟨fun _ _ _ => rfl⟩ ⟨fun _ _ _ => rfl⟩ d s

theorem entriesFor_stampRecord (y : SlotName) (q : Port) (i : RecordNo) (v : Option Payload) (s : State) :
    entriesFor y (stampRecord i v s) q = entriesFor y s q :=
  see_stampRecord (see := fun s => entriesFor y s q) ⟨fun _ _ _ => rfl⟩ ⟨fun _ _ _ => rfl⟩ i v s

theorem entriesFor_stampSlot (y : SlotName) (q : Port) (x : SlotName) (v : Word) (s : State) :
    entriesFor y (stampSlot x v s) q = entriesFor y s q := by
  change ((s.modSlot x _).port q).deferral.countP _ = _
  rw [port_modSlot]; split <;> rfl

theorem entriesFor_removeSolicit (y : SlotName) (q p : Port) (t : Word) (s : State) :
    entriesFor y (removeSolicit p t s) q = entriesFor y s q := by
  unfold removeSolicit entriesFor
  rw [port_modPort]; split <;> rfl

/-- A take up to its answers: the record stamped, the slot stamped, the solicit gone, the fetches answered (R44, steps 1 to
3). -/
def answeredTake (x : SlotName) (i : RecordNo) (s : State) : State :=
  let version := ((stampRecord i (s.slot x).value s).topic i).version
  answerAll (answerDelivery (s.slot x).topic .fresh (s.slot x).value version (some x.owner))
    (removeSolicit x.owner (s.slot x).topic (stampSlot x version (stampRecord i (s.slot x).value s)))

theorem takePost_eq (x : SlotName) (i : RecordNo) (s : State) :
    takePost x i s = settleSlot x (placeAll x (s.slot x).topic (answeredTake x i s)) := by
  unfold takePost answeredTake; dsimp only

theorem slot_answeredTake (x y : SlotName) (i : RecordNo) (s : State) : (answeredTake x i s).slot y =
    if x = y then { s.slot x with version := some ((stampRecord i (s.slot x).value s).topic i).version }
    else s.slot y := by
  unfold answeredTake; dsimp only
  rw [slot_answerAll, slot_removeSolicit, slot_stampSlot, slot_stampRecord, slot_stampRecord]

theorem entriesFor_answeredTake (x y : SlotName) (i : RecordNo) (s : State) (q : Port) :
    entriesFor y (answeredTake x i s) q = entriesFor y s q := by
  unfold answeredTake; dsimp only
  rw [entriesFor_answerAll, entriesFor_removeSolicit, entriesFor_stampSlot, entriesFor_stampRecord]

theorem slotLaw_takePost {x : SlotName} {i : RecordNo} (hx : (s.slot x).state = .ready) (h : SlotLaw s) :
    SlotLaw (takePost x i s) := by
  have fits := h.fields x
  unfold Slot.fitsState at fits
  rw [hx] at fits
  obtain ⟨buffer, -, pending, -, -, status, -⟩ := fits
  rw [takePost_eq]
  have slots := fun y => slot_answeredTake x y i s
  have lists := fun y q => entriesFor_answeredTake x y i s q
  generalize answeredTake x i s = u at slots lists
  have placed := fun y q => entriesFor_placeAll x y (s.slot x).topic u q
  have kept := fun y => slot_placeAll x y (s.slot x).topic u
  generalize placeAll x (s.slot x).topic u = z at placed kept
  refine ⟨fun y => ?_, fun y q => ?_⟩
  · rw [slot_settleSlot]
    split
    · rw [kept, slots, if_pos rfl]
      unfold Slot.settled; split
      · exact Slot.fitsState_ended _ _
      · next hn => exact ⟨buffer, rfl, hn, status, nofun⟩
    · next e => rw [kept, slots, if_neg e]; exact h.fields y
  · have count := (entriesFor_settleSlot x y z q).trans ((placed y q).trans (congrArg (· + _) ((lists y q).trans (h.entries y q))))
    refine Eq.trans (a := entriesFor y (settleSlot x z) q) rfl (count.trans ?_)
    rw [slot_settleSlot]
    by_cases e : x = y
    · subst e
      rw [pending, PortSet.has_none, if_pos rfl, Slot.settled_pending]
      simp
    · rw [if_neg e, kept, slots, if_neg e]; simp [e]

end taking

/-! ## Every event -/

theorem Timer.after_eq_stopped (n : Nat) (t : Timer) : t.after n = .stopped ↔ t = .stopped := by
  cases t <;> simp [Timer.after]

/-- Time passes for a slot's deadline without a change of what the slot's state carries. -/
theorem Slot.fitsState_after {k : Slot} (n : Nat) (h : k.fitsState) :
    Slot.fitsState { k with deadline := k.deadline.after n } := by
  unfold Slot.fitsState at h ⊢
  cases hk : k.state <;> simp only [hk] at h ⊢
  · rw [h]; rfl
  · obtain ⟨h1, h2, h3, h4, h5, h6, h7, h8⟩ := h
    exact ⟨h1, h2, h3, h4, h5, h6, h7, (Timer.after_eq_stopped _ _).mpr h8⟩
  · obtain ⟨h1, h2, h3, h4, h5, h6, h7⟩ := h
    exact ⟨h1, h2, h3, h4, h5, h6, (Timer.after_eq_stopped _ _).mpr h7⟩
  · obtain ⟨h1, h2, h3, h4, h5⟩ := h
    exact ⟨h1, h2, h3, h4, fun e => h5 ((Timer.after_eq_stopped _ _).mp e)⟩
  · obtain ⟨h1, h2, h3, h4⟩ := h
    exact ⟨h1, h2, h3, (Timer.after_eq_stopped _ _).mpr h4⟩

theorem mem_of_foldl_betterSlot (s : State) (l : List SlotName) (best : Option SlotName) {x : SlotName}
    (h : l.foldl (betterSlot s) best = some x) : best = some x ∨ x ∈ l := by
  induction l generalizing best with
  | nil => exact .inl h
  | cons y l ih =>
    rcases ih _ h with e | hx
    · cases best with
      | none => exact .inr (Option.some.inj e ▸ List.mem_cons_self)
      | some z =>
        unfold betterSlot at e; dsimp only at e
        split at e
        · exact .inr (Option.some.inj e ▸ List.mem_cons_self)
        · exact .inl e
    · exact .inr (List.mem_cons_of_mem y hx)

/-- The dispatcher chooses a READY slot. -/
theorem ready_of_chosenSlot {s : State} {x : SlotName} (h : chosenSlot s = some x) : (s.slot x).state = .ready := by
  rcases mem_of_foldl_betterSlot s _ _ h with e | hx
  · cases e
  · simpa using (List.mem_filter.mp hx).2

theorem slotLaw_events : EventsKeep SlotLaw := by
  have solicits := slotLaw_solicits
  have fetches := slotLaw_fetches
  have port {s : State} {p : Port} {f : PortRecord → PortRecord} (hf : ∀ r, (f r).slots = r.slots)
      (hd : ∀ r, (f r).deferral = r.deferral) (h : SlotLaw s) : SlotLaw (s.modPort p f) := by
    rw [slotLaw_modPort_eq s hf hd]; exact h
  refine ⟨?_, ?waiting, ?reset, ?parameterSet⟩
  constructor
  case waiting => exact fun s l h => ⟨h.fields, h.entries⟩
  case link => exact fun s p f hf h => port (fun r => by rw [hf r]) (fun r => by rw [hf r]) h
  case reset =>
    refine fun s straps _ => ⟨fun x => ?_, fun x p => ?_⟩
    · rw [slot_resetDevice]; rfl
    · rw [slot_resetDevice, port_resetDevice]
      change 0 = if PortSet.none.has p then 1 else 0
      rw [PortSet.has_none]; rfl
  case tick =>
    refine fun s n h => ⟨fun x => ?_, fun x p => ?_⟩
    · rw [slot_countPeriods]; exact Slot.fitsState_after _ (h.fields x)
    · rw [slot_countPeriods, port_countPeriods]; exact h.entries x p
  case quarantined => exact fun s p _ h => slotLaw_quarantine h
  case holdRestarted => exact fun s p _ h => port (fun _ => by rfl) (fun _ => by rfl) h
  case holdExpired => exact fun s p _ h => port (fun _ => by rfl) (fun _ => by rfl) h
  case joined =>
    exact fun s p _ h => (slotLaw_sessions.exchange _ _).mpr
      (port (s := s) (p := p) (f := fun r => { r with state := .online }) (fun _ => rfl) (fun _ => rfl) h)
  case left =>
    exact fun s p _ h => leavePort_keeps (Q := SlotLaw) (slotLaw_leaveEffects (port (fun _ => by rfl) (fun _ => by rfl) h))
      (fun _ hk hs => slotLaw_teardown hk hs)
      (fun s q hq hs => slotLaw_teardown ((drainEnded_iff s q).mp hq).2 hs) fun _ hs => hs
  case recovered => exact fun s p _ _ h => port (fun _ => by rfl) (fun _ => by rfl) h
  case missedCleared => exact fun s p h => port (fun _ => by rfl) (fun _ => by rfl) h
  case parameterSet => exact fun s i v _ h => ⟨h.fields, h.entries⟩
  case topicDeclared => exact fun s p i t kind limit _ _ _ _ h => (slotLaw_topics.topic s i _).mpr h
  case topicRedeclared => exact fun s i t kind limit _ _ _ _ h => (slotLaw_topics.topic s i _).mpr h
  case topicAdopted => exact fun s p i t limit _ _ _ h => (slotLaw_topics.topic s i _).mpr h
  case topicRetired =>
    intro s p i t _ _ _ _ h
    unfold retireRecord; dsimp only
    refine slotLaw_freeRecord i ?_
    rw [see_removeSolicit solicits]
    exact slotLaw_answerAll _ h
  case topicPurged => exact fun s i t _ _ _ h => slotLaw_freeRecord i h
  case subscribed => exact fun s p i pattern mask options _ _ _ h => (slotLaw_subscriptions.subscriptions s _).mpr h
  case unsubscribed => exact fun s i h => (slotLaw_subscriptions.subscriptions s _).mpr h
  case postOpened =>
    intro s x t priority i b _ he _ _ _ _ h
    have allocated : SlotLaw (allocateBuffer b s) := (slotLaw_pool.buffer s b _).mpr h
    have fits := h.fields x
    unfold Slot.fitsState at fits
    rw [he] at fits
    have reset : (allocateBuffer b s).slot x = Slot.reset := fits
    refine slotLaw_modSlot ?_ rfl allocated
    rw [reset]
    exact ⟨rfl, rfl, rfl, rfl, rfl, rfl, rfl, rfl⟩
  case payloadWritten =>
    intro s x offset data hx h
    have fits := h.fields x
    unfold Slot.fitsState at fits
    rw [hx] at fits
    have written (u : State) (hu : u.slot x = s.slot x) (h : SlotLaw u) :
        SlotLaw (u.modSlot x fun k => { k with length := max k.length (offset + data.length) }) := by
      refine slotLaw_modSlot ?_ rfl h
      unfold Slot.fitsState
      rw [hu, hx]
      exact fits
    unfold writePayload; dsimp only
    split
    · exact written s rfl h
    · exact written _ rfl ((slotLaw_pool.buffer s _ _).mpr h)
  case submitted =>
    intro s x hx h
    have fits := h.fields x
    unfold Slot.fitsState at fits
    rw [hx] at fits
    obtain ⟨buffer, -, others⟩ := fits
    have ready : SlotLaw (s.modSlot x fun k => { k with state := .ready, readySequence := s.readySequence }) :=
      slotLaw_modSlot ⟨buffer, others⟩ rfl h
    exact ⟨ready.fields, ready.entries⟩
  case slotEmptied =>
    exact fun s x hx h => slotLaw_emptySlot (by rcases hx with e | e <;> rw [e] <;> exact nofun) h
  case readyAborted => exact fun s x hx h => slotLaw_finishSlot _ (by rw [hx]; exact nofun) h
  case deferredEnded => exact fun s x c _ h => slotLaw_endDrains (slotLaw_endDeferred x c h)
  case windowSet => exact fun s p _ _ _ _ _ h => port (fun _ => by rfl) (fun _ => by rfl) h
  case viewRead => exact fun s p n h => readBytes_keeps (fun _ hq hs => slotLaw_passByte hq hs) n [] h
  case consumed => exact fun s p hq h => slotLaw_consumeHead hq h
  case answeredNow => exact fun s p d _ _ _ h => slotLaw_giveAnswer p d h
  case fetchWaits =>
    intro s p t i j wait _ hlt _ _ _ hj h
    rw [see_solicit solicits, fetches.fetch]; exact h
  case fetchCancelled => exact fun s i f _ h => by rw [see_dropIdleSolicit solicits, fetches.fetch]; exact h
  case solicitsRead => exact fun s p h => port (fun _ => by rfl) (fun _ => by rfl) h
  case taken => exact fun s x i hx _ h => slotLaw_takePost (ready_of_chosenSlot hx) h
  case lapsed =>
    intro s i t _ _ _ h
    unfold lapse; dsimp only
    exact issueNotices_keeps (fun _ p _ _ hs => slotLaw_placeNotice p _ hs) ((slotLaw_topics.topic s i _).mpr h)
  case fetchExpired =>
    intro s i f hf h
    rw [see_dropIdleSolicit solicits, fetches.fetch]; exact slotLaw_giveAnswer _ _ h

/-- Settles O52. -/
theorem stepKeepsTheSlotLaw : Obligations.StepKeepsTheSlotLaw :=
  fun _ _ h ht => step_keeps_of_events slotLaw_events h ht

end Sys2Proof.Machine
end

