-- ==== Sys2Proof/Proofs/DirectoryLaw.lean ====
section
/-! The law of the directory (O59), stated for the ports that count as present: in the midst of a LEAVE the departing port
is LEAVING already and its topics are not yet orphaned. -/
namespace Sys2Proof.Machine
set_option Elab.async false

/-! ## The law for the ports present -/

/-- A slot holds a post that waits for the dispatcher. -/
def Slot.posting (k : Slot) : Prop := k.state = .loading ∨ k.state = .ready

/-- A fetch waits on the topic. -/
def Awaited (s : State) (t : Word) : Prop := ∃ j f, s.fetch j = some f ∧ f.topic = t

/-- The law of the directory, where the ports in `present` count as ONLINE. -/
structure DirectoryHolds (present : Port → Prop) (s : State) : Prop where
  unique : ∀ i j, (s.topic i).state ≠ .free → (s.topic j).state ≠ .free →
    (s.topic i).number = (s.topic j).number → i = j
  numbers : ∀ i, (s.topic i).state ≠ .free → isTopicNumber (s.topic i).number = true
  fields : ∀ i, (s.topic i).fitsState (Awaited s (s.topic i).number)
  producers : ∀ i p, (s.topic i).state = .declared → (s.topic i).producer = some p → present p
  posts : ∀ x, (s.slot x).posting →
    ∃ i, (s.topic i).state = .declared ∧ (s.topic i).number = (s.slot x).topic ∧ (s.topic i).producer = some x.owner
  fetches : ∀ j f, s.fetch j = some f →
    present f.requester ∧ f.deadline ≠ .stopped ∧ ∃ i, (s.topic i).state = .declared ∧ (s.topic i).number = f.topic
  solicitsOnce : ∀ p, (s.port p).solicits.Nodup
  solicits : ∀ p t, t ∈ (s.port p).solicits →
    (∃ i, (s.topic i).state = .declared ∧ (s.topic i).number = t ∧ (s.topic i).producer = some p) ∧ Awaited s t

/-- The ports that are ONLINE. -/
def Online (s : State) (p : Port) : Prop := (s.port p).state = .online

theorem directoryLaw_iff {s : State} : DirectoryLaw s ↔ DirectoryHolds (Online s) s :=
  ⟨fun h => ⟨h.unique, h.numbers, h.fields, h.producers, h.posts, h.fetches, h.solicitsOnce, h.solicits⟩,
    fun h => ⟨h.unique, h.numbers, h.fields, h.producers, h.posts, h.fetches, h.solicitsOnce, h.solicits⟩⟩

section rules
variable {present : Port → Prop} {s t : State}

theorem TopicRecord.fitsState_mono {r : TopicRecord} {w w' : Prop} (hw : w' → w) (h : r.fitsState w) : r.fitsState w' := by
  unfold TopicRecord.fitsState at h ⊢
  cases hs : r.state <;> rw [hs] at h <;> dsimp only at h ⊢
  · exact h
  · cases hk : r.kind <;> cases hr : r.retained <;> cases hst : r.stale <;> rw [hk, hr, hst] at h <;>
      dsimp only at h ⊢ <;> first | exact h | exact ⟨h.1, h.2.1, fun hw' => h.2.2 (hw hw')⟩
  · obtain ⟨h1, h2, h3, h4, h5, h6⟩ := h
    exact ⟨h1, h2, h3, h4, h5, fun hw' => h6 (hw hw')⟩

theorem DirectoryHolds.mono {present' : Port → Prop} (h : DirectoryHolds present s)
    (hp : ∀ p, present p → (∃ i, (s.topic i).state = .declared ∧ (s.topic i).producer = some p) ∨
      (∃ j f, s.fetch j = some f ∧ f.requester = p) → present' p) : DirectoryHolds present' s :=
  { h with
    producers := fun i p hi hpi => hp p (h.producers i p hi hpi) (.inl ⟨i, hi, hpi⟩)
    fetches := fun j f hf => ⟨hp _ (h.fetches j f hf).1 (.inr ⟨j, f, hf, rfl⟩), (h.fetches j f hf).2⟩ }

/-- What the law sees: the records and the fetches, of a slot whether it posts and on what topic, and the solicits, of which
some may go. -/
theorem directoryHolds_of_seen (ht : ∀ i, t.topic i = s.topic i) (hf : ∀ j, t.fetch j = s.fetch j)
    (hx : ∀ x, (t.slot x).posting → (s.slot x).posting ∧ (t.slot x).topic = (s.slot x).topic)
    (hl : ∀ p, ((t.port p).solicits).Sublist (s.port p).solicits) (h : DirectoryHolds present s) :
    DirectoryHolds present t where
  unique i j := by rw [ht, ht]; exact h.unique i j
  numbers i := by rw [ht]; exact h.numbers i
  fields i := by rw [ht]; exact TopicRecord.fitsState_mono (fun ⟨j, f, hj, e⟩ => ⟨j, f, hf j ▸ hj, e⟩) (h.fields i)
  producers i p := by rw [ht]; exact h.producers i p
  posts x hp := by
    obtain ⟨hp, e⟩ := hx x hp
    obtain ⟨i, hi⟩ := h.posts x hp
    exact ⟨i, by rw [ht, e]; exact hi⟩
  fetches j f hj := by
    obtain ⟨hp, hd, i, hi⟩ := h.fetches j f (hf j ▸ hj)
    exact ⟨hp, hd, i, by rw [ht]; exact hi⟩
  solicitsOnce p := (h.solicitsOnce p).sublist (hl p)
  solicits p w hw := by
    obtain ⟨⟨i, hi⟩, j, f, hj, e⟩ := h.solicits p w ((hl p).subset hw)
    exact ⟨⟨i, by rw [ht]; exact hi⟩, j, f, (hf j).trans hj, e⟩

theorem directoryHolds_congr (ht : ∀ i, t.topic i = s.topic i) (hf : ∀ j, t.fetch j = s.fetch j)
    (hx : ∀ x, t.slot x = s.slot x) (hl : ∀ p, (t.port p).solicits = (s.port p).solicits) :
    DirectoryHolds present t = DirectoryHolds present s :=
  propext ⟨directoryHolds_of_seen (fun i => (ht i).symm) (fun j => (hf j).symm)
      (fun x hx' => by rw [hx]; exact ⟨hx', rfl⟩) fun p => by rw [hl],
    directoryHolds_of_seen ht hf (fun x hx' => by rw [← hx]; exact ⟨hx', rfl⟩) fun p => by rw [hl]⟩

theorem directoryHolds_modPort_eq {q : Port} {f : PortRecord → PortRecord} (s : State) (hf : ∀ r, (f r).slots = r.slots)
    (hl : ∀ r, (f r).solicits = r.solicits) : DirectoryHolds present (s.modPort q f) = DirectoryHolds present s := by
  refine directoryHolds_congr (fun _ => rfl) (fun _ => rfl) (fun x => slot_modPort s hf x) fun r => ?_
  rw [port_modPort]; split <;> [exact hl _; rfl]

theorem directoryHolds_pool : PoolBlind (DirectoryHolds present) :=
  ⟨fun s _ _ => directoryHolds_congr (s := s) (fun _ => rfl) (fun _ => rfl) (fun _ => rfl) fun _ => rfl⟩
theorem directoryHolds_queues : QueueBlind (DirectoryHolds present) :=
  ⟨fun s _ _ => directoryHolds_modPort_eq s (fun _ => by rfl) fun _ => by rfl,
    fun s _ _ => directoryHolds_modPort_eq s (fun _ => by rfl) fun _ => by rfl,
    fun s _ _ => directoryHolds_modPort_eq s (fun _ => by rfl) fun _ => by rfl⟩
theorem directoryHolds_cursors : CursorBlind (DirectoryHolds present) :=
  ⟨fun s _ _ => directoryHolds_modPort_eq s (fun _ => by rfl) fun _ => by rfl⟩
theorem directoryHolds_sessions : SessionBlind (DirectoryHolds present) :=
  ⟨fun s _ _ => directoryHolds_modPort_eq s (fun _ => by rfl) fun _ => by rfl,
    fun s _ _ => directoryHolds_modPort_eq s (fun _ => by rfl) fun _ => by rfl,
    fun s _ => directoryHolds_congr (s := s) (fun _ => rfl) (fun _ => rfl) (fun _ => rfl) fun _ => rfl⟩
theorem directoryHolds_subscriptions : SubscriptionBlind (DirectoryHolds present) :=
  ⟨fun s _ => directoryHolds_congr (s := s) (fun _ => rfl) (fun _ => rfl) (fun _ => rfl) fun _ => rfl⟩

/-! ### Slots -/

theorem directoryHolds_modSlot {x : SlotName} {f : Slot → Slot} (hp : (f (s.slot x)).posting →
    (s.slot x).posting ∧ (f (s.slot x)).topic = (s.slot x).topic) (h : DirectoryHolds present s) :
    DirectoryHolds present (s.modSlot x f) := by
  refine directoryHolds_of_seen (s := s) (fun _ => rfl) (fun _ => rfl) (fun y hy => ?_) (fun p => ?_) h
  · by_cases e : x = y
    · subst e; rw [slot_modSlot_same] at hy ⊢; exact hp hy
    · rw [slot_modSlot_ne s f e] at hy ⊢; exact ⟨hy, rfl⟩
  · rw [port_modSlot]; split <;> exact List.Sublist.refl _

theorem directoryHolds_order (s : State) (o : List SlotName) :
    DirectoryHolds present { s with readyOrder := o } = DirectoryHolds present s :=
  directoryHolds_congr (s := s) (fun _ => rfl) (fun _ => rfl) (fun _ => rfl) fun _ => rfl

theorem directoryHolds_emptySlot (x : SlotName) (h : DirectoryHolds present s) :
    DirectoryHolds present (emptySlot x s) := by
  unfold emptySlot; dsimp only
  rw [directoryHolds_order]
  refine directoryHolds_modSlot (fun hp => ?_) ((see_releaseBuffer directoryHolds_pool _ _).mpr h)
  rcases hp with e | e <;> cases e

theorem directoryHolds_finishSlot (x : SlotName) (c : Completion) (h : DirectoryHolds present s) :
    DirectoryHolds present (finishSlot x c s) := by
  unfold finishSlot; dsimp only
  rw [directoryHolds_order]
  refine directoryHolds_modSlot (fun hp => ?_) ((see_releaseBuffer directoryHolds_pool _ _).mpr h)
  rcases hp with e | e <;> cases e

theorem directoryHolds_failSlot (x : SlotName) (p : Port) (h : DirectoryHolds present s) :
    DirectoryHolds present (failSlot x p s).1 :=
  failSlot_keeps (fun _ hs => directoryHolds_modSlot (fun hp => ⟨hp, rfl⟩) hs)
    (fun _ _ hs => directoryHolds_finishSlot x _ hs) h

theorem directoryHolds_endDeferred (x : SlotName) (c : Completion) (h : DirectoryHolds present s) :
    DirectoryHolds present (endDeferred x c s) := by
  have deleted : DirectoryHolds present (deleteEntries x s) := by rw [see_deleteEntries directoryHolds_queues]; exact h
  unfold endDeferred; dsimp only
  generalize deleteEntries x s = u at deleted ⊢
  exact directoryHolds_finishSlot x c (directoryHolds_modSlot (fun hp => ⟨hp, rfl⟩) deleted)

theorem directoryHolds_teardown {p : Port} {b : Bool} (h : DirectoryHolds present s) :
    DirectoryHolds present (teardown b p s).1 :=
  teardown_keeps directoryHolds_queues directoryHolds_pool directoryHolds_cursors
    (fun _ x hs => directoryHolds_failSlot x p hs) (fun _ x _ hs => directoryHolds_emptySlot x hs)
    (fun _ hs => (see_closePort directoryHolds_sessions b p _).mpr hs)
    (fun _ hs => (see_judgeExchange directoryHolds_sessions _).mpr hs) h

theorem directoryHolds_endDrains {y : State × List Port} (h : DirectoryHolds present y.1) :
    DirectoryHolds present (endDrains y) :=
  endDrains_keeps (fun _ _ _ hs => directoryHolds_teardown hs) h

/-! ### Fetches and records -/

/-- The one record that carries the number. -/
theorem DirectoryHolds.record_eq (h : DirectoryHolds present s) {i j : RecordNo} (hi : (s.topic i).state = .declared)
    (hj : (s.topic j).state ≠ .free) (e : (s.topic i).number = (s.topic j).number) : i = j :=
  h.unique i j (by rw [hi]; exact nofun) hj e

/-- A DECLARED record changes with all the fetches that wait on it answered and its solicits gone. It stands DECLARED for
the same producer, or no post waits for it. -/
theorem directoryHolds_recordChanged {i : RecordNo} (hi : (s.topic i).state = .declared)
    (hothers : ∀ j, j ≠ i → t.topic j = s.topic j)
    (hf : ∀ j, t.fetch j = if waitsOn (s.topic i).number (s.fetch j) then none else s.fetch j)
    (hl : ∀ q, ((t.port q).solicits).Sublist (s.port q).solicits ∧ (s.topic i).number ∉ (t.port q).solicits)
    (hx : ∀ x, (t.slot x).posting → (s.slot x).posting ∧ (t.slot x).topic = (s.slot x).topic)
    (hfits : (t.topic i).fitsState False)
    (hn : (t.topic i).state ≠ .free → (t.topic i).number = (s.topic i).number)
    (hr : ((t.topic i).state = .declared ∧ (t.topic i).producer = (s.topic i).producer) ∨
      ((t.topic i).state ≠ .declared ∧ ∀ x, (t.slot x).posting → (t.slot x).topic ≠ (s.topic i).number))
    (h : DirectoryHolds present s) : DirectoryHolds present t := by
  have notFree : (s.topic i).state ≠ .free := by rw [hi]; exact nofun
  have waits (f : WaitingFetch) (w : Word) : waitsOn w (some f) = true ↔ f.topic = w := by simp [waitsOn]
  have stands {j : FetchId} {f : WaitingFetch} (hj : t.fetch j = some f) :
      s.fetch j = some f ∧ f.topic ≠ (s.topic i).number := by
    rw [hf] at hj
    split at hj
    · cases hj
    · next hw => rw [hj, waits] at hw; exact ⟨hj, hw⟩
  have awaited {w : Word} (hw : w ≠ (s.topic i).number) (ha : Awaited s w) : Awaited t w := by
    obtain ⟨j, f, hj, e⟩ := ha
    refine ⟨j, f, ?_, e⟩
    rw [hf, hj, if_neg (by rw [waits, e]; exact hw)]
  have number {j : RecordNo} (hj : (t.topic j).state ≠ .free) :
      (s.topic j).state ≠ .free ∧ (t.topic j).number = (s.topic j).number := by
    by_cases e : j = i
    · subst e; exact ⟨notFree, hn hj⟩
    · rw [hothers j e] at hj ⊢; exact ⟨hj, rfl⟩
  have declared {k : RecordNo} {w : Word} (hk : (s.topic k).state = .declared) (hw : (s.topic k).number = w)
      (hne : w ≠ (s.topic i).number) : t.topic k = s.topic k :=
    hothers k fun e => hne (by rw [← hw, e])
  refine ⟨fun j k hj hk e => ?_, fun j hj => ?_, fun j => ?_, fun j p hj hp => ?_, fun x hp => ?_, fun j f hj => ?_,
    fun p => (h.solicitsOnce p).sublist (hl p).1, fun p w hw => ?_⟩
  · obtain ⟨sj, nj⟩ := number hj
    obtain ⟨sk, nk⟩ := number hk
    exact h.unique j k sj sk (nj.symm.trans (e.trans nk))
  · obtain ⟨sj, nj⟩ := number hj
    rw [nj]; exact h.numbers j sj
  · by_cases e : j = i
    · subst e
      by_cases hfree : (t.topic j).state = .free
      · unfold TopicRecord.fitsState at hfits ⊢
        rw [hfree] at hfits ⊢
        exact hfits
      · refine TopicRecord.fitsState_mono (fun ⟨k, f, hk, e⟩ => ?_) hfits
        exact (stands hk).2 (e.trans (hn hfree))
    · rw [hothers j e]
      exact TopicRecord.fitsState_mono (fun ⟨k, f, hk, e⟩ => ⟨k, f, (stands hk).1, e⟩) (h.fields j)
  · by_cases e : j = i
    · subst e
      rcases hr with ⟨-, hpr⟩ | ⟨hnd, -⟩
      · exact h.producers j p hi (hpr ▸ hp)
      · exact absurd hj hnd
    · rw [hothers j e] at hj hp; exact h.producers j p hj hp
  · obtain ⟨hps, htopic⟩ := hx x hp
    obtain ⟨k, hk, hkn, hkp⟩ := h.posts x hps
    by_cases e : k = i
    · subst e
      rcases hr with ⟨hd, hpr⟩ | ⟨-, hno⟩
      · exact ⟨k, hd, by rw [hn (by rw [hd]; exact nofun), hkn, htopic], hpr.trans hkp⟩
      · exact absurd (htopic.trans hkn.symm) (hno x hp)
    · exact ⟨k, by rw [hothers k e, htopic]; exact ⟨hk, hkn, hkp⟩⟩
  · obtain ⟨hs, hne⟩ := stands hj
    obtain ⟨hp, hd, k, hk, hkn⟩ := h.fetches j f hs
    exact ⟨hp, hd, k, by rw [declared hk hkn hne]; exact ⟨hk, hkn⟩⟩
  · obtain ⟨⟨k, hk, hkn, hkp⟩, ha⟩ := h.solicits p w ((hl p).1.subset hw)
    have hne : w ≠ (s.topic i).number := fun e => (hl p).2 (e ▸ hw)
    exact ⟨⟨k, by rw [declared hk hkn hne]; exact ⟨hk, hkn, hkp⟩⟩, awaited hne ha⟩

/-- Fetches go, and of the solicits those that no fetch waits behind. -/
theorem directoryHolds_fewerFetches (ht : ∀ i, t.topic i = s.topic i)
    (hf : ∀ j f, t.fetch j = some f → s.fetch j = some f)
    (hx : ∀ x, t.slot x = s.slot x)
    (hl : ∀ p, ((t.port p).solicits).Sublist (s.port p).solicits ∧ ∀ w ∈ (t.port p).solicits, Awaited t w)
    (h : DirectoryHolds present s) : DirectoryHolds present t where
  unique i j := by rw [ht, ht]; exact h.unique i j
  numbers i := by rw [ht]; exact h.numbers i
  fields i := by rw [ht]; exact TopicRecord.fitsState_mono (fun ⟨j, f, hj, e⟩ => ⟨j, f, hf j f hj, e⟩) (h.fields i)
  producers i p := by rw [ht]; exact h.producers i p
  posts x hp := by
    rw [hx] at hp ⊢
    obtain ⟨i, hi⟩ := h.posts x hp
    exact ⟨i, by rw [ht]; exact hi⟩
  fetches j f hj := by
    obtain ⟨hp, hd, i, hi⟩ := h.fetches j f (hf j f hj)
    exact ⟨hp, hd, i, by rw [ht]; exact hi⟩
  solicitsOnce p := (h.solicitsOnce p).sublist (hl p).1
  solicits p w hw := by
    obtain ⟨⟨i, hi⟩, -⟩ := h.solicits p w ((hl p).1.subset hw)
    exact ⟨⟨i, by rw [ht]; exact hi⟩, (hl p).2 w hw⟩

/-- The lookup of a topic that is DECLARED. -/
theorem DirectoryHolds.findTopic_eq (h : DirectoryHolds present s) {i : RecordNo} (hi : (s.topic i).state = .declared) :
    findTopic s (s.topic i).number = some i := by
  cases hf : findTopic s (s.topic i).number with
  | none => exact absurd ⟨by rw [hi]; exact nofun, rfl⟩ (findTopic_eq_none.mp hf i)
  | some j =>
    obtain ⟨hj, e⟩ := findTopic_some hf
    rw [h.record_eq hi hj e.symm]

theorem DirectoryHolds.producer_isSome (h : DirectoryHolds present s) {i : RecordNo}
    (hi : (s.topic i).state = .declared) : ∃ q, (s.topic i).producer = some q := by
  have fits := h.fields i
  unfold TopicRecord.fitsState at fits
  rw [hi] at fits
  exact Option.isSome_iff_exists.mp fits.1

/-- A topic is solicited at its producer alone. -/
theorem DirectoryHolds.solicited_at (h : DirectoryHolds present s) {i : RecordNo} {p q : Port}
    (hi : (s.topic i).state = .declared) (hq : (s.topic i).producer = some q)
    (hp : (s.topic i).number ∈ (s.port p).solicits) : p = q := by
  obtain ⟨⟨j, hj, hn, hpj⟩, -⟩ := h.solicits p _ hp
  have e := h.record_eq hi (by rw [hj]; exact nofun) hn.symm
  subst e
  exact Option.some.inj (hpj.symm.trans hq)

theorem solicits_removeSolicit (q p : Port) (w : Word) (s : State) : ((removeSolicit q w s).port p).solicits =
    if q = p then (s.port p).solicits.filter (· != w) else (s.port p).solicits := by
  unfold removeSolicit; rw [port_modPort]; split <;> rfl

theorem waitingCount_eq_zero {w : Word} : waitingCount s w = 0 ↔ ¬ Awaited s w := by
  unfold waitingCount Awaited
  rw [List.countP_eq_zero]
  constructor
  · rintro h ⟨j, f, hj, e⟩
    exact h j (List.mem_finRange j) (by rw [hj]; simpa [waitsOn] using e)
  · intro h j _ hj
    cases hf : s.fetch j with
    | none => rw [hf] at hj; cases hj
    | some f => exact h ⟨j, f, hf, by rw [hf] at hj; simpa [waitsOn] using hj⟩

/-- A fetch goes, and with it the solicit of its topic when it was the last to wait there (R105, R107, R108). -/
theorem directoryHolds_fetchRemoved {i : FetchId} {f : WaitingFetch} (hf : s.fetch i = some f)
    (h : DirectoryHolds present s) : DirectoryHolds present (dropIdleSolicit f.topic (s.setFetch i none)) := by
  obtain ⟨-, -, k, hk, hn⟩ := h.fetches i f hf
  obtain ⟨q, hq⟩ := h.producer_isSome hk
  have found : findTopic (s.setFetch i none) f.topic = some k := hn ▸ h.findTopic_eq hk
  have fewer (j : FetchId) (g : WaitingFetch) (hj : (s.setFetch i none).fetch j = some g) : s.fetch j = some g := by
    rw [fetch_setFetch] at hj; split at hj <;> [cases hj; exact hj]
  have others {w : Word} (hw : w ≠ f.topic) (ha : Awaited s w) : Awaited (s.setFetch i none) w := by
    obtain ⟨j, g, hj, e⟩ := ha
    refine ⟨j, g, ?_, e⟩
    rw [fetch_setFetch, if_neg]
    · exact hj
    · rintro rfl; rw [hf] at hj; exact hw (e.symm.trans (congrArg WaitingFetch.topic (Option.some.inj hj).symm))
  unfold dropIdleSolicit
  split
  · rw [found]; dsimp only
    rw [topic_setFetch, hq]; dsimp only
    refine directoryHolds_fewerFetches (s := s) (fun _ => rfl) fewer (fun x => slot_removeSolicit q _ _ x) (fun p => ?_) h
    rw [solicits_removeSolicit]
    split
    · refine ⟨List.filter_sublist, fun w hw => ?_⟩
      obtain ⟨hw, hne⟩ := List.mem_filter.mp hw
      exact others (by simpa using hne) (h.solicits p w hw).2
    · next e =>
      refine ⟨List.Sublist.refl _, fun w hw => others (fun ew => e ?_) (h.solicits p w hw).2⟩
      exact (h.solicited_at hk hq (p := p) (by rw [hn, ← ew]; exact hw)).symm
  · next hc =>
    have still : Awaited (s.setFetch i none) f.topic := by
      by_contra hno; exact hc (waitingCount_eq_zero.mpr hno)
    refine directoryHolds_fewerFetches (s := s) (fun _ => rfl) fewer (fun _ => rfl)
      (fun p => ⟨List.Sublist.refl _, fun w hw => ?_⟩) h
    by_cases e : w = f.topic
    · exact e ▸ still
    · exact others e (h.solicits p w hw).2

end rules

/-! ## The end of a record -/

theorem topic_answerAll (d : Delivery) (s : State) (i : RecordNo) : (answerAll d s).topic i = s.topic i :=
  see_answerAll (see := fun s => s.topic i) ⟨fun _ _ _ => rfl, fun _ _ _ => rfl, fun _ _ _ => rfl⟩ ⟨fun _ _ _ => rfl⟩
    ⟨fun _ _ _ => rfl⟩ d s

theorem topic_removeSolicit (q : Port) (w : Word) (s : State) (i : RecordNo) :
    (removeSolicit q w s).topic i = s.topic i := rfl

theorem fetch_removeSolicit (q : Port) (w : Word) (s : State) (j : FetchId) :
    (removeSolicit q w s).fetch j = s.fetch j := rfl

theorem solicits_answerAll (d : Delivery) (s : State) (q : Port) :
    ((answerAll d s).port q).solicits = (s.port q).solicits := by
  rw [port_answerAll]; unfold PortRecord.withAnswers; split <;> rfl

section ending
variable {present : Port → Prop} {s : State} {p : Port} {i : RecordNo}

/-- The record with its fetches answered and its solicit gone is changed to one that no post can wait for. -/
theorem directoryHolds_recordEnded {d : Delivery} {f : TopicRecord → TopicRecord} (hd : d.topic = (s.topic i).number)
    (hi : (s.topic i).state = .declared) (hp : (s.topic i).producer = some p)
    (hposts : ∀ x, (s.slot x).posting → (s.slot x).topic ≠ (s.topic i).number)
    (hfits : (f (s.topic i)).fitsState False) (hstate : (f (s.topic i)).state ≠ .declared)
    (hn : (f (s.topic i)).state ≠ .free → (f (s.topic i)).number = (s.topic i).number) (h : DirectoryHolds present s) :
    DirectoryHolds present ((removeSolicit p (s.topic i).number (answerAll d s)).modTopic i f) := by
  have record : ((removeSolicit p (s.topic i).number (answerAll d s)).modTopic i f).topic i = f (s.topic i) := by
    rw [topic_modTopic_same, topic_removeSolicit, topic_answerAll]
  have slot (x : SlotName) : ((removeSolicit p (s.topic i).number (answerAll d s)).modTopic i f).slot x = s.slot x := by
    rw [slot_modTopic, slot_removeSolicit, slot_answerAll]
  refine directoryHolds_recordChanged hi (fun j hj => ?_) (fun j => ?_) (fun q => ?_) (fun x hx => ?_) ?_ ?_ ?_ h
  · rw [topic_modTopic, if_neg (Ne.symm hj), topic_removeSolicit, topic_answerAll]
  · rw [← hd, fetch_modTopic, fetch_removeSolicit, fetch_answerAll]
  · rw [port_modTopic, solicits_removeSolicit, solicits_answerAll]
    split
    · exact ⟨List.filter_sublist, fun hm => by simpa using (List.mem_filter.mp hm).2⟩
    · next e => exact ⟨List.Sublist.refl _, fun hm => e (h.solicited_at hi hp hm).symm⟩
  · rw [slot] at hx ⊢; exact ⟨hx, rfl⟩
  · rw [record]; exact hfits
  · rw [record]; exact hn
  · rw [record]; exact .inr ⟨hstate, fun x hx => by rw [slot] at hx ⊢; exact hposts x hx⟩

theorem freeRecord_eq (i : RecordNo) (s : State) :
    freeRecord i s = releasePayload (s.topic i).retained (s.modTopic i fun _ => TopicRecord.reset) :=
  releasePayload_modTopic ..

theorem directoryHolds_retireRecord (hi : (s.topic i).state = .declared) (hp : (s.topic i).producer = some p)
    (hposts : ∀ x, (s.slot x).posting → (s.slot x).topic ≠ (s.topic i).number) (h : DirectoryHolds present s) :
    DirectoryHolds present (retireRecord p i s) := by
  unfold retireRecord; dsimp only
  rw [freeRecord_eq, see_releasePayload directoryHolds_pool]
  exact directoryHolds_recordEnded rfl hi hp hposts rfl nofun (fun e => absurd rfl e) h

/-- What a DECLARED record becomes when its producer departs (R18). -/
def TopicRecord.departed (r : TopicRecord) : TopicRecord :=
  if r.retained.isSome then { r with state := .orphaned, producer := none, freshness := .stopped, stale := true }
  else TopicRecord.reset

/-- The orphaning of a record in terms of its parts. -/
theorem orphanRecord_some (p : Port) {i : RecordNo} {s : State} (hv : (s.topic i).retained.isSome) : orphanRecord p i s =
    issueNotices (s.topic i).number (s.topic i).version none
      ((removeSolicit p (s.topic i).number (answerAll (answerDelivery (s.topic i).number .producerGone
        (s.topic i).retained (s.topic i).valueVersion (some p)) s)).modTopic i
        fun r => { r with state := .orphaned, producer := none, freshness := .stopped, stale := true }) := by
  unfold orphanRecord; dsimp only; rw [if_pos hv]

theorem orphanRecord_none (p : Port) {i : RecordNo} {s : State} (hv : (s.topic i).retained = none) : orphanRecord p i s =
    freeRecord i (removeSolicit p (s.topic i).number (answerAll (answerDelivery (s.topic i).number .producerGone
      (s.topic i).retained (s.topic i).valueVersion (some p)) s)) := by
  unfold orphanRecord; dsimp only; rw [if_neg (by rw [hv]; exact nofun)]

/-- An observation that sees neither queues nor buffers sees of an orphaning the fetches, the solicits and the record. -/
theorem see_orphanRecord {β : Type} {see : State → β} (hq : QueueBlind see) (hp : PoolBlind see) (p : Port) (i : RecordNo)
    (s : State) : see (orphanRecord p i s) = see ((removeSolicit p (s.topic i).number (answerAll
      (answerDelivery (s.topic i).number .producerGone (s.topic i).retained (s.topic i).valueVersion (some p)) s)).modTopic i
      fun _ => (s.topic i).departed) := by
  cases hv : (s.topic i).retained with
  | none =>
    rw [orphanRecord_none p hv, freeRecord_eq, see_releasePayload hp, hv]
    exact congrArg see (modTopic_congr _ (by unfold TopicRecord.departed; rw [hv]; rfl))
  | some v =>
    rw [orphanRecord_some p (by rw [hv]; rfl), see_issueNotices hq, hv]
    refine congrArg see (modTopic_congr _ ?_)
    rw [topic_removeSolicit, topic_answerAll]; unfold TopicRecord.departed; rw [hv]; rfl

theorem TopicRecord.departed_fitsState {r : TopicRecord} {w : Prop} (h : r.fitsState w) (hi : r.state = .declared) :
    r.departed.fitsState False := by
  unfold TopicRecord.fitsState at h
  rw [hi] at h
  unfold TopicRecord.departed
  split
  · next hv =>
    refine ⟨rfl, ?_, hv, rfl, rfl, id⟩
    cases hk : r.kind with
    | event =>
      obtain ⟨-, h⟩ := h
      rw [hk] at h
      dsimp only at h
      rw [h.1] at hv; cases hv
    | state => rfl
  · rfl

theorem TopicRecord.departed_state (r : TopicRecord) : r.departed.state ≠ .declared := by
  unfold TopicRecord.departed; split <;> exact nofun

theorem directoryHolds_orphanRecord (hi : (s.topic i).state = .declared) (hp : (s.topic i).producer = some p)
    (hposts : ∀ x, (s.slot x).posting → (s.slot x).topic ≠ (s.topic i).number) (h : DirectoryHolds present s) :
    DirectoryHolds present (orphanRecord p i s) := by
  rw [see_orphanRecord directoryHolds_queues directoryHolds_pool]
  refine directoryHolds_recordEnded rfl hi hp hposts (TopicRecord.departed_fitsState (h.fields i) hi) (TopicRecord.departed_state _)
    (fun hf => ?_) h
  unfold TopicRecord.departed at hf ⊢
  split at hf
  · next hv => rw [if_pos hv]
  · exact absurd rfl hf

theorem topic_orphanRecord (p : Port) (i j : RecordNo) (s : State) :
    (orphanRecord p i s).topic j = if i = j then (s.topic i).departed else s.topic j := by
  refine (see_orphanRecord (see := fun s => s.topic j) ⟨fun _ _ _ => rfl, fun _ _ _ => rfl, fun _ _ _ => rfl⟩
    ⟨fun _ _ _ => rfl⟩ p i s).trans ?_
  rw [topic_modTopic, topic_removeSolicit, topic_answerAll]

theorem fetch_orphanRecord (p : Port) (i : RecordNo) (j : FetchId) (s : State) :
    (orphanRecord p i s).fetch j = if waitsOn (s.topic i).number (s.fetch j) then none else s.fetch j :=
  (see_orphanRecord (see := fun s => s.fetch j) ⟨fun _ _ _ => rfl, fun _ _ _ => rfl, fun _ _ _ => rfl⟩
    ⟨fun _ _ _ => rfl⟩ p i s).trans (by rw [fetch_modTopic, fetch_removeSolicit, fetch_answerAll]; rfl)

theorem slot_orphanRecord (p : Port) (i : RecordNo) (y : SlotName) (s : State) :
    (orphanRecord p i s).slot y = s.slot y := by
  refine (see_orphanRecord (queueBlind_slot y) ⟨fun _ _ _ => rfl⟩ p i s).trans ?_
  rw [slot_modTopic, slot_removeSolicit, slot_answerAll]

end ending

/-! ## The departure of a port -/

section departure
variable {present : Port → Prop} {s : State} {p : Port}

/-- A port's posts and fetches are gone, and the topics of the list are those it still produces. -/
structure Departing (present : Port → Prop) (p : Port) (topics : List Word) (s : State) : Prop where
  holds : DirectoryHolds present s
  noPosts : ∀ x, x.owner = p → ¬ (s.slot x).posting
  noFetches : ∀ j f, s.fetch j = some f → f.requester ≠ p
  produced : ∀ w, w ∈ topics ↔ Produces s p w
  nodup : topics.Nodup

/-- No post waits for a record whose producer has none. -/
theorem DirectoryHolds.noPosts_of_producer (h : DirectoryHolds present s) {i : RecordNo}
    (hi : (s.topic i).state = .declared) (hp : (s.topic i).producer = some p)
    (hposts : ∀ x, x.owner = p → ¬ (s.slot x).posting) (x : SlotName) (hx : (s.slot x).posting) :
    (s.slot x).topic ≠ (s.topic i).number := by
  intro e
  obtain ⟨k, hk, hn, hkp⟩ := h.posts x hx
  have same := h.record_eq hi (by rw [hk]; exact nofun) (e.symm.trans hn.symm)
  subst same
  exact hposts x (Option.some.inj (hkp.symm.trans hp)) hx

/-- One of the topics is orphaned. -/
theorem Departing.orphaned {w : Word} {topics : List Word} (h : Departing present p (w :: topics) s) :
    ∃ i, (s.topic i).state = .declared ∧ (s.topic i).producer = some p ∧ (s.topic i).number = w ∧
      orphanTopic p s w = orphanRecord p i s ∧ Departing present p topics (orphanTopic p s w) := by
  obtain ⟨i, hi, hp, rfl⟩ := (h.produced w).mp List.mem_cons_self
  have found := h.holds.findTopic_eq hi
  have eq : orphanTopic p s (s.topic i).number = orphanRecord p i s := by unfold orphanTopic; rw [found]
  refine ⟨i, hi, hp, rfl, eq, ?_⟩
  rw [eq]
  obtain ⟨hnot, hnodup⟩ := List.nodup_cons.mp h.nodup
  refine ⟨directoryHolds_orphanRecord hi hp (h.holds.noPosts_of_producer hi hp h.noPosts) h.holds, fun x hx => ?_,
    fun j f hj => ?_, fun w => ?_, hnodup⟩
  · rw [slot_orphanRecord]; exact h.noPosts x hx
  · rw [fetch_orphanRecord] at hj
    split at hj <;> [cases hj; exact h.noFetches j f hj]
  · constructor
    · intro hw
      obtain ⟨k, hk, hkp, hkn⟩ := (h.produced w).mp (List.mem_cons_of_mem _ hw)
      have ne : i ≠ k := fun e => hnot (by rw [e, hkn]; exact hw)
      exact ⟨k, by rw [topic_orphanRecord, if_neg ne]; exact ⟨hk, hkp, hkn⟩⟩
    · rintro ⟨k, hk, hkp, hkn⟩
      rw [topic_orphanRecord] at hk hkp hkn
      split at hk
      · exact absurd hk (TopicRecord.departed_state _)
      · next ne =>
        rw [if_neg ne] at hkp hkn
        rcases List.mem_cons.mp ((h.produced w).mpr ⟨k, hk, hkp, hkn⟩) with e | hw
        · exact absurd (h.holds.record_eq hi (by rw [hk]; exact nofun) (e.symm.trans hkn.symm)) ne
        · exact hw

theorem Departing.orphanedAll {topics : List Word} (h : Departing present p topics s) :
    Departing present p [] (topics.foldl (orphanTopic p) s) := by
  induction topics generalizing s with
  | nil => exact h
  | cons w topics ih =>
    obtain ⟨_, _, _, _, _, next⟩ := h.orphaned
    exact ih next

theorem mem_producedTopics {w : Word} : w ∈ producedTopics s p ↔ Produces s p w := by
  unfold producedTopics Produces
  rw [List.mem_insertionSort, List.mem_map]
  simp [and_assoc]

theorem DirectoryHolds.nodup_producedTopics (h : DirectoryHolds present s) (p : Port) : (producedTopics s p).Nodup := by
  unfold producedTopics
  rw [(List.perm_insertionSort _ _).nodup_iff]
  refine List.Nodup.map_on (fun i hi j hj e => ?_) ((List.nodup_finRange 128).filter _)
  simp only [List.mem_filter, List.mem_finRange, true_and, Bool.and_eq_true, beq_iff_eq] at hi hj
  exact h.record_eq hi.1 (by rw [hj.1]; exact nofun) e

end departure

/-! ## The LEAVE effects -/

/-- What a LEAVE makes of a slot (R54). -/
def Slot.left (k : Slot) : Slot :=
  match k.state with
  | .loading => Slot.reset
  | .ready => k.ended .withdrawn
  | .empty | .deferred | .done => k

theorem Slot.left_not_posting (k : Slot) : ¬ k.left.posting := by
  unfold Slot.left Slot.posting
  cases hs : k.state <;> simp [Slot.reset, Slot.ended, hs]

theorem Slot.left_left (k : Slot) : k.left.left = k.left := by
  unfold Slot.left
  cases hs : k.state <;> simp [Slot.reset, Slot.ended, hs]

section leave
variable {present : Port → Prop} {s : State} {p : Port}

theorem slot_leaveSlot (p : Port) (s : State) (k : SlotNo) (y : SlotName) :
    (leaveSlot p s k).slot y = if (⟨p, k⟩ : SlotName) = y then (s.slot y).left else s.slot y := by
  by_cases e : (⟨p, k⟩ : SlotName) = y
  · subst e
    cases hs : (s.slot ⟨p, k⟩).state <;> simp [leaveSlot, Slot.left, hs, slot_emptySlot, slot_finishSlot]
  · rw [if_neg e]
    unfold leaveSlot
    split
    · rw [slot_emptySlot, if_neg e]
    · rw [slot_finishSlot, if_neg e]
    all_goals rfl

/-- A LEAVE changes the port's own slots as R54 says, and no other. -/
theorem slot_leaveSlots (p : Port) (s : State) (y : SlotName) :
    (leaveSlots p s).slot y = if y.owner = p then (s.slot y).left else s.slot y := by
  have fold (l : List SlotNo) (u : State) : (l.foldl (leaveSlot p) u).slot y =
      if y.owner = p ∧ y.number ∈ l then (u.slot y).left else u.slot y := by
    induction l generalizing u with
    | nil => simp
    | cons k l ih =>
      rw [List.foldl_cons, ih, slot_leaveSlot]
      obtain ⟨q, j⟩ := y
      by_cases e : (⟨p, k⟩ : SlotName) = ⟨q, j⟩
      · obtain ⟨rfl, rfl⟩ := SlotName.mk.inj e
        simp [Slot.left_left]
      · have ne : ¬ (q = p ∧ j = k) := fun ⟨h1, h2⟩ => e (by rw [h1, h2])
        simp only [if_neg e, List.mem_cons]
        by_cases hq : q = p
        · have hj : j ≠ k := fun h => ne ⟨hq, h⟩
          simp [hj]
        · simp [hq]
  have all := fold (List.finRange 4) s
  simp only [List.mem_finRange, and_true] at all
  exact all

theorem fetch_dropIdleSolicit (w : Word) (s : State) (j : FetchId) : (dropIdleSolicit w s).fetch j = s.fetch j :=
  see_dropIdleSolicit (see := fun s => s.fetch j) ⟨fun _ _ _ => rfl⟩ w s

theorem fetch_removeFetchOf (p : Port) (s : State) (i j : FetchId) :
    (removeFetchOf p s i).fetch j = if i = j ∧ requestedBy p (s.fetch j) then none else s.fetch j := by
  unfold removeFetchOf
  by_cases e : i = j
  · subst e
    cases hf : s.fetch i with
    | none => simp [hf]
    | some f =>
      dsimp only
      by_cases hp : f.requester = p
      · rw [if_pos hp, fetch_dropIdleSolicit]; simp [requestedBy, hp]
      · rw [if_neg hp]; simp [requestedBy, hp, hf]
  · simp only [e, false_and, if_false]
    split
    · rfl
    · split
      · rw [fetch_dropIdleSolicit, fetch_setFetch, if_neg e]
      · rfl

/-- The fetches of the port are gone, and no other (R108). -/
theorem fetch_removeFetches (p : Port) (s : State) (j : FetchId) :
    (removeFetches p s).fetch j = if requestedBy p (s.fetch j) then none else s.fetch j := by
  have fold (l : List FetchId) (u : State) : (l.foldl (removeFetchOf p) u).fetch j =
      if j ∈ l ∧ requestedBy p (u.fetch j) then none else u.fetch j := by
    induction l generalizing u with
    | nil => simp
    | cons i l ih =>
      rw [List.foldl_cons, ih, fetch_removeFetchOf]
      by_cases e : i = j
      · subst e
        by_cases hp : requestedBy p (u.fetch i) = true
        · simp [hp]
        · simp [hp]
      · simp [e, Ne.symm e]
  have all := fold (List.finRange 16) s
  simp only [List.mem_finRange, true_and] at all
  exact all

theorem directoryHolds_leaveSlots (h : DirectoryHolds present s) : DirectoryHolds present (leaveSlots p s) :=
  leaveSlots_keeps (fun _ x _ _ hs => directoryHolds_emptySlot x hs)
    (fun _ x _ _ hs => directoryHolds_finishSlot x _ hs) h

theorem directoryHolds_removeFetches (h : DirectoryHolds present s) : DirectoryHolds present (removeFetches p s) :=
  removeFetches_keeps (fun _ _ _ hf _ hs => directoryHolds_fetchRemoved hf hs) h

/-- A LEAVE up to the orphaning of the topics (R120). -/
def unpostedLeave (p : Port) (s : State) : State := removeFetches p (freeSubscriptionsOf p (leaveSlots p s))

theorem leaveEffects_eq (p : Port) (s : State) : leaveEffects p s = clearSolicits p
    ((producedTopics (unpostedLeave p s) p).foldl (orphanTopic p) (unpostedLeave p s)) := by
  unfold leaveEffects orphanTopics unpostedLeave; rfl

theorem slot_freeSubscriptionsOf (p : Port) (s : State) (y : SlotName) :
    (freeSubscriptionsOf p s).slot y = s.slot y := rfl

theorem slot_removeFetches (p : Port) (s : State) (y : SlotName) : (removeFetches p s).slot y = s.slot y :=
  see_removeFetches (see := fun s => s.slot y) ⟨fun s _ _ => by rw [slot_modPort]; exact fun _ => rfl⟩
    ⟨fun _ _ _ => rfl⟩ p s

theorem slot_unpostedLeave (p : Port) (s : State) (y : SlotName) :
    (unpostedLeave p s).slot y = if y.owner = p then (s.slot y).left else s.slot y := by
  unfold unpostedLeave
  rw [slot_removeFetches, slot_freeSubscriptionsOf, slot_leaveSlots]

theorem departing_unpostedLeave (h : DirectoryHolds present s) :
    Departing present p (producedTopics (unpostedLeave p s) p) (unpostedLeave p s) := by
  have holds : DirectoryHolds present (unpostedLeave p s) := by
    refine directoryHolds_removeFetches ?_
    rw [see_freeSubscriptionsOf directoryHolds_subscriptions]
    exact directoryHolds_leaveSlots h
  refine ⟨holds, fun x hx => ?_, fun j f hj hp => ?_, fun w => mem_producedTopics, holds.nodup_producedTopics p⟩
  · rw [slot_unpostedLeave, if_pos hx]; exact Slot.left_not_posting _
  · unfold unpostedLeave at hj
    rw [fetch_removeFetches] at hj
    split at hj
    · cases hj
    · next hn => rw [hj] at hn; exact hn (by simpa [requestedBy] using hp)

/-- After the LEAVE effects the port is present no more: it produces nothing and waits for nothing. -/
theorem directoryHolds_leaveEffects (h : DirectoryHolds present s) :
    DirectoryHolds (fun q => present q ∧ q ≠ p) (leaveEffects p s) := by
  have departed := (departing_unpostedLeave (p := p) h).orphanedAll
  rw [leaveEffects_eq]
  generalize (producedTopics (unpostedLeave p s) p).foldl (orphanTopic p) (unpostedLeave p s) = u at departed
  have cleared : DirectoryHolds present (clearSolicits p u) := by
    refine directoryHolds_of_seen (s := u) (fun _ => rfl) (fun _ => rfl) (fun x hx => ?_) (fun q => ?_) departed.holds
    · have same : (clearSolicits p u).slot x = u.slot x := by
        unfold clearSolicits; rw [slot_modPort]; exact fun _ => rfl
      rw [same] at hx ⊢; exact ⟨hx, rfl⟩
    · unfold clearSolicits; rw [port_modPort]; split <;> [exact List.nil_sublist _; exact List.Sublist.refl _]
  refine cleared.mono fun q hq hor => ⟨hq, ?_⟩
  rintro rfl
  rcases hor with ⟨i, hi, hp⟩ | ⟨j, f, hj, hf⟩
  · exact List.not_mem_nil ((departed.produced _).mpr ⟨i, hi, hp, rfl⟩)
  · exact departed.noFetches j f hj hf

end leave

/-! ## The events -/

section events
variable {s : State} {p : Port}

/-- The law follows from the law for the ports that were ONLINE, when they still are. -/
theorem directoryLaw_of_holds {present : Port → Prop} (hp : ∀ q, present q → Online s q)
    (h : DirectoryHolds present s) : DirectoryLaw s :=
  directoryLaw_iff.mpr (h.mono fun q hq _ => hp q hq)

theorem directoryLaw_kept {t : State} (hs : ∀ q, Online s q → Online t q)
    (hk : ∀ present, DirectoryHolds present s → DirectoryHolds present t) (h : DirectoryLaw s) : DirectoryLaw t :=
  directoryLaw_of_holds hs (hk _ (directoryLaw_iff.mp h))

/-- A port that is not LEAVING keeps its state while drains end. -/
theorem state_endDrains {y : State × List Port} {q : Port} (h : (y.1.port q).state ≠ .leaving) :
    ((endDrains y).port q).state = (y.1.port q).state := by
  have e := unslotted_endDrains h
  exact (congrArg PortRecord.state e :)

theorem online_endDrains {y : State × List Port} {q : Port} (h : Online y.1 q) : Online (endDrains y) q := by
  unfold Online at h ⊢
  rw [state_endDrains (by rw [h]; exact nofun)]; exact h

theorem not_online_of_leaving (h : (s.port p).state = .leaving) : ¬ Online s p := fun ho => by
  unfold Online at ho; rw [h] at ho; cases ho

/-- A port that is not ONLINE is torn down. -/
theorem directoryLaw_teardown {b : Bool} (hp : ¬ Online s p) (h : DirectoryLaw s) : DirectoryLaw (teardown b p s).1 := by
  refine directoryLaw_kept (fun q hq => ?_) (fun _ hs => directoryHolds_teardown hs) h
  unfold Online
  rw [state_teardown, if_neg]
  · exact hq
  · rintro rfl; exact hp hq

theorem directoryLaw_endDrains {y : State × List Port} (h : DirectoryLaw y.1) : DirectoryLaw (endDrains y) :=
  directoryLaw_kept (fun _ hq => online_endDrains hq) (fun _ hs => directoryHolds_endDrains hs) h

theorem directoryLaw_leavePort (h : DirectoryLaw s) : DirectoryLaw (leavePort p s) := by
  have leaving : DirectoryHolds (Online s) (s.modPort p fun r => { r with state := .leaving }) := by
    rw [directoryHolds_modPort_eq]
    · exact directoryLaw_iff.mp h
    all_goals exact fun _ => rfl
  have effects : DirectoryLaw (leaveEffects p (s.modPort p fun r => { r with state := .leaving })) := by
    refine directoryLaw_of_holds (fun q hq => ?_) (directoryHolds_leaveEffects leaving)
    unfold Online
    rw [state_leaveEffects, port_modPort_ne _ _ (Ne.symm hq.2)]; exact hq.1
  refine leavePort_keeps (P := DirectoryLaw) (Q := fun u => (u.port p).state = .leaving ∧ DirectoryLaw u) ⟨?_, effects⟩
    (fun u _ hu => directoryLaw_teardown (not_online_of_leaving hu.1) hu.2)
    (fun u q hq hu => directoryLaw_teardown (not_online_of_leaving ((drainEnded_iff u q).mp hq).1) hu) fun _ hu => hu.2
  rw [state_leaveEffects, port_modPort_same]

/-- A quarantine leaves what stands of another port that is not LEAVING. -/
theorem standing_quarantine_ne {q : Port} (hp : (s.port p).state = .online ∨ (s.port p).state = .leaving) (hne : p ≠ q)
    (hq : (s.port q).state ≠ .leaving) : ((quarantine p s).port q).standing = (s.port q).standing := by
  have departed_same : ((departed p s).port q).standing = (s.port q).standing := by
    rw [standing_departed, if_neg hne]
  have torn_same : ((teardown true p (abortDeferredSlots p (departed p s))).1.port q).standing =
      (s.port q).standing := by
    rw [standing_teardown, if_neg hne, standing_abortDeferredSlots, departed_same]
  have not_leaving : ((teardown true p (abortDeferredSlots p (departed p s))).1.port q).state ≠ .leaving := by
    have e := (congrArg PortRecord.state torn_same :)
    rw [PortRecord.standing_state, PortRecord.standing_state] at e
    rw [e]; exact hq
  rw [quarantine_session hp]
  unfold startHold
  rw [port_modPort_ne _ _ hne, standing_endDrains not_leaving, torn_same]

theorem directoryHolds_startHold {present : Port → Prop} (h : DirectoryHolds present s) :
    DirectoryHolds present (startHold p s) := by
  unfold startHold
  rw [directoryHolds_modPort_eq]
  · exact h
  all_goals exact fun _ => rfl

theorem directoryHolds_cutRequest {present : Port → Prop} (h : DirectoryHolds present s) :
    DirectoryHolds present (cutRequest p s) := by
  unfold cutRequest
  rw [directoryHolds_modPort_eq]
  · exact h
  all_goals exact fun _ => rfl

/-- A port's session ends in quarantine when the ports present are without it. -/
theorem directoryHolds_departed (h : DirectoryLaw s) :
    DirectoryHolds (fun q => Online s q ∧ q ≠ p) (departed p s) := by
  have cut := directoryHolds_cutRequest (p := p) (directoryLaw_iff.mp h)
  unfold departed; split
  · exact directoryHolds_leaveEffects cut
  · next hn =>
    refine cut.mono fun q hq hor => ⟨hq, ?_⟩
    rintro rfl; exact hn hq

theorem directoryLaw_quarantine (hq : (s.port p).state ≠ .quarantined) (h : DirectoryLaw s) :
    DirectoryLaw (quarantine p s) := by
  have offline (h : DirectoryLaw s) (hp : ¬ Online s p) {f : PortRecord → PortRecord} (hx : ∀ r, (f r).slots = r.slots)
      (hl : ∀ r, (f r).solicits = r.solicits) : DirectoryLaw (s.modPort p f) := by
    refine directoryLaw_kept (fun q hq => ?_) (fun present hs => ?_) h
    · unfold Online; rw [port_modPort_ne]
      · exact hq
      · rintro rfl; exact hp hq
    · rw [directoryHolds_modPort_eq _ hx hl]; exact hs
  have session (hs : (s.port p).state = .online ∨ (s.port p).state = .leaving) : DirectoryLaw (quarantine p s) := by
    refine directoryLaw_of_holds (present := fun q => Online s q ∧ q ≠ p) (fun q hq => ?_) ?_
    · have e := (congrArg PortRecord.state (standing_quarantine_ne hs hq.2.symm (by rw [hq.1]; exact nofun)) :)
      rw [PortRecord.standing_state, PortRecord.standing_state] at e
      exact e.trans hq.1
    · rw [quarantine_session hs]
      exact directoryHolds_startHold (directoryHolds_endDrains (directoryHolds_teardown
        (abortDeferredSlots_keeps (fun _ x _ _ hs => directoryHolds_endDeferred x _ hs) (directoryHolds_departed h))))
  cases hst : (s.port p).state with
  | online => exact session (.inl hst)
  | leaving => exact session (.inr hst)
  | offline =>
    rw [quarantine_offline hst]
    refine offline h (fun ho => ?_) (fun _ => rfl) (fun _ => rfl)
    unfold Online at ho; rw [hst] at ho; cases ho
  | quarantined => exact absurd hst hq

end events

end Sys2Proof.Machine
end

