-- ==== Sys2Proof/Proofs/DirectoryEvents.lean ====
section
/-! The law of the directory under every event (O59): records that appear, change in place or go, posts and fetches that
begin, and the take. -/
namespace Sys2Proof.Machine
set_option Elab.async false

section records
variable {present : Port → Prop} {s t : State}

/-- Records change in place, and fetches count down. -/
theorem directoryHolds_recordsKept
    (ht : ∀ i, (t.topic i).number = (s.topic i).number ∧ (t.topic i).state = (s.topic i).state ∧
      (t.topic i).producer = (s.topic i).producer ∧ ∀ w, (s.topic i).fitsState w → (t.topic i).fitsState w)
    (hf : ∀ j f, t.fetch j = some f → ∃ g, s.fetch j = some g ∧ f.requester = g.requester ∧ f.topic = g.topic ∧
      (f.deadline = .stopped → g.deadline = .stopped))
    (hw : ∀ w, Awaited s w → Awaited t w)
    (hx : ∀ x, (t.slot x).posting → (s.slot x).posting ∧ (t.slot x).topic = (s.slot x).topic)
    (hl : ∀ p, (t.port p).solicits = (s.port p).solicits) (h : DirectoryHolds present s) : DirectoryHolds present t := by
  have number (i : RecordNo) := (ht i).1
  have state (i : RecordNo) := (ht i).2.1
  have producer (i : RecordNo) := (ht i).2.2.1
  refine ⟨fun i j => ?_, fun i => ?_, fun i => ?_, fun i p => ?_, fun x hp => ?_, fun j f hj => ?_, fun p => ?_, fun p w hm => ?_⟩
  · rw [state, state, number, number]; exact h.unique i j
  · rw [state, number]; exact h.numbers i
  · refine (ht i).2.2.2 _ (TopicRecord.fitsState_mono (fun ⟨j, f, hj, e⟩ => ?_) (h.fields i))
    obtain ⟨g, hg, -, htopic, -⟩ := hf j f hj
    exact ⟨j, g, hg, htopic.symm.trans (e.trans (number i))⟩
  · rw [state, producer]; exact h.producers i p
  · obtain ⟨hp, e⟩ := hx x hp
    obtain ⟨i, hi⟩ := h.posts x hp
    exact ⟨i, by rw [state, number, producer, e]; exact hi⟩
  · obtain ⟨g, hg, er, et, ed⟩ := hf j f hj
    obtain ⟨hp, hd, i, hi⟩ := h.fetches j g hg
    exact ⟨er ▸ hp, fun e => hd (ed e), i, by rw [state, number, et]; exact hi⟩
  · rw [hl]; exact h.solicitsOnce p
  · rw [hl] at hm
    obtain ⟨⟨i, hi⟩, ha⟩ := h.solicits p w hm
    exact ⟨⟨i, by rw [state, number, producer]; exact hi⟩, hw w ha⟩

/-- One record changes in place. -/
theorem directoryHolds_recordKept {i : RecordNo} {r : TopicRecord} (hn : r.number = (s.topic i).number)
    (hs : r.state = (s.topic i).state) (hp : r.producer = (s.topic i).producer)
    (hfits : ∀ w, (s.topic i).fitsState w → r.fitsState w) (h : DirectoryHolds present s) :
    DirectoryHolds present (s.modTopic i fun _ => r) := by
  refine directoryHolds_recordsKept (s := s) (fun j => ?_) (fun j f hj => ⟨f, hj, rfl, rfl, id⟩) (fun w hw => hw)
    (fun x hx => ⟨hx, rfl⟩) (fun _ => rfl) h
  rw [topic_modTopic]
  split
  · next e => subst e; exact ⟨hn, hs, hp, hfits⟩
  · exact ⟨rfl, rfl, rfl, fun _ => id⟩

/-- A record that was not DECLARED changes: nothing waits for it. -/
theorem directoryHolds_undeclaredChanged {i : RecordNo} {r : TopicRecord} (hi : (s.topic i).state ≠ .declared)
    (hnumber : r.state ≠ .free → isTopicNumber r.number = true ∧
      ∀ j, i ≠ j → (s.topic j).state ≠ .free → (s.topic j).number ≠ r.number)
    (hfits : r.fitsState (Awaited s r.number)) (hp : ∀ p, r.state = .declared → r.producer = some p → present p)
    (h : DirectoryHolds present s) : DirectoryHolds present (s.modTopic i fun _ => r) := by
  have same : (s.modTopic i fun _ => r).topic i = r := topic_modTopic_same ..
  have other {j : RecordNo} (e : i ≠ j) : (s.modTopic i fun _ => r).topic j = s.topic j := by
    rw [topic_modTopic, if_neg e]
  have declared {k : RecordNo} (hk : (s.topic k).state = .declared) : (s.modTopic i fun _ => r).topic k = s.topic k :=
    other fun e => hi (e ▸ hk)
  refine ⟨fun j k hj hk e => ?_, fun j hj => ?_, fun j => ?_, fun j p hj hpj => ?_, fun x hx => ?_, fun j f hj => ?_,
    h.solicitsOnce, fun p w hw => ?_⟩
  · by_cases ej : i = j
    · subst ej
      by_contra hne
      rw [other hne] at hk e; rw [same] at hj e
      exact (hnumber hj).2 k hne hk e.symm
    · rw [other ej] at hj e
      by_cases ek : i = k
      · subst ek
        rw [same] at hk e
        exact absurd e ((hnumber hk).2 j ej hj)
      · rw [other ek] at hk e; exact h.unique j k hj hk e
  · by_cases e : i = j
    · subst e; rw [same] at hj ⊢; exact (hnumber hj).1
    · rw [other e] at hj ⊢; exact h.numbers j hj
  · by_cases e : i = j
    · subst e; rw [same]; exact hfits
    · rw [other e]; exact h.fields j
  · by_cases e : i = j
    · subst e; rw [same] at hj hpj; exact hp p hj hpj
    · rw [other e] at hj hpj; exact h.producers j p hj hpj
  · obtain ⟨k, hk⟩ := h.posts x hx
    exact ⟨k, by rw [declared hk.1]; exact hk⟩
  · obtain ⟨hpr, hd, k, hk⟩ := h.fetches j f hj
    exact ⟨hpr, hd, k, by rw [declared hk.1]; exact hk⟩
  · obtain ⟨⟨k, hk⟩, ha⟩ := h.solicits p w hw
    exact ⟨⟨k, by rw [declared hk.1]; exact hk⟩, ha⟩

theorem directoryHolds_freeRecord {i : RecordNo} (hi : (s.topic i).state ≠ .declared) (h : DirectoryHolds present s) :
    DirectoryHolds present (freeRecord i s) := by
  rw [freeRecord_eq, see_releasePayload directoryHolds_pool]
  exact directoryHolds_undeclaredChanged hi (fun e => absurd rfl e) rfl (fun p e => nomatch e) h

/-- A slot posts on a topic of its owner. -/
theorem directoryHolds_posted {x : SlotName} {f : Slot → Slot} {i : RecordNo} (hi : (s.topic i).state = .declared)
    (hn : (s.topic i).number = (f (s.slot x)).topic) (hp : (s.topic i).producer = some x.owner)
    (h : DirectoryHolds present s) : DirectoryHolds present (s.modSlot x f) := by
  have solicits (p : Port) : ((s.modSlot x f).port p).solicits = (s.port p).solicits := by
    rw [port_modSlot]; split <;> rfl
  refine { h with posts := fun y hy => ?_, solicitsOnce := fun p => ?_, solicits := fun p w hw => ?_ }
  · by_cases e : x = y
    · subst e; rw [slot_modSlot_same]; exact ⟨i, hi, hn, hp⟩
    · rw [slot_modSlot_ne s f e] at hy ⊢; exact h.posts y hy
  · rw [solicits]; exact h.solicitsOnce p
  · rw [solicits] at hw; exact h.solicits p w hw

theorem solicits_addSolicit (q p : Port) (w : Word) (s : State) : ((addSolicit q w s).port p).solicits =
    if q = p ∧ w ∉ (s.port p).solicits then (s.port p).solicits ++ [w] else (s.port p).solicits := by
  unfold addSolicit
  rw [port_modPort]
  split
  · next e =>
    dsimp only
    by_cases hw : w ∈ (s.port p).solicits
    · rw [if_pos hw, if_neg fun h => h.2 hw]
    · rw [if_neg hw, if_pos ⟨e, hw⟩]
  · next e => rw [if_neg fun h => e h.1]

theorem TopicRecord.fitsState_waiting {r : TopicRecord} {w : Prop} (h : r.fitsState w) (hr : r.state = .declared)
    (hv : ¬ (r.kind = .state ∧ r.retained.isSome ∧ r.stale = false)) (w' : Prop) : r.fitsState w' := by
  unfold TopicRecord.fitsState at h ⊢
  rw [hr] at h ⊢
  dsimp only at h ⊢
  refine ⟨h.1, ?_⟩
  obtain ⟨-, h⟩ := h
  cases hk : r.kind <;> cases hv' : r.retained <;> cases hs : r.stale <;> rw [hk, hv', hs] at h <;>
    first | exact h | exact absurd ⟨hk, by rw [hv']; rfl, hs⟩ hv

/-- A fetch begins to wait, and its topic is solicited (R101). -/
theorem directoryHolds_fetchWaits {p : Port} {i : RecordNo} {j : FetchId} {wait : Nat} (hp : present p)
    (hi : (s.topic i).state = .declared)
    (hv : ¬ ((s.topic i).kind = .state ∧ (s.topic i).retained.isSome ∧ (s.topic i).stale = false))
    (hj : s.fetch j = none) (h : DirectoryHolds present s) :
    DirectoryHolds present (solicit (s.topic i).producer (s.topic i).number
      (s.setFetch j (some { requester := p, topic := (s.topic i).number, deadline := .running wait }))) := by
  obtain ⟨q, hq⟩ := h.producer_isSome hi
  rw [hq]
  change DirectoryHolds present (addSolicit q _ _)
  generalize hu : s.setFetch j (some ⟨p, (s.topic i).number, .running wait⟩) = u
  have fetch (k : FetchId) : u.fetch k = if j = k then some ⟨p, (s.topic i).number, .running wait⟩ else s.fetch k := by
    rw [← hu, fetch_setFetch]
  have topic (k : RecordNo) : (addSolicit q (s.topic i).number u).topic k = s.topic k := by rw [← hu]; rfl
  have port (r : Port) : u.port r = s.port r := by rw [← hu]; rfl
  have slot (x : SlotName) : (addSolicit q (s.topic i).number u).slot x = s.slot x := by
    unfold addSolicit
    rw [slot_modPort, ← hu]
    · rfl
    · exact fun _ => rfl
  have solicits (r : Port) := solicits_addSolicit q r (s.topic i).number u
  have fetches (k : FetchId) : (addSolicit q (s.topic i).number u).fetch k = u.fetch k := rfl
  have awaited {w : Word} : Awaited (addSolicit q (s.topic i).number u) w ↔ w = (s.topic i).number ∨ Awaited s w := by
    constructor
    · rintro ⟨k, f, hk, e⟩
      rw [fetches, fetch] at hk
      split at hk
      · exact .inl (by rw [← e, ← Option.some.inj hk])
      · exact .inr ⟨k, f, hk, e⟩
    · rintro (rfl | ⟨k, f, hk, e⟩)
      · exact ⟨j, _, by rw [fetches, fetch, if_pos rfl], rfl⟩
      · have ne : j ≠ k := by rintro rfl; rw [hj] at hk; cases hk
        exact ⟨k, f, by rw [fetches, fetch, if_neg ne]; exact hk, e⟩
  refine ⟨fun k l => ?_, fun k => ?_, fun k => ?_, fun k r => ?_, fun x hx => ?_, fun k f hk => ?_, fun r => ?_,
    fun r w hw => ?_⟩
  · rw [topic, topic]; exact h.unique k l
  · rw [topic]; exact h.numbers k
  · rw [topic]
    by_cases e : k = i
    · subst e; exact TopicRecord.fitsState_waiting (h.fields k) hi hv _
    · by_cases hfree : (s.topic k).state = .free
      · have fits := h.fields k
        unfold TopicRecord.fitsState at fits ⊢
        rw [hfree] at fits ⊢
        exact fits
      · refine TopicRecord.fitsState_mono (fun ha => ?_) (h.fields k)
        exact (awaited.mp ha).resolve_left fun e' => e (h.record_eq hi hfree e'.symm).symm
  · rw [topic]; exact h.producers k r
  · rw [slot] at hx ⊢
    obtain ⟨k, hk⟩ := h.posts x hx
    exact ⟨k, by rw [topic]; exact hk⟩
  · rw [fetches, fetch] at hk
    split at hk
    · rw [← Option.some.inj hk]
      exact ⟨hp, nofun, i, by rw [topic]; exact ⟨hi, rfl⟩⟩
    · obtain ⟨hpr, hd, l, hl⟩ := h.fetches k f hk
      exact ⟨hpr, hd, l, by rw [topic]; exact hl⟩
  · rw [solicits, port]
    split
    · next e =>
      exact List.nodup_append.mpr ⟨h.solicitsOnce r, List.nodup_singleton _, fun a ha b hb e' =>
        e.2 (by rw [← List.mem_singleton.mp hb, ← e']; exact ha)⟩
    · exact h.solicitsOnce r
  · rw [solicits, port] at hw
    have old (hm : w ∈ (s.port r).solicits) : (∃ k, ((addSolicit q (s.topic i).number u).topic k).state = .declared ∧
        ((addSolicit q (s.topic i).number u).topic k).number = w ∧
        ((addSolicit q (s.topic i).number u).topic k).producer = some r) ∧
        Awaited (addSolicit q (s.topic i).number u) w := by
      obtain ⟨⟨k, hk⟩, ha⟩ := h.solicits r w hm
      exact ⟨⟨k, by rw [topic]; exact hk⟩, awaited.mpr (.inr ha)⟩
    split at hw
    · next e =>
      rcases List.mem_append.mp hw with hm | hm
      · exact old hm
      · have ew := List.mem_singleton.mp hm
        subst ew
        exact ⟨⟨i, by rw [topic]; exact ⟨hi, rfl, e.1 ▸ hq⟩⟩, awaited.mpr (.inl rfl)⟩
    · exact old hw

end records

/-! ## The take -/

section take
variable {present : Port → Prop} {s : State} {x : SlotName} {i : RecordNo}

theorem TopicRecord.stamped_fitsState {r : TopicRecord} {w : Prop} {v : Option Payload} (hv : v.isSome)
    (h : r.fitsState w) (hr : r.state = .declared) : (r.stamped v).fitsState False := by
  obtain ⟨value, rfl⟩ := Option.isSome_iff_exists.mp hv
  unfold TopicRecord.fitsState at h
  rw [hr] at h
  obtain ⟨hp, h⟩ := h
  unfold TopicRecord.stamped
  cases hk : r.kind <;> dsimp only <;> unfold TopicRecord.fitsState <;> simp only [hr] <;> refine ⟨hp, ?_⟩ <;>
    rw [hk] at h
  · refine ⟨?_, not_false⟩
    by_cases hl : 0 < r.limit
    · rw [if_pos hl]; exact ⟨nofun, fun e => by omega⟩
    · rw [if_neg hl]
      have hl : r.limit = 0 := by omega
      refine ⟨fun _ => hl, fun _ => ?_⟩
      cases hvr : r.retained <;> cases hst : r.stale <;> rw [hvr, hst] at h <;> dsimp only at h
      · exact h.2
      · exact h.2
      · exact h.1.mpr hl
      · exact h
  · exact h

theorem topic_stampRecord (i j : RecordNo) (v : Option Payload) (s : State) :
    (stampRecord i v s).topic j = if i = j then (s.topic i).stamped v else s.topic j := by
  have pool (u : State) (w : Option Payload) : (takePayload v (releasePayload w u)).topic j = u.topic j := by
    rw [see_takePayload (see := fun u : State => u.topic j) ⟨fun _ _ _ => rfl⟩,
      see_releasePayload (see := fun u : State => u.topic j) ⟨fun _ _ _ => rfl⟩]
  unfold stampRecord; dsimp only
  rw [topic_modTopic]
  by_cases e : i = j
  · subst e
    rw [if_pos rfl, if_pos rfl]
    split <;> [rfl; rw [pool]]
  · rw [if_neg e, if_neg e]
    split <;> [rfl; rw [pool]]

theorem topic_answeredTake (x : SlotName) (i j : RecordNo) (s : State) :
    (answeredTake x i s).topic j = if i = j then (s.topic i).stamped (s.slot x).value else s.topic j := by
  unfold answeredTake; dsimp only
  rw [topic_answerAll, topic_removeSolicit]
  exact topic_stampRecord ..

theorem fetch_stampRecord (i : RecordNo) (v : Option Payload) (s : State) (j : FetchId) :
    (stampRecord i v s).fetch j = s.fetch j :=
  see_stampRecord (see := fun s => s.fetch j) ⟨fun _ _ _ => rfl⟩ ⟨fun _ _ _ => rfl⟩ i v s

theorem port_stampRecord (i : RecordNo) (v : Option Payload) (s : State) (q : Port) :
    (stampRecord i v s).port q = s.port q :=
  see_stampRecord (see := fun s => s.port q) ⟨fun _ _ _ => rfl⟩ ⟨fun _ _ _ => rfl⟩ i v s

theorem fetch_answeredTake (x : SlotName) (i : RecordNo) (s : State) (j : FetchId) :
    (answeredTake x i s).fetch j = if waitsOn (s.slot x).topic (s.fetch j) then none else s.fetch j := by
  unfold answeredTake; dsimp only
  rw [fetch_answerAll, fetch_removeSolicit]
  have stamped (v : Word) (u : State) : (stampSlot x v u).fetch j = u.fetch j := rfl
  rw [stamped, fetch_stampRecord]
  rfl

theorem solicits_answeredTake (x : SlotName) (i : RecordNo) (s : State) (q : Port) :
    ((answeredTake x i s).port q).solicits =
      if x.owner = q then (s.port q).solicits.filter (· != (s.slot x).topic) else (s.port q).solicits := by
  have stamped (v : Word) (u : State) : ((stampSlot x v u).port q).solicits = (u.port q).solicits := by
    change ((u.modSlot x _).port q).solicits = _
    rw [port_modSlot]; split <;> rfl
  unfold answeredTake; dsimp only
  rw [solicits_answerAll, solicits_removeSolicit, stamped, port_stampRecord]

theorem directoryHolds_settleSlot {z : Placements} (h : DirectoryHolds present z.state) :
    DirectoryHolds present (settleSlot x z) := by
  unfold settleSlot; dsimp only
  split
  · exact directoryHolds_finishSlot x _ (directoryHolds_modSlot (fun hp => ⟨hp, rfl⟩) h)
  · rw [modSlot_modSlot]
    exact directoryHolds_modSlot (fun hp => by rcases hp with e | e <;> cases e) h

/-- The post of a READY slot is on a DECLARED topic of its owner. -/
theorem DirectoryHolds.posted (h : DirectoryHolds present s) (hx : (s.slot x).posting)
    (hi : findTopic s (s.slot x).topic = some i) : (s.topic i).state = .declared ∧
      (s.topic i).number = (s.slot x).topic ∧ (s.topic i).producer = some x.owner := by
  obtain ⟨k, hk, hn, hp⟩ := h.posts x hx
  have found := h.findTopic_eq hk
  rw [hn, hi] at found
  rw [Option.some.inj found]
  exact ⟨hk, hn, hp⟩

theorem directoryHolds_takePost (hx : (s.slot x).state = .ready) (hv : (s.slot x).buffer.isSome)
    (hi : findTopic s (s.slot x).topic = some i) (h : DirectoryHolds present s) :
    DirectoryHolds present (takePost x i s) := by
  obtain ⟨hd, hn, hp⟩ := h.posted (.inr hx) hi
  have answered : DirectoryHolds present (answeredTake x i s) := by
    have record : (answeredTake x i s).topic i = (s.topic i).stamped (s.slot x).value := by
      rw [topic_answeredTake, if_pos rfl]
    have number : ((s.topic i).stamped (s.slot x).value).number = (s.topic i).number := by
      unfold TopicRecord.stamped; split <;> rfl
    have kept : ((s.topic i).stamped (s.slot x).value).state = .declared ∧
        ((s.topic i).stamped (s.slot x).value).producer = (s.topic i).producer := by
      unfold TopicRecord.stamped; split <;> exact ⟨hd, rfl⟩
    refine directoryHolds_recordChanged hd (fun j hj => ?_) (fun j => ?_) (fun q => ?_) (fun y hy => ?_) ?_ (fun _ => ?_) (.inl ?_) h
    · rw [topic_answeredTake, if_neg (Ne.symm hj)]
    · rw [fetch_answeredTake, hn]
    · rw [solicits_answeredTake, hn]
      split
      · exact ⟨List.filter_sublist, fun hm => by simpa using (List.mem_filter.mp hm).2⟩
      · next e => exact ⟨List.Sublist.refl _, fun hm => e (h.solicited_at hd hp (hn ▸ hm)).symm⟩
    · rw [slot_answeredTake] at hy ⊢
      split at hy
      · next e => subst e; rw [if_pos rfl]; exact ⟨hy, rfl⟩
      · next e => rw [if_neg e]; exact ⟨hy, rfl⟩
    · rw [record]
      refine TopicRecord.stamped_fitsState ?_ (h.fields i) hd
      unfold Slot.value; rw [Option.isSome_map]; exact hv
    · rw [record]; exact number
    · rw [record]; exact kept
  rw [takePost_eq]
  refine directoryHolds_settleSlot ?_
  rw [see_placeAll directoryHolds_queues directoryHolds_pool]
  exact answered

end take

/-! ## Every event -/

section events

theorem TopicRecord.fitsState_after {r : TopicRecord} {w : Prop} (n : Nat) (h : r.fitsState w) :
    TopicRecord.fitsState { r with freshness := r.freshness.after n } w := by
  have stays {t : Timer} (ht : t = .stopped) : t.after n = .stopped := by rw [ht]; rfl
  unfold TopicRecord.fitsState at h ⊢
  cases hr : r.state <;> rw [hr] at h <;> dsimp only at h ⊢
  · subst h; rfl
  · obtain ⟨hp, h⟩ := h
    refine ⟨hp, ?_⟩
    cases hk : r.kind <;> cases hv : r.retained <;> cases hs : r.stale <;> rw [hk, hv, hs] at h <;> dsimp only at h ⊢
    · exact ⟨rfl, stays h.2⟩
    · exact ⟨h.1, stays h.2⟩
    · exact ⟨(Timer.after_eq_stopped _ _).trans h.1, h.2⟩
    · exact stays h
    all_goals
      obtain ⟨h1, h2, h3, h4⟩ := h
      exact ⟨h1, h2, stays h3, h4⟩
  · obtain ⟨h1, h2, h3, h4, h5, h6⟩ := h
    exact ⟨h1, h2, h3, h4, stays h5, h6⟩

/-- An EVENT topic has no freshness limit (R11). -/
theorem limit_eq_zero_of_declareValid {t : Word} {limit : Nat} (h : declareValid t .event limit = true) : limit = 0 := by
  unfold declareValid at h
  simp only [Bool.and_eq_true] at h
  simpa using h.2

theorem TopicRecord.declared_fitsState {t : Word} {kind : TopicKind} {p : Port} {limit : Nat} {w : Prop}
    (hv : declareValid t kind limit = true) : (TopicRecord.declared t kind p limit).fitsState w := by
  unfold TopicRecord.fitsState TopicRecord.declared
  refine ⟨rfl, ?_⟩
  cases kind
  · exact ⟨rfl, rfl⟩
  · exact ⟨rfl, rfl, rfl, limit_eq_zero_of_declareValid hv⟩

theorem TopicRecord.redeclared_fitsState {r : TopicRecord} {t : Word} {limit : Nat} {w : Prop}
    (hv : declareValid t r.kind limit = true) (hr : r.state = .declared) (h : r.fitsState w) :
    (r.redeclared limit).fitsState w := by
  unfold TopicRecord.fitsState at h ⊢
  unfold TopicRecord.redeclared TopicRecord.redeclaredTimer
  rw [hr] at h
  obtain ⟨hp, h⟩ := h
  simp only [hr]
  refine ⟨hp, ?_⟩
  have value (t : Timer) : (if limit = 0 then Timer.stopped else t) = .stopped ↔ limit = 0 ∨ t = .stopped := by
    split <;> simp_all
  cases hk : r.kind <;> cases hval : r.retained <;> cases hs : r.stale <;> rw [hk, hval, hs] at h <;>
    dsimp only at h ⊢
  · exact ⟨rfl, (value _).mpr (.inr rfl)⟩
  · exact absurd h.1 nofun
  · exact ⟨(value _).trans ⟨fun e => e.resolve_right nofun, .inl⟩, h.2⟩
  · exact (value _).mpr (.inr rfl)
  all_goals
    have hl : limit = 0 := limit_eq_zero_of_declareValid (hk ▸ hv)
    obtain ⟨h1, h2, -, -⟩ := h
    exact ⟨h1, h2, (value _).mpr (.inl hl), hl⟩

theorem TopicRecord.adopted_fitsState {r : TopicRecord} {p : Port} {limit : Nat} {w w' : Prop} (hr : r.state = .orphaned)
    (h : r.fitsState w) : (r.adopted p limit).fitsState w' := by
  unfold TopicRecord.fitsState at h
  rw [hr] at h
  obtain ⟨-, hk, hv, hs, hf, -⟩ := h
  obtain ⟨v, hv⟩ := Option.isSome_iff_exists.mp hv
  unfold TopicRecord.fitsState TopicRecord.adopted
  simp only [hk, hv, hs]
  exact ⟨rfl, hf⟩

theorem TopicRecord.stale_fitsState {r : TopicRecord} {w : Prop} (hr : r.state = .declared)
    (hf : r.freshness ≠ .stopped) (h : r.fitsState w) :
    TopicRecord.fitsState { r with stale := true, freshness := .stopped } w := by
  unfold TopicRecord.fitsState at h ⊢
  rw [hr] at h
  simp only [hr]
  obtain ⟨hp, h⟩ := h
  refine ⟨hp, ?_⟩
  cases hk : r.kind <;> cases hv : r.retained <;> cases hs : r.stale <;> rw [hk, hv, hs] at h <;> dsimp only at h ⊢
  · exact absurd h.2 hf
  · exact absurd h.2 hf
  all_goals
    obtain ⟨-, -, h3, -⟩ := h
    exact absurd h3 hf

/-- An event that keeps what stands of the ports keeps the law for those that are ONLINE. -/
theorem directoryLaw_of_standing {s t : State} (hs : ∀ q, (t.port q).standing = (s.port q).standing)
    (hk : ∀ present, DirectoryHolds present s → DirectoryHolds present t) (h : DirectoryLaw s) : DirectoryLaw t :=
  directoryLaw_kept (fun q hq => ((congrArg PortRecord.state (hs q) :) : _ = _).trans hq) hk h

theorem directoryLaw_consumption {s : State} {p : Port} {d : Delivery} {rest : List Delivery} (h : DirectoryLaw s) :
    DirectoryLaw (consumption p d rest s).1 := by
  have consumed {u : State} {queue : List Delivery} {entries : List DeferralEntry} (hu : DirectoryLaw u) :
      DirectoryLaw (u.modPort p (PortRecord.consumed queue entries)) := by
    refine directoryLaw_kept (fun q hq => ?_) (fun present hd => ?_) hu
    · unfold Online; rw [port_modPort]; split <;> exact hq
    · rw [directoryHolds_modPort_eq]
      · exact hd
      all_goals exact fun _ => rfl
  have released : DirectoryLaw (releasePayload d.payload s) := by
    refine directoryLaw_of_standing (fun q => see_releasePayload (standing_poolBlind q) _ _) (fun present hd => ?_) h
    rw [see_releasePayload directoryHolds_pool]; exact hd
  unfold consumption; split
  · split
    · exact consumed released
    · exact consumed released
    · refine serveSlot_keeps (fun u hu => ?_) (fun u c hu => ?_) ?_
      · refine directoryLaw_of_standing (fun q => (standing_slotBlind q).slot _ _ _) (fun _ hd => ?_) hu
        exact directoryHolds_modSlot (fun hp => ⟨hp, rfl⟩) hd
      · refine directoryLaw_of_standing (fun q => see_finishSlot (standing_poolBlind q) (standing_slotBlind q) _ _ _)
          (fun _ hd => ?_) hu
        exact directoryHolds_finishSlot _ _ hd
      · refine directoryLaw_of_standing (fun q => see_takePayload (standing_poolBlind q) _ _) (fun _ hd => ?_)
          (consumed released)
        rw [see_takePayload directoryHolds_pool]; exact hd
  · exact consumed released

theorem directoryLaw_consumeHead {s : State} {p : Port} (hq : (s.port p).queue ≠ []) (h : DirectoryLaw s) :
    DirectoryLaw (consumeHead p s) := by
  obtain ⟨d, rest, hq⟩ := List.exists_cons_of_ne_nil hq
  rw [consumeHead_eq hq]
  exact directoryLaw_endDrains (directoryLaw_consumption h)

/-- A change of a port's record that its state, its slots and its solicits do not see. -/
theorem directoryLaw_modPort {s : State} {p : Port} {f : PortRecord → PortRecord} (hs : ∀ r, (f r).state = r.state)
    (hx : ∀ r, (f r).slots = r.slots) (hl : ∀ r, (f r).solicits = r.solicits) (h : DirectoryLaw s) :
    DirectoryLaw (s.modPort p f) := by
  refine directoryLaw_kept (fun q hq => ?_) (fun present hd => ?_) h
  · unfold Online; rw [port_modPort]; split <;> [exact (hs _).trans hq; exact hq]
  · rw [directoryHolds_modPort_eq _ hx hl]; exact hd

theorem directoryLaw_giveAnswer {s : State} {p : Port} {d : Delivery} (h : DirectoryLaw s) :
    DirectoryLaw (giveAnswer p d s) := by
  refine directoryLaw_of_standing (fun q => see_giveAnswer (standing_queueBlind q) (standing_poolBlind q) p d s)
    (fun present hd => ?_) h
  rw [see_giveAnswer directoryHolds_queues directoryHolds_pool]; exact hd

theorem directoryLaw_passByte {s : State} {p : Port} (hq : (s.port p).queue ≠ []) (h : DirectoryLaw s) :
    DirectoryLaw (passByte p s) := by
  obtain ⟨d, rest, hd⟩ := List.exists_cons_of_ne_nil hq
  by_cases hc : (s.port p).view.cursor = (s.port p).view.stop
  · cases hm : (s.port p).view.mode with
    | hold =>
      rw [passByte_atEnd_hold hd hc hm]
      exact directoryLaw_modPort (fun _ => rfl) (fun _ => rfl) (fun _ => rfl) h
    | advance => rw [passByte_atEnd_advance hq hc hm]; exact directoryLaw_consumeHead hq h
  · rw [passByte_within hd hc]
    exact directoryLaw_modPort (fun _ => rfl) (fun _ => rfl) (fun _ => rfl) h

/-- The law sees the ports, the directory and the fetch table alone. -/
theorem directoryLaw_of_tables {s t : State} (h : DirectoryLaw s) (hp : s.ports = t.ports) (ht : s.topics = t.topics)
    (hf : s.fetches = t.fetches) : DirectoryLaw t := by
  have port (p : Port) : t.port p = s.port p := by unfold State.port; rw [hp]
  have slot (x : SlotName) : t.slot x = s.slot x := by unfold State.slot; rw [port]
  refine directoryLaw_kept (fun q hq => ?_) (fun present hd => directoryHolds_of_seen (s := s)
    (fun i => by unfold State.topic; rw [ht]) (fun j => by unfold State.fetch; rw [hf])
    (fun x hx => by rw [← slot]; exact ⟨hx, rfl⟩) (fun p => by rw [port]) hd) h
  unfold Online; rw [port]; exact hq

theorem directoryLaw_countPeriods {s : State} (n : Nat) (h : DirectoryLaw s) : DirectoryLaw (countPeriods n s) := by
  refine directoryLaw_kept (fun q hq => ?_) (fun present hd => ?_) h
  · unfold Online; rw [port_countPeriods]; exact hq
  · refine directoryHolds_recordsKept (fun i => ?_) (fun j f hj => ?_) (fun w hw => ?_) (fun x hx => ?_) (fun p => ?_) hd
    · rw [topic_countPeriods]; exact ⟨rfl, rfl, rfl, fun w hw => TopicRecord.fitsState_after _ hw⟩
    · rw [fetch_countPeriods] at hj
      obtain ⟨g, hg, rfl⟩ := Option.map_eq_some_iff.mp hj
      exact ⟨g, hg, rfl, rfl, (Timer.after_eq_stopped _ _).mp⟩
    · obtain ⟨j, f, hj, e⟩ := hw
      exact ⟨j, { f with deadline := f.deadline.after (ticksOf n s) }, by rw [fetch_countPeriods, hj]; rfl, e⟩
    · rw [slot_countPeriods] at hx ⊢; exact ⟨hx, rfl⟩
    · rw [port_countPeriods]; rfl

theorem directoryLaw_resetDevice (straps : Vector Strap 4) (s : State) : DirectoryLaw (resetDevice straps s) where
  unique i j hi := absurd (by rw [topic_resetDevice]; rfl) hi
  numbers i hi := absurd (by rw [topic_resetDevice]; rfl) hi
  fields i := by rw [topic_resetDevice]; rfl
  producers i p hi := by rw [topic_resetDevice] at hi; cases hi
  posts x hx := by rw [slot_resetDevice] at hx; rcases hx with e | e <;> cases e
  fetches j f hj := by rw [fetch_resetDevice] at hj; cases hj
  solicitsOnce p := by rw [port_resetDevice]; exact List.nodup_nil
  solicits p t hm := by rw [port_resetDevice] at hm; cases hm

theorem lowestFreeRecord_some {s : State} {i : RecordNo} (h : lowestFreeRecord s = some i) :
    (s.topic i).state = .free := by
  simpa using ((find?_finRange_eq_some _ i).mp h).1

theorem lowestFreeFetch_some {s : State} {j : FetchId} (h : lowestFreeFetch s = some j) : s.fetch j = none := by
  simpa using ((find?_finRange_eq_some _ j).mp h).1

theorem isTopicNumber_of_declareValid {t : Word} {kind : TopicKind} {limit : Nat}
    (h : declareValid t kind limit = true) : isTopicNumber t = true := by
  unfold declareValid at h
  simp only [Bool.and_eq_true] at h
  exact h.1.1

/-- Nothing posts on a topic that is not busy. -/
theorem not_posting_of_not_busy {s : State} {t : Word} (h : topicBusy s t = false) (x : SlotName)
    (hx : (s.slot x).posting) : (s.slot x).topic ≠ t := by
  intro e
  have busy : topicBusy s t = true := (topicBusy_iff s t).mpr ⟨x, hx.imp_right .inl, e⟩
  rw [h] at busy; cases busy

/-- Every event keeps the law of the directory, together with the law of the slots, by which a READY slot holds a
value. -/
theorem directoryLaw_events : EventsKeep fun s => SlotLaw s ∧ DirectoryLaw s := by
  have k := slotLaw_events
  have topics {s : State} {i : RecordNo} {r : TopicRecord} (hk : ∀ present : Port → Prop,
      (∀ q, present q ↔ Online s q) → DirectoryHolds present s → DirectoryHolds present (s.modTopic i fun _ => r))
      (h : DirectoryLaw s) : DirectoryLaw (s.modTopic i fun _ => r) :=
    directoryLaw_iff.mpr (hk _ (fun _ => Iff.rfl) (directoryLaw_iff.mp h))
  refine ⟨?_, ?waiting, ?reset, ?parameterSet⟩
  constructor
  case waiting => exact fun s l h => ⟨k.waiting s l h.1, directoryLaw_of_tables h.2 rfl rfl rfl⟩
  case reset => exact fun s straps h => ⟨k.reset s straps h.1, directoryLaw_resetDevice straps s⟩
  case parameterSet =>
    exact fun s i v hv h => ⟨k.parameterSet s i v hv h.1, directoryLaw_of_tables h.2 rfl rfl rfl⟩
  case link =>
    exact fun s p f hf h => ⟨k.link s p f hf h.1,
      directoryLaw_modPort (fun r => by rw [hf r]) (fun r => by rw [hf r]) (fun r => by rw [hf r]) h.2⟩
  case tick => exact fun s n h => ⟨k.tick s n h.1, directoryLaw_countPeriods n h.2⟩
  case quarantined => exact fun s p hp h => ⟨k.quarantined s p hp h.1, directoryLaw_quarantine hp h.2⟩
  case holdRestarted =>
    exact fun s p hp h => ⟨k.holdRestarted s p hp h.1,
      directoryLaw_modPort (fun _ => by rfl) (fun _ => by rfl) (fun _ => by rfl) h.2⟩
  case holdExpired =>
    exact fun s p hp h => ⟨k.holdExpired s p hp h.1,
      directoryLaw_modPort (fun _ => by rfl) (fun _ => by rfl) (fun _ => by rfl) h.2⟩
  case joined =>
    refine fun s p hp h => ⟨k.joined s p hp h.1, directoryLaw_kept (s := s) (fun q hq => ?_) (fun present hd => ?_) h.2⟩
    · change ((s.modPort p _).port q).state = .online
      rw [port_modPort]; split <;> [rfl; exact hq]
    · rw [directoryHolds_sessions.exchange, directoryHolds_modPort_eq]
      · exact hd
      all_goals exact fun _ => rfl
  case left => exact fun s p hp h => ⟨k.left s p hp h.1, directoryLaw_leavePort h.2⟩
  case recovered =>
    refine fun s p hp he h => ⟨k.recovered s p hp he h.1, directoryLaw_kept (s := s) (fun q hq => ?_) (fun present hd => ?_) h.2⟩
    · unfold Online at hq ⊢
      rw [port_modPort_ne]
      · exact hq
      · rintro rfl; rw [hp] at hq; cases hq
    · rw [directoryHolds_modPort_eq]
      · exact hd
      all_goals exact fun _ => rfl
  case missedCleared =>
    exact fun s p h => ⟨k.missedCleared s p h.1,
      directoryLaw_modPort (fun _ => by rfl) (fun _ => by rfl) (fun _ => by rfl) h.2⟩
  case topicDeclared =>
    refine fun s p i t kind limit ho hv hf hi h => ⟨k.topicDeclared s p i t kind limit ho hv hf hi h.1,
      topics (fun present hpr hd => ?_) h.2⟩
    refine directoryHolds_undeclaredChanged (by rw [lowestFreeRecord_some hi]; exact nofun)
      (fun _ => ⟨isTopicNumber_of_declareValid hv, fun j _ hj e => findTopic_eq_none.mp hf j ⟨hj, e⟩⟩)
      (TopicRecord.declared_fitsState hv) (fun q _ hq => (hpr q).mpr ?_) hd
    exact Option.some.inj hq ▸ ho
  case topicRedeclared =>
    refine fun s i t kind limit hv hf hi hk h => ⟨k.topicRedeclared s i t kind limit hv hf hi hk h.1,
      topics (fun present _ hd => ?_) h.2⟩
    exact directoryHolds_recordKept rfl rfl rfl
      (fun w hw => TopicRecord.redeclared_fitsState (t := t) (by rw [hk]; exact hv) hi hw) hd
  case topicAdopted =>
    refine fun s p i t limit ho hf hi h => ⟨k.topicAdopted s p i t limit ho hf hi h.1,
      topics (fun present hpr hd => ?_) h.2⟩
    obtain ⟨hfree, -⟩ := findTopic_some hf
    have orphaned : (s.topic i).state = .orphaned := by
      cases hs : (s.topic i).state <;> simp_all
    refine directoryHolds_undeclaredChanged hi (fun _ => ⟨hd.numbers i hfree, fun j hj hjf e => ?_⟩)
      (TopicRecord.adopted_fitsState orphaned (hd.fields i)) (fun q _ hq => (hpr q).mpr (Option.some.inj hq ▸ ho)) hd
    exact hj (hd.unique i j hfree hjf e.symm)
  case topicRetired =>
    refine fun s p i t hf hi hp hb h => ⟨k.topicRetired s p i t hf hi hp hb h.1, directoryLaw_of_standing (fun q => ?_)
      (fun present hd => ?_) h.2⟩
    · unfold retireRecord; dsimp only
      rw [see_freeRecord (standing_poolBlind q) (standing_topicBlind q), see_removeSolicit (standing_solicitBlind q),
        see_answerAll (standing_queueBlind q) (standing_poolBlind q) (standing_fetchBlind q)]
    · refine directoryHolds_retireRecord hi hp (fun x hx => ?_) hd
      rw [(findTopic_some hf).2]; exact not_posting_of_not_busy hb x hx
  case topicPurged =>
    exact fun s i t hf hi hb h => ⟨k.topicPurged s i t hf hi hb h.1, directoryLaw_of_standing
      (fun q => see_freeRecord (standing_poolBlind q) (standing_topicBlind q) i s)
      (fun present hd => directoryHolds_freeRecord hi hd) h.2⟩
  case subscribed =>
    exact fun s p i pattern mask options ho hn hi h => ⟨k.subscribed s p i pattern mask options ho hn hi h.1,
      directoryLaw_of_tables h.2 rfl rfl rfl⟩
  case unsubscribed =>
    exact fun s i h => ⟨k.unsubscribed s i h.1, directoryLaw_of_tables h.2 rfl rfl rfl⟩
  case postOpened =>
    refine fun s x t priority i b ho he hf hi hp hb h => ⟨k.postOpened s x t priority i b ho he hf hi hp hb h.1,
      directoryLaw_of_standing (fun q => ?_) (fun present hd => ?_) h.2⟩
    · unfold openSlot allocateBuffer
      rw [(standing_slotBlind q).slot, (standing_poolBlind q).buffer]
    · have allocated : DirectoryHolds present (allocateBuffer b s) := by
        unfold allocateBuffer; rw [directoryHolds_pool.buffer]; exact hd
      exact directoryHolds_posted hi (findTopic_some hf).2 hp allocated
  case payloadWritten =>
    refine fun s x offset data hx h => ⟨k.payloadWritten s x offset data hx h.1,
      directoryLaw_of_standing (fun q => ?_) (fun present hd => ?_) h.2⟩
    · unfold writePayload; dsimp only
      rw [(standing_slotBlind q).slot]
      split <;> [rfl; (rw [(standing_poolBlind q).buffer])]
    · unfold writePayload; dsimp only
      refine directoryHolds_modSlot (fun hp => ⟨hp, rfl⟩) ?_
      split <;> [exact hd; (rw [directoryHolds_pool.buffer]; exact hd)]
  case submitted =>
    refine fun s x hx h => ⟨k.submitted s x hx h.1, directoryLaw_of_standing (fun q => ?_) (fun present hd => ?_) h.2⟩
    · exact (standing_slotBlind q).slot s x _
    · have ready := directoryHolds_modSlot (x := x) (f := fun r => { r with
        state := .ready, readySequence := s.readySequence }) (fun _ => ⟨.inl hx, rfl⟩) hd
      exact directoryHolds_of_seen (s := s.modSlot x fun r => { r with state := .ready, readySequence := s.readySequence })
        (fun _ => rfl) (fun _ => rfl) (fun y hy => ⟨hy, rfl⟩) (fun _ => List.Sublist.refl _) ready
  case slotEmptied =>
    exact fun s x hx h => ⟨k.slotEmptied s x hx h.1, directoryLaw_of_standing
      (fun q => see_emptySlot (standing_poolBlind q) (standing_slotBlind q) x s)
      (fun present hd => directoryHolds_emptySlot x hd) h.2⟩
  case readyAborted =>
    exact fun s x hx h => ⟨k.readyAborted s x hx h.1, directoryLaw_of_standing
      (fun q => see_finishSlot (standing_poolBlind q) (standing_slotBlind q) x _ s)
      (fun present hd => directoryHolds_finishSlot x _ hd) h.2⟩
  case deferredEnded =>
    exact fun s x c hx h => ⟨k.deferredEnded s x c hx h.1, directoryLaw_endDrains (directoryLaw_of_standing
      (fun q => see_endDeferred (standing_queueBlind q) (standing_poolBlind q) (standing_slotBlind q) x c s)
      (fun present hd => directoryHolds_endDeferred x c hd) h.2)⟩
  case windowSet =>
    exact fun s p start stop mode h1 h2 h => ⟨k.windowSet s p start stop mode h1 h2 h.1,
      directoryLaw_modPort (fun _ => by rfl) (fun _ => by rfl) (fun _ => by rfl) h.2⟩
  case viewRead =>
    exact fun s p n h => ⟨k.viewRead s p n h.1,
      readBytes_keeps (fun _ hq hs => directoryLaw_passByte hq hs) n [] h.2⟩
  case consumed => exact fun s p hq h => ⟨k.consumed s p hq h.1, directoryLaw_consumeHead hq h.2⟩
  case answeredNow => exact fun s p d ho hn hd h => ⟨k.answeredNow s p d ho hn hd h.1, directoryLaw_giveAnswer h.2⟩
  case fetchWaits =>
    refine fun s p t i j wait ho hn hf hi hv hj h => ⟨k.fetchWaits s p t i j wait ho hn hf hi hv hj h.1, ?_⟩
    obtain rfl := (findTopic_some hf).2
    refine directoryLaw_of_holds (fun q hq => ?_)
      (directoryHolds_fetchWaits ho hi hv (lowestFreeFetch_some hj) (directoryLaw_iff.mp h.2))
    have same := congrArg PortRecord.state ((see_solicit (standing_solicitBlind q) (t := (s.topic i).number)
      (s := s.setFetch j (some ⟨p, (s.topic i).number, .running wait⟩)) (s.topic i).producer :))
    exact same.trans hq
  case fetchCancelled =>
    exact fun s i f hf h => ⟨k.fetchCancelled s i f hf h.1, directoryLaw_of_standing
      (fun q => (see_dropIdleSolicit (standing_solicitBlind q) _ _).trans ((standing_fetchBlind q).fetch s i none))
      (fun present hd => directoryHolds_fetchRemoved hf hd) h.2⟩
  case solicitsRead =>
    refine fun s p h => ⟨k.solicitsRead s p h.1, directoryLaw_of_standing
      (fun q => (standing_solicitBlind q).solicits s p fun r => r.solicits.drop 16) (fun present hd => ?_) h.2⟩
    refine directoryHolds_of_seen (s := s) (fun _ => rfl) (fun _ => rfl) (fun x hx => ?_) (fun q => ?_) hd
    · rw [slot_modPort s (fun _ => by rfl) x] at hx ⊢; exact ⟨hx, rfl⟩
    · rw [port_modPort]; split <;> [exact List.drop_sublist _ _; exact List.Sublist.refl _]
  case taken =>
    refine fun s x i hx hf h => ⟨k.taken s x i hx hf h.1, ?_⟩
    have ready := ready_of_chosenSlot hx
    have fits := h.1.fields x
    unfold Slot.fitsState at fits
    rw [ready] at fits
    refine directoryLaw_of_standing (fun q => ?_)
      (fun present hd => directoryHolds_takePost ready fits.1 hf hd) h.2
    unfold takePost settleSlot stampSlot; dsimp only; split
    · rw [see_finishSlot (standing_poolBlind q) (standing_slotBlind q), (standing_slotBlind q).slot,
        see_placeAll (standing_queueBlind q) (standing_poolBlind q),
        see_answerAll (standing_queueBlind q) (standing_poolBlind q) (standing_fetchBlind q),
        see_removeSolicit (standing_solicitBlind q), (standing_slotBlind q).order, (standing_slotBlind q).slot,
        see_stampRecord (standing_poolBlind q) (standing_topicBlind q)]
    · rw [(standing_slotBlind q).slot, (standing_slotBlind q).slot,
        see_placeAll (standing_queueBlind q) (standing_poolBlind q),
        see_answerAll (standing_queueBlind q) (standing_poolBlind q) (standing_fetchBlind q),
        see_removeSolicit (standing_solicitBlind q), (standing_slotBlind q).order, (standing_slotBlind q).slot,
        see_stampRecord (standing_poolBlind q) (standing_topicBlind q)]
  case lapsed =>
    refine fun s i t hf hi hr h => ⟨k.lapsed s i t hf hi hr h.1, directoryLaw_of_standing (fun q => ?_)
      (fun present hd => ?_) h.2⟩
    · unfold lapse; dsimp only
      rw [see_issueNotices (standing_queueBlind q), (standing_topicBlind q).topic]
    · unfold lapse; dsimp only
      rw [see_issueNotices directoryHolds_queues]
      exact directoryHolds_recordKept (r := { s.topic i with stale := true, freshness := .stopped }) rfl rfl rfl
        (fun w hw => TopicRecord.stale_fitsState hi (by rw [hr]; exact nofun) hw) hd
  case fetchExpired =>
    intro s i f hf h
    refine ⟨k.fetchExpired s i f hf h.1, ?_⟩
    have answered : DirectoryLaw (giveAnswer f.requester (timeoutAnswer f.topic s) s) := directoryLaw_giveAnswer h.2
    have fetch : (giveAnswer f.requester (timeoutAnswer f.topic s) s).fetch i = some f := by
      rw [← hf]
      exact see_giveAnswer (see := fun u => u.fetch i) ⟨fun _ _ _ => rfl, fun _ _ _ => rfl, fun _ _ _ => rfl⟩
        ⟨fun _ _ _ => rfl⟩ _ _ _
    generalize giveAnswer f.requester (timeoutAnswer f.topic s) s = u at answered fetch
    exact directoryLaw_of_standing
      (fun q => (see_dropIdleSolicit (standing_solicitBlind q) _ _).trans ((standing_fetchBlind q).fetch u i none))
      (fun present hd => directoryHolds_fetchRemoved fetch hd) answered

/-- Settles O59. -/
theorem stepKeepsTheDirectoryLaw : Obligations.StepKeepsTheDirectoryLaw :=
  fun _ _ hx h ht => (step_keeps_of_events directoryLaw_events ⟨hx, h⟩ ht).2

end events

end Sys2Proof.Machine
end

