-- ==== Sys2Proof/Proofs/Reports.lean ====
section
/-! What a teardown makes of every slot, and the reports it brings: a slot with an entry in the list emptied fails at the
port, and reports when the port was its last (R49, R55, R80). Every report is of one slot that leaves DEFERRED, so the
reports of one event and the slots DEFERRED after it are never more than the slots DEFERRED before. -/
namespace Sys2Proof.Machine
set_option Elab.async false

/-! ## A slot served or failed at a port -/

/-- What a slot reads when a port that waits for it has been torn down (R49). -/
def Slot.failed (p : Port) (k : Slot) : Slot :=
  if k.pending.erase p = PortSet.none then
    Slot.ended .partially { k with pending := k.pending.erase p, unreached := k.unreached.insert p }
  else { k with pending := k.pending.erase p, unreached := k.unreached.insert p }

/-- What a slot reads when a port that waits for it has been served (R47). -/
def Slot.served (p : Port) (k : Slot) : Slot :=
  if k.pending.erase p = PortSet.none then
    Slot.ended (servedStatus k) { k with pending := k.pending.erase p, reached := k.reached.insert p }
  else { k with pending := k.pending.erase p, reached := k.reached.insert p }

section slots
variable (x y : SlotName) (p : Port) (s : State)

theorem slot_failSlot : (failSlot x p s).1.slot y = if x = y then (s.slot y).failed p else s.slot y := by
  by_cases e : x = y
  · subst e
    unfold failSlot Slot.failed; dsimp only
    rw [slot_modSlot_same, if_pos rfl]
    split
    · rw [slot_finishSlot, if_pos rfl, slot_modSlot_same]
    · rw [slot_modSlot_same]
  · rw [slot_failSlot_ne x y p s e, if_neg e]

theorem reports_failSlot : (failSlot x p s).2 =
    if (s.slot x).pending.erase p = PortSet.none then [x.owner] else [] := by
  unfold failSlot; dsimp only
  rw [slot_modSlot_same]
  split <;> rfl

theorem slot_serveSlot : (serveSlot x p s).1.slot y = if x = y then (s.slot y).served p else s.slot y := by
  by_cases e : x = y
  · subst e
    unfold serveSlot Slot.served; dsimp only
    rw [slot_modSlot_same, if_pos rfl]
    split
    · rw [slot_finishSlot, if_pos rfl, slot_modSlot_same]; rfl
    · rw [slot_modSlot_same]
  · rw [slot_serveSlot_ne x y p s e, if_neg e]

theorem reports_serveSlot : (serveSlot x p s).2 =
    if (s.slot x).pending.erase p = PortSet.none then [x.owner] else [] := by
  unfold serveSlot; dsimp only
  rw [slot_modSlot_same]
  split <;> rfl

theorem Slot.state_failed (k : Slot) : (k.failed p).state =
    if k.pending.erase p = PortSet.none then .done else k.state := by
  unfold Slot.failed; split <;> rfl

theorem Slot.state_served (k : Slot) : (k.served p).state =
    if k.pending.erase p = PortSet.none then .done else k.state := by
  unfold Slot.served; split <;> rfl

/-- The slots of a port become EMPTY, and no other (R57). -/
theorem slot_emptySlots : (emptySlots p s).slot y = if y.owner = p then Slot.reset else s.slot y := by
  have fold (l : List SlotNo) (u : State) : (l.foldl (fun u k => emptySlot ⟨p, k⟩ u) u).slot y =
      if y.owner = p ∧ y.number ∈ l then Slot.reset else u.slot y := by
    induction l generalizing u with
    | nil => simp
    | cons k l ih =>
      rw [List.foldl_cons, ih, slot_emptySlot]
      obtain ⟨q, j⟩ := y
      by_cases hq : q = p
      · subst hq
        by_cases hj : k = j
        · subst hj; simp
        · simp [hj, Ne.symm hj]
      · simp [hq, Ne.symm hq]
  have all := fold (List.finRange 4) s
  simp only [List.mem_finRange, and_true] at all
  exact all

end slots

/-! ## The slots DEFERRED -/

/-- The number of slots DEFERRED. -/
def deferredTotal (s : State) : Nat := allSlots.countP fun x => (s.slot x).state == .deferred

theorem deferredTotal_le_sixteen (s : State) : deferredTotal s ≤ 16 := List.countP_le_length

theorem deferredTotal_mono {s t : State} (h : ∀ x, (t.slot x).state = .deferred → (s.slot x).state = .deferred) :
    deferredTotal t ≤ deferredTotal s :=
  List.countP_mono_left fun x _ hx => by simpa using h x (by simpa using hx)

/-- The slots of one name alone change. -/
theorem deferredTotal_change {s t : State} (x : SlotName) (h : ∀ y, y ≠ x → t.slot y = s.slot y) :
    deferredTotal t + (if (s.slot x).state = .deferred then 1 else 0) =
      deferredTotal s + if (t.slot x).state = .deferred then 1 else 0 := by
  have change := countP_change nodup_allSlots (mem_allSlots x) (c := fun y => (t.slot y).state == .deferred)
    (d := fun y => (s.slot y).state == .deferred) fun y hy => by rw [h y hy]
  unfold deferredTotal
  simp only [Bool.toNat, beq_iff_eq, cond_eq_ite] at change
  exact change

/-- A DEFERRED slot that fails at a port reports, or stays DEFERRED. -/
theorem deferredTotal_failSlot {x : SlotName} {p : Port} {s : State} (hx : (s.slot x).state = .deferred) :
    (failSlot x p s).2.length + deferredTotal (failSlot x p s).1 = deferredTotal s := by
  have change := deferredTotal_change (s := s) (t := (failSlot x p s).1) x fun y hy => by
    rw [slot_failSlot, if_neg (Ne.symm hy)]
  rw [slot_failSlot, if_pos rfl, Slot.state_failed, hx, if_pos rfl] at change
  rw [reports_failSlot]
  by_cases hp : (s.slot x).pending.erase p = PortSet.none
  · rw [if_pos hp] at change ⊢
    rw [List.length_singleton]
    simp only [reduceCtorEq, if_false] at change
    omega
  · rw [if_neg hp] at change ⊢
    rw [if_pos rfl] at change
    rw [List.length_nil]; omega

/-! ## A deferral list emptied -/

/-- A list has at most one entry for a slot. -/
def Single (l : List DeferralEntry) : Prop := ∀ y, l.countP (·.standsFor y) ≤ 1

/-- The list has an entry for the slot. -/
def Listed (l : List DeferralEntry) (y : SlotName) : Prop := ∃ e ∈ l, e.standsFor y = true

theorem listed_iff_countP {l : List DeferralEntry} {y : SlotName} : Listed l y ↔ 0 < l.countP (·.standsFor y) := by
  unfold Listed; rw [List.countP_pos_iff]

theorem not_listed_nil (y : SlotName) : ¬ Listed [] y := by rintro ⟨_, h, -⟩; cases h

theorem listed_cons_answer {d : Delivery} {l : List DeferralEntry} {y : SlotName} :
    Listed (.answer d :: l) y ↔ Listed l y := by
  unfold Listed; simp [DeferralEntry.standsFor]

theorem listed_cons_slot {x : SlotName} {i : SubIndex} {c : Bool} {l : List DeferralEntry} {y : SlotName} :
    Listed (.slot x i c :: l) y ↔ x = y ∨ Listed l y := by
  unfold Listed; simp [DeferralEntry.standsFor]

theorem Single.tail {e : DeferralEntry} {l : List DeferralEntry} (h : Single (e :: l)) : Single l := fun y =>
  Nat.le_trans (by rw [List.countP_cons]; exact Nat.le_add_right _ _) (h y)

theorem Single.not_listed {x : SlotName} {i : SubIndex} {c : Bool} {l : List DeferralEntry}
    (h : Single (.slot x i c :: l)) : ¬ Listed l x := by
  have one := h x
  rw [List.countP_cons_of_pos (by simp [DeferralEntry.standsFor])] at one
  rw [listed_iff_countP]; omega

section discard
variable {p : Port} {l : List DeferralEntry}

theorem slot_discardAll_of_not_listed {z : State × List Port} {y : SlotName} (hy : ¬ Listed l y) :
    (l.foldl (discardEntry p) z).1.slot y = z.1.slot y := by
  induction l generalizing z with
  | nil => rfl
  | cons e l ih =>
    cases e with
    | answer d =>
      rw [listed_cons_answer] at hy
      exact (ih hy).trans (slot_releasePayload d.payload z.1 y)
    | slot x i c =>
      rw [listed_cons_slot, not_or] at hy
      exact (ih hy.2).trans ((slot_failSlot x y p z.1).trans (if_neg hy.1))

theorem slot_discardAll_of_listed {z : State × List Port} {y : SlotName} (hl : Single l) (hy : Listed l y) :
    (l.foldl (discardEntry p) z).1.slot y = (z.1.slot y).failed p := by
  induction l generalizing z with
  | nil => exact absurd hy (not_listed_nil y)
  | cons e l ih =>
    cases e with
    | answer d =>
      rw [listed_cons_answer] at hy
      exact (ih hl.tail hy).trans (congrArg _ (slot_releasePayload d.payload z.1 y))
    | slot x i c =>
      by_cases e : x = y
      · subst e
        exact (slot_discardAll_of_not_listed hl.not_listed).trans ((slot_failSlot x x p z.1).trans (if_pos rfl))
      · rw [listed_cons_slot] at hy
        exact (ih hl.tail (hy.resolve_left e)).trans
          (congrArg _ ((slot_failSlot x y p z.1).trans (if_neg e)))

/-- The reports of a list emptied: one for each slot whose last pending port it was. -/
theorem mem_reports_discardAll {z : State × List Port} {r : Port} (hl : Single l) :
    r ∈ (l.foldl (discardEntry p) z).2 ↔
      r ∈ z.2 ∨ ∃ y, Listed l y ∧ y.owner = r ∧ (z.1.slot y).pending.erase p = PortSet.none := by
  induction l generalizing z with
  | nil => simp [not_listed_nil]
  | cons e l ih =>
    rw [List.foldl_cons, ih hl.tail]
    cases e with
    | answer d =>
      simp only [listed_cons_answer]
      have same (y : SlotName) : (discardEntry p z (.answer d)).1.slot y = z.1.slot y := slot_releasePayload d.payload z.1 y
      simp only [same]
      rfl
    | slot x i c =>
      have reports : (discardEntry p z (.slot x i c)).2 = z.2 ++ (failSlot x p z.1).2 := rfl
      have other {y : SlotName} (hy : Listed l y) : (discardEntry p z (.slot x i c)).1.slot y = z.1.slot y :=
        (slot_failSlot x y p z.1).trans (if_neg fun (e : x = y) => hl.not_listed (e ▸ hy))
      rw [reports, List.mem_append, reports_failSlot]
      constructor
      · rintro ((h | h) | ⟨y, hy, ho, hn⟩)
        · exact .inl h
        · split at h
          · next hn => exact .inr ⟨x, listed_cons_slot.mpr (.inl rfl), (List.mem_singleton.mp h).symm, hn⟩
          · cases h
        · exact .inr ⟨y, listed_cons_slot.mpr (.inr hy), ho, by rw [← other hy]; exact hn⟩
      · rintro (h | ⟨y, hy, ho, hn⟩)
        · exact .inl (.inl h)
        · rcases listed_cons_slot.mp hy with rfl | hy
          · exact .inl (.inr (by rw [if_pos hn, ho]; exact List.mem_singleton_self r))
          · exact .inr ⟨y, hy, ho, by rw [other hy]; exact hn⟩

theorem deferredTotal_discardAll {z : State × List Port} (hl : Single l)
    (hd : ∀ y, Listed l y → (z.1.slot y).state = .deferred) :
    (l.foldl (discardEntry p) z).2.length + deferredTotal (l.foldl (discardEntry p) z).1 =
      z.2.length + deferredTotal z.1 := by
  induction l generalizing z with
  | nil => rfl
  | cons e l ih =>
    cases e with
    | answer d =>
      have same (y : SlotName) : (discardEntry p z (.answer d)).1.slot y = z.1.slot y := slot_releasePayload d.payload z.1 y
      have total : deferredTotal (discardEntry p z (.answer d)).1 = deferredTotal z.1 := by
        unfold deferredTotal; simp only [same]
      rw [List.foldl_cons, ih hl.tail fun y hy => by rw [same]; exact hd y (listed_cons_answer.mpr hy), total]
      rfl
    | slot x i c =>
      have other {y : SlotName} (hy : Listed l y) : (discardEntry p z (.slot x i c)).1.slot y = z.1.slot y :=
        (slot_failSlot x y p z.1).trans (if_neg fun (e : x = y) => hl.not_listed (e ▸ hy))
      have first := deferredTotal_failSlot (p := p) (hd x (listed_cons_slot.mpr (.inl rfl)))
      rw [List.foldl_cons, ih hl.tail fun y hy => by rw [other hy]; exact hd y (listed_cons_slot.mpr (.inr hy))]
      change (z.2 ++ (failSlot x p z.1).2).length + deferredTotal (failSlot x p z.1).1 = _
      rw [List.length_append]; omega

end discard

/-! ## A port torn down -/

section teardown
variable {p : Port} {s : State}

theorem SlotLaw.single (h : SlotLaw s) (p : Port) : Single (s.port p).deferral := fun y => by
  rw [h.entries y p]; split <;> omega

theorem SlotLaw.listed_iff (h : SlotLaw s) (p : Port) (y : SlotName) :
    Listed (s.port p).deferral y ↔ (s.slot y).pending.has p = true := by
  rw [listed_iff_countP, h.entries y p]; split <;> simp_all

/-- A slot that waits for a port is DEFERRED. -/
theorem SlotLaw.deferred_of_pending (h : SlotLaw s) {y : SlotName} (hp : (s.slot y).pending.has p = true) :
    (s.slot y).state = .deferred := by
  by_contra hs
  rw [Slot.pending_of_fitsState (h.fields y) hs, PortSet.has_none] at hp
  cases hp

/-- What a teardown of the port makes of the slots of the others. -/
def Slot.outlived (p : Port) (k : Slot) : Slot := if k.pending.has p then k.failed p else k

theorem slot_emptyDeferral (h : SlotLaw s) (p : Port) (y : SlotName) :
    (emptyDeferral p s).1.slot y = (s.slot y).outlived p := by
  have cleared : (s.modPort p fun r => { r with deferral := [] }).slot y = s.slot y := by
    rw [slot_modPort]; exact fun _ => rfl
  unfold emptyDeferral Slot.outlived; dsimp only
  split
  · next hp =>
    rw [slot_discardAll_of_listed (h.single p) ((h.listed_iff p y).mpr hp), cleared]
  · next hp =>
    rw [slot_discardAll_of_not_listed fun hl => hp ((h.listed_iff p y).mp hl), cleared]

theorem mem_reports_emptyDeferral (h : SlotLaw s) {r : Port} : r ∈ (emptyDeferral p s).2 ↔
    ∃ y, y.owner = r ∧ (s.slot y).pending.has p = true ∧ (s.slot y).pending.erase p = PortSet.none := by
  have cleared (y : SlotName) : (s.modPort p fun r => { r with deferral := [] }).slot y = s.slot y := by
    rw [slot_modPort]; exact fun _ => rfl
  unfold emptyDeferral; dsimp only
  rw [mem_reports_discardAll (h.single p)]
  simp only [cleared, h.listed_iff, List.not_mem_nil, false_or]
  exact ⟨fun ⟨y, h1, h2, h3⟩ => ⟨y, h2, h1, h3⟩, fun ⟨y, h1, h2, h3⟩ => ⟨y, h2, h1, h3⟩⟩

/-- What a teardown makes of every slot (R49, R57, R80). -/
theorem slot_teardown (h : SlotLaw s) (b : Bool) (p : Port) (y : SlotName) :
    (teardown b p s).1.slot y = if y.owner = p then Slot.reset else (s.slot y).outlived p := by
  have judged (u : State) : (judgeExchange u).slot y = u.slot y := by unfold State.slot; rw [port_judgeExchange]
  have queued (u : State) : (emptyQueue p u).slot y = u.slot y := slot_emptyQueue ..
  have port {u : State} {f : PortRecord → PortRecord} (hf : ∀ r, (f r).slots = r.slots) :
      (u.modPort p f).slot y = u.slot y := slot_modPort u hf y
  rw [teardown_fst, judged]
  unfold teardownBlocks closePort homeCursor
  rw [port (fun r => by cases b <;> rfl), port (fun _ => by rfl), slot_emptySlots, port (fun _ => by rfl),
    slot_emptyDeferral (slotLaw_emptyQueue p h), queued]

theorem mem_reports_teardown (h : SlotLaw s) {b : Bool} {r : Port} : r ∈ (teardown b p s).2 ↔
    ∃ y, y.owner = r ∧ (s.slot y).pending.has p = true ∧ (s.slot y).pending.erase p = PortSet.none := by
  rw [teardown_snd, mem_reports_emptyDeferral (slotLaw_emptyQueue p h)]
  simp only [slot_emptyQueue]

theorem deferredTotal_teardown (h : SlotLaw s) (b : Bool) (p : Port) :
    (teardown b p s).2.length + deferredTotal (teardown b p s).1 ≤ deferredTotal s := by
  have hq := slotLaw_emptyQueue p h
  have emptied : deferredTotal (emptyQueue p s) = deferredTotal s := by
    unfold deferredTotal; simp only [slot_emptyQueue]
  have cleared (y : SlotName) : ((emptyQueue p s).modPort p fun r => { r with deferral := [] }).slot y =
      (emptyQueue p s).slot y := by rw [slot_modPort]; exact fun _ => rfl
  have discarded : (emptyDeferral p (emptyQueue p s)).2.length + deferredTotal (emptyDeferral p (emptyQueue p s)).1 =
      deferredTotal s := by
    unfold emptyDeferral; dsimp only
    rw [deferredTotal_discardAll (hq.single p) fun y hy => by
      rw [cleared]; exact hq.deferred_of_pending ((hq.listed_iff p y).mp hy)]
    unfold deferredTotal; simp only [cleared, slot_emptyQueue]; exact Nat.zero_add _
  have fewer : deferredTotal (teardown b p s).1 ≤ deferredTotal (emptyDeferral p (emptyQueue p s)).1 := by
    refine deferredTotal_mono fun y hy => ?_
    rw [slot_teardown h] at hy
    rw [slot_emptyDeferral hq, slot_emptyQueue]
    split at hy <;> [cases hy; exact hy]
  rw [teardown_snd]
  omega

end teardown

end Sys2Proof.Machine
end

