-- ==== Sys2Proof/Proofs/HoldsNothing.lean ====
section
/-! A port that holds nothing (R123) keeps nothing through every operation on the other ports: no answer, no notice, no
placement, no solicit and no slot report reaches it. -/
namespace Sys2Proof.Machine
set_option Elab.async false

section vacancy
variable {q : Port} {s t : State}

/-- What the record of a port that holds nothing looks like, beside its slots. -/
theorem holdsNothing_congr (hx : ∀ k, t.slot ⟨q, k⟩ = s.slot ⟨q, k⟩) (hq : (t.port q).queue = (s.port q).queue)
    (hd : (t.port q).deferral = (s.port q).deferral) (hl : (t.port q).solicits = (s.port q).solicits)
    (hn : (t.port q).noticesMissed = (s.port q).noticesMissed) (hsub : t.subscriptions = s.subscriptions)
    (hf : t.fetches = s.fetches) (ht : t.topics = s.topics) : HoldsNothing t q = HoldsNothing s q := by
  have subscription (i : SubIndex) : t.subscription i = s.subscription i := by unfold State.subscription; rw [hsub]
  have fetch (j : FetchId) : t.fetch j = s.fetch j := by unfold State.fetch; rw [hf]
  have topic (i : RecordNo) : t.topic i = s.topic i := by unfold State.topic; rw [ht]
  refine propext ⟨fun h => ⟨fun i => ?_, fun k => ?_, ?_, ?_, fun j => ?_, ?_, fun i => ?_, ?_⟩,
    fun h => ⟨fun i => ?_, fun k => ?_, ?_, ?_, fun j => ?_, ?_, fun i => ?_, ?_⟩⟩
  · rw [← subscription]; exact h.subscriptions i
  · rw [← hx]; exact h.slots k
  · rw [← hq]; exact h.queue
  · rw [← hd]; exact h.deferral
  · rw [← fetch]; exact h.fetches j
  · rw [← hl]; exact h.solicits
  · rw [← topic]; exact h.topics i
  · rw [← hn]; exact h.noticesMissed
  · rw [subscription]; exact h.subscriptions i
  · rw [hx]; exact h.slots k
  · rw [hq]; exact h.queue
  · rw [hd]; exact h.deferral
  · rw [fetch]; exact h.fetches j
  · rw [hl]; exact h.solicits
  · rw [topic]; exact h.topics i
  · rw [hn]; exact h.noticesMissed

theorem HoldsNothing.modPort_ne {p : Port} (f : PortRecord → PortRecord) (hp : p ≠ q) :
    HoldsNothing (s.modPort p f) q = HoldsNothing s q := by
  have port := port_modPort_ne s f hp
  exact holdsNothing_congr (fun k => by rw [slot_def, slot_def]; change ((s.modPort p f).port q).slots[_] = _; rw [port])
    (by rw [port]) (by rw [port]) (by rw [port]) (by rw [port]) rfl rfl rfl

/-- A change of a port's record that touches nothing it holds. -/
theorem HoldsNothing.modPort {p : Port} {f : PortRecord → PortRecord} (hx : ∀ r, (f r).slots = r.slots)
    (hq : ∀ r, (f r).queue = r.queue) (hd : ∀ r, (f r).deferral = r.deferral) (hl : ∀ r, (f r).solicits = r.solicits)
    (hn : ∀ r, (f r).noticesMissed = r.noticesMissed) : HoldsNothing (s.modPort p f) q = HoldsNothing s q := by
  refine holdsNothing_congr (fun k => slot_modPort s hx _) ?_ ?_ ?_ ?_ rfl rfl rfl <;> rw [port_modPort] <;> split
  · exact hq _
  · rfl
  · exact hd _
  · rfl
  · exact hl _
  · rfl
  · exact hn _
  · rfl

theorem holdsNothing_pool : PoolBlind fun s => HoldsNothing s q :=
  ⟨fun s _ _ => holdsNothing_congr (s := s) (fun _ => rfl) rfl rfl rfl rfl rfl rfl rfl⟩

/-- A slot in use belongs to a port that holds something. -/
theorem HoldsNothing.owner_ne (h : HoldsNothing s q) {x : SlotName} (hx : (s.slot x).state ≠ .empty) : x.owner ≠ q := by
  obtain ⟨p, k⟩ := x
  rintro rfl
  exact hx (by rw [h.slots k]; rfl)

theorem HoldsNothing.modSlot_ne {x : SlotName} (f : Slot → Slot) (hx : x.owner ≠ q) :
    HoldsNothing (s.modSlot x f) q = HoldsNothing s q := HoldsNothing.modPort_ne _ hx

theorem holdsNothing_order (o : List SlotName) (h : HoldsNothing s q) : HoldsNothing { s with readyOrder := o } q :=
  (holdsNothing_congr (s := s) (t := { s with readyOrder := o }) (fun _ => rfl) rfl rfl rfl rfl rfl rfl rfl).mpr h

theorem HoldsNothing.finishSlot {x : SlotName} (c : Completion) (hx : x.owner ≠ q) (h : HoldsNothing s q) :
    HoldsNothing (finishSlot x c s) q := by
  unfold Machine.finishSlot; dsimp only
  have released : HoldsNothing (releaseBuffer (s.slot x).buffer s) q := (see_releaseBuffer holdsNothing_pool _ _).mpr h
  generalize releaseBuffer (s.slot x).buffer s = u at released
  have changed := (HoldsNothing.modSlot_ne (s := u) (fun k => { k with state := .done, buffer := none
                                                                       pending := PortSet.none, status := some c
                                                                       deadline := .stopped }) hx).mpr released
  exact holdsNothing_order _ changed

theorem HoldsNothing.emptySlot {x : SlotName} (h : HoldsNothing s q) : HoldsNothing (emptySlot x s) q := by
  have port : ((Machine.emptySlot x s).port q).unslotted = (s.port q).unslotted :=
    see_emptySlot (unslotted_poolBlind q) (unslotted_slotBlind q) x s
  have rest := PortRecord.eq_of_unslotted port
  have tables : (Machine.emptySlot x s).subscriptions = s.subscriptions ∧ (Machine.emptySlot x s).fetches = s.fetches ∧
      (Machine.emptySlot x s).topics = s.topics :=
    ⟨see_emptySlot (see := State.subscriptions) ⟨fun _ _ _ => rfl⟩ ⟨fun _ _ _ => rfl, fun _ _ => rfl⟩ x s,
      see_emptySlot (see := State.fetches) ⟨fun _ _ _ => rfl⟩ ⟨fun _ _ _ => rfl, fun _ _ => rfl⟩ x s,
      see_emptySlot (see := State.topics) ⟨fun _ _ _ => rfl⟩ ⟨fun _ _ _ => rfl, fun _ _ => rfl⟩ x s⟩
  obtain ⟨hsub, hf, ht⟩ := tables
  refine (holdsNothing_congr (fun k => ?_) ?_ ?_ ?_ ?_ hsub hf ht).mpr h
  · rw [slot_emptySlot]; split <;> [exact (h.slots k).symm; rfl]
  all_goals rw [rest]

/-- A fetch of another port, or none, takes the place of an entry. -/
theorem HoldsNothing.setFetch {j : FetchId} {e : Option WaitingFetch} (he : ∀ f, e = some f → f.requester ≠ q)
    (h : HoldsNothing s q) : HoldsNothing (s.setFetch j e) q :=
  { h with
    fetches := fun i f hi => by
      rw [fetch_setFetch] at hi
      split at hi <;> [exact he f hi; exact h.fetches i f hi] }

/-- A record changes without becoming one of the port. -/
theorem HoldsNothing.modTopic {i : RecordNo} {f : TopicRecord → TopicRecord}
    (hf : (f (s.topic i)).state = .declared → (f (s.topic i)).producer ≠ some q) (h : HoldsNothing s q) :
    HoldsNothing (s.modTopic i f) q :=
  { h with
    topics := fun j hj => by
      rw [topic_modTopic] at hj ⊢
      split
      · next e => rw [if_pos e] at hj; subst e; exact hf hj
      · next e => rw [if_neg e] at hj; exact h.topics j hj }

theorem HoldsNothing.placeAnswer {p : Port} {d : Delivery} (hp : p ≠ q) (h : HoldsNothing s q) :
    HoldsNothing (placeAnswer p d s) q := by
  unfold Machine.placeAnswer appendDelivery appendDeferral
  split <;> exact (HoldsNothing.modPort_ne _ hp).mpr h

theorem HoldsNothing.giveAnswer {p : Port} {d : Delivery} (hp : p ≠ q) (h : HoldsNothing s q) :
    HoldsNothing (giveAnswer p d s) q :=
  HoldsNothing.placeAnswer hp ((see_takePayload holdsNothing_pool _ _).mpr h)

theorem HoldsNothing.answerAll {d : Delivery} (h : HoldsNothing s q) : HoldsNothing (answerAll d s) q :=
  answerAll_keeps (P := fun u => HoldsNothing u q) (fun _ j f hj _ hu =>
    (HoldsNothing.giveAnswer (hu.fetches j f hj) hu).setFetch nofun) h

/-- The port governs no topic, for it owns no entry. -/
theorem HoldsNothing.governing_ne {p : Port} {i : SubIndex} {selects : Subscription → Bool} (h : HoldsNothing s q)
    (hs : ∀ e, selects e = true → e.active = true) (hg : governing s p selects = some i) : p ≠ q := by
  have found := ((find?_finRange_eq_some _ i).mp hg).1
  rw [Bool.and_eq_true, beq_iff_eq] at found
  rintro rfl
  exact h.subscriptions i (hs _ found.2) found.1

theorem active_of_matchesNotice {e : Subscription} {w : Word} {r : Option Port} (h : e.matchesNotice w r = true) :
    e.active = true := by
  unfold Subscription.matchesNotice at h
  simp only [Bool.and_eq_true] at h
  exact h.1.1.1

theorem active_of_matchesPost {e : Subscription} {w : Word} {r : Port} (h : e.matchesPost w r = true) :
    e.active = true := by
  unfold Subscription.matchesPost at h
  simp only [Bool.and_eq_true] at h
  exact h.1.1

theorem HoldsNothing.issueNotices {w v : Word} {r : Option Port} (h : HoldsNothing s q) :
    HoldsNothing (issueNotices w v r s) q := by
  refine issueNotices_keeps (P := fun u => HoldsNothing u q) (fun u p i hg hu => ?_) h
  have hp := hu.governing_ne (fun _ => active_of_matchesNotice) hg
  unfold placeNotice appendDelivery
  split <;> exact (HoldsNothing.modPort_ne _ hp).mpr hu

theorem HoldsNothing.placePost {x : SlotName} {p : Port} {i : SubIndex} {latest : Bool} (hp : p ≠ q)
    (h : HoldsNothing s q) : HoldsNothing (placePost x p i latest s).1 q := by
  have port {u : State} {f : PortRecord → PortRecord} (hu : HoldsNothing u q) : HoldsNothing (u.modPort p f) q :=
    (HoldsNothing.modPort_ne _ hp).mpr hu
  have taken : HoldsNothing (takePayload (s.slot x).value s) q := (see_takePayload holdsNothing_pool _ _).mpr h
  unfold Machine.placePost appendDelivery appendDeferral; dsimp only
  split
  · split
    · exact (see_releasePayload holdsNothing_pool _ _).mpr (port taken)
    · split <;> [exact port taken; exact port h]
  · exact port h

theorem HoldsNothing.placeAll {x : SlotName} {w : Word} (h : HoldsNothing s q) : HoldsNothing (placeAll x w s).state q :=
  placeAll_keeps (P := fun u => HoldsNothing u q) (fun _ _ _ hg hu =>
    HoldsNothing.placePost (hu.governing_ne (fun _ => active_of_matchesPost) hg) hu) h

/-- A port without solicits has none when some go. -/
theorem HoldsNothing.fewerSolicits {p : Port} {g : PortRecord → List Word} (hg : ∀ r, r.solicits = [] → g r = [])
    (h : HoldsNothing s q) : HoldsNothing (s.modPort p fun r => { r with solicits := g r }) q := by
  by_cases hp : p = q
  · subst hp
    refine (holdsNothing_congr (s := s) (fun k => slot_modPort s (fun _ => by rfl) _) ?_ ?_ ?_ ?_ rfl rfl rfl).mpr h <;>
      rw [port_modPort_same]
    exact (hg _ h.solicits).trans h.solicits.symm
  · exact (HoldsNothing.modPort_ne _ hp).mpr h

theorem HoldsNothing.removeSolicit {p : Port} {w : Word} (h : HoldsNothing s q) :
    HoldsNothing (removeSolicit p w s) q :=
  h.fewerSolicits (g := fun r => r.solicits.filter (· != w)) fun _ hr => by rw [hr]; rfl

theorem HoldsNothing.dropIdleSolicit {w : Word} (h : HoldsNothing s q) : HoldsNothing (dropIdleSolicit w s) q := by
  unfold Machine.dropIdleSolicit
  split
  · split
    · exact h
    · split
      · exact h
      · exact HoldsNothing.removeSolicit h
  · exact h

theorem HoldsNothing.freeRecord {i : RecordNo} (h : HoldsNothing s q) : HoldsNothing (freeRecord i s) q := by
  rw [freeRecord_eq]
  exact (see_releasePayload holdsNothing_pool _ _).mpr (h.modTopic (f := fun _ => TopicRecord.reset) nofun)

theorem HoldsNothing.retireRecord {p : Port} {i : RecordNo} (h : HoldsNothing s q) :
    HoldsNothing (retireRecord p i s) q := by
  unfold Machine.retireRecord; dsimp only
  exact h.answerAll.removeSolicit.freeRecord

theorem HoldsNothing.orphanRecord {p : Port} {i : RecordNo} (h : HoldsNothing s q) :
    HoldsNothing (orphanRecord p i s) q := by
  cases hv : (s.topic i).retained with
  | none => rw [orphanRecord_none p hv]; exact h.answerAll.removeSolicit.freeRecord
  | some v =>
    rw [orphanRecord_some p (by rw [hv]; rfl)]
    refine HoldsNothing.issueNotices (HoldsNothing.modTopic ?_ h.answerAll.removeSolicit)
    exact fun e => nomatch e

theorem subscription_freeSubscriptionsOf (p : Port) (s : State) (i : SubIndex) :
    (freeSubscriptionsOf p s).subscription i =
      if (s.subscription i).ownedBy p then Subscription.reset else s.subscription i :=
  getElem_updateAll ..

theorem HoldsNothing.leaveEffects {p : Port} (h : HoldsNothing s q) : HoldsNothing (leaveEffects p s) q := by
  unfold Machine.leaveEffects
  have slots : HoldsNothing (leaveSlots p s) q :=
    leaveSlots_keeps (P := fun u => HoldsNothing u q) (fun _ _ _ _ hu => hu.emptySlot)
      (fun _ _ _ hx hu => hu.finishSlot _ (hu.owner_ne (by rw [hx]; exact nofun))) h
  generalize leaveSlots p s = u at slots
  have freed : HoldsNothing (freeSubscriptionsOf p u) q :=
    { slots with
      subscriptions := fun i hi ho => by
        rw [subscription_freeSubscriptionsOf] at hi ho
        by_cases hn : ((u.subscription i).ownedBy p) = true
        · rw [if_pos hn] at hi; exact absurd hi Bool.false_ne_true
        · rw [if_neg hn] at hi ho; exact slots.subscriptions i hi ho }
  generalize freeSubscriptionsOf p u = u at freed
  have removed : HoldsNothing (removeFetches p u) q := removeFetches_keeps (P := fun u => HoldsNothing u q)
    (fun u j f _ _ hu => HoldsNothing.dropIdleSolicit (HoldsNothing.setFetch (j := j) (e := none) nofun hu)) freed
  generalize removeFetches p u = v at removed
  have orphaned : HoldsNothing (orphanTopics p v) q := orphanTopics_keeps (P := fun u => HoldsNothing u q)
    (fun _ _ _ _ hu => hu.orphanRecord) removed
  generalize orphanTopics p v = w at orphaned
  exact orphaned.fewerSolicits (g := fun _ => []) fun _ _ => rfl

theorem HoldsNothing.endDeferred {x : SlotName} {c : Completion} (hx : x.owner ≠ q) (h : HoldsNothing s q) :
    HoldsNothing (endDeferred x c s) q := by
  have deleted : HoldsNothing (deleteEntries x s) q := by
    refine foldl_keeps (P := fun u => HoldsNothing u q) _ (fun u p _ hu => ?_) h
    unfold deleteEntryAt
    split
    · by_cases hp : p = q
      · subst hp
        refine (holdsNothing_congr (s := u) (fun k => slot_modPort u (fun _ => by rfl) _) ?_ ?_ ?_ ?_ rfl rfl rfl).mpr hu <;>
          rw [port_modPort_same]
        rw [hu.deferral]; rfl
      · exact (HoldsNothing.modPort_ne _ hp).mpr hu
    · exact hu
  unfold Machine.endDeferred; dsimp only
  generalize deleteEntries x s = u at deleted
  exact HoldsNothing.finishSlot c hx ((HoldsNothing.modSlot_ne _ hx).mpr deleted)

theorem HoldsNothing.serveSlot {x : SlotName} {p : Port} (hx : x.owner ≠ q) (h : HoldsNothing s q) :
    HoldsNothing (serveSlot x p s).1 q :=
  serveSlot_keeps (P := fun u => HoldsNothing u q) (fun _ hu => (HoldsNothing.modSlot_ne _ hx).mpr hu)
    (fun _ _ hu => hu.finishSlot _ hx) h

end vacancy

end Sys2Proof.Machine
end

