-- ==== Sys2Proof/Proofs/SessionLaw.lean ====
section
/-! The law of the sessions (O60). In the midst of an event a LEAVING port drains a DEFERRED slot or stands among the
reports to come; the session controller handles them all, for it handles no more reports than slots were DEFERRED. -/
namespace Sys2Proof.Machine
set_option Elab.async false

/-! ## The law in the midst of an event -/

/-- The port has no session. -/
def Closed (s : State) (q : Port) : Prop := (s.port q).state = .offline ∨ (s.port q).state = .quarantined

/-- The port owns no subscription. -/
def Unsubscribed (s : State) (q : Port) : Prop := ∀ i, (s.subscription i).active = true → (s.subscription i).owner ≠ q

/-- The port is among the reports to come, or drains a slot. -/
def Drains (l : List Port) (s : State) (q : Port) : Prop := q ∈ l ∨ ∃ k, (s.slot ⟨q, k⟩).state = .deferred

/-- The law of the sessions with the reports to come, in which the port `p` is about to be torn down. -/
structure SessionHolds (p : Option Port) (l : List Port) (s : State) : Prop where
  closed : ∀ q, Closed s q → HoldsNothing s q
  unsubscribed : ∀ q, (s.port q).state = .leaving → p ≠ some q → Unsubscribed s q
  drains : ∀ q, (s.port q).state = .leaving → p ≠ some q → Drains l s q

theorem drains_nil {s : State} {q : Port} : Drains [] s q ↔ ∃ k, (s.slot ⟨q, k⟩).state = .deferred := by simp [Drains]

theorem sessionLaw_iff {s : State} : SessionLaw s ↔ SessionHolds none [] s :=
  ⟨fun h => ⟨h.closed, fun q hq _ => h.leavingSubscriptions q hq, fun q hq _ => drains_nil.mpr (h.draining q hq)⟩,
    fun h => ⟨h.closed, fun q hq => h.unsubscribed q hq nofun, fun q hq => drains_nil.mp (h.drains q hq nofun)⟩⟩

section kept
variable {s t : State} {p : Option Port} {l : List Port}

/-- An event that keeps the states of the ports. -/
theorem sessionHolds_kept (hs : ∀ q, (t.port q).state = (s.port q).state)
    (hc : ∀ q, Closed s q → HoldsNothing s q → HoldsNothing t q)
    (hu : ∀ q, (s.port q).state = .leaving → Unsubscribed s q → Unsubscribed t q)
    (hd : ∀ x, p ≠ some x.owner → (s.slot x).state = .deferred → (t.slot x).state = .deferred ∨ x.owner ∈ l)
    (h : SessionHolds p [] s) : SessionHolds p l t where
  closed q hq := by
    unfold Closed at hq; rw [hs] at hq; exact hc q hq (h.closed q hq)
  unsubscribed q hq hp := by rw [hs] at hq; exact hu q hq (h.unsubscribed q hq hp)
  drains q hq hp := by
    rw [hs] at hq
    obtain ⟨k, hk⟩ := drains_nil.mp (h.drains q hq hp)
    exact (hd ⟨q, k⟩ hp hk).elim (fun hk => .inr ⟨k, hk⟩) .inl

theorem sessionLaw_kept (hs : ∀ q, (t.port q).state = (s.port q).state)
    (hc : ∀ q, Closed s q → HoldsNothing s q → HoldsNothing t q)
    (hu : ∀ q, (s.port q).state = .leaving → Unsubscribed s q → Unsubscribed t q)
    (hd : ∀ x, (s.slot x).state = .deferred → (t.slot x).state = .deferred) (h : SessionLaw s) : SessionLaw t :=
  sessionLaw_iff.mpr (sessionHolds_kept hs hc hu (fun x _ hx => .inl (hd x hx)) (sessionLaw_iff.mp h))

theorem Unsubscribed.of_eq {q : Port} (h : t.subscriptions = s.subscriptions) (hu : Unsubscribed s q) :
    Unsubscribed t q := fun i => by
  have e : t.subscription i = s.subscription i := by unfold State.subscription; rw [h]
  rw [e]; exact hu i

end kept

theorem subscriptions_pool : PoolBlind State.subscriptions := ⟨fun _ _ _ => rfl⟩
theorem subscriptions_slots : SlotBlind State.subscriptions := ⟨fun _ _ _ => rfl, fun _ _ => rfl⟩
theorem subscriptions_queues : QueueBlind State.subscriptions := ⟨fun _ _ _ => rfl, fun _ _ _ => rfl, fun _ _ _ => rfl⟩
theorem subscriptions_solicits : SolicitBlind State.subscriptions := ⟨fun _ _ _ => rfl⟩
theorem subscriptions_cursors : CursorBlind State.subscriptions := ⟨fun _ _ _ => rfl⟩
theorem subscriptions_sessions : SessionBlind State.subscriptions := ⟨fun _ _ _ => rfl, fun _ _ _ => rfl, fun _ _ => rfl⟩
theorem subscriptions_topics : TopicBlind State.subscriptions := ⟨fun _ _ _ => rfl⟩
theorem subscriptions_fetches : FetchBlind State.subscriptions := ⟨fun _ _ _ => rfl⟩

/-! ## Teardowns -/

/-- All that a port holds beside its slots, its queue and its deferral list is gone. -/
structure Relieved (s : State) (p : Port) : Prop where
  subscriptions : Unsubscribed s p
  fetches : ∀ j f, s.fetch j = some f → f.requester ≠ p
  solicits : (s.port p).solicits = []
  topics : ∀ i, (s.topic i).state = .declared → (s.topic i).producer ≠ some p

/-- A port that does not count as present in the directory is relieved when it owns no subscription. -/
theorem relieved_of_absent {present : Port → Prop} {s : State} {p : Port} (h : DirectoryHolds present s)
    (hp : ¬ present p) (hu : Unsubscribed s p) : Relieved s p where
  subscriptions := hu
  fetches j f hj e := hp (e ▸ (h.fetches j f hj).1)
  solicits := by
    refine List.eq_nil_iff_forall_not_mem.mpr fun w hw => ?_
    obtain ⟨⟨i, hi, -, hpi⟩, -⟩ := h.solicits p w hw
    exact hp (h.producers i p hi hpi)
  topics i hi hpi := hp (h.producers i p hi hpi)

section teardown
variable {s : State} {p : Port}

theorem subscriptions_teardown (b : Bool) (p : Port) (s : State) :
    (teardown b p s).1.subscriptions = s.subscriptions :=
  see_teardown subscriptions_queues subscriptions_pool subscriptions_slots subscriptions_cursors subscriptions_sessions b p s

theorem fetches_teardown (b : Bool) (p : Port) (s : State) : (teardown b p s).1.fetches = s.fetches :=
  see_teardown (see := State.fetches) ⟨fun _ _ _ => rfl, fun _ _ _ => rfl, fun _ _ _ => rfl⟩ ⟨fun _ _ _ => rfl⟩
    ⟨fun _ _ _ => rfl, fun _ _ => rfl⟩ ⟨fun _ _ _ => rfl⟩ ⟨fun _ _ _ => rfl, fun _ _ _ => rfl, fun _ _ => rfl⟩ b p s

theorem topics_teardown (b : Bool) (p : Port) (s : State) : (teardown b p s).1.topics = s.topics :=
  see_teardown (see := State.topics) ⟨fun _ _ _ => rfl, fun _ _ _ => rfl, fun _ _ _ => rfl⟩ ⟨fun _ _ _ => rfl⟩
    ⟨fun _ _ _ => rfl, fun _ _ => rfl⟩ ⟨fun _ _ _ => rfl⟩ ⟨fun _ _ _ => rfl, fun _ _ _ => rfl, fun _ _ => rfl⟩ b p s

/-- A port that is torn down holds nothing (R123). -/
theorem holdsNothing_teardown (b : Bool) (hx : SlotLaw s) (hr : Relieved s p) : HoldsNothing (teardown b p s).1 p := by
  have port := port_teardown b p p s
  rw [if_pos rfl] at port
  have subscription (i : SubIndex) : (teardown b p s).1.subscription i = s.subscription i := by
    unfold State.subscription; rw [subscriptions_teardown]
  have fetch (j : FetchId) : (teardown b p s).1.fetch j = s.fetch j := by unfold State.fetch; rw [fetches_teardown]
  have topic (i : RecordNo) : (teardown b p s).1.topic i = s.topic i := by unfold State.topic; rw [topics_teardown]
  have slot (k : SlotNo) := (slot_teardown hx b p ⟨p, k⟩).trans (if_pos rfl)
  generalize (teardown b p s).1 = t at port subscription fetch topic slot
  refine ⟨fun i => ?_, slot, by rw [port]; rfl, by rw [port]; rfl, fun j => ?_, ?_, fun i => ?_, by rw [port]; rfl⟩
  · rw [subscription]; exact hr.subscriptions i
  · rw [fetch]; exact hr.fetches j
  · rw [port]; exact hr.solicits
  · rw [topic]; exact hr.topics i

/-- A port that holds nothing keeps nothing when another is torn down. -/
theorem HoldsNothing.teardown {q : Port} (b : Bool) (hp : p ≠ q) (hx : SlotLaw s) (h : HoldsNothing s q) :
    HoldsNothing (teardown b p s).1 q := by
  have port := port_teardown b p q s
  rw [if_neg hp] at port
  have slot (k : SlotNo) : (Machine.teardown b p s).1.slot ⟨q, k⟩ = s.slot ⟨q, k⟩ := by
    rw [slot_teardown hx, if_neg (Ne.symm hp), h.slots k]
    unfold Slot.outlived
    rw [if_neg]
    change ¬ PortSet.none.has p = true
    rw [PortSet.has_none]; exact nofun
  have subs := subscriptions_teardown b p s
  have fetches := fetches_teardown b p s
  have topics := topics_teardown b p s
  generalize (Machine.teardown b p s).1 = t at port slot subs fetches topics
  exact (holdsNothing_congr slot (by rw [port]) (by rw [port]) (by rw [port]) (by rw [port]) subs fetches topics).mpr h

/-- The port about to be torn down is, and the reports of the slots that end are to come. -/
theorem sessionHolds_teardown {b : Bool} {l : List Port} (hx : SlotLaw s) (hr : Relieved s p)
    (h : SessionHolds (some p) l s) : SessionHolds none (l ++ (teardown b p s).2) (teardown b p s).1 := by
  have state (q : Port) := state_teardown b p q s
  have leaving {q : Port} (hq : ((teardown b p s).1.port q).state = .leaving) : p ≠ q ∧ (s.port q).state = .leaving := by
    rw [state] at hq
    split at hq
    · split at hq <;> cases hq
    · next e => exact ⟨e, hq⟩
  refine ⟨fun q hq => ?_, fun q hq _ => ?_, fun q hq _ => ?_⟩
  · by_cases e : p = q
    · subst e; exact holdsNothing_teardown b hx hr
    · unfold Closed at hq
      rw [state, if_neg e] at hq
      exact (h.closed q hq).teardown b e hx
  · exact (h.unsubscribed q (leaving hq).2 fun e => (leaving hq).1 (Option.some.inj e)).of_eq (subscriptions_teardown b p s)
  · obtain ⟨hne, hq⟩ := leaving hq
    rcases h.drains q hq (fun e => hne (Option.some.inj e)) with hl | ⟨k, hk⟩
    · exact .inl (List.mem_append_left _ hl)
    · have slot := slot_teardown hx b p ⟨q, k⟩
      rw [if_neg (Ne.symm hne)] at slot
      unfold Slot.outlived at slot
      by_cases hp : (s.slot ⟨q, k⟩).pending.has p = true
      · rw [if_pos hp] at slot
        by_cases hn : (s.slot ⟨q, k⟩).pending.erase p = PortSet.none
        · exact .inl (List.mem_append_right _ ((mem_reports_teardown hx).mpr ⟨⟨q, k⟩, rfl, hp, hn⟩))
        · exact .inr ⟨k, by rw [slot, Slot.state_failed, if_neg hn]; exact hk⟩
      · rw [if_neg hp] at slot
        exact .inr ⟨k, by rw [slot]; exact hk⟩

theorem sessionHolds_torn {b : Bool} (hx : SlotLaw s) (hr : Relieved s p) (h : SessionHolds (some p) [] s) :
    SessionHolds none (teardown b p s).2 (teardown b p s).1 := by
  have torn := sessionHolds_teardown (b := b) hx hr h
  rwa [List.nil_append] at torn

theorem relieved_of_leaving (hp : (s.port p).state = .leaving) (hd : DirectoryLaw s) (hu : Unsubscribed s p) :
    Relieved s p := relieved_of_absent (directoryLaw_iff.mp hd) (not_online_of_leaving hp) hu

/-- The reports that an event brought are all handled, and the law holds behind them. -/
theorem sessionLaw_handleReports {n : Nat} {l : List Port} (hn : l.length + deferredTotal s ≤ n) (hx : SlotLaw s)
    (hd : DirectoryLaw s) (h : SessionHolds none l s) : SessionLaw (handleReports n l s) := by
  induction n generalizing l s with
  | zero =>
    have nil : l = [] := List.eq_nil_of_length_eq_zero (by omega)
    subst nil
    exact sessionLaw_iff.mpr h
  | succ n ih =>
    cases l with
    | nil => exact sessionLaw_iff.mpr h
    | cons q l =>
      rw [List.length_cons] at hn
      rw [handleReports]
      by_cases he : drainEnded s q = true
      · obtain ⟨hq, hnone⟩ := (drainEnded_iff s q).mp he
        rw [if_pos he]; dsimp only
        have total := deferredTotal_teardown hx false q
        have except : SessionHolds (some q) l s := ⟨h.closed, fun r hr _ => h.unsubscribed r hr nofun, fun r hr hne => by
          rcases h.drains r hr nofun with hm | hk
          · exact .inl ((List.mem_cons.mp hm).resolve_left fun e => hne (by rw [e]))
          · exact .inr hk⟩
        have torn := sessionHolds_teardown (b := false) hx (relieved_of_leaving hq hd (h.unsubscribed q hq nofun)) except
        exact ih (by rw [List.length_append]; omega) (slotLaw_teardown hnone hx)
          (directoryLaw_teardown (not_online_of_leaving hq) hd) torn
      · rw [if_neg he]
        refine ih (by omega) hx hd ⟨h.closed, h.unsubscribed, fun r hr _ => ?_⟩
        rcases h.drains r hr nofun with hm | hk
        · rcases List.mem_cons.mp hm with rfl | hm
          · refine .inr (by_contra fun hno => he ((drainEnded_iff s r).mpr ⟨hr, fun k hk => hno ⟨k, hk⟩⟩))
          · exact .inl hm
        · exact .inr hk

theorem sessionLaw_endDrains {y : State × List Port} (hn : y.2.length ≤ 48) (hx : SlotLaw y.1) (hd : DirectoryLaw y.1)
    (h : SessionHolds none y.2 y.1) : SessionLaw (endDrains y) :=
  sessionLaw_handleReports (by have := deferredTotal_le_sixteen y.1; omega) hx hd h

theorem length_reports_teardown (hx : SlotLaw s) (b : Bool) (p : Port) : (teardown b p s).2.length ≤ 48 := by
  have := deferredTotal_teardown hx b p
  have := deferredTotal_le_sixteen s
  omega

end teardown

/-! ## Departures -/

section departure
variable {s : State} {p : Port}

theorem slot_clearSolicits (p : Port) (s : State) (y : SlotName) : (clearSolicits p s).slot y = s.slot y := by
  unfold clearSolicits; rw [slot_modPort]; exact fun _ => rfl

theorem slot_orphanTopics (p : Port) (s : State) (y : SlotName) : (orphanTopics p s).slot y = s.slot y :=
  see_orphanTopics (queueBlind_slot y) ⟨fun _ _ _ => rfl⟩ ⟨fun _ _ _ => rfl⟩
    ⟨fun s _ _ => by rw [slot_modPort]; exact fun _ => rfl⟩ ⟨fun _ _ _ => rfl⟩ p s

/-- The LEAVE effects on the slots: those of the port are left as R54 says, and no other changes. -/
theorem slot_leaveEffects (p : Port) (s : State) (y : SlotName) :
    (leaveEffects p s).slot y = if y.owner = p then (s.slot y).left else s.slot y := by
  unfold leaveEffects
  rw [slot_clearSolicits, slot_orphanTopics, slot_removeFetches, slot_freeSubscriptionsOf, slot_leaveSlots]

theorem Slot.state_left (k : Slot) : k.left.state = .deferred ↔ k.state = .deferred := by
  unfold Slot.left; cases hs : k.state <;> simp [Slot.reset, Slot.ended, hs]

theorem deferred_leaveEffects {y : SlotName} :
    ((leaveEffects p s).slot y).state = .deferred ↔ (s.slot y).state = .deferred := by
  rw [slot_leaveEffects]; split <;> [exact Slot.state_left _; exact Iff.rfl]

theorem subscriptions_leaveEffects (p : Port) (s : State) :
    (leaveEffects p s).subscriptions = (freeSubscriptionsOf p s).subscriptions := by
  unfold leaveEffects clearSolicits
  rw [subscriptions_solicits.solicits _ p fun _ => [],
    see_orphanTopics subscriptions_queues subscriptions_pool subscriptions_fetches subscriptions_solicits subscriptions_topics,
    see_removeFetches subscriptions_solicits subscriptions_fetches]
  exact congrArg (updateAll · _) (see_leaveSlots subscriptions_pool subscriptions_slots p s)

theorem subscription_leaveEffects (p : Port) (s : State) (i : SubIndex) : (leaveEffects p s).subscription i =
    if (s.subscription i).ownedBy p then Subscription.reset else s.subscription i := by
  rw [← subscription_freeSubscriptionsOf]
  unfold State.subscription
  rw [subscriptions_leaveEffects]

/-- The LEAVE effects take the subscriptions of the port, and give none (R35). -/
theorem unsubscribed_leaveEffects {q : Port} (h : p = q ∨ Unsubscribed s q) : Unsubscribed (leaveEffects p s) q := by
  intro i hi
  rw [subscription_leaveEffects] at hi ⊢
  by_cases ho : (s.subscription i).ownedBy p = true
  · rw [if_pos ho] at hi; cases hi
  · rw [if_neg ho] at hi ⊢
    rcases h with rfl | h
    · intro e; exact ho (by unfold Subscription.ownedBy; rw [hi, e]; simp)
    · exact h i hi

/-- The LEAVE effects keep the law, but for the port that departs. -/
theorem sessionHolds_leaveEffects (h : SessionHolds (some p) [] s) : SessionHolds (some p) [] (leaveEffects p s) :=
  sessionHolds_kept (fun _ => state_leaveEffects ..) (fun _ _ hq => hq.leaveEffects)
    (fun _ _ hq => unsubscribed_leaveEffects (.inr hq)) (fun _ _ hx => .inl (deferred_leaveEffects.mpr hx)) h

theorem SessionHolds.except (h : SessionHolds none [] s) : SessionHolds (some p) [] s :=
  ⟨h.closed, fun q hq _ => h.unsubscribed q hq nofun, fun q hq _ => h.drains q hq nofun⟩

/-- The law sees of a port's record what it holds and its state. -/
theorem sessionHolds_modPort {o : Option Port} {l : List Port} {f : PortRecord → PortRecord}
    (hs : ∀ r, (f r).state = r.state) (hx : ∀ r, (f r).slots = r.slots)
    (hq : ∀ r, (f r).queue = r.queue) (hd : ∀ r, (f r).deferral = r.deferral) (hl : ∀ r, (f r).solicits = r.solicits)
    (hn : ∀ r, (f r).noticesMissed = r.noticesMissed) (h : SessionHolds o l s) : SessionHolds o l (s.modPort p f) := by
  have state (q : Port) : ((s.modPort p f).port q).state = (s.port q).state := by
    rw [port_modPort]; split <;> [exact hs _; rfl]
  refine ⟨fun q hc => ?_, fun q hq hp => ?_, fun q hq hp => ?_⟩
  · unfold Closed at hc; rw [state] at hc
    rw [HoldsNothing.modPort hx hq hd hl hn]; exact h.closed q hc
  · rw [state] at hq; exact h.unsubscribed q hq hp
  · rw [state] at hq
    exact (h.drains q hq hp).imp_right fun ⟨k, hk⟩ => ⟨k, by rw [slot_modPort s hx]; exact hk⟩

theorem sessionLaw_modPort {f : PortRecord → PortRecord} (hs : ∀ r, (f r).state = r.state)
    (hx : ∀ r, (f r).slots = r.slots) (hq : ∀ r, (f r).queue = r.queue) (hd : ∀ r, (f r).deferral = r.deferral)
    (hl : ∀ r, (f r).solicits = r.solicits) (hn : ∀ r, (f r).noticesMissed = r.noticesMissed) (h : SessionLaw s) :
    SessionLaw (s.modPort p f) :=
  sessionLaw_iff.mpr (sessionHolds_modPort hs hx hq hd hl hn (sessionLaw_iff.mp h))

/-- The port moves to another state without anything held changing. -/
theorem sessionHolds_moved {o : Option Port} {f : PortRecord → PortRecord} (hx : ∀ r, (f r).slots = r.slots)
    (hq : ∀ r, (f r).queue = r.queue) (hd : ∀ r, (f r).deferral = r.deferral) (hl : ∀ r, (f r).solicits = r.solicits)
    (hn : ∀ r, (f r).noticesMissed = r.noticesMissed)
    (hc : (f (s.port p)).state = .offline ∨ (f (s.port p)).state = .quarantined → Closed s p)
    (hv : (f (s.port p)).state = .leaving → o = some p) (h : SessionHolds o [] s) :
    SessionHolds o [] (s.modPort p f) := by
  refine ⟨fun q hq' => ?_, fun q hq' hp => ?_, fun q hq' hp => ?_⟩
  · rw [HoldsNothing.modPort hx hq hd hl hn]
    refine h.closed q ?_
    by_cases e : p = q
    · subst e
      unfold Closed at hq'; rw [port_modPort_same] at hq'
      exact hc hq'
    · unfold Closed at hq' ⊢; rw [port_modPort_ne _ _ e] at hq'; exact hq'
  · by_cases e : p = q
    · subst e; rw [port_modPort_same] at hq'; exact absurd (hv hq') hp
    · rw [port_modPort_ne _ _ e] at hq'; exact h.unsubscribed q hq' hp
  · by_cases e : p = q
    · subst e; rw [port_modPort_same] at hq'; exact absurd (hv hq') hp
    · rw [port_modPort_ne _ _ e] at hq'
      exact (h.drains q hq' hp).imp_right fun ⟨k, hk⟩ => ⟨k, by rw [slot_modPort s hx]; exact hk⟩

end departure

end Sys2Proof.Machine
end

