-- ==== Sys2Proof/Proofs/SessionEvents.lean ====
section
/-! The law of the sessions under every event (O60). -/
namespace Sys2Proof.Machine
set_option Elab.async false

section sessions
variable {s : State} {p : Port}

theorem PortRecord.state_of_standing {r r' : PortRecord} (h : r.standing = r'.standing) : r.state = r'.state :=
  (congrArg PortRecord.state h :)

/-! ## LEAVE and quarantine -/

/-- The law of the directory once a LEAVE has had its effects on the port, LEAVING by then. -/
theorem directoryLaw_leaving (h : DirectoryLaw s) :
    DirectoryLaw (leaveEffects p (s.modPort p fun r => { r with state := .leaving })) := by
  have leaving : DirectoryHolds (Online s) (s.modPort p fun r => { r with state := .leaving }) := by
    rw [directoryHolds_modPort_eq]
    · exact directoryLaw_iff.mp h
    all_goals exact fun _ => rfl
  refine directoryLaw_of_holds (fun q hq => ?_) (directoryHolds_leaveEffects leaving)
  unfold Online
  rw [state_leaveEffects, port_modPort_ne _ _ (Ne.symm hq.2)]; exact hq.1

theorem slotLaw_leaving (h : SlotLaw s) :
    SlotLaw (leaveEffects p (s.modPort p fun r => { r with state := .leaving })) := by
  refine slotLaw_leaveEffects ?_
  rw [slotLaw_modPort_eq]
  · exact h
  all_goals exact fun _ => rfl

/-- The law but for the port that leaves, once the LEAVE has had its effects. -/
theorem sessionHolds_leaving (h : SessionLaw s) :
    SessionHolds (some p) [] (leaveEffects p (s.modPort p fun r => { r with state := .leaving })) := by
  refine sessionHolds_leaveEffects (sessionHolds_moved (fun _ => rfl) (fun _ => rfl) (fun _ => rfl) (fun _ => rfl)
    (fun _ => rfl) (fun e => ?_) (fun _ => rfl) (sessionLaw_iff.mp h).except)
  rcases e with e | e <;> cases e

/-- A port that is LEAVING, with nothing but its slots, its queue and its list, is torn down or drains. -/
theorem sessionLaw_departing (hp : (s.port p).state = .leaving) (hu : Unsubscribed s p) (hx : SlotLaw s)
    (hd : DirectoryLaw s) (h : SessionHolds (some p) [] s) :
    SessionLaw (if deferredSlots s p = 0 then endDrains (teardown false p s) else s) := by
  split
  · next hn =>
    have none := deferredSlots_eq_zero.mp hn
    exact sessionLaw_endDrains (length_reports_teardown hx false p) (slotLaw_teardown none hx)
      (directoryLaw_teardown (not_online_of_leaving hp) hd) (sessionHolds_torn hx (relieved_of_leaving hp hd hu) h)
  · next hn =>
    refine sessionLaw_iff.mpr ⟨h.closed, fun q hq _ => ?_, fun q hq _ => ?_⟩
    · by_cases e : p = q
      · exact e ▸ hu
      · exact h.unsubscribed q hq fun e' => e (Option.some.inj e')
    · by_cases e : p = q
      · subst e
        exact .inr (by_contra fun hno => hn (deferredSlots_eq_zero.mpr fun k hk => hno ⟨k, hk⟩))
      · exact h.drains q hq fun e' => e (Option.some.inj e')

theorem state_leaving (p : Port) (s : State) :
    ((leaveEffects p (s.modPort p fun r => { r with state := .leaving })).port p).state = .leaving := by
  rw [state_leaveEffects, port_modPort_same]

theorem sessionLaw_leavePort (hx : SlotLaw s) (hd : DirectoryLaw s) (h : SessionLaw s) : SessionLaw (leavePort p s) := by
  unfold leavePort; dsimp only
  exact sessionLaw_departing (state_leaving p s) (unsubscribed_leaveEffects (.inl rfl)) (slotLaw_leaving hx)
    (directoryLaw_leaving hd) (sessionHolds_leaving h)

theorem state_departed (p q : Port) (s : State) : ((departed p s).port q).state = (s.port q).state := by
  have e := congrArg PortRecord.state (standing_departed (p := p) (s := s) q)
  split at e <;> exact e

theorem state_endDeferred (x : SlotName) (c : Completion) (s : State) (q : Port) :
    ((endDeferred x c s).port q).state = (s.port q).state :=
  PortRecord.state_of_standing
    (see_endDeferred (standing_queueBlind q) (standing_poolBlind q) (standing_slotBlind q) x c s)

theorem state_abortDeferredSlots (p q : Port) (s : State) :
    ((abortDeferredSlots p s).port q).state = (s.port q).state :=
  PortRecord.state_of_standing (standing_abortDeferredSlots q p s)

/-- The DEFERRED slots of a port in session are aborted, and the law stands for the others. -/
theorem sessionHolds_abortDeferredSlots (hp : ¬ Closed s p) (h : SessionHolds (some p) [] s) :
    SessionHolds (some p) [] (abortDeferredSlots p s) := by
  refine (abortDeferredSlots_keeps (P := fun v => ¬ Closed v p ∧ SessionHolds (some p) [] v)
    (fun v x ho _ hv => ⟨?_, ?_⟩) ⟨hp, h⟩).2
  · unfold Closed; rw [state_endDeferred]; exact hv.1
  · refine sessionHolds_kept (state_endDeferred x .aborted v) (fun q hq hh => hh.endDeferred ?_)
      (fun q _ hu => hu.of_eq (see_endDeferred subscriptions_queues subscriptions_pool subscriptions_slots x .aborted v))
      (fun y hy hd => .inl ?_) hv.2
    · rintro rfl; exact hv.1 (ho ▸ hq)
    · rw [slot_endDeferred, if_neg]
      · exact hd
      · rintro rfl; exact hy (by rw [ho])

/-- The state of a quarantined port before its teardown: its session gone in all but its slots, queue and list. -/
theorem aborted_departed (hp : (s.port p).state = .online ∨ (s.port p).state = .leaving) (hx : SlotLaw s)
    (hd : DirectoryLaw s) (h : SessionLaw s) :
    SlotLaw (abortDeferredSlots p (departed p s)) ∧
      DirectoryHolds (fun q => Online s q ∧ q ≠ p) (abortDeferredSlots p (departed p s)) ∧
      Unsubscribed (abortDeferredSlots p (departed p s)) p ∧
      SessionHolds (some p) [] (abortDeferredSlots p (departed p s)) := by
  have cutSlots : SlotLaw (cutRequest p s) := by
    unfold cutRequest
    rw [slotLaw_modPort_eq]
    · exact hx
    all_goals exact fun _ => rfl
  have cut : SessionHolds (some p) [] (cutRequest p s) :=
    sessionHolds_modPort (fun _ => rfl) (fun _ => rfl) (fun _ => rfl) (fun _ => rfl) (fun _ => rfl) (fun _ => rfl)
      (sessionLaw_iff.mp h).except
  have departed_parts : SlotLaw (departed p s) ∧ Unsubscribed (departed p s) p ∧
      SessionHolds (some p) [] (departed p s) := by
    unfold departed
    split
    · exact ⟨slotLaw_leaveEffects cutSlots, unsubscribed_leaveEffects (.inl rfl), sessionHolds_leaveEffects cut⟩
    · next hn => exact ⟨cutSlots, h.leavingSubscriptions p (hp.resolve_left hn), cut⟩
  obtain ⟨slots, unsubscribed, sessions⟩ := departed_parts
  have open_ : ¬ Closed (departed p s) p := by
    unfold Closed; rw [state_departed]
    rcases hp with e | e <;> rw [e] <;> rintro (e | e) <;> cases e
  exact ⟨abortDeferredSlots_keeps (fun _ x _ _ hs => slotLaw_endDeferred x _ hs) slots,
    abortDeferredSlots_keeps (fun _ x _ _ hs => directoryHolds_endDeferred x _ hs) (directoryHolds_departed hd),
    unsubscribed.of_eq (see_abortDeferredSlots subscriptions_queues subscriptions_pool subscriptions_slots p _),
    sessionHolds_abortDeferredSlots open_ sessions⟩

/-- The teardown of a quarantined port, with the laws of the state it leaves. -/
theorem torn_quarantined (hp : (s.port p).state = .online ∨ (s.port p).state = .leaving) (hx : SlotLaw s)
    (hd : DirectoryLaw s) (h : SessionLaw s) :
    SlotLaw (teardown true p (abortDeferredSlots p (departed p s))).1 ∧
      DirectoryLaw (teardown true p (abortDeferredSlots p (departed p s))).1 ∧
      SessionHolds none (teardown true p (abortDeferredSlots p (departed p s))).2
        (teardown true p (abortDeferredSlots p (departed p s))).1 ∧
      (teardown true p (abortDeferredSlots p (departed p s))).2.length ≤ 48 := by
  obtain ⟨slots, directory, unsubscribed, sessions⟩ := aborted_departed hp hx hd h
  refine ⟨slotLaw_teardown (noneDeferred_abortDeferredSlots p _) slots,
    directoryLaw_of_holds (fun q hq => ?_) (directoryHolds_teardown directory),
    sessionHolds_torn slots (relieved_of_absent directory (fun e => e.2 rfl) unsubscribed) sessions,
    length_reports_teardown slots true p⟩
  unfold Online
  rw [state_teardown, if_neg (Ne.symm hq.2), state_abortDeferredSlots, state_departed]; exact hq.1

theorem sessionLaw_quarantine (hp : (s.port p).state ≠ .quarantined) (hx : SlotLaw s) (hd : DirectoryLaw s)
    (h : SessionLaw s) : SessionLaw (quarantine p s) := by
  have session (hs : (s.port p).state = .online ∨ (s.port p).state = .leaving) : SessionLaw (quarantine p s) := by
    obtain ⟨slots, directory, sessions, few⟩ := torn_quarantined hs hx hd h
    rw [quarantine_session hs]
    exact sessionLaw_modPort (fun _ => rfl) (fun _ => rfl) (fun _ => rfl) (fun _ => rfl) (fun _ => rfl) (fun _ => rfl)
      (sessionLaw_endDrains (y := teardown true p (abortDeferredSlots p (departed p s))) few slots directory sessions)
  cases hst : (s.port p).state with
  | online => exact session (.inl hst)
  | leaving => exact session (.inr hst)
  | offline =>
    rw [quarantine_offline hst]
    exact sessionLaw_iff.mpr (sessionHolds_moved (fun _ => rfl) (fun _ => rfl) (fun _ => rfl) (fun _ => rfl)
      (fun _ => rfl) (fun _ => .inl hst) (fun e => nomatch e) (sessionLaw_iff.mp h))
  | quarantined => exact absurd hst hp

/-! ## The end of a slot and the consumption -/

theorem sessionLaw_deferredEnded {x : SlotName} (c : Completion) (hs : (s.slot x).state = .deferred) (hx : SlotLaw s)
    (hd : DirectoryLaw s) (h : SessionLaw s) : SessionLaw (endDrains (endDeferred x c s, [x.owner])) := by
  have standing (q : Port) := see_endDeferred (standing_queueBlind q) (standing_poolBlind q) (standing_slotBlind q) x c s
  refine sessionLaw_endDrains (y := (endDeferred x c s, [x.owner])) (by simp) (slotLaw_endDeferred x c hx)
    (directoryLaw_of_standing standing (fun _ => directoryHolds_endDeferred x c) hd) ?_
  refine sessionHolds_kept (state_endDeferred x c s)
    (fun q _ hq => hq.endDeferred (hq.owner_ne (by rw [hs]; exact nofun)))
    (fun q _ hu => hu.of_eq (see_endDeferred subscriptions_queues subscriptions_pool subscriptions_slots x c s))
    (fun y _ hy => ?_) (sessionLaw_iff.mp h)
  by_cases e : x = y
  · exact .inr (e ▸ List.mem_singleton_self _)
  · exact .inl (by rw [slot_endDeferred, if_neg e]; exact hy)

section consumption
variable {d : Delivery} {rest : List Delivery}

theorem state_consumption (q : Port) : ((consumption p d rest s).1.port q).state = (s.port q).state := by
  have released (f : PortRecord → PortRecord) (hf : ∀ r, (f r).state = r.state) :
      (((releasePayload d.payload s).modPort p f).port q).state = (s.port q).state := by
    rw [port_modPort]; split <;> [(rw [hf, port_releasePayload]); rw [port_releasePayload]]
  unfold consumption
  split
  · split
    · exact released _ fun _ => rfl
    · exact released _ fun _ => rfl
    · have served := see_serveSlot (standing_poolBlind q) (standing_slotBlind q)
      refine (PortRecord.state_of_standing (served _ _ _)).trans ?_
      rw [port_takePayload]; exact released _ fun _ => rfl
  · exact released _ fun _ => rfl

theorem subscriptions_consumption : (consumption p d rest s).1.subscriptions = s.subscriptions := by
  have released : (releasePayload d.payload s).subscriptions = s.subscriptions := see_releasePayload subscriptions_pool _ _
  unfold consumption
  split
  · split
    · exact released
    · exact released
    · exact (see_serveSlot subscriptions_pool subscriptions_slots _ _ _).trans
        ((see_takePayload subscriptions_pool _ _).trans released)
  · exact released

theorem consumed_slots (queue : List Delivery) (entries : List DeferralEntry) (r : PortRecord) :
    (PortRecord.consumed queue entries r).slots = r.slots := rfl

/-- A consumption changes the slot of the entry it moves in, and no other. -/
theorem slot_consumption (y : SlotName) : (consumption p d rest s).1.slot y = s.slot y ∨
    ∃ i c entries, (s.port p).deferral = .slot y i c :: entries ∧
      (consumption p d rest s).1.slot y = (s.slot y).served p ∧
      (consumption p d rest s).2 = if (s.slot y).pending.erase p = PortSet.none then [y.owner] else [] := by
  have slot (f : PortRecord → PortRecord) (hf : ∀ r, (f r).slots = r.slots) (y : SlotName) :
      ((releasePayload d.payload s).modPort p f).slot y = s.slot y :=
    (slot_modPort _ hf y).trans (slot_releasePayload ..)
  unfold consumption
  split
  · split
    · exact .inl (slot _ (fun _ => by rfl) y)
    · exact .inl (slot _ (fun _ => by rfl) y)
    · next x i c entries hl =>
      by_cases e : x = y
      · subst e
        refine .inr ⟨i, c, entries, hl, ?_, ?_⟩
        · rw [slot_serveSlot, if_pos rfl, slot_takePayload, slot _ (consumed_slots _ _)]
        · rw [reports_serveSlot, slot_takePayload, slot _ (consumed_slots _ _)]
      · exact .inl (by rw [slot_serveSlot, if_neg e, slot_takePayload, slot _ (consumed_slots _ _)])
  · exact .inl (slot _ (fun _ => by rfl) y)

theorem length_reports_consumption : (consumption p d rest s).2.length ≤ 1 := by
  unfold consumption
  split
  · split
    · exact Nat.zero_le _
    · exact Nat.zero_le _
    · rw [reports_serveSlot]; split <;> simp
  · exact Nat.zero_le _

theorem HoldsNothing.consumption {q : Port} (hp : p ≠ q) (hx : SlotLaw s) (h : HoldsNothing s q) :
    HoldsNothing (consumption p d rest s).1 q := by
  have released {f : PortRecord → PortRecord} : HoldsNothing ((releasePayload d.payload s).modPort p f) q :=
    (HoldsNothing.modPort_ne _ hp).mpr ((see_releasePayload holdsNothing_pool _ _).mpr h)
  unfold Machine.consumption
  split
  · split
    · exact released
    · exact released
    · next x i c entries hl =>
      have listed : Listed (s.port p).deferral x := by rw [hl]; exact listed_cons_slot.mpr (.inl rfl)
      have deferred := hx.deferred_of_pending ((hx.listed_iff p x).mp listed)
      exact HoldsNothing.serveSlot (h.owner_ne (by rw [deferred]; exact nofun))
        ((see_takePayload holdsNothing_pool _ _).mpr released)
  · exact released

theorem sessionHolds_consumption (hq : (s.port p).queue = d :: rest) (hx : SlotLaw s) (h : SessionLaw s) :
    SessionHolds none (consumption p d rest s).2 (consumption p d rest s).1 := by
  refine sessionHolds_kept (fun q => state_consumption q) (fun q hc hh => ?_)
    (fun q _ hu => hu.of_eq subscriptions_consumption) (fun y _ hy => ?_) (sessionLaw_iff.mp h)
  · refine hh.consumption ?_ hx
    rintro rfl
    rw [hh.queue] at hq; cases hq
  · rcases slot_consumption (p := p) (d := d) (rest := rest) (s := s) y with e | ⟨_, _, _, _, e, reports⟩
    · exact .inl (by rw [e]; exact hy)
    · rw [e, reports, Slot.state_served]
      split
      · exact .inr (List.mem_singleton_self _)
      · exact .inl hy

end consumption

theorem sessionLaw_consumeHead (hq : (s.port p).queue ≠ []) (hx : SlotLaw s) (hd : DirectoryLaw s) (h : SessionLaw s) :
    SessionLaw (consumeHead p s) := by
  obtain ⟨d, rest, hq⟩ := List.exists_cons_of_ne_nil hq
  rw [consumeHead_eq hq]
  exact sessionLaw_endDrains (y := consumption p d rest s) (length_reports_consumption.trans (by omega)) (slotLaw_consumption hx)
    (directoryLaw_consumption hd) (sessionHolds_consumption hq hx h)

/-- A port with a queue changes in its queue and its cursor. -/
theorem sessionLaw_opened {f : PortRecord → PortRecord} (hq : (s.port p).queue ≠ []) (hs : ∀ r, (f r).state = r.state)
    (hx : ∀ r, (f r).slots = r.slots) (h : SessionLaw s) : SessionLaw (s.modPort p f) := by
  refine sessionLaw_kept (s := s) (fun q => ?_) (fun q _ hh => ?_) (fun q _ hu => hu) (fun x hd => ?_) h
  · rw [port_modPort]; split <;> [exact hs _; rfl]
  · exact (HoldsNothing.modPort_ne _ fun (e : p = q) => hq (e ▸ hh.queue)).mpr hh
  · rw [slot_modPort s hx]; exact hd

theorem sessionLaw_passByte (hq : (s.port p).queue ≠ []) (hx : SlotLaw s) (hd : DirectoryLaw s) (h : SessionLaw s) :
    SessionLaw (passByte p s) := by
  obtain ⟨d, rest, e⟩ := List.exists_cons_of_ne_nil hq
  by_cases hc : (s.port p).view.cursor = (s.port p).view.stop
  · cases hm : (s.port p).view.mode with
    | hold => rw [passByte_atEnd_hold e hc hm]; exact sessionLaw_opened hq (fun _ => rfl) (fun _ => rfl) h
    | advance => rw [passByte_atEnd_advance hq hc hm]; exact sessionLaw_consumeHead hq hx hd h
  · rw [passByte_within e hc]; exact sessionLaw_opened hq (fun _ => rfl) (fun _ => rfl) h

end sessions

end Sys2Proof.Machine
end

