-- ==== Sys2Proof/Proofs/SessionLawEvents.lean ====
section
/-! Every event keeps the law of the sessions (O60), with the laws of the slots and of the directory that it rests on. -/
namespace Sys2Proof.Machine
set_option Elab.async false

section
variable {s t : State}

/-- An event that keeps what stands of the ports, the subscriptions and the slots DEFERRED, and gives a closed port
nothing. -/
theorem sessionLaw_of_standing (hs : ∀ q, (t.port q).standing = (s.port q).standing)
    (hu : t.subscriptions = s.subscriptions) (hc : ∀ q, Closed s q → HoldsNothing s q → HoldsNothing t q)
    (hd : ∀ x, (s.slot x).state = .deferred → (t.slot x).state = .deferred) (h : SessionLaw s) : SessionLaw t :=
  sessionLaw_kept (fun q => PortRecord.state_of_standing (hs q)) hc (fun _ _ h => h.of_eq hu) hd h

/-- The law sees the slots, queues and tables of the blocks, and none of the rest. -/
theorem sessionLaw_of_tables (h : SessionLaw s) (hp : s.ports = t.ports) (ht : s.topics = t.topics)
    (hf : s.fetches = t.fetches) (hu : s.subscriptions = t.subscriptions) : SessionLaw t := by
  have port (p : Port) : t.port p = s.port p := by unfold State.port; rw [hp]
  have slot (x : SlotName) : t.slot x = s.slot x := by unfold State.slot; rw [port]
  refine sessionLaw_of_standing (fun q => by rw [port]) hu.symm (fun q _ hh => ?_) (fun x hx => by rw [slot]; exact hx) h
  refine (holdsNothing_congr (fun k => slot _) ?_ ?_ ?_ ?_ hu.symm hf.symm ht.symm).mpr hh <;> rw [port]

theorem sessionLaw_countPeriods (n : Nat) (h : SessionLaw s) : SessionLaw (countPeriods n s) := by
  refine sessionLaw_kept (s := s) (fun q => by rw [port_countPeriods]; rfl) (fun q _ hh => ?_) (fun q _ hu => hu)
    (fun x hx => by rw [slot_countPeriods]; exact hx) h
  refine ⟨hh.subscriptions, fun k => ?_, ?_, ?_, fun j f hj => ?_, ?_, fun i hi => ?_, ?_⟩
  · rw [slot_countPeriods, hh.slots k]; rfl
  · rw [port_countPeriods]; exact hh.queue
  · rw [port_countPeriods]; exact hh.deferral
  · rw [fetch_countPeriods] at hj
    obtain ⟨g, hg, rfl⟩ := Option.map_eq_some_iff.mp hj
    exact hh.fetches j g hg
  · rw [port_countPeriods]; exact hh.solicits
  · rw [topic_countPeriods] at hi ⊢; exact hh.topics i hi
  · rw [port_countPeriods]; exact hh.noticesMissed

theorem sessionLaw_resetDevice (straps : Vector Strap 4) (s : State) : SessionLaw (resetDevice straps s) := by
  have offline (q : Port) : ((resetDevice straps s).port q).state = .offline := by rw [port_resetDevice]; rfl
  refine ⟨fun q _ => ⟨fun i hi => ?_, fun k => slot_resetDevice straps s ⟨q, k⟩,
    ?_, ?_, fun j f hj => ?_, ?_, fun i hi => ?_, ?_⟩,
    fun q hq => ?_, fun q hq => ?_⟩
  · rw [subscription_resetDevice] at hi; cases hi
  · rw [port_resetDevice]; rfl
  · rw [port_resetDevice]; rfl
  · rw [fetch_resetDevice] at hj; cases hj
  · rw [port_resetDevice]; rfl
  · rw [topic_resetDevice] at hi; cases hi
  · rw [port_resetDevice]; rfl
  all_goals rw [offline] at hq; cases hq

theorem sessionLaw_topic {i : RecordNo} {r : TopicRecord} (hr : ∀ q, Closed s q → HoldsNothing s q →
    r.state = .declared → r.producer ≠ some q) (h : SessionLaw s) : SessionLaw (s.modTopic i fun _ => r) :=
  sessionLaw_kept (s := s) (fun _ => rfl) (fun q hq hh => hh.modTopic (hr q hq hh)) (fun _ _ hu => hu) (fun _ hx => hx) h

theorem not_closed_of_online {q : Port} (h : (s.port q).state = .online) : ¬ Closed s q := by
  unfold Closed; rw [h]; rintro (e | e) <;> cases e

/-- A slot that is not EMPTY changes, and stays DEFERRED if it was. -/
theorem sessionLaw_modSlot {x : SlotName} {f : Slot → Slot} (hx : ¬ Closed s x.owner)
    (hd : (s.slot x).state = .deferred → (f (s.slot x)).state = .deferred) (h : SessionLaw s) :
    SessionLaw (s.modSlot x f) := by
  refine sessionLaw_of_standing (s := s) (fun q => (standing_slotBlind q).slot s x f) rfl (fun q hq hh => ?_)
    (fun y hy => ?_) h
  · refine (HoldsNothing.modSlot_ne _ ?_).mpr hh
    rintro rfl; exact hx hq
  · rw [slot_modSlot]; split
    · next e => subst e; exact hd hy
    · exact hy

/-- A port with a slot in use is not closed. -/
theorem SessionLaw.not_closed (h : SessionLaw s) {x : SlotName} (hx : (s.slot x).state ≠ .empty) : ¬ Closed s x.owner :=
  fun hc => (h.closed _ hc).owner_ne hx rfl

theorem sessionLaw_buffer (b : BufferNo) (f : Buffer → Buffer) (h : SessionLaw s) : SessionLaw (s.modBuffer b f) :=
  sessionLaw_of_tables h rfl rfl rfl rfl

theorem HoldsNothing.settleSlot {q : Port} {x : SlotName} {z : Placements} (hx : x.owner ≠ q)
    (h : HoldsNothing z.state q) : HoldsNothing (settleSlot x z) q := by
  unfold Machine.settleSlot; dsimp only
  split
  · exact HoldsNothing.finishSlot _ hx ((HoldsNothing.modSlot_ne _ hx).mpr h)
  · exact (HoldsNothing.modSlot_ne _ hx).mpr ((HoldsNothing.modSlot_ne _ hx).mpr h)

theorem HoldsNothing.answeredTake {q : Port} {x : SlotName} {i : RecordNo} (hx : x.owner ≠ q) (h : HoldsNothing s q) :
    HoldsNothing (answeredTake x i s) q := by
  have stamped : HoldsNothing (stampRecord i (s.slot x).value s) q := by
    have kept (u : State) (hu : HoldsNothing u q) : HoldsNothing (u.modTopic i fun r => r.stamped (s.slot x).value) q := by
      refine hu.modTopic fun hd => ?_
      have same : ((u.topic i).stamped (s.slot x).value).state = (u.topic i).state ∧
          ((u.topic i).stamped (s.slot x).value).producer = (u.topic i).producer := by
        unfold TopicRecord.stamped; split <;> exact ⟨rfl, rfl⟩
      rw [same.1] at hd
      rw [same.2]; exact hu.topics i hd
    unfold stampRecord; dsimp only
    refine kept _ ?_
    split
    · exact h
    · exact (see_takePayload holdsNothing_pool _ _).mpr ((see_releasePayload holdsNothing_pool _ _).mpr h)
  unfold Machine.answeredTake; dsimp only
  generalize stampRecord i (s.slot x).value s = u at stamped
  exact HoldsNothing.answerAll (HoldsNothing.removeSolicit (holdsNothing_order _ ((HoldsNothing.modSlot_ne _ hx).mpr stamped)))

theorem subscriptions_answeredTake (x : SlotName) (i : RecordNo) (s : State) :
    (answeredTake x i s).subscriptions = s.subscriptions := by
  unfold answeredTake; dsimp only
  rw [see_answerAll subscriptions_queues subscriptions_pool subscriptions_fetches, see_removeSolicit subscriptions_solicits]
  exact see_stampRecord subscriptions_pool subscriptions_topics _ _ _

theorem subscriptions_settleSlot (x : SlotName) (z : Placements) :
    (settleSlot x z).subscriptions = z.state.subscriptions := by
  unfold settleSlot; dsimp only
  split
  · rw [see_finishSlot subscriptions_pool subscriptions_slots, subscriptions_slots.slot]
  · rw [subscriptions_slots.slot, subscriptions_slots.slot]

/-- A take leaves what stands of every port. -/
theorem standing_takePost (x : SlotName) (i : RecordNo) (s : State) (q : Port) :
    ((takePost x i s).port q).standing = (s.port q).standing := by
  unfold takePost settleSlot stampSlot; dsimp only; split
  · rw [see_finishSlot (standing_poolBlind q) (standing_slotBlind q), (standing_slotBlind q).slot,
      see_placeAll (standing_queueBlind q) (standing_poolBlind q),
      see_answerAll (standing_queueBlind q) (standing_poolBlind q) (standing_fetchBlind q),
      see_removeSolicit (standing_solicitBlind q), (standing_slotBlind q).order, (standing_slotBlind q).slot,
      see_stampRecord (standing_poolBlind q) (standing_topicBlind q)]
  · rw [(standing_slotBlind q).slot, (standing_slotBlind q).slot,
      see_placeAll (standing_queueBlind q) (standing_poolBlind q),
      see_answerAll (standing_queueBlind q) (standing_poolBlind q) (standing_fetchBlind q),
      see_removeSolicit (standing_solicitBlind q), (standing_slotBlind q).order, (standing_slotBlind q).slot,
      see_stampRecord (standing_poolBlind q) (standing_topicBlind q)]

theorem sessionLaw_takePost {x : SlotName} {i : RecordNo} (hx : (s.slot x).state = .ready) (h : SessionLaw s) :
    SessionLaw (takePost x i s) := by
  have used : (s.slot x).state ≠ .empty := by rw [hx]; exact nofun
  refine sessionLaw_of_standing (standing_takePost x i s) ?_ (fun q _ hh => ?_) (fun y hy => ?_) h
  · rw [takePost_eq, subscriptions_settleSlot, see_placeAll subscriptions_queues subscriptions_pool, subscriptions_answeredTake]
  · rw [takePost_eq]
    exact HoldsNothing.settleSlot (hh.owner_ne used) (HoldsNothing.placeAll (hh.answeredTake (hh.owner_ne used)))
  · rw [takePost_eq, slot_settleSlot, slot_placeAll, slot_answeredTake]
    have ne : x ≠ y := by rintro rfl; rw [hx] at hy; cases hy
    rw [if_neg ne, slot_placeAll, slot_answeredTake, if_neg ne]; exact hy

theorem sessionLaw_giveAnswer {p : Port} {d : Delivery} (hp : ¬ Closed s p) (h : SessionLaw s) :
    SessionLaw (giveAnswer p d s) := by
  refine sessionLaw_of_standing (fun q => see_giveAnswer (standing_queueBlind q) (standing_poolBlind q) p d s)
    (see_giveAnswer subscriptions_queues subscriptions_pool p d s) (fun q hq hh => HoldsNothing.giveAnswer ?_ hh)
    (fun x hx => ?_) h
  · rintro rfl; exact hp hq
  · rw [see_giveAnswer (queueBlind_slot x) ⟨fun _ _ _ => rfl⟩]; exact hx

theorem sessionLaw_fetchRemoved (j : FetchId) (w : Word) (h : SessionLaw s) :
    SessionLaw (dropIdleSolicit w (s.setFetch j none)) := by
  refine sessionLaw_of_standing
    (fun q => (see_dropIdleSolicit (standing_solicitBlind q) _ _).trans ((standing_fetchBlind q).fetch s j none))
    (see_dropIdleSolicit subscriptions_solicits _ _) (fun q _ hh => ?_) (fun x hx => ?_) h
  · exact HoldsNothing.dropIdleSolicit (HoldsNothing.setFetch nofun hh)
  · rw [see_dropIdleSolicit (see := fun u => u.slot x) ⟨fun s _ _ => by rw [slot_modPort]; exact fun _ => rfl⟩]
    exact hx

/-- Every event keeps the law of the sessions, with the laws of the slots and of the directory. -/
theorem sessionLaw_events : EventsKeep fun s => (SlotLaw s ∧ DirectoryLaw s) ∧ SessionLaw s := by
  have k := directoryLaw_events
  refine ⟨?_, ?waiting, ?reset, ?parameterSet⟩
  constructor
  case waiting => exact fun s l h => ⟨k.waiting s l h.1, sessionLaw_of_tables h.2 rfl rfl rfl rfl⟩
  case reset => exact fun s straps h => ⟨k.reset s straps h.1, sessionLaw_resetDevice straps s⟩
  case parameterSet => exact fun s i v hv h => ⟨k.parameterSet s i v hv h.1, sessionLaw_of_tables h.2 rfl rfl rfl rfl⟩
  case link =>
    exact fun s p f hf h => ⟨k.link s p f hf h.1, sessionLaw_modPort (fun r => by rw [hf r]) (fun r => by rw [hf r])
      (fun r => by rw [hf r]) (fun r => by rw [hf r]) (fun r => by rw [hf r]) (fun r => by rw [hf r]) h.2⟩
  case tick => exact fun s n h => ⟨k.tick s n h.1, sessionLaw_countPeriods n h.2⟩
  case quarantined =>
    exact fun s p hp h => ⟨k.quarantined s p hp h.1, sessionLaw_quarantine hp h.1.1 h.1.2 h.2⟩
  case holdRestarted =>
    exact fun s p hp h => ⟨k.holdRestarted s p hp h.1, sessionLaw_modPort (fun _ => by rfl) (fun _ => by rfl)
      (fun _ => by rfl) (fun _ => by rfl) (fun _ => by rfl) (fun _ => by rfl) h.2⟩
  case holdExpired =>
    exact fun s p hp h => ⟨k.holdExpired s p hp h.1, sessionLaw_modPort (fun _ => by rfl) (fun _ => by rfl)
      (fun _ => by rfl) (fun _ => by rfl) (fun _ => by rfl) (fun _ => by rfl) h.2⟩
  case joined =>
    refine fun s p hp h => ⟨k.joined s p hp h.1, ?_⟩
    have moved : SessionLaw (s.modPort p fun r => { r with state := .online }) :=
      sessionLaw_iff.mpr (sessionHolds_moved (fun _ => rfl) (fun _ => rfl) (fun _ => rfl) (fun _ => rfl) (fun _ => rfl)
        (fun e => by rcases e with e | e <;> cases e) (fun e => nomatch e) (sessionLaw_iff.mp h.2))
    exact sessionLaw_of_tables moved rfl rfl rfl rfl
  case left => exact fun s p hp h => ⟨k.left s p hp h.1, sessionLaw_leavePort h.1.1 h.1.2 h.2⟩
  case recovered =>
    exact fun s p hp he h => ⟨k.recovered s p hp he h.1,
      sessionLaw_iff.mpr (sessionHolds_moved (fun _ => rfl) (fun _ => rfl) (fun _ => rfl) (fun _ => rfl) (fun _ => rfl)
        (fun _ => .inr hp) (fun e => nomatch e) (sessionLaw_iff.mp h.2))⟩
  case missedCleared =>
    refine fun s p h => ⟨k.missedCleared s p h.1, sessionLaw_of_standing (s := s)
      (fun q => standing_modPort q (fun _ => by rfl) s) rfl (fun q _ hh => ?_)
      (fun x hx => by rw [slot_modPort s (fun _ => by rfl)]; exact hx) h.2⟩
    by_cases e : p = q
    · subst e
      refine (holdsNothing_congr (s := s) (fun k => slot_modPort s (fun _ => by rfl) _) ?_ ?_ ?_ ?_ rfl rfl rfl).mpr hh <;>
        rw [port_modPort_same]
      exact hh.noticesMissed.symm
    · exact (HoldsNothing.modPort_ne _ e).mpr hh
  case topicDeclared =>
    refine fun s p i t kind limit ho hv hf hi h => ⟨k.topicDeclared s p i t kind limit ho hv hf hi h.1,
      sessionLaw_topic (fun q hq _ _ e => not_closed_of_online ho ?_) h.2⟩
    exact Option.some.inj e ▸ hq
  case topicRedeclared =>
    exact fun s i t kind limit hv hf hi hk h => ⟨k.topicRedeclared s i t kind limit hv hf hi hk h.1,
      sessionLaw_topic (fun _ _ hh _ => hh.topics i hi) h.2⟩
  case topicAdopted =>
    refine fun s p i t limit ho hf hi h => ⟨k.topicAdopted s p i t limit ho hf hi h.1,
      sessionLaw_topic (fun q hq _ _ e => not_closed_of_online ho ?_) h.2⟩
    exact Option.some.inj e ▸ hq
  case topicRetired =>
    refine fun s p i t hf hi hp hb h => ⟨k.topicRetired s p i t hf hi hp hb h.1, sessionLaw_of_standing (fun q => ?_)
      ?_ (fun q _ hh => hh.retireRecord) (fun x hx => ?_) h.2⟩
    · unfold retireRecord; dsimp only
      rw [see_freeRecord (standing_poolBlind q) (standing_topicBlind q), see_removeSolicit (standing_solicitBlind q),
        see_answerAll (standing_queueBlind q) (standing_poolBlind q) (standing_fetchBlind q)]
    · unfold retireRecord; dsimp only
      rw [see_freeRecord subscriptions_pool subscriptions_topics, see_removeSolicit subscriptions_solicits,
        see_answerAll subscriptions_queues subscriptions_pool subscriptions_fetches]
    · unfold retireRecord; dsimp only
      rw [see_freeRecord (see := fun u => u.slot x) ⟨fun _ _ _ => rfl⟩ ⟨fun _ _ _ => rfl⟩, slot_removeSolicit,
        slot_answerAll]; exact hx
  case topicPurged =>
    refine fun s i t hf hi hb h => ⟨k.topicPurged s i t hf hi hb h.1, sessionLaw_of_standing
      (fun q => see_freeRecord (standing_poolBlind q) (standing_topicBlind q) i s)
      (see_freeRecord subscriptions_pool subscriptions_topics i s) (fun q _ hh => hh.freeRecord) (fun x hx => ?_) h.2⟩
    rw [see_freeRecord (see := fun u => u.slot x) ⟨fun _ _ _ => rfl⟩ ⟨fun _ _ _ => rfl⟩]; exact hx
  case subscribed =>
    refine fun s p i pattern mask options ho hn hi h => ⟨k.subscribed s p i pattern mask options ho hn hi h.1, ?_⟩
    have kept {q : Port} (hq : (s.port q).state ≠ .online) (hu : Unsubscribed s q) :
        Unsubscribed (s.modSubscription i fun _ => Subscription.ofRequest p pattern mask options) q := by
      intro j hj
      rw [subscription_modSubscription] at hj ⊢
      split
      · change p ≠ q
        rintro rfl; exact hq ho
      · next e => rw [if_neg e] at hj; exact hu j hj
    refine sessionLaw_kept (s := s) (fun _ => rfl) (fun q hq hh => { hh with subscriptions := kept ?_ hh.subscriptions })
      (fun q hq hu => kept (by rw [hq]; exact nofun) hu) (fun _ hx => hx) h.2
    exact fun e => not_closed_of_online e hq
  case unsubscribed =>
    refine fun s i h => ⟨k.unsubscribed s i h.1, ?_⟩
    have kept {q : Port} (hu : Unsubscribed s q) : Unsubscribed (s.modSubscription i fun _ => Subscription.reset) q := by
      intro j hj
      rw [subscription_modSubscription] at hj ⊢
      split
      · next e => rw [if_pos e] at hj; cases hj
      · next e => rw [if_neg e] at hj; exact hu j hj
    exact sessionLaw_kept (s := s) (fun _ => rfl) (fun q _ hh => { hh with subscriptions := kept hh.subscriptions })
      (fun q _ hu => kept hu) (fun _ hx => hx) h.2
  case postOpened =>
    refine fun s x t priority i b ho he hf hi hp hb h => ⟨k.postOpened s x t priority i b ho he hf hi hp hb h.1, ?_⟩
    refine sessionLaw_modSlot (s := allocateBuffer b s) (not_closed_of_online ho) (fun e => ?_) (sessionLaw_buffer b _ h.2)
    change (s.slot x).state = .deferred at e
    rw [he] at e; cases e
  case payloadWritten =>
    refine fun s x offset data hx h => ⟨k.payloadWritten s x offset data hx h.1, ?_⟩
    have open_ := h.2.not_closed (x := x) (by rw [hx]; exact nofun)
    unfold writePayload; dsimp only
    split
    · exact sessionLaw_modSlot open_ (fun e => e) h.2
    · exact sessionLaw_modSlot open_ (fun e => e) (sessionLaw_buffer _ _ h.2)
  case submitted =>
    refine fun s x hx h => ⟨k.submitted s x hx h.1, ?_⟩
    have ready := sessionLaw_modSlot (x := x) (f := fun r => { r with state := .ready, readySequence := s.readySequence })
      (h.2.not_closed (x := x) (by rw [hx]; exact nofun)) (fun e => by rw [hx] at e; cases e) h.2
    exact sessionLaw_of_tables ready rfl rfl rfl rfl
  case slotEmptied =>
    refine fun s x hx h => ⟨k.slotEmptied s x hx h.1, sessionLaw_of_standing
      (fun q => see_emptySlot (standing_poolBlind q) (standing_slotBlind q) x s)
      (see_emptySlot subscriptions_pool subscriptions_slots x s) (fun q _ hh => hh.emptySlot) (fun y hy => ?_) h.2⟩
    rw [slot_emptySlot, if_neg]
    · exact hy
    · rintro rfl; rcases hx with e | e <;> rw [e] at hy <;> cases hy
  case readyAborted =>
    refine fun s x hx h => ⟨k.readyAborted s x hx h.1, sessionLaw_of_standing
      (fun q => see_finishSlot (standing_poolBlind q) (standing_slotBlind q) x _ s)
      (see_finishSlot subscriptions_pool subscriptions_slots x _ s)
      (fun q _ hh => hh.finishSlot _ (hh.owner_ne (by rw [hx]; exact nofun))) (fun y hy => ?_) h.2⟩
    rw [slot_finishSlot, if_neg]
    · exact hy
    · rintro rfl; rw [hx] at hy; cases hy
  case deferredEnded =>
    exact fun s x c hx h => ⟨k.deferredEnded s x c hx h.1, sessionLaw_deferredEnded c hx h.1.1 h.1.2 h.2⟩
  case windowSet =>
    exact fun s p start stop mode h1 h2 h => ⟨k.windowSet s p start stop mode h1 h2 h.1, sessionLaw_modPort
      (fun _ => by rfl) (fun _ => by rfl) (fun _ => by rfl) (fun _ => by rfl) (fun _ => by rfl) (fun _ => by rfl) h.2⟩
  case viewRead =>
    exact fun s p n h => readBytes_keeps (P := fun s => (SlotLaw s ∧ DirectoryLaw s) ∧ SessionLaw s)
      (fun _ hq hs => ⟨⟨slotLaw_passByte hq hs.1.1, directoryLaw_passByte hq hs.1.2⟩,
        sessionLaw_passByte hq hs.1.1 hs.1.2 hs.2⟩) n [] h
  case consumed =>
    exact fun s p hq h => ⟨k.consumed s p hq h.1, sessionLaw_consumeHead hq h.1.1 h.1.2 h.2⟩
  case answeredNow =>
    exact fun s p d ho hn hd h => ⟨k.answeredNow s p d ho hn hd h.1, sessionLaw_giveAnswer (not_closed_of_online ho) h.2⟩
  case fetchWaits =>
    refine fun s p t i j wait ho hn hf hi hv hj h => ⟨k.fetchWaits s p t i j wait ho hn hf hi hv hj h.1,
      sessionLaw_of_standing
        (fun q => (see_solicit (standing_solicitBlind q) _ _ _).trans ((standing_fetchBlind q).fetch s j _))
        (see_solicit subscriptions_solicits _ _ _) (fun q hq hh => ?_) (fun x hx => ?_) h.2⟩
    · have waiting : HoldsNothing (s.setFetch j (some ⟨p, t, .running wait⟩)) q := by
        refine HoldsNothing.setFetch (fun f e => ?_) hh
        rw [← Option.some.inj e]
        rintro rfl; exact not_closed_of_online ho hq
      cases hp : (s.topic i).producer with
      | none => exact waiting
      | some r =>
        refine (HoldsNothing.modPort_ne _ ?_).mpr waiting
        rintro rfl; exact hh.topics i hi hp
    · rw [see_solicit (see := fun u => u.slot x) ⟨fun s _ _ => by rw [slot_modPort]; exact fun _ => rfl⟩]
      exact hx
  case fetchCancelled =>
    exact fun s i f hf h => ⟨k.fetchCancelled s i f hf h.1, sessionLaw_fetchRemoved i f.topic h.2⟩
  case solicitsRead =>
    refine fun s p h => ⟨k.solicitsRead s p h.1, sessionLaw_of_standing (s := s)
      (fun q => (standing_solicitBlind q).solicits s p fun r => r.solicits.drop 16) rfl
      (fun q _ hh => hh.fewerSolicits fun r e => by rw [e]; rfl)
      (fun x hx => by rw [slot_modPort s (fun _ => by rfl)]; exact hx) h.2⟩
  case taken =>
    exact fun s x i hx hf h => ⟨k.taken s x i hx hf h.1, sessionLaw_takePost (ready_of_chosenSlot hx) h.2⟩
  case lapsed =>
    refine fun s i t hf hi hr h => ⟨k.lapsed s i t hf hi hr h.1, ?_⟩
    have changed : SessionLaw (s.modTopic i fun r => { r with stale := true, freshness := .stopped }) :=
      sessionLaw_topic (r := { s.topic i with stale := true, freshness := .stopped })
        (fun q _ hh hd => hh.topics i hd) h.2
    unfold lapse; dsimp only
    generalize s.modTopic i (fun r => { r with stale := true, freshness := .stopped }) = u at changed
    refine sessionLaw_of_standing (fun q => see_issueNotices (standing_queueBlind q) _ _ _ _)
      (see_issueNotices subscriptions_queues _ _ _ _) (fun q _ hh => hh.issueNotices) (fun x hx => ?_) changed
    rw [see_issueNotices (queueBlind_slot x)]; exact hx
  case fetchExpired =>
    intro s i f hf h
    refine ⟨k.fetchExpired s i f hf h.1, sessionLaw_fetchRemoved i f.topic (sessionLaw_giveAnswer (fun hc => ?_) h.2)⟩
    exact (h.2.closed _ hc).fetches i f hf rfl

/-- Settles O60. -/
theorem stepKeepsTheSessionLaw : Obligations.StepKeepsTheSessionLaw :=
  fun _ _ h ht => (step_keeps_of_events sessionLaw_events ⟨⟨h.slots, h.directory⟩, h.sessions⟩ ht).2

end

end Sys2Proof.Machine
end

