-- ==== Sys2Proof/Proofs/Backdrop.lean ====
section
/-! What the passage of posts, answers, notices and reports leaves alone everywhere: the payload bytes, the parameters, the
count of the divider and the ready sequence. The counts of references are the one thing of the pool that it changes. -/
namespace Sys2Proof.Machine
set_option Elab.async false

/-- The payload bytes, the parameters, the divider's count and the ready sequence. -/
structure Backdrop where
  bytes : BufferNo → Vector Byte 64
  params : Params
  divider : Nat
  readySequence : Word

/-- What the backdrop of a state is. -/
def State.backdrop (s : State) : Backdrop where
  bytes := fun b => (s.buffer b).bytes
  params := s.params
  divider := s.divider
  readySequence := s.readySequence

section backdrop
variable (s : State)

theorem backdrop_modBuffer (b : BufferNo) {f : Buffer → Buffer} (hf : ∀ y, (f y).bytes = y.bytes) :
    (s.modBuffer b f).backdrop = s.backdrop := by
  have bytes : (fun c => ((s.modBuffer b f).buffer c).bytes) = fun c => (s.buffer c).bytes := by
    funext c; rw [buffer_modBuffer]; split <;> [exact hf _; rfl]
  unfold State.backdrop
  rw [bytes]; rfl

theorem backdrop_takePayload (v : Option Payload) : (takePayload v s).backdrop = s.backdrop := by
  cases v <;> [rfl; exact backdrop_modBuffer s _ fun _ => rfl]

theorem backdrop_releasePayload (v : Option Payload) : (releasePayload v s).backdrop = s.backdrop := by
  cases v <;> [rfl; exact backdrop_modBuffer s _ fun _ => rfl]

theorem backdrop_releaseBuffer (b : Option BufferNo) : (releaseBuffer b s).backdrop = s.backdrop := by
  cases b <;> [rfl; exact backdrop_modBuffer s _ fun _ => rfl]

theorem backdrop_modPort (p : Port) (f : PortRecord → PortRecord) : (s.modPort p f).backdrop = s.backdrop := rfl
theorem backdrop_modSlot (x : SlotName) (f : Slot → Slot) : (s.modSlot x f).backdrop = s.backdrop := rfl
theorem backdrop_modTopic (i : RecordNo) (f : TopicRecord → TopicRecord) : (s.modTopic i f).backdrop = s.backdrop := rfl
theorem backdrop_setFetch (j : FetchId) (e : Option WaitingFetch) : (s.setFetch j e).backdrop = s.backdrop := rfl
theorem backdrop_order (o : List SlotName) : State.backdrop { s with readyOrder := o } = s.backdrop := rfl

/-! ## Slots -/

theorem backdrop_emptySlot (x : SlotName) : (emptySlot x s).backdrop = s.backdrop :=
  backdrop_releaseBuffer s _

theorem backdrop_finishSlot (x : SlotName) (c : Completion) : (finishSlot x c s).backdrop = s.backdrop :=
  backdrop_releaseBuffer s _

theorem backdrop_serveSlot (x : SlotName) (p : Port) : (serveSlot x p s).1.backdrop = s.backdrop :=
  serveSlot_keeps (P := fun u => u.backdrop = s.backdrop) (fun _ hu => hu)
    (fun _ _ hu => (backdrop_finishSlot ..).trans hu) rfl

theorem backdrop_failSlot (x : SlotName) (p : Port) : (failSlot x p s).1.backdrop = s.backdrop :=
  failSlot_keeps (P := fun u => u.backdrop = s.backdrop) (fun _ hu => hu)
    (fun _ _ hu => (backdrop_finishSlot ..).trans hu) rfl

theorem backdrop_deleteEntries (x : SlotName) : (deleteEntries x s).backdrop = s.backdrop :=
  see_foldl (fun u p => by unfold deleteEntryAt; split <;> rfl) _ s

theorem backdrop_endDeferred (x : SlotName) (c : Completion) : (endDeferred x c s).backdrop = s.backdrop := by
  unfold endDeferred; dsimp only
  rw [backdrop_finishSlot, backdrop_modSlot, backdrop_deleteEntries]

theorem backdrop_abortDeferredSlots (p : Port) : (abortDeferredSlots p s).backdrop = s.backdrop :=
  abortDeferredSlots_keeps (P := fun u => u.backdrop = s.backdrop)
    (fun _ _ _ _ hu => (backdrop_endDeferred ..).trans hu) rfl

/-! ## Answers, notices and placements -/

theorem backdrop_giveAnswer (p : Port) (d : Delivery) : (giveAnswer p d s).backdrop = s.backdrop := by
  unfold giveAnswer placeAnswer appendDelivery appendDeferral
  split <;> rw [backdrop_modPort, backdrop_takePayload]

theorem backdrop_answerAll (d : Delivery) : (answerAll d s).backdrop = s.backdrop :=
  answerAll_keeps (P := fun u => u.backdrop = s.backdrop) (fun u j f _ _ hu =>
    (backdrop_setFetch _ j none).trans ((backdrop_giveAnswer u f.requester d).trans hu)) rfl

theorem backdrop_issueNotices (w v : Word) (r : Option Port) : (issueNotices w v r s).backdrop = s.backdrop :=
  issueNotices_keeps (P := fun u => u.backdrop = s.backdrop) (fun u p i _ hu => by
    unfold placeNotice appendDelivery
    split <;> exact hu) rfl

theorem backdrop_dropIdleSolicit (w : Word) : (dropIdleSolicit w s).backdrop = s.backdrop := by
  unfold dropIdleSolicit
  split
  · split <;> [rfl; (split <;> rfl)]
  · rfl

theorem backdrop_placePost (x : SlotName) (p : Port) (i : SubIndex) (latest : Bool) :
    (placePost x p i latest s).1.backdrop = s.backdrop := by
  unfold placePost appendDelivery appendDeferral; dsimp only
  split
  · split
    · rw [backdrop_releasePayload, backdrop_modPort, backdrop_takePayload]
    · split <;> [rw [backdrop_modPort, backdrop_takePayload]; rfl]
  · rfl

theorem backdrop_placeAll (x : SlotName) (w : Word) : (placeAll x w s).state.backdrop = s.backdrop :=
  placeAll_keeps (P := fun u => u.backdrop = s.backdrop) (fun _ _ _ _ hu => (backdrop_placePost ..).trans hu) rfl

/-! ## Records -/

theorem backdrop_freeRecord (i : RecordNo) : (freeRecord i s).backdrop = s.backdrop :=
  backdrop_releasePayload s _

theorem backdrop_retireRecord (p : Port) (i : RecordNo) : (retireRecord p i s).backdrop = s.backdrop := by
  unfold retireRecord removeSolicit; dsimp only
  rw [backdrop_freeRecord, backdrop_modPort, backdrop_answerAll]

theorem backdrop_orphanRecord (p : Port) (i : RecordNo) : (orphanRecord p i s).backdrop = s.backdrop := by
  have answered (d : Delivery) (w : Word) : (removeSolicit p w (answerAll d s)).backdrop = s.backdrop :=
    (backdrop_modPort ..).trans (backdrop_answerAll s d)
  cases hv : (s.topic i).retained with
  | none => rw [orphanRecord_none p hv, backdrop_freeRecord]; exact answered ..
  | some v =>
    rw [orphanRecord_some p (by rw [hv]; rfl), backdrop_issueNotices, backdrop_modTopic]
    exact answered ..

theorem backdrop_stampRecord (i : RecordNo) (v : Option Payload) : (stampRecord i v s).backdrop = s.backdrop := by
  unfold stampRecord; dsimp only
  rw [backdrop_modTopic]
  split <;> [rfl; rw [backdrop_takePayload, backdrop_releasePayload]]

/-! ## Sessions -/

theorem backdrop_leaveEffects (p : Port) : (leaveEffects p s).backdrop = s.backdrop := by
  have slots : (leaveSlots p s).backdrop = s.backdrop :=
    leaveSlots_keeps (P := fun u => u.backdrop = s.backdrop) (fun _ _ _ _ hu => (backdrop_emptySlot ..).trans hu)
      (fun _ _ _ _ hu => (backdrop_finishSlot ..).trans hu) rfl
  have fetches (u : State) : (removeFetches p u).backdrop = u.backdrop :=
    removeFetches_keeps (P := fun v => v.backdrop = u.backdrop) (fun _ _ _ _ _ hv =>
      (backdrop_dropIdleSolicit ..).trans ((backdrop_setFetch ..).trans hv)) rfl
  have topics (u : State) : (orphanTopics p u).backdrop = u.backdrop :=
    orphanTopics_keeps (P := fun v => v.backdrop = u.backdrop) (fun _ _ _ _ hv => (backdrop_orphanRecord ..).trans hv) rfl
  have freed : (freeSubscriptionsOf p (leaveSlots p s)).backdrop = (leaveSlots p s).backdrop := by
    generalize leaveSlots p s = u; rfl
  unfold leaveEffects clearSolicits
  rw [backdrop_modPort, topics, fetches, freed, slots]

theorem backdrop_teardown (b : Bool) (p : Port) : (teardown b p s).1.backdrop = s.backdrop := by
  have queue : (emptyQueue p s).backdrop = s.backdrop :=
    (backdrop_modPort ..).trans (see_foldl (fun u (d : Delivery) => backdrop_releasePayload u d.payload) _ s)
  have list (u : State) : (emptyDeferral p u).1.backdrop = u.backdrop := by
    refine (see_foldl_fst (see := State.backdrop) (fun y e => ?_) _ _).trans (backdrop_modPort ..)
    cases e <;> [exact backdrop_failSlot ..; exact backdrop_releasePayload ..]
  have slots (u : State) : (emptySlots p u).backdrop = u.backdrop :=
    see_foldl (fun v k => backdrop_emptySlot v ⟨p, k⟩) _ u
  have judged (u : State) : (judgeExchange u).backdrop = u.backdrop := by unfold judgeExchange; split <;> rfl
  rw [teardown_fst, judged]
  unfold teardownBlocks closePort homeCursor
  rw [backdrop_modPort, backdrop_modPort, slots, backdrop_modPort, list, queue]

theorem backdrop_endDrains (y : State × List Port) : (endDrains y).backdrop = y.1.backdrop :=
  endDrains_keeps (P := fun u => u.backdrop = y.1.backdrop) (fun _ _ _ hu => (backdrop_teardown ..).trans hu) rfl

theorem backdrop_quarantine {p : Port} (h : (s.port p).state = .online ∨ (s.port p).state = .leaving) :
    (quarantine p s).backdrop = s.backdrop := by
  have departs : (departed p s).backdrop = s.backdrop := by
    unfold departed
    split <;> [exact (backdrop_leaveEffects ..).trans (backdrop_modPort ..); exact backdrop_modPort ..]
  rw [quarantine_session h]
  unfold startHold
  rw [backdrop_modPort, backdrop_endDrains, backdrop_teardown, backdrop_abortDeferredSlots, departs]

theorem backdrop_leavePort (p : Port) : (leavePort p s).backdrop = s.backdrop := by
  unfold leavePort; dsimp only
  split
  · rw [backdrop_endDrains, backdrop_teardown, backdrop_leaveEffects, backdrop_modPort]
  · rw [backdrop_leaveEffects, backdrop_modPort]

theorem backdrop_consumption (p : Port) (d : Delivery) (rest : List Delivery) :
    (consumption p d rest s).1.backdrop = s.backdrop := by
  unfold consumption
  split
  · split
    · rw [backdrop_modPort, backdrop_releasePayload]
    · rw [backdrop_modPort, backdrop_releasePayload]
    · rw [backdrop_serveSlot, backdrop_takePayload, backdrop_modPort, backdrop_releasePayload]
  · rw [backdrop_modPort, backdrop_releasePayload]

theorem backdrop_takePost (x : SlotName) (i : RecordNo) : (takePost x i s).backdrop = s.backdrop := by
  have answered : (answeredTake x i s).backdrop = s.backdrop := by
    unfold answeredTake removeSolicit stampSlot; dsimp only
    rw [backdrop_answerAll, backdrop_modPort, backdrop_order, backdrop_modSlot, backdrop_stampRecord]
  rw [takePost_eq]
  unfold settleSlot; dsimp only
  split
  · rw [backdrop_finishSlot, backdrop_modSlot, backdrop_placeAll, answered]
  · rw [backdrop_modSlot, backdrop_modSlot, backdrop_placeAll, answered]

end backdrop

theorem params_of_backdrop {s t : State} (h : t.backdrop = s.backdrop) : t.params = s.params :=
  (congrArg Backdrop.params h :)

/-- From `s` to `t`, what stands of the ports that are not touched and the backdrop are kept. -/
theorem keepsStanding_of {touched : Port → Prop} {s t : State}
    (hp : ∀ q, ¬ touched q → (t.port q).standing = (s.port q).standing) (hb : t.backdrop = s.backdrop) :
    KeepsStanding touched s t :=
  ⟨hp, congrFun ((congrArg Backdrop.bytes hb :) : (fun b => (t.buffer b).bytes) = fun b => (s.buffer b).bytes),
    (congrArg Backdrop.params hb :), (congrArg Backdrop.divider hb :), (congrArg Backdrop.readySequence hb :)⟩

end Sys2Proof.Machine
end

