-- ==== Sys2Proof/Proofs/RecordsFreed.lean ====
section
/-! The effects of RETIRE and PURGE (O26). -/
namespace Sys2Proof.Machine
set_option Elab.async false

section freed
variable {s : State} {p : Port} {i : RecordNo}

theorem references_releasePayload (v : Option Payload) (s : State) (b : BufferNo) :
    ((releasePayload v s).buffer b).references = (s.buffer b).references - if carries b v then 1 else 0 := by
  cases v with
  | none => rfl
  | some v =>
    change ((s.modBuffer v.buffer _).buffer b).references = _
    rw [buffer_modBuffer]
    by_cases e : v.buffer = b
    · simp [carries, e]
    · simp [carries, e]

/-- An answer without a value takes no reference. -/
theorem buffer_answerAll {d : Delivery} (hd : d.payload = none) (s : State) (b : BufferNo) :
    (answerAll d s).buffer b = s.buffer b := by
  refine answerAll_keeps (P := fun u => u.buffer b = s.buffer b) (fun u j f _ _ hu => ?_) rfl
  refine Eq.trans ?_ hu
  change (giveAnswer f.requester d u).buffer b = u.buffer b
  unfold giveAnswer placeAnswer
  rw [hd]
  split <;> rfl

theorem topic_freeRecord (i j : RecordNo) (s : State) :
    (freeRecord i s).topic j = if i = j then TopicRecord.reset else s.topic j := by
  rw [freeRecord_eq, see_releasePayload (see := fun u => u.topic j) ⟨fun _ _ _ => rfl⟩, topic_modTopic]

theorem port_freeRecord (i : RecordNo) (s : State) (q : Port) : (freeRecord i s).port q = s.port q :=
  see_freeRecord (see := fun u => u.port q) ⟨fun _ _ _ => rfl⟩ ⟨fun _ _ _ => rfl⟩ i s

theorem fetch_freeRecord (i : RecordNo) (s : State) (j : FetchId) : (freeRecord i s).fetch j = s.fetch j :=
  see_freeRecord (see := fun u => u.fetch j) ⟨fun _ _ _ => rfl⟩ ⟨fun _ _ _ => rfl⟩ i s

theorem references_freeRecord (i : RecordNo) (s : State) (b : BufferNo) : ((freeRecord i s).buffer b).references =
    (s.buffer b).references - if carries b (s.topic i).retained then 1 else 0 := by
  rw [freeRecord_eq, references_releasePayload]; rfl

/-- The tables that neither answers nor records touch. -/
def State.untouched (s : State) : Vector Subscription 64 × ExchangeState × List SlotName × List Instr :=
  (s.subscriptions, s.exchange, s.readyOrder, s.pending)

theorem untouched_pool : PoolBlind State.untouched := ⟨fun _ _ _ => rfl⟩
theorem untouched_topics : TopicBlind State.untouched := ⟨fun _ _ _ => rfl⟩
theorem untouched_queues : QueueBlind State.untouched := ⟨fun _ _ _ => rfl, fun _ _ _ => rfl, fun _ _ _ => rfl⟩
theorem untouched_fetches : FetchBlind State.untouched := ⟨fun _ _ _ => rfl⟩
theorem untouched_solicits : SolicitBlind State.untouched := ⟨fun _ _ _ => rfl⟩

theorem untouched_retireRecord (p : Port) (i : RecordNo) (s : State) : (retireRecord p i s).untouched = s.untouched := by
  unfold retireRecord; dsimp only
  rw [see_freeRecord untouched_pool untouched_topics, see_removeSolicit untouched_solicits,
    see_answerAll untouched_queues untouched_pool untouched_fetches]

theorem topic_retireRecord (p : Port) (i j : RecordNo) (s : State) :
    (retireRecord p i s).topic j = if j = i then TopicRecord.reset else s.topic j := by
  unfold retireRecord; dsimp only
  rw [topic_freeRecord, topic_removeSolicit, topic_answerAll]
  exact if_congr eq_comm rfl rfl

theorem slot_retireRecord (p : Port) (i : RecordNo) (s : State) (x : SlotName) :
    (retireRecord p i s).slot x = s.slot x := by
  unfold retireRecord; dsimp only
  rw [see_freeRecord (see := fun u => u.slot x) ⟨fun _ _ _ => rfl⟩ ⟨fun _ _ _ => rfl⟩, slot_removeSolicit, slot_answerAll]

/-- What a RETIRE leaves of a port's record: its answers, and the solicit gone. -/
theorem port_retireRecord (p : Port) (i : RecordNo) (s : State) (q : Port) : (retireRecord p i s).port q =
    let r := (s.port q).withAnswers (waitingBy s q (s.topic i).number)
      (answerDelivery (s.topic i).number .noTopic none 0 (some p))
    if p = q then { r with solicits := r.solicits.filter (· != (s.topic i).number) } else r := by
  unfold retireRecord removeSolicit; dsimp only
  rw [port_freeRecord, port_modPort, port_answerAll]
  rfl

theorem PortRecord.withAnswers_rest (n : Nat) (d : Delivery) (r : PortRecord) :
    (r.withAnswers n d).solicits = r.solicits ∧ (r.withAnswers n d).noticesMissed = r.noticesMissed ∧
      (r.withAnswers n d).standing = r.standing := by
  unfold withAnswers; split <;> exact ⟨rfl, rfl, rfl⟩

theorem references_retireRecord (p : Port) (i : RecordNo) (s : State) (b : BufferNo) :
    ((retireRecord p i s).buffer b).references =
      (s.buffer b).references - if carries b (s.topic i).retained then 1 else 0 := by
  unfold retireRecord; dsimp only
  rw [references_freeRecord, topic_removeSolicit, topic_answerAll]
  have kept (u : State) (q : Port) (w : Word) : (removeSolicit q w u).buffer b = u.buffer b := rfl
  rw [kept, buffer_answerAll rfl]

theorem answeredAll_retireRecord (p : Port) (i : RecordNo) (s : State) :
    AnsweredAll s (retireRecord p i s) (s.topic i).number
      (answerDelivery (s.topic i).number .noTopic none 0 (some p)) := by
  refine ⟨fun j => ?_, fun q => ?_⟩
  · unfold retireRecord; dsimp only
    rw [fetch_freeRecord, fetch_removeSolicit, fetch_answerAll]; rfl
  · rw [port_retireRecord]; dsimp only
    split <;> exact ⟨rfl, rfl⟩

/-- A request that is accepted on an ONLINE port. -/
theorem exec_accepted {k : Instr} {c : RequestName} {act : List Byte → State → Reply} {tag : Byte} {args : List Byte}
    {u : State} (hk : exec k s = .next (handleRequest p c act s)) (hj : c ≠ .join) (hr : c ≠ .recover)
    (hp : InProgress s p c tag args) (ho : (s.port p).state = .online) (hy : act args s = accept u) :
    exec k s = .next (complete p tag .ok [] u) :=
  exec_completes_of_online hk hj hr hp ho hy

/-- Settles O26. -/
theorem retireAndPurgeFreeTheRecord : Obligations.RetireAndPurgeFreeTheRecord := by
  intro p tag t s i ho h0 h1 hf hbusy
  have named : isTopicNumber t = true := (isTopicNumber_iff t).2 ⟨h0, h1⟩
  obtain ⟨-, number⟩ := findTopic_some hf
  have idle : topicBusy s t = false := by
    rw [← Bool.not_eq_true, topicBusy_iff]
    rintro ⟨x, hx, e⟩
    exact hbusy x hx e
  refine ⟨fun hp hd hpr => ⟨retireRecord p i s, ?_, ?_⟩, fun hp hd => ⟨freeRecord i s, ?_, ?_⟩⟩
  · exact exec_accepted (k := .retire p) (act := actRetire p) rfl (by decide) (by decide) hp ho
      (actRetire_passes named hf hd hpr idle)
  · have kept := untouched_retireRecord p i s
    unfold State.untouched at kept
    simp only [Prod.mk.injEq] at kept
    obtain ⟨subscriptions, exchange, order, pending⟩ := kept
    have answered := answeredAll_retireRecord p i s
    rw [number] at answered
    refine ⟨fun j => topic_retireRecord p i j s, answered, fun q => ?_, fun q => ?_,
      slot_retireRecord p i s, subscriptions, exchange, order, pending,
      keepsStanding_of (fun q _ => ?_) (backdrop_retireRecord s p i), references_retireRecord p i s⟩ <;>
      obtain ⟨solicits, missed, standing⟩ := PortRecord.withAnswers_rest (waitingBy s q (s.topic i).number)
        (answerDelivery (s.topic i).number .noTopic none 0 (some p)) (s.port q)
    · rw [port_retireRecord]; dsimp only
      by_cases e : p = q
      · rw [if_pos e, if_pos e.symm]
        dsimp only
        rw [solicits, number]
        exact List.filter_congr fun w _ => by rw [decide_not]; rfl
      · rw [if_neg e, if_neg (Ne.symm e)]; exact solicits
    · rw [port_retireRecord]; dsimp only
      split <;> exact missed
    · rw [port_retireRecord]; dsimp only
      split <;> exact standing
  · exact exec_accepted (k := .purge p) (act := actPurge) rfl (by decide) (by decide) hp ho
      (actPurge_passes named hf hd idle)
  · have kept : (freeRecord i s).untouched = s.untouched := see_freeRecord untouched_pool untouched_topics i s
    unfold State.untouched at kept
    simp only [Prod.mk.injEq] at kept
    obtain ⟨subscriptions, exchange, order, pending⟩ := kept
    refine ⟨fun j => (topic_freeRecord i j s).trans (if_congr eq_comm rfl rfl), ?_, ?_, subscriptions, exchange, order,
      pending, keepsStanding_of (fun q _ => ?_) (backdrop_freeRecord s i), references_freeRecord i s⟩
    · exact see_freeRecord (see := State.ports) ⟨fun _ _ _ => rfl⟩ ⟨fun _ _ _ => rfl⟩ i s
    · exact see_freeRecord (see := State.fetches) ⟨fun _ _ _ => rfl⟩ ⟨fun _ _ _ => rfl⟩ i s
    · rw [port_freeRecord]

end freed

end Sys2Proof.Machine
end

