-- ==== Sys2Proof/Proofs/DeferredSlots.lean ====
section
/-! The endings of a DEFERRED slot that end no drain: by abort, by deadline (O32), and by the service of its last port
(O38). -/
namespace Sys2Proof.Machine
set_option Elab.async false

section ending
variable {s : State}

theorem endDrains_idle {q : Port} (h : drainEnded s q = false) : endDrains (s, [q]) = s := by
  unfold endDrains
  change (if drainEnded s q = true then _ else handleReports 63 [] s) = s
  rw [h]; rfl

theorem drainEnded_of_deferred {q : Port} {k : SlotNo} (h : (s.slot ⟨q, k⟩).state = .deferred) :
    drainEnded s q = false := by
  rw [← Bool.not_eq_true, drainEnded_iff]
  exact fun hd => hd.2 k h

theorem drainEnded_of_state {q : Port} (h : (s.port q).state ≠ .leaving) : drainEnded s q = false := by
  rw [← Bool.not_eq_true, drainEnded_iff]
  exact fun hd => h hd.1

/-- The slot's entries leave the deferral lists of its pending ports, and no other record changes (R79). -/
theorem port_deleteEntries (x : SlotName) (s : State) (q : Port) : (deleteEntries x s).port q =
    if (s.slot x).pending.has q then { s.port q with deferral := (s.port q).deferral.filter fun e => !e.standsFor x }
    else s.port q := by
  have slot (u : State) (p : Port) : (deleteEntryAt x u p).slot x = u.slot x := by
    unfold deleteEntryAt; split
    · rw [slot_modPort]; exact fun _ => rfl
    · rfl
  refine port_foldl_allPorts (P := fun u => u.slot x = s.slot x) (g := fun p r =>
    if (s.slot x).pending.has p then { r with deferral := r.deferral.filter fun e => !e.standsFor x } else r)
    (fun u p hu => (slot u p).trans hu) (fun u p q hu => ?_) s rfl q
  unfold deleteEntryAt
  rw [hu]
  by_cases hp : (s.slot x).pending.has p = true
  · rw [if_pos hp, port_modPort, if_pos hp]
  · rw [if_neg hp, if_neg hp, ite_self]

/-- The end of a DEFERRED slot changes deferral lists and slots alone of the ports' records. -/
theorem port_endDeferred (x : SlotName) (c : Completion) (s : State) (q : Port) : (endDeferred x c s).port q =
    { s.port q with
      deferral := if (s.slot x).pending.has q then (s.port q).deferral.filter fun e => !e.standsFor x
        else (s.port q).deferral
      slots := ((endDeferred x c s).port q).slots } := by
  have deleted := port_deleteEntries x s q
  have finished (u : State) (f : Slot → Slot) : ((finishSlot x c (u.modSlot x f)).port q).unslotted = (u.port q).unslotted :=
    (see_finishSlot (unslotted_poolBlind q) (unslotted_slotBlind q) x c _).trans (unslotted_modSlot ..)
  unfold endDeferred; dsimp only
  generalize deleteEntries x s = u at deleted
  refine PortRecord.eq_of_unslotted (finished u _) |>.trans ?_
  rw [deleted]
  split <;> rfl

theorem references_releaseBuffer (o : Option BufferNo) (s : State) (b : BufferNo) :
    ((releaseBuffer o s).buffer b).references = (s.buffer b).references - if o = some b then 1 else 0 := by
  cases o with
  | none => rfl
  | some c =>
    change ((s.modBuffer c _).buffer b).references = _
    rw [buffer_modBuffer]
    by_cases e : c = b
    · simp [e]
    · simp [e]

theorem references_endDeferred (x : SlotName) (c : Completion) (s : State) (b : BufferNo) :
    ((endDeferred x c s).buffer b).references =
      (s.buffer b).references - if (s.slot x).buffer = some b then 1 else 0 := by
  have buffer : (deleteEntries x s).buffer b = s.buffer b :=
    see_deleteEntries (see := fun u => u.buffer b) ⟨fun _ _ _ => rfl, fun _ _ _ => rfl, fun _ _ _ => rfl⟩ x s
  have slot := slot_deleteEntries x x s
  unfold endDeferred finishSlot; dsimp only
  generalize deleteEntries x s = u at buffer slot
  have released := references_releaseBuffer ((u.modSlot x fun k => { k with unreached := k.unreached.union k.pending }).slot x).buffer
    (u.modSlot x fun k => { k with unreached := k.unreached.union k.pending }) b
  refine Eq.trans released ?_
  rw [slot_modSlot_same, slot]
  exact congrArg (fun y : Buffer => y.references - _) buffer

/-- What the end of a DEFERRED slot leaves of the tables. -/
def State.tables (s : State) : Vector TopicRecord 128 × Vector (Option WaitingFetch) 16 × Vector Subscription 64 :=
  (s.topics, s.fetches, s.subscriptions)

theorem tables_pool : PoolBlind State.tables := ⟨fun _ _ _ => rfl⟩
theorem tables_queues : QueueBlind State.tables := ⟨fun _ _ _ => rfl, fun _ _ _ => rfl, fun _ _ _ => rfl⟩
theorem tables_slots : SlotBlind State.tables := ⟨fun _ _ _ => rfl, fun _ _ => rfl⟩

/-- A request of the ONLINE and LEAVING row of Table 7-1 that is accepted. -/
theorem exec_accepted_of_session {p : Port} {k : Instr} {c : RequestName} {act : List Byte → State → Reply} {tag : Byte}
    {args : List Byte} {u : State} (hk : exec k s = .next (handleRequest p c act s))
    (hc : admission c = .onlineOrLeaving) (hst : (s.port p).state = .online ∨ (s.port p).state = .leaving)
    (hp : InProgress s p c tag args) (hy : act args s = accept u) : exec k s = .next (complete p tag .ok [] u) :=
  exec_completes_of_session hk hc hst hp hy

/-- Settles O32. -/
theorem deferredSlotEndsWithItsEntriesDeleted : Obligations.DeferredSlotEndsWithItsEntriesDeleted := by
  intro s p k hk ended stays
  have effects (c : Completion) : ended c (endDeferred ⟨p, k⟩ c s) := by
    have tables := see_endDeferred tables_queues tables_pool tables_slots ⟨p, k⟩ c s
    unfold State.tables at tables
    simp only [Prod.mk.injEq] at tables
    obtain ⟨topics, fetches, subscriptions⟩ := tables
    refine ⟨?_, fun y hy => ?_, fun q => ⟨?_, ?_, ?_⟩, references_endDeferred ⟨p, k⟩ c s, topics, fetches, subscriptions,
      keepsStanding_of (fun q _ => ?_) (backdrop_endDeferred ..)⟩
    · rw [slot_endDeferred, if_pos rfl]; rfl
    · rw [slot_endDeferred, if_neg (Ne.symm hy)]
    · rw [port_endDeferred]
    · exact state_endDeferred ⟨p, k⟩ c s q
    · rw [port_endDeferred]
    · exact see_endDeferred (standing_queueBlind q) (standing_poolBlind q) (standing_slotBlind q) ⟨p, k⟩ c s
  have drains (c : Completion) (h : (s.port p).state ≠ .leaving ∨ stays) :
      endDrains (endDeferred ⟨p, k⟩ c s, [p]) = endDeferred ⟨p, k⟩ c s := by
    refine endDrains_idle ?_
    rcases h with h | ⟨-, l, hl, hd⟩
    · exact drainEnded_of_state (by rw [state_endDeferred]; exact h)
    · refine drainEnded_of_deferred (k := l) ?_
      rw [slot_endDeferred, if_neg]
      · exact hd
      · intro e; exact hl (SlotName.mk.inj e).2.symm
  refine ⟨fun tag slot hp hs hst => ⟨endDeferred ⟨p, k⟩ .aborted s, ?_, effects .aborted⟩,
    fun hd hst => ⟨endDeferred ⟨p, k⟩ .partially s, ?_, effects .partially⟩⟩
  · have aborts : actAbortPost p [slot] s = accept (endDeferred ⟨p, k⟩ .aborted s) := by
      unfold actAbortPost
      rw [argSlot_of p [] hs]; dsimp only
      rw [hk]; dsimp only
      rw [drains .aborted (hst.imp_left fun h => by rw [h]; exact nofun)]
    exact exec_accepted_of_session (k := .abortPost p) (act := actAbortPost p) rfl rfl (hst.imp_right (·.1)) hp aborts
  · change Host.Outcome.next (expireDelivery ⟨p, k⟩ s) = _
    unfold expireDelivery
    rw [if_pos ⟨hk, hd⟩, drains .partially hst]

/-- Settles O38. -/
theorem consumeServesADeferredPost : Obligations.ConsumeServesADeferredPost := by
  intro p tag s x i c d rest entries hp hst hdrain hq hlen hl
  have lt : rest.length < 32 := by omega
  generalize hm : PortRecord.consumed (rest ++ [postDelivery (s.slot x) x.owner i c]) entries = f
  have slots (r : PortRecord) : (f r).slots = r.slots := by rw [← hm]; rfl
  generalize hv : takePayload (s.slot x).value ((releasePayload d.payload s).modPort p f) = v
  have port (q : Port) : v.port q = if p = q then f (s.port q) else s.port q := by
    rw [← hv, port_takePayload, port_modPort, port_releasePayload]
  have slot (y : SlotName) : v.slot y = s.slot y := by
    rw [← hv, slot_takePayload, slot_modPort _ slots, slot_releasePayload]
  have tables : v.tables = s.tables := by
    rw [← hv, see_takePayload tables_pool]
    exact see_releasePayload tables_pool _ _
  have backdrop : v.backdrop = s.backdrop := by
    rw [← hv, backdrop_takePayload, backdrop_modPort, backdrop_releasePayload]
  have served : consumption p d rest s = serveSlot x p v := by rw [consumption_slot lt hl, hm, hv]
  have unslotted (q : Port) : ((serveSlot x p v).1.port q).unslotted = (v.port q).unslotted :=
    see_serveSlot (unslotted_poolBlind q) (unslotted_slotBlind q) x p v
  have slot_served (y : SlotName) : (serveSlot x p v).1.slot y = if x = y then (s.slot y).served p else s.slot y := by
    rw [slot_serveSlot, slot]
  have reports : (serveSlot x p v).2 = if (s.slot x).pending.erase p = PortSet.none then [x.owner] else [] := by
    rw [reports_serveSlot, slot]
  have tables_served : (serveSlot x p v).1.tables = s.tables := (see_serveSlot tables_pool tables_slots x p v).trans tables
  have backdrop_served : (serveSlot x p v).1.backdrop = s.backdrop := (backdrop_serveSlot ..).trans backdrop
  have drains : consumeHead p s = (serveSlot x p v).1 := by
    rw [consumeHead_eq hq, served]
    have stays : (serveSlot x p v).2 = [] ∨ (serveSlot x p v).2 = [x.owner] ∧
        drainEnded (serveSlot x p v).1 x.owner = false := by
      rw [reports]
      by_cases hn : (s.slot x).pending.erase p = PortSet.none
      · rw [if_pos hn]
        refine .inr ⟨rfl, ?_⟩
        rcases hdrain with h | h | ⟨l, hne, hd⟩
        · refine drainEnded_of_state ?_
          rw [PortRecord.eq_of_unslotted (unslotted x.owner), port]
          split <;> [(rw [← hm]; exact h); exact h]
        · exact absurd hn h
        · refine drainEnded_of_deferred (k := l) ?_
          rw [slot_served, if_neg]
          · exact hd
          · intro e; exact hne (congrArg SlotName.number e).symm
      · exact .inl (if_neg hn)
    generalize serveSlot x p v = z at stays
    obtain ⟨u, l⟩ := z
    dsimp only at stays
    rcases stays with rfl | ⟨rfl, h⟩
    · exact endDrains_nil u
    · exact endDrains_idle h
  have consumed : (serveSlot x p v).1.port p = { f (s.port p) with slots := ((serveSlot x p v).1.port p).slots } :=
    PortRecord.eq_of_unslotted ((unslotted p).trans (congrArg PortRecord.unslotted ((port p).trans (if_pos rfl))))
  have queue : ((serveSlot x p v).1.port p).queue = rest ++ [postDelivery (s.slot x) x.owner i c] := by
    rw [consumed, ← hm]; rfl
  have deferral : ((serveSlot x p v).1.port p).deferral = entries := by rw [consumed, ← hm]; rfl
  have view : ((serveSlot x p v).1.port p).view = { (s.port p).view with cursor := (s.port p).view.start } := by
    rw [consumed, ← hm]; rfl
  have other {q : Port} (hne : q ≠ p) : ((serveSlot x p v).1.port q).unslotted = (s.port q).unslotted :=
    (unslotted q).trans (congrArg PortRecord.unslotted ((port q).trans (if_neg (Ne.symm hne))))
  unfold State.tables at tables_served
  simp only [Prod.mk.injEq] at tables_served
  obtain ⟨topics, fetches, subscriptions⟩ := tables_served
  refine ⟨(serveSlot x p v).1, ?_, queue, deferral, view, ?_, fun y hy => ?_, fun q hne => ⟨?_, ?_⟩, topics, fetches,
    subscriptions, keepsStanding_of (fun q hne => ?_) backdrop_served⟩
  · have reply := actConsume_head (p := p) (s := s) [] hq
    rw [drains, queue, deferral] at reply
    refine (exec_completes_of_session (k := .consume p) (act := actConsume p) rfl rfl hst hp reply).trans ?_
    simp [hlen]
    rfl
  · rw [slot_served, if_pos rfl]
    unfold Slot.served
    dsimp only
    by_cases hn : (s.slot x).pending.erase p = PortSet.none
    · rw [if_pos hn, if_pos hn]; rfl
    · rw [if_neg hn, if_neg hn]
  · rw [slot_served, if_neg (Ne.symm hy)]
  · rw [PortRecord.eq_of_unslotted (other hne)]
  · rw [PortRecord.eq_of_unslotted (other hne)]
  · exact PortRecord.standing_of_unslotted (other hne)

end ending

end Sys2Proof.Machine
end

