-- ==== Sys2Proof/Proofs/Take.lean ====
section
/-! The effects of a take (O35): up to its answers, its placements, and the slot's outcome. -/
namespace Sys2Proof.Machine
set_option Elab.async false

section take
variable {x : SlotName} {i : RecordNo} {s : State}

/-! ## Up to the answers -/

/-- Answers stand in the queue and in the deferral list by what these were. -/
theorem PortRecord.withAnswers_congr {r r' : PortRecord} (n : Nat) (d : Delivery) (hq : r.queue = r'.queue)
    (hd : r.deferral = r'.deferral) : (r.withAnswers n d).queue = (r'.withAnswers n d).queue ∧
      (r.withAnswers n d).deferral = (r'.withAnswers n d).deferral := by
  unfold withAnswers
  rw [hq, hd]
  split <;> exact ⟨rfl, rfl⟩

theorem waitingBy_congr {t : State} (hf : ∀ j, t.fetch j = s.fetch j) (q : Port) (w : Word) :
    waitingBy t q w = waitingBy s q w := by
  unfold waitingBy; simp only [hf]

theorem nextVersion_eq (v : Word) : nextVersion v = if v = 65535 then 1 else v + 1 := rfl

/-- The version a take hands to the slot and its answers (R5). -/
theorem version_stampRecord (i : RecordNo) (v : Option Payload) (s : State) :
    ((stampRecord i v s).topic i).version = nextVersion (s.topic i).version := by
  rw [topic_stampRecord, if_pos rfl]
  unfold TopicRecord.stamped; split <;> rfl

/-- The records of the ports when the fetches of the topic have been answered. -/
theorem port_answeredTake (x : SlotName) (i : RecordNo) (s : State) (q : Port) :
    ∃ r : PortRecord, (answeredTake x i s).port q = r.withAnswers (waitingBy s q (s.slot x).topic)
        (answerDelivery (s.slot x).topic .fresh (s.slot x).value (nextVersion (s.topic i).version) (some x.owner)) ∧
      r.queue = (s.port q).queue ∧ r.deferral = (s.port q).deferral ∧ r.noticesMissed = (s.port q).noticesMissed := by
  have stamped (v : Word) (u : State) : ((stampSlot x v u).port q).queue = (u.port q).queue ∧
      ((stampSlot x v u).port q).deferral = (u.port q).deferral ∧
      ((stampSlot x v u).port q).noticesMissed = (u.port q).noticesMissed := by
    change ((u.modSlot x _).port q).queue = _ ∧ ((u.modSlot x _).port q).deferral = _ ∧
      ((u.modSlot x _).port q).noticesMissed = _
    rw [port_modSlot]; split <;> exact ⟨rfl, rfl, rfl⟩
  have solicited (w : Word) (u : State) : ((removeSolicit x.owner w u).port q).queue = (u.port q).queue ∧
      ((removeSolicit x.owner w u).port q).deferral = (u.port q).deferral ∧
      ((removeSolicit x.owner w u).port q).noticesMissed = (u.port q).noticesMissed := by
    unfold removeSolicit
    rw [port_modPort]; split <;> exact ⟨rfl, rfl, rfl⟩
  have fetch (v w : Word) (j : FetchId) :
      (removeSolicit x.owner w (stampSlot x v (stampRecord i (s.slot x).value s))).fetch j = s.fetch j :=
    fetch_stampRecord i (s.slot x).value s j
  unfold answeredTake; dsimp only
  rw [version_stampRecord, port_answerAll, waitingBy_congr (fetch _ _)]
  obtain ⟨queue, deferral, missed⟩ := stamped (nextVersion (s.topic i).version) (stampRecord i (s.slot x).value s)
  obtain ⟨queue', deferral', missed'⟩ := solicited (s.slot x).topic
    (stampSlot x (nextVersion (s.topic i).version) (stampRecord i (s.slot x).value s))
  rw [port_stampRecord] at queue deferral missed
  exact ⟨_, rfl, queue'.trans queue, deferral'.trans deferral, missed'.trans missed⟩

theorem answeredAll_answeredTake (x : SlotName) (i : RecordNo) (s : State) :
    AnsweredAll s (answeredTake x i s) (s.slot x).topic
      (answerDelivery (s.slot x).topic .fresh (s.slot x).value (nextVersion (s.topic i).version) (some x.owner)) := by
  refine ⟨fetch_answeredTake x i s, fun q => ?_⟩
  obtain ⟨r, port, queue, deferral, -⟩ := port_answeredTake x i s q
  rw [port]
  exact PortRecord.withAnswers_congr _ _ queue deferral

theorem missed_answeredTake (x : SlotName) (i : RecordNo) (s : State) (q : Port) :
    ((answeredTake x i s).port q).noticesMissed = (s.port q).noticesMissed := by
  obtain ⟨r, port, -, -, missed⟩ := port_answeredTake x i s q
  rw [port]
  exact (PortRecord.withAnswers_rest _ _ r).2.1.trans missed

/-! ## The placements and the outcome -/

theorem governing_answeredTake (x : SlotName) (i : RecordNo) (s : State) :
    governing (answeredTake x i s) = governing s := by
  unfold governing State.subscription; rw [subscriptions_answeredTake]

theorem subscription_answeredTake (x : SlotName) (i : RecordNo) (s : State) (j : SubIndex) :
    (answeredTake x i s).subscription j = s.subscription j := by
  unfold State.subscription; rw [subscriptions_answeredTake]

theorem missed_placeAll (x : SlotName) (w : Word) (s : State) (q : Port) :
    ((placeAll x w s).state.port q).noticesMissed = (s.port q).noticesMissed := by
  have port {u : State} {p : Port} {f : PortRecord → PortRecord} (hf : ∀ r, (f r).noticesMissed = r.noticesMissed) :
      ((u.modPort p f).port q).noticesMissed = (u.port q).noticesMissed := by
    rw [port_modPort]; split <;> [exact hf _; rfl]
  refine placeAll_keeps (P := fun u => (u.port q).noticesMissed = (s.port q).noticesMissed) (fun u p j _ hu => ?_) rfl
  refine Eq.trans ?_ hu
  unfold placePost appendDelivery appendDeferral; dsimp only
  split
  · split
    · rw [port_releasePayload, port fun _ => by rfl, port_takePayload]
    · split
      · rw [port fun _ => by rfl, port_takePayload]
      · exact port fun _ => by rfl
  · exact port fun _ => by rfl

theorem unslotted_settleSlot (x : SlotName) (z : Placements) (q : Port) :
    ((settleSlot x z).port q).unslotted = (z.state.port q).unslotted := by
  unfold settleSlot; dsimp only
  split
  · exact (see_finishSlot (unslotted_poolBlind q) (unslotted_slotBlind q) _ _ _).trans (unslotted_modSlot ..)
  · exact (unslotted_modSlot ..).trans (unslotted_modSlot ..)

/-- The record of a port after a take is that of its placement, but for its slots. -/
theorem port_takePost (x : SlotName) (i : RecordNo) (s : State) (q : Port) : (takePost x i s).port q =
    { (placeAll x (s.slot x).topic (answeredTake x i s)).state.port q with slots := ((takePost x i s).port q).slots } := by
  refine PortRecord.eq_of_unslotted ?_
  rw [takePost_eq]; exact unslotted_settleSlot ..

/-- The slot taken, by the ports its placements reached and left pending. -/
theorem slot_takePost (x : SlotName) (i : RecordNo) (s : State) (y : SlotName) : (takePost x i s).slot y =
    if x = y then Slot.settled (placeAll x (s.slot x).topic (answeredTake x i s)).reached
        (placeAll x (s.slot x).topic (answeredTake x i s)).pending s.params.deliveryDeadline
        { s.slot x with version := some (nextVersion (s.topic i).version) }
    else s.slot y := by
  have answered : (answeredTake x i s).backdrop = s.backdrop := by
    unfold answeredTake removeSolicit stampSlot; dsimp only
    rw [backdrop_answerAll, backdrop_modPort, backdrop_order, backdrop_modSlot, backdrop_stampRecord]
  have params : (placeAll x (s.slot x).topic (answeredTake x i s)).state.params = s.params :=
    params_of_backdrop ((backdrop_placeAll _ x (s.slot x).topic).trans answered)
  rw [takePost_eq, slot_settleSlot, slot_placeAll, slot_answeredTake, if_pos rfl, version_stampRecord, params]
  split
  · rfl
  · next e => rw [slot_placeAll, slot_answeredTake, if_neg e]

theorem Slot.settled_reached (reached pending : PortSet) (deadline : Nat) (k : Slot) :
    (k.settled reached pending deadline).reached = reached := by
  unfold Slot.settled; split <;> rfl

/-- An observation that sees none of the ports' lists, slots and solicits, nor the pool, the records and the fetches, sees
nothing of a take. -/
theorem see_takePost {β : Type} {see : State → β} (hq : QueueBlind see) (hp : PoolBlind see) (hs : SlotBlind see)
    (x : SlotName) (i : RecordNo) (s : State) : see (takePost x i s) = see (answeredTake x i s) := by
  rw [takePost_eq]
  unfold settleSlot; dsimp only
  split
  · rw [see_finishSlot hp hs, hs.slot, see_placeAll hq hp]
  · rw [hs.slot, hs.slot, see_placeAll hq hp]

theorem exchange_answeredTake (x : SlotName) (i : RecordNo) (s : State) : (answeredTake x i s).exchange = s.exchange := by
  unfold answeredTake; dsimp only
  rw [see_answerAll (see := State.exchange) ⟨fun _ _ _ => rfl, fun _ _ _ => rfl, fun _ _ _ => rfl⟩ ⟨fun _ _ _ => rfl⟩
    ⟨fun _ _ _ => rfl⟩, see_removeSolicit (see := State.exchange) ⟨fun _ _ _ => rfl⟩]
  exact see_stampRecord (see := State.exchange) ⟨fun _ _ _ => rfl⟩ ⟨fun _ _ _ => rfl⟩ _ _ _

theorem readyOrder_takePost (x : SlotName) (i : RecordNo) (s : State) :
    (takePost x i s).readyOrder = s.readyOrder.filter (· != x) := by
  have answered : (answeredTake x i s).readyOrder = s.readyOrder.filter (· != x) := by
    unfold answeredTake; dsimp only
    rw [see_answerAll (see := State.readyOrder) ⟨fun _ _ _ => rfl, fun _ _ _ => rfl, fun _ _ _ => rfl⟩
      ⟨fun _ _ _ => rfl⟩ ⟨fun _ _ _ => rfl⟩, see_removeSolicit (see := State.readyOrder) ⟨fun _ _ _ => rfl⟩]
    exact congrArg (List.filter (· != x))
      (see_stampRecord (see := State.readyOrder) ⟨fun _ _ _ => rfl⟩ ⟨fun _ _ _ => rfl⟩ i (s.slot x).value s)
  have placed : (placeAll x (s.slot x).topic (answeredTake x i s)).state.readyOrder = s.readyOrder.filter (· != x) :=
    (see_placeAll (see := State.readyOrder) ⟨fun _ _ _ => rfl, fun _ _ _ => rfl, fun _ _ _ => rfl⟩
      ⟨fun _ _ _ => rfl⟩ x _ _).trans answered
  rw [takePost_eq]
  generalize placeAll x (s.slot x).topic (answeredTake x i s) = z at placed
  unfold settleSlot; dsimp only
  split
  · unfold finishSlot; dsimp only
    rw [see_releaseBuffer (see := State.readyOrder) ⟨fun _ _ _ => rfl⟩]
    change z.state.readyOrder.filter _ = _
    rw [placed, List.filter_filter]
    exact List.filter_congr fun y _ => by simp
  · exact placed

/-- A port without a governing entry has no placement. -/
theorem placeAll_untargeted {w : Word} {q : Port} (hg : governing s q (fun e => e.matchesPost w x.owner) = none) :
    (placeAll x w s).state.port q = s.port q ∧ (placeAll x w s).reached.has q = false ∧
      (placeAll x w s).pending.has q = false := by
  have placed := placeAll_placedAt x w s q
  unfold PlacedAt at placed
  rwa [hg] at placed

/-- A port with a governing entry has the placement for it. -/
theorem placeAll_target {w : Word} {q : Port} {j : SubIndex}
    (hg : governing s q (fun e => e.matchesPost w x.owner) = some j) :
    (placeAll x w s).state.port q = (placePost x q j (s.subscription j).latest s).1.port q ∧
      (placeAll x w s).reached.has q = ((placePost x q j (s.subscription j).latest s).2 == .reached) ∧
      (placeAll x w s).pending.has q = ((placePost x q j (s.subscription j).latest s).2 == .pending) := by
  have placed := placeAll_placedAt x w s q
  unfold PlacedAt at placed
  rwa [hg] at placed

/-- The slot of a post whose placements all reached their ports. -/
theorem Slot.settled_of_none {pending : PortSet} (reached : PortSet) (deadline : Nat) (k : Slot)
    (h : pending = PortSet.none) : k.settled reached pending deadline = { k with
      state := .done, buffer := none, pending := PortSet.none, reached := reached, unreached := PortSet.none
      status := some .delivered, deadline := .stopped } := by
  unfold Slot.settled; rw [if_pos h]; rfl

/-- The slot of a post that some port still waits for. -/
theorem Slot.settled_of_pending {pending : PortSet} (reached : PortSet) (deadline : Nat) (k : Slot)
    (h : pending ≠ PortSet.none) : k.settled reached pending deadline = { k with
      state := .deferred, pending := pending, reached := reached, unreached := PortSet.none
      deadline := .running deadline } := by
  unfold Slot.settled; rw [if_neg h]

/-- What the placements bring to each port, from the state of the answers on. -/
theorem placement_takePost (x : SlotName) (i : RecordNo) (s : State) (p : Port) :
    match governing s p fun e => e.matchesPost (s.slot x).topic x.owner with
    | none => ((takePost x i s).port p).queue = ((answeredTake x i s).port p).queue ∧
        ((takePost x i s).port p).deferral = ((answeredTake x i s).port p).deferral
    | some j =>
      ((takePost x i s).port p).queue =
          ((placePost x p j (s.subscription j).latest (answeredTake x i s)).1.port p).queue ∧
        ((takePost x i s).port p).deferral =
          ((placePost x p j (s.subscription j).latest (answeredTake x i s)).1.port p).deferral ∧
        (((takePost x i s).slot x).reached.has p = true ↔
          (placePost x p j (s.subscription j).latest (answeredTake x i s)).2 = .reached) ∧
        (((takePost x i s).slot x).pending.has p = true ↔
          (placePost x p j (s.subscription j).latest (answeredTake x i s)).2 = .pending) := by
  have hr : ((takePost x i s).slot x).reached = (placeAll x (s.slot x).topic (answeredTake x i s)).reached := by
    rw [slot_takePost, if_pos rfl, Slot.settled_reached]
  have hp : ((takePost x i s).slot x).pending = (placeAll x (s.slot x).topic (answeredTake x i s)).pending := by
    rw [slot_takePost, if_pos rfl, Slot.settled_pending]
  have port := port_takePost x i s p
  have governed := congrFun (congrFun (governing_answeredTake x i s) p) fun e => e.matchesPost (s.slot x).topic x.owner
  have subscription (j : SubIndex) := subscription_answeredTake x i s j
  have untargeted := placeAll_untargeted (x := x) (s := answeredTake x i s) (w := (s.slot x).topic) (q := p)
  have target (j : SubIndex) := placeAll_target (x := x) (s := answeredTake x i s) (w := (s.slot x).topic) (q := p) (j := j)
  rw [hr, hp]
  generalize answeredTake x i s = u at *
  generalize takePost x i s = t at *
  generalize placeAll x (s.slot x).topic u = z at *
  cases hg : governing s p fun e => e.matchesPost (s.slot x).topic x.owner with
  | none =>
    obtain ⟨same, -, -⟩ := untargeted (governed.trans hg)
    rw [port, same]; exact ⟨rfl, rfl⟩
  | some j =>
    obtain ⟨same, reached, pending⟩ := target j (governed.trans hg)
    rw [subscription] at same reached pending
    rw [port, same, reached, pending]
    exact ⟨rfl, rfl, beq_iff_eq, beq_iff_eq⟩

/-- The records of the topics after a take (R5, R7). -/
theorem topic_takePost (x : SlotName) (i : RecordNo) (s : State) (j : RecordNo) : (takePost x i s).topic j =
    if i = j then (s.topic i).stamped (s.slot x).value else s.topic j := by
  rw [see_takePost (see := fun u => u.topic j) ⟨fun _ _ _ => rfl, fun _ _ _ => rfl, fun _ _ _ => rfl⟩
    ⟨fun _ _ _ => rfl⟩ ⟨fun _ _ _ => rfl, fun _ _ => rfl⟩, topic_answeredTake]

theorem fetch_takePost (x : SlotName) (i : RecordNo) (s : State) (j : FetchId) : (takePost x i s).fetch j =
    if waitsOn (s.slot x).topic (s.fetch j) then none else s.fetch j := by
  rw [see_takePost (see := fun u => u.fetch j) ⟨fun _ _ _ => rfl, fun _ _ _ => rfl, fun _ _ _ => rfl⟩
    ⟨fun _ _ _ => rfl⟩ ⟨fun _ _ _ => rfl, fun _ _ => rfl⟩, fetch_answeredTake]

theorem solicits_takePost (x : SlotName) (i : RecordNo) (s : State) (q : Port) : ((takePost x i s).port q).solicits =
    if x.owner = q then (s.port q).solicits.filter (· != (s.slot x).topic) else (s.port q).solicits := by
  have placed : ((placeAll x (s.slot x).topic (answeredTake x i s)).state.port q).solicits =
      ((answeredTake x i s).port q).solicits := by
    refine see_placeAll (see := fun u => (u.port q).solicits) ⟨fun u p g => ?_, fun u p g => ?_, fun u p g => ?_⟩
      ⟨fun _ _ _ => rfl⟩ x _ _ <;> (rw [port_modPort]; split <;> rfl)
  rw [port_takePost, placed, solicits_answeredTake]

theorem missed_takePost (x : SlotName) (i : RecordNo) (s : State) (q : Port) :
    ((takePost x i s).port q).noticesMissed = (s.port q).noticesMissed := by
  rw [port_takePost, missed_placeAll, missed_answeredTake]

/-- The target set is parted into the ports reached and the ports pending (R44). -/
theorem targets_takePost (x : SlotName) (i : RecordNo) (s : State) (p : Port) :
    (((takePost x i s).slot x).reached.has p || ((takePost x i s).slot x).pending.has p) =
        (governing s p fun e => e.matchesPost (s.slot x).topic x.owner).isSome ∧
      (((takePost x i s).slot x).reached.has p && ((takePost x i s).slot x).pending.has p) = false := by
  rw [slot_takePost, if_pos rfl, Slot.settled_reached, Slot.settled_pending]
  cases hg : governing s p (fun e => e.matchesPost (s.slot x).topic x.owner) with
  | none =>
    obtain ⟨-, hr, hp⟩ := placeAll_untargeted (s := answeredTake x i s) (by rw [governing_answeredTake]; exact hg)
    rw [hr, hp]; exact ⟨rfl, rfl⟩
  | some j =>
    obtain ⟨-, hr, hp⟩ := placeAll_target (s := answeredTake x i s) (by rw [governing_answeredTake]; exact hg)
    rw [hr, hp]
    cases (placePost x p j ((answeredTake x i s).subscription j).latest (answeredTake x i s)).2 <;> exact ⟨rfl, rfl⟩

/-- The slot of a post is DONE and DELIVERED when no port is pending, and DEFERRED otherwise (R45). -/
theorem slot_takePost_self (x : SlotName) (i : RecordNo) (s : State) :
    (((takePost x i s).slot x).pending = PortSet.none → (takePost x i s).slot x = { s.slot x with
      state := .done, version := some (nextVersion (s.topic i).version), buffer := none, pending := PortSet.none
      reached := ((takePost x i s).slot x).reached, unreached := PortSet.none, status := some .delivered
      deadline := .stopped }) ∧
    (((takePost x i s).slot x).pending ≠ PortSet.none → (takePost x i s).slot x = { s.slot x with
      state := .deferred, version := some (nextVersion (s.topic i).version)
      pending := ((takePost x i s).slot x).pending, reached := ((takePost x i s).slot x).reached
      unreached := PortSet.none, deadline := .running s.params.deliveryDeadline }) := by
  rw [slot_takePost, if_pos rfl, Slot.settled_reached, Slot.settled_pending]
  exact ⟨Slot.settled_of_none _ _ _, Slot.settled_of_pending _ _ _⟩

/-- Settles O35. -/
theorem takeStampsAndSettles : Obligations.TakeStampsAndSettles := by
  intro s x i hx hf hready
  refine ⟨takePost x i s, ?_, ⟨fun j => ?_, fun y hy => ?_, (slot_takePost_self x i s).1, (slot_takePost_self x i s).2,
    targets_takePost x i s, fetch_takePost x i s, fun q => ?_,
    ⟨answeredTake x i s, answeredAll_answeredTake x i s, ?_, fun p => ?_⟩, missed_takePost x i s, fun h => ?_, ?_⟩, ?_, ?_,
    keepsStanding_of (fun q _ => standing_takePost x i s q) (backdrop_takePost s x i)⟩
  · change Host.Outcome.next (dispatch s) = _
    unfold dispatch
    rw [hx]; dsimp only
    rw [hf]
  · rw [topic_takePost]
    by_cases e : i = j
    · subst e
      rw [if_pos rfl, if_neg (not_not.mpr rfl)]
      generalize s.topic i = r
      obtain ⟨_, _, kind, _, _, _, _, _, _⟩ := r
      cases kind <;> rfl
    · rw [if_neg e, if_pos (Ne.symm e)]
  · rw [slot_takePost, if_neg (Ne.symm hy)]
  · rw [solicits_takePost]
    by_cases e : x.owner = q
    · rw [if_pos e, if_pos e.symm]
      exact List.filter_congr fun w _ => by rw [decide_not]; rfl
    · rw [if_neg e, if_neg (Ne.symm e)]
  · rw [slot_answeredTake, if_pos rfl, version_stampRecord, nextVersion_eq]
  · have placement := placement_takePost x i s p
    cases hg : governing s p fun e => e.matchesPost (s.slot x).topic x.owner <;> rw [hg] at placement <;> exact placement
  · exact (poolLaw_iff.mpr (poolOwes_takePost (findTopic_some hf).1 (poolLaw_iff.mp h))).references
  · rw [readyOrder_takePost]
    exact List.filter_congr fun y _ => by rw [decide_not]; rfl
  · exact (see_takePost subscriptions_queues subscriptions_pool subscriptions_slots x i s).trans
      (subscriptions_answeredTake x i s)
  · exact (see_takePost (see := State.exchange) ⟨fun _ _ _ => rfl, fun _ _ _ => rfl, fun _ _ _ => rfl⟩
      ⟨fun _ _ _ => rfl⟩ ⟨fun _ _ _ => rfl, fun _ _ => rfl⟩ x i s).trans (exchange_answeredTake x i s)

end take

end Sys2Proof.Machine
end

