-- ==== Sys2Proof/Proofs/DrainEnd.lean ====
section
/-! The end of a drain (O39): the report of a port's last DEFERRED slot brings its teardown, whatever was reported before
it, and no later teardown touches the port again. -/
namespace Sys2Proof.Machine
set_option Elab.async false

section drains
variable {s : State} {p : Port}

/-! ## The reports of an event -/

/-- The reports of an event leave the record of a port that is not LEAVING alone, but for its slots. -/
theorem unslotted_handleReports {n : Nat} {l : List Port} (h : (s.port p).state ≠ .leaving) :
    ((handleReports n l s).port p).unslotted = (s.port p).unslotted := by
  refine handleReports_keeps (P := fun u => (u.port p).unslotted = (s.port p).unslotted) (fun u r hr hu => ?_) n l rfl
  have hne : r ≠ p := by
    rintro rfl
    exact h ((congrArg PortRecord.state hu).symm.trans ((drainEnded_iff u r).1 hr).1)
  rw [unslotted_teardown, if_neg hne]; exact hu

theorem Slot.outlived_not_deferred {k : Slot} (c : Port) (h : k.state ≠ .deferred) : (k.outlived c).state ≠ .deferred := by
  unfold Slot.outlived
  split
  · rw [Slot.state_failed]; split <;> [exact nofun; exact h]
  · exact h

/-- The teardown of another port does not undo the end of a drain. -/
theorem drainEnded_teardown {b : Bool} {r : Port} (hx : SlotLaw s) (hne : r ≠ p) (h : drainEnded s p = true) :
    drainEnded (teardown b r s).1 p = true := by
  obtain ⟨leaving, none⟩ := (drainEnded_iff s p).mp h
  refine (drainEnded_iff _ p).mpr ⟨by rw [state_teardown, if_neg hne]; exact leaving, fun k => ?_⟩
  rw [slot_teardown hx, if_neg (Ne.symm hne)]
  exact Slot.outlived_not_deferred r (none k)

theorem PortRecord.session_of_unslotted {r r' : PortRecord} (h : r.unslotted = r'.unslotted) :
    r.state = r'.state ∧ r.score = r'.score := ⟨(congrArg PortRecord.state h :), (congrArg PortRecord.score h :)⟩

theorem score_teardown (p : Port) (s : State) : ((teardown false p s).1.port p).score = 0 := by
  rw [port_teardown, if_pos rfl]; rfl

/-- A reported port whose drain has ended is torn down (R55, R121). -/
theorem offline_handleReports {n : Nat} {l : List Port} (hn : l.length + deferredTotal s ≤ n) (hx : SlotLaw s)
    (hm : p ∈ l) (h : drainEnded s p = true) :
    ((handleReports n l s).port p).state = .offline ∧ ((handleReports n l s).port p).score = 0 := by
  induction n generalizing l s with
  | zero =>
    have nil : l = [] := List.eq_nil_of_length_eq_zero (by omega)
    subst nil; cases hm
  | succ n ih =>
    cases l with
    | nil => cases hm
    | cons r l =>
      rw [List.length_cons] at hn
      rw [handleReports]
      by_cases hr : drainEnded s r = true
      · rw [if_pos hr]; dsimp only
        by_cases e : r = p
        · subst e
          have state : ((teardown false r s).1.port r).state = .offline := (state_teardown ..).trans (if_pos rfl)
          have score := score_teardown r s
          obtain ⟨sameState, sameScore⟩ := PortRecord.session_of_unslotted
            (unslotted_handleReports (n := n) (l := l ++ (teardown false r s).2) (by rw [state]; exact nofun))
          exact ⟨sameState.trans state, sameScore.trans score⟩
        · have total := deferredTotal_teardown hx false r
          refine ih (by rw [List.length_append]; omega) (slotLaw_teardown ((drainEnded_iff s r).mp hr).2 hx) ?_
            (drainEnded_teardown hx e h)
          exact List.mem_append_left _ ((List.mem_cons.mp hm).resolve_left (Ne.symm e))
      · rw [if_neg hr]
        refine ih (by omega) hx ((List.mem_cons.mp hm).resolve_left fun e => hr (e ▸ h)) h

/-- From `s` to `t` the drain of the port has ended in its teardown, beside what the event does to the touched ports. -/
def Drained (s : State) (p : Port) (touched : Port → Prop) (t : State) : Prop :=
  (t.port p).state = .offline ∧ (t.port p).score = 0 ∧ HoldsNothing t p ∧
    KeepsStanding (fun q => (s.port q).state = .leaving ∨ touched q) s t

theorem drained_endDrains {y : State × List Port} {touched : Port → Prop} (hn : y.2.length ≤ 48) (hx : SlotLaw y.1)
    (hm : p ∈ y.2) (h : drainEnded y.1 p = true) (law : SessionLaw (endDrains y))
    (hq : ∀ q, ¬ touched q → (y.1.port q).standing = (s.port q).standing) (hb : y.1.backdrop = s.backdrop) :
    Drained s p touched (endDrains y) := by
  obtain ⟨offline, score⟩ := offline_handleReports (n := 64) (by have := deferredTotal_le_sixteen y.1; omega) hx hm h
  refine ⟨offline, score, law.closed p (.inl offline), keepsStanding_of (fun q hne => ?_) ((backdrop_endDrains y).trans hb)⟩
  have standing := hq q fun e => hne (.inr e)
  rw [standing_endDrains, standing]
  rw [PortRecord.state_of_standing standing]
  exact fun e => hne (.inl e)

/-! ## The five ends -/

section ends
variable {k : SlotNo} {c : Port}

/-- The port's last DEFERRED slot ends by itself. -/
theorem drained_endDeferred (status : Completion) (h : SessionsLawful s) (hp : (s.port p).state = .leaving)
    (hk : (s.slot ⟨p, k⟩).state = .deferred) (hl : ∀ l, l ≠ k → (s.slot ⟨p, l⟩).state ≠ .deferred) :
    Drained s p (fun _ => False) (endDrains (endDeferred ⟨p, k⟩ status s, [p])) := by
  refine drained_endDrains (y := (endDeferred ⟨p, k⟩ status s, [p])) (by simp) (slotLaw_endDeferred _ status h.slots)
    (List.mem_singleton_self p) ((drainEnded_iff _ p).mpr ⟨?_, fun l => ?_⟩)
    (sessionLaw_deferredEnded (x := ⟨p, k⟩) status hk h.slots h.directory h.sessions)
    (fun q _ => see_endDeferred (standing_queueBlind q) (standing_poolBlind q) (standing_slotBlind q) _ status s)
    (backdrop_endDeferred _ _ status)
  · rw [state_endDeferred]; exact hp
  · rw [slot_endDeferred]; split
    · exact nofun
    · next e => exact hl l fun e' => e (by rw [e'])

theorem PortSet.has_of_erase_eq_none {a : PortSet} (h : a.erase c = PortSet.none) (ha : a ≠ PortSet.none) :
    a.has c = true := by
  by_contra hc
  refine ha (PortSet.eq_none_iff.mpr fun q => ?_)
  by_cases e : c = q
  · subst e; exact Bool.eq_false_iff.mpr hc
  · have := PortSet.eq_none_iff.mp h q
    rwa [PortSet.has_erase, if_neg e] at this

/-- A DEFERRED slot waits for the port that is its last pending one. -/
theorem SlotLaw.pending_last {x : SlotName} (h : SlotLaw s) (hk : (s.slot x).state = .deferred)
    (hc : (s.slot x).pending.erase c = PortSet.none) : (s.slot x).pending.has c = true := by
  have fields := h.fields x
  unfold Slot.fitsState at fields
  rw [hk] at fields
  obtain ⟨-, -, nonempty, -⟩ := fields
  exact PortSet.has_of_erase_eq_none hc nonempty

/-- The port's last DEFERRED slot loses its last pending port to a teardown. -/
theorem drained_teardown {b : Bool} {u : State} {touched : Port → Prop} (hx : SlotLaw u) (hc : NoneDeferred c u)
    (hne : c ≠ p) (hp : (u.port p).state = .leaving) (hk : (u.slot ⟨p, k⟩).state = .deferred)
    (hl : ∀ l, l ≠ k → (u.slot ⟨p, l⟩).state ≠ .deferred) (hlast : (u.slot ⟨p, k⟩).pending.erase c = PortSet.none)
    (law : SessionLaw (endDrains (teardown b c u))) (htouched : touched c)
    (hq : ∀ q, ¬ touched q → (u.port q).standing = (s.port q).standing) (hb : u.backdrop = s.backdrop) :
    Drained s p touched (endDrains (teardown b c u)) := by
  have pending := hx.pending_last hk hlast
  refine drained_endDrains (length_reports_teardown hx b c) (slotLaw_teardown hc hx)
    ((mem_reports_teardown hx).mpr ⟨⟨p, k⟩, rfl, pending, hlast⟩) ((drainEnded_iff _ p).mpr ⟨?_, fun l => ?_⟩) law
    (fun q hn => ?_) ((backdrop_teardown ..).trans hb)
  · rw [state_teardown, if_neg hne]; exact hp
  · rw [slot_teardown hx, if_neg (Ne.symm hne)]
    by_cases e : l = k
    · subst e
      unfold Slot.outlived
      rw [if_pos pending, Slot.state_failed, if_pos hlast]; exact nofun
    · exact Slot.outlived_not_deferred c (hl l e)
  · rw [standing_teardown, if_neg fun e : c = q => hn (e ▸ htouched)]; exact hq q hn

section served
variable {d : Delivery} {rest : List Delivery} {x : SlotName} {i : SubIndex} {m : Bool} {entries : List DeferralEntry}
  (hr : rest.length < 32) (hd : (s.port c).deferral = .slot x i m :: entries)
include hr hd

/-- The records of the ports, but for their slots, when a deferred post has moved in. -/
theorem unslotted_consumption (q : Port) : ((consumption c d rest s).1.port q).unslotted =
    (if c = q then PortRecord.consumed (rest ++ [postDelivery (s.slot x) x.owner i m]) entries (s.port q)
      else s.port q).unslotted := by
  rw [consumption_slot hr hd, see_serveSlot (unslotted_poolBlind q) (unslotted_slotBlind q), port_takePayload, port_modPort,
    port_releasePayload]

theorem slot_consumption_served (y : SlotName) :
    (consumption c d rest s).1.slot y = if x = y then (s.slot y).served c else s.slot y := by
  rw [consumption_slot hr hd, slot_serveSlot, slot_takePayload, slot_modPort _ (consumed_slots _ _), slot_releasePayload]

theorem reports_consumption_served :
    (consumption c d rest s).2 = if (s.slot x).pending.erase c = PortSet.none then [x.owner] else [] := by
  rw [consumption_slot hr hd, reports_serveSlot, slot_takePayload, slot_modPort _ (consumed_slots _ _), slot_releasePayload]

end served

/-- The port's last DEFERRED slot is served at its last pending port. -/
theorem drained_consumption {d : Delivery} {rest : List Delivery} {i : SubIndex} {m : Bool} {entries : List DeferralEntry}
    (h : SessionsLawful s) (hp : (s.port p).state = .leaving)
    (hl : ∀ l, l ≠ k → (s.slot ⟨p, l⟩).state ≠ .deferred) (hq : (s.port c).queue = d :: rest) (hr : rest.length < 32)
    (hd : (s.port c).deferral = .slot ⟨p, k⟩ i m :: entries)
    (hlast : (s.slot ⟨p, k⟩).pending.erase c = PortSet.none) : Drained s p (fun q => q = c) (consumeHead c s) := by
  have laws := sessionLaw_consumeHead (p := c) (by rw [hq]; exact nofun) h.slots h.directory h.sessions
  rw [consumeHead_eq hq] at laws ⊢
  refine drained_endDrains (length_reports_consumption.trans (by omega)) (slotLaw_consumption h.slots)
    (by rw [reports_consumption_served hr hd, if_pos hlast]; exact List.mem_singleton_self p)
    ((drainEnded_iff _ p).mpr ⟨(state_consumption p).trans hp, fun l => ?_⟩) laws (fun q hne => ?_)
    (backdrop_consumption ..)
  · rw [slot_consumption_served hr hd]
    split
    · next e => rw [← e, Slot.state_served, if_pos hlast]; exact nofun
    · next e => exact hl l fun e' => e (by rw [e'])
  · refine PortRecord.standing_of_unslotted ((unslotted_consumption hr hd q).trans ?_)
    rw [if_neg fun e => hne e.symm]

end ends

/-! ## The fault that quarantines a port -/

/-- What a fault writes into its port's record before the quarantine: nothing of the session. -/
structure Faulting (f : PortRecord → PortRecord) : Prop where
  state : ∀ r, (f r).state = r.state
  slots : ∀ r, (f r).slots = r.slots
  queue : ∀ r, (f r).queue = r.queue
  deferral : ∀ r, (f r).deferral = r.deferral
  solicits : ∀ r, (f r).solicits = r.solicits
  noticesMissed : ∀ r, (f r).noticesMissed = r.noticesMissed
  mask : ∀ r, (f r).mask = r.mask
  view : ∀ r, (f r).view = r.view
  score : ∀ r, (f r).score = min 255 (r.score + 16)

/-- A frame at fault that brings the score to the threshold quarantines its port (R125, R145, R146). -/
theorem exec_quarantiningFrame {transaction : Transaction} {bytes : List Byte} (hends : FrameEnds s p transaction bytes)
    (hf : Faulted s p bytes) (hst : (s.port p).state ≠ .quarantined)
    (ht : s.params.quarThreshold ≤ min 255 ((s.port p).score + 16)) :
    ∃ f, Faulting f ∧ exec (.requestFrame p transaction) s = .next (quarantine p (s.modPort p f)) := by
  have scored (kind : FaultKind) (f : PortRecord → PortRecord) (hstate : (f (s.port p)).state = (s.port p).state)
      (hscore : (f (s.port p)).score = (s.port p).score) :
      scoreFault p kind (s.modPort p f) = quarantine p (s.modPort p fun r => (f r).faulted kind) := by
    rw [scoreFault_threshold _ (by rw [port_modPort_same, hstate]; exact hst)
      (by rw [port_modPort_same, hscore]; exact ht), modPort_modPort]
  cases hq : (s.port p).inProgress with
  | some q =>
    refine ⟨_, ?_, (exec_busyFrame hends (by rw [hq]; rfl)).trans (congrArg Host.Outcome.next (scored .busy _ rfl rfl))⟩
    constructor <;> exact fun _ => rfl
  | none =>
    obtain ⟨kind, hkind⟩ : ∃ kind, frameFault bytes = some kind := by
      rcases hf with h | h
      · rw [hq] at h; cases h
      · exact Option.isSome_iff_exists.1 h
    refine ⟨_, ?_, (exec_faultyFrame hends hq hkind).trans (congrArg Host.Outcome.next (scored kind _ rfl rfl))⟩
    constructor <;> exact fun _ => rfl

section quarantined
variable {f : PortRecord → PortRecord} {c : Port} {k : SlotNo}

/-- The fault keeps the laws of the sessions. -/
theorem Faulting.sessions (hf : Faulting f) (h : SessionsLawful s) :
    SlotLaw (s.modPort c f) ∧ DirectoryLaw (s.modPort c f) ∧ SessionLaw (s.modPort c f) := by
  refine ⟨?_, directoryLaw_kept (fun q hq => ?_) (fun present hd => ?_) h.directory,
    sessionLaw_modPort hf.state hf.slots hf.queue hf.deferral hf.solicits hf.noticesMissed h.sessions⟩
  · rw [slotLaw_modPort_eq s hf.slots hf.deferral]; exact h.slots
  · unfold Online; rw [port_modPort]; split <;> [(rw [hf.state]; exact hq); exact hq]
  · rw [directoryHolds_modPort_eq s hf.slots hf.solicits]; exact hd

theorem Faulting.port_state (hf : Faulting f) (q : Port) : ((s.modPort c f).port q).state = (s.port q).state := by
  rw [port_modPort]; split <;> [exact hf.state _; rfl]

theorem slot_departed {y : SlotName} (hy : y.owner ≠ c) : (departed c s).slot y = s.slot y := by
  have cut : (cutRequest c s).slot y = s.slot y := by
    unfold cutRequest; exact slot_modPort _ (fun _ => by rfl) y
  unfold departed
  split
  · rw [slot_leaveEffects, if_neg hy, cut]
  · exact cut

theorem slot_abortDeferredSlots {y : SlotName} (hy : y.owner ≠ c) : (abortDeferredSlots c s).slot y = s.slot y := by
  refine abortDeferredSlots_keeps (P := fun u => u.slot y = s.slot y) (fun u x hx _ hu => ?_) rfl
  rw [slot_endDeferred, if_neg]
  · exact hu
  · rintro rfl; exact hy hx

theorem backdrop_departed (c : Port) (s : State) : (departed c s).backdrop = s.backdrop := by
  unfold departed
  split
  · rw [backdrop_leaveEffects]; rfl
  · rfl

/-- The state of a quarantined port before its teardown, for the ports beside it. -/
theorem beside_quarantine {q : Port} (hne : c ≠ q) :
    ((abortDeferredSlots c (departed c s)).port q).standing = (s.port q).standing := by
  rw [standing_abortDeferredSlots, standing_departed, if_neg hne]

theorem Drained.startHold {touched : Port → Prop} {t : State} (hne : c ≠ p) (hc : touched c) (h : Drained s p touched t) :
    Drained s p touched (startHold c t) := by
  obtain ⟨offline, score, holds, standing, bytes, params, divider, sequence⟩ := h
  unfold Machine.startHold
  refine ⟨?_, ?_, ?_, fun q hn => ?_, bytes, params, divider, sequence⟩
  · rw [port_modPort, if_neg hne]; exact offline
  · rw [port_modPort, if_neg hne]; exact score
  · rw [HoldsNothing.modPort_ne _ hne]; exact holds
  · rw [port_modPort, if_neg fun e : c = q => hn (.inr (e ▸ hc))]; exact standing q hn

/-- The quarantine of the last pending port ends the drain. -/
theorem drained_quarantine (hc : (s.port c).state = .online ∨ (s.port c).state = .leaving) (hne : c ≠ p)
    (hx : SlotLaw s) (hd : DirectoryLaw s) (h : SessionLaw s) (hp : (s.port p).state = .leaving)
    (hk : (s.slot ⟨p, k⟩).state = .deferred) (hl : ∀ l, l ≠ k → (s.slot ⟨p, l⟩).state ≠ .deferred)
    (hlast : (s.slot ⟨p, k⟩).pending.erase c = PortSet.none) :
    Drained s p (fun q => q = c) (quarantine c s) := by
  obtain ⟨slots, directory, torn, few⟩ := torn_quarantined hc hx hd h
  have law := sessionLaw_endDrains few slots directory torn
  have aborted := (aborted_departed hc hx hd h).1
  have slot (l : SlotNo) : (abortDeferredSlots c (departed c s)).slot ⟨p, l⟩ = s.slot ⟨p, l⟩ := by
    rw [slot_abortDeferredSlots (Ne.symm hne), slot_departed (Ne.symm hne)]
  have state : ((abortDeferredSlots c (departed c s)).port p).state = .leaving := by
    rw [state_abortDeferredSlots, state_departed]; exact hp
  have backdrop : (abortDeferredSlots c (departed c s)).backdrop = s.backdrop := by
    rw [backdrop_abortDeferredSlots, backdrop_departed]
  have none := noneDeferred_abortDeferredSlots c (departed c s)
  have standing (q : Port) (hq : ¬ q = c) := beside_quarantine (s := s) (c := c) (q := q) (Ne.symm hq)
  rw [quarantine_session hc]
  refine Drained.startHold hne rfl ?_
  generalize abortDeferredSlots c (departed c s) = u at law aborted slot state backdrop none standing ⊢
  exact drained_teardown aborted none hne state (by rw [slot]; exact hk) (fun l e => by rw [slot]; exact hl l e)
    (by rw [slot]; exact hlast) law rfl standing backdrop

theorem Drained.of_faulting {t : State} (hf : Faulting f) (h : Drained (s.modPort c f) p (fun q => q = c) t) :
    Drained s p (fun q => q = c) t := by
  obtain ⟨offline, score, holds, standing, bytes, params, divider, sequence⟩ := h
  refine ⟨offline, score, holds, fun q hn => ?_, bytes, params, divider, sequence⟩
  have same := standing q (by rw [hf.port_state]; exact hn)
  rwa [port_modPort, if_neg fun e : c = q => hn (.inr e.symm)] at same

end quarantined

/-! ## The LEAVE that needs no drain -/

section leave
variable {c : Port} {k : SlotNo}

theorem leavePort_atOnce (h : ∀ k, (s.slot ⟨c, k⟩).state ≠ .deferred) : leavePort c s =
    endDrains (teardown false c (leaveEffects c (s.modPort c fun r => { r with state := .leaving }))) := by
  unfold leavePort; dsimp only
  rw [if_pos]
  refine deferredSlots_eq_zero.mpr fun k hk => h k ?_
  rwa [deferred_leaveEffects, slot_modPort _ fun _ => by rfl] at hk

/-- A port whose LEAVE needs no drain is OFFLINE and holds nothing (R122, R123). -/
theorem offline_leavePort (hs : SessionsLawful s) (h : ∀ k, (s.slot ⟨c, k⟩).state ≠ .deferred) :
    ((leavePort c s).port c).state = .offline ∧ HoldsNothing (leavePort c s) c := by
  have offline : ((leavePort c s).port c).state = .offline := by
    rw [leavePort_atOnce h]
    exact (state_endDrains (by rw [state_teardown, if_pos rfl]; exact nofun)).trans ((state_teardown ..).trans (if_pos rfl))
  exact ⟨offline, (sessionLaw_leavePort hs.slots hs.directory hs.sessions).closed c (.inl offline)⟩

theorem actLeave_atOnce (args : List Byte) (hs : SessionsLawful s) (h : ∀ k, (s.slot ⟨c, k⟩).state ≠ .deferred) :
    actLeave c args s = { state := leavePort c s, result := .ok, body := [0x00, 0x00] } := by
  obtain ⟨offline, holds⟩ := offline_leavePort hs h
  have none : deferredSlots (leavePort c s) c = 0 :=
    deferredSlots_eq_zero.mpr fun k => by rw [holds.slots]; exact nofun
  unfold actLeave; dsimp only
  rw [offline, none]; rfl

/-- The record of a port beside the LEAVE, at its end but for the drains. -/
theorem beside_leave {q : Port} (hne : c ≠ q) :
    ((leaveEffects c (s.modPort c fun r => { r with state := .leaving })).port q).standing = (s.port q).standing := by
  rw [standing_leaveEffects, port_modPort, if_neg hne]

/-- The LEAVE of the last pending port ends the drain. -/
theorem drained_leavePort (h : SessionsLawful s) (hnone : ∀ l, (s.slot ⟨c, l⟩).state ≠ .deferred) (hne : c ≠ p)
    (hp : (s.port p).state = .leaving) (hk : (s.slot ⟨p, k⟩).state = .deferred)
    (hl : ∀ l, l ≠ k → (s.slot ⟨p, l⟩).state ≠ .deferred)
    (hlast : (s.slot ⟨p, k⟩).pending.erase c = PortSet.none) : Drained s p (fun q => q = c) (leavePort c s) := by
  have law := sessionLaw_leavePort (p := c) h.slots h.directory h.sessions
  have slotLaw := slotLaw_leaving (p := c) h.slots
  have slot (l : SlotNo) : (leaveEffects c (s.modPort c fun r => { r with state := .leaving })).slot ⟨p, l⟩ =
      s.slot ⟨p, l⟩ := by
    rw [slot_leaveEffects, if_neg (Ne.symm hne), slot_modPort _ fun _ => by rfl]
  have none : NoneDeferred c (leaveEffects c (s.modPort c fun r => { r with state := .leaving })) := fun l => by
    rw [Ne, deferred_leaveEffects, slot_modPort _ fun _ => by rfl]; exact hnone l
  have state : ((leaveEffects c (s.modPort c fun r => { r with state := .leaving })).port p).state = .leaving := by
    rw [PortRecord.state_of_standing (beside_leave hne)]; exact hp
  have standing (q : Port) (hq : ¬ q = c) := beside_leave (s := s) (c := c) (q := q) (Ne.symm hq)
  have backdrop : (leaveEffects c (s.modPort c fun r => { r with state := .leaving })).backdrop = s.backdrop :=
    backdrop_leaveEffects ..
  rw [leavePort_atOnce hnone] at law ⊢
  generalize leaveEffects c (s.modPort c fun r => { r with state := .leaving }) = u
    at law slotLaw slot none state standing backdrop ⊢
  exact drained_teardown slotLaw none hne state (by rw [slot]; exact hk) (fun l e => by rw [slot]; exact hl l e)
    (by rw [slot]; exact hlast) law rfl standing backdrop

end leave

/-- Settles O39. -/
theorem drainEndsInTeardown : Obligations.DrainEndsInTeardown := by
  intro s p k h hp hk hl drained lastAt
  refine ⟨fun hdue => ⟨_, ?_, drained_endDeferred .partially h hp hk hl⟩, fun tag slot hreq hs => ⟨_,
    exec_accepted_of_session (k := .abortPost p) (act := actAbortPost p) rfl rfl (.inr hp) hreq
      (actAbortPost_deferred hs hk), drained_endDeferred .aborted h hp hk hl⟩,
    fun c tag i m d rest entries hreq hst hq hd hlast => ?_, fun c tag hreq ho hnone hlast => ?_,
    fun c transaction bytes hne hends hfault hst ht hlast => ?_⟩
  · change Host.Outcome.next (expireDelivery ⟨p, k⟩ s) = _
    unfold expireDelivery
    rw [if_pos ⟨hk, hdue⟩]
  · have full := h.queues.full c (by rw [hd]; exact nofun)
    rw [hq, List.length_cons] at full
    have lt : rest.length < 32 := by omega
    have ends := drained_consumption h hp hl hq lt hd hlast
    have consumed := exec_completes_of_session (k := .consume c) (act := actConsume c) rfl rfl hst hreq
      (actConsume_head [] hq)
    dsimp only at consumed
    refine ⟨consumeHead c s, _, consumed, ends, fun e => ?_, fun ho => ?_⟩
    · subst e
      obtain ⟨-, -, holds, -⟩ := ends
      rw [holds.queue, holds.deferral]; rfl
    · have record : ((consumeHead c s).port c).unslotted = (PortRecord.consumed
          (rest ++ [postDelivery (s.slot ⟨p, k⟩) p i m]) entries (s.port c)).unslotted := by
        rw [consumeHead_eq hq, unslotted_endDrains (by rw [state_consumption, ho]; exact nofun),
          unslotted_consumption lt hd, if_pos rfl]
      rw [PortRecord.eq_of_unslotted record]
      refine ⟨?_, rfl, rfl, rfl⟩
      have length : (rest ++ [postDelivery (s.slot ⟨p, k⟩) p i m]).length = 32 := by simp; omega
      change [numByte (rest ++ [postDelivery (s.slot ⟨p, k⟩) p i m]).length, numByte entries.length] = _
      rw [length]; rfl
  · have hne : c ≠ p := by rintro rfl; rw [hp] at ho; cases ho
    have left := exec_completes_of_online (k := .leave c) (act := actLeave c) rfl nofun nofun hreq ho
      (actLeave_atOnce [] h hnone)
    dsimp only at left
    exact ⟨leavePort c s, left, drained_leavePort h hnone hne hp hk hl hlast⟩
  · have open_ : (s.port c).state ≠ .quarantined := by rcases hst with e | e <;> rw [e] <;> exact nofun
    obtain ⟨f, hf, exec⟩ := exec_quarantiningFrame hends hfault open_ ht
    obtain ⟨slots, directory, sessions⟩ := hf.sessions (c := c) h
    have slot (l : SlotNo) : (s.modPort c f).slot ⟨p, l⟩ = s.slot ⟨p, l⟩ := slot_modPort s hf.slots _
    refine ⟨_, exec, Drained.of_faulting hf (drained_quarantine (k := k) ?_ hne slots directory sessions ?_ ?_
      (fun l e => ?_) ?_)⟩
    · rw [hf.port_state]; exact hst
    · rw [hf.port_state]; exact hp
    · rw [slot]; exact hk
    · rw [slot]; exact hl l e
    · rw [slot]; exact hlast

end drains

end Sys2Proof.Machine
end

