-- ==== Sys2Proof/Proofs/Orphaning.lean ====
section
/-! The LEAVE effects in terms of the state before them: what they make of the topics, the fetches and the solicits, and what
the orphanings bring to the lists of the other ports. The orphanings run one after another, each on the state the one
before it left; `Orphaning` says what of the first state is still read of that. -/
namespace Sys2Proof.Machine
set_option Elab.async false

/-! ## The lists of a port -/

/-- What the orphanings bring to a port goes into these. -/
def PortRecord.lists (r : PortRecord) : List Delivery × List DeferralEntry × Nat :=
  (r.queue, r.deferral, r.noticesMissed)

theorem PortRecord.lists_iff {r r' : PortRecord} : r.lists = r'.lists ↔
    r.queue = r'.queue ∧ r.deferral = r'.deferral ∧ r.noticesMissed = r'.noticesMissed := by
  unfold lists; rw [Prod.mk.injEq, Prod.mk.injEq]

theorem PortRecord.lists_withAnswers {r r' : PortRecord} (n : Nat) (d : Delivery) (h : r.lists = r'.lists) :
    (r.withAnswers n d).lists = (r'.withAnswers n d).lists := by
  obtain ⟨queue, deferral, missed⟩ := lists_iff.mp h
  obtain ⟨queues, deferrals⟩ := withAnswers_congr n d queue deferral
  rw [lists_iff, (withAnswers_rest n d r).2.1, (withAnswers_rest n d r').2.1]
  exact ⟨queues, deferrals, missed⟩

theorem PortRecord.lists_withNotice {r r' : PortRecord} (d : Delivery) (h : r.lists = r'.lists) :
    (r.withNotice d).lists = (r'.withNotice d).lists := by
  obtain ⟨queue, deferral, missed⟩ := lists_iff.mp h
  unfold withNotice
  rw [queue, deferral, missed]
  split <;> rfl

section reaches
variable {s : State} {p q : Port} {r r' : PortRecord}

theorem lists_orphaningReaches (w : Word) (h : r.lists = r'.lists) :
    (orphaningReaches s p q r w).lists = (orphaningReaches s p q r' w).lists := by
  unfold orphaningReaches
  cases findTopic s w with
  | none => exact h
  | some i =>
    dsimp only
    split
    · exact PortRecord.lists_withNotice _ (PortRecord.lists_withAnswers _ _ h)
    · exact PortRecord.lists_withAnswers _ _ h

theorem lists_reachedByAll (topics : List Word) (h : r.lists = r'.lists) :
    (topics.foldl (orphaningReaches s p q) r).lists = (topics.foldl (orphaningReaches s p q) r').lists := by
  induction topics generalizing r r' with
  | nil => exact h
  | cons w topics ih => exact ih (lists_orphaningReaches w h)

end reaches

section blind
variable (q : Port)

theorem lists_pool : PoolBlind fun s => (s.port q).lists := ⟨fun _ _ _ => rfl⟩

theorem lists_modPort {f : PortRecord → PortRecord} (p : Port) (s : State) (h : ∀ r, (f r).lists = r.lists) :
    ((s.modPort p f).port q).lists = (s.port q).lists := by
  rw [port_modPort]; split <;> [exact h _; rfl]

theorem lists_slots : SlotBlind fun s => (s.port q).lists :=
  ⟨fun s x f => by unfold State.modSlot; exact lists_modPort q _ s fun _ => by rfl, fun _ _ => rfl⟩
theorem lists_fetches : FetchBlind fun s => (s.port q).lists := ⟨fun _ _ _ => rfl⟩
theorem lists_subscriptions : SubscriptionBlind fun s => (s.port q).lists := ⟨fun _ _ => rfl⟩
theorem lists_solicits : SolicitBlind fun s => (s.port q).lists :=
  ⟨fun s p f => lists_modPort q p s fun _ => by rfl⟩

end blind

/-! ## One orphaning -/

section orphaning
variable {s u : State} {p q : Port} {i : RecordNo}

theorem governing_congr (h : u.subscriptions = s.subscriptions) : governing u = governing s := by
  unfold governing State.subscription; rw [h]

/-- The orphaning of one record brings to each port what `orphaningReaches` says. -/
theorem lists_orphanRecord (found : findTopic s (s.topic i).number = some i) (q : Port) :
    ((orphanRecord p i s).port q).lists = (orphaningReaches s p q (s.port q) (s.topic i).number).lists := by
  have answered (d : Delivery) : ((removeSolicit p (s.topic i).number (answerAll d s)).port q).lists =
      ((s.port q).withAnswers (waitingBy s q d.topic) d).lists := by
    rw [← port_answerAll]; exact (lists_solicits q).solicits _ _ _
  have governed (d : Delivery) (f : TopicRecord → TopicRecord) :
      governing ((removeSolicit p (s.topic i).number (answerAll d s)).modTopic i f) = governing s :=
    governing_congr ((subscriptions_topics.topic _ _ _).trans ((see_removeSolicit subscriptions_solicits _ _ _).trans
      (see_answerAll subscriptions_queues subscriptions_pool subscriptions_fetches d s)))
  unfold orphaningReaches
  rw [found]; dsimp only
  cases hv : (s.topic i).retained with
  | none =>
    rw [orphanRecord_none p hv]
    have freed := answered (answerDelivery (s.topic i).number .producerGone (s.topic i).retained (s.topic i).valueVersion
      (some p))
    generalize removeSolicit p (s.topic i).number (answerAll _ s) = t at freed ⊢
    unfold TopicRecord.valueVersion at freed
    rw [hv] at freed
    rw [freeRecord_eq, see_releasePayload (lists_pool q)]
    exact freed
  | some v =>
    rw [orphanRecord_some p (by rw [hv]; rfl), port_issueNotices, governed]
    have given := answered (answerDelivery (s.topic i).number .producerGone (s.topic i).retained (s.topic i).valueVersion
      (some p))
    generalize removeSolicit p (s.topic i).number (answerAll _ s) = t at given ⊢
    unfold TopicRecord.valueVersion at given
    rw [hv] at given
    cases governing s q fun e => e.matchesNotice (s.topic i).number none with
    | none => exact given
    | some j => exact PortRecord.lists_withNotice _ given

theorem subscriptions_orphanRecord (p : Port) (i : RecordNo) (s : State) :
    (orphanRecord p i s).subscriptions = s.subscriptions := by
  rw [see_orphanRecord subscriptions_queues subscriptions_pool]
  exact (subscriptions_topics.topic _ _ _).trans ((see_removeSolicit subscriptions_solicits _ _ _).trans
    (see_answerAll subscriptions_queues subscriptions_pool subscriptions_fetches _ s))

theorem waitingBy_orphanRecord {w : Word} (h : w ≠ (s.topic i).number) (p q : Port) :
    waitingBy (orphanRecord p i s) q w = waitingBy s q w := by
  unfold waitingBy
  refine List.countP_congr fun j _ => ?_
  rw [fetch_orphanRecord]
  cases s.fetch j with
  | none => simp
  | some f =>
    by_cases e : f.topic = (s.topic i).number
    · simp [waitsOn, e, Ne.symm h]
    · simp [waitsOn, e]

end orphaning

/-! ## The orphanings one after another -/

section departing
variable {present present' : Port → Prop} {s u : State} {p q : Port} {topics : List Word}

/-- The departing port's topics of the list, the fetches of the others that wait on them and the others' entries stand as
they did in `s`. -/
structure Orphaning (s : State) (p : Port) (topics : List Word) (u : State) : Prop where
  records : ∀ i, (u.topic i).state = .declared → u.topic i = s.topic i
  fetches : ∀ q, q ≠ p → ∀ w ∈ topics, waitingBy u q w = waitingBy s q w
  entries : ∀ q, q ≠ p → ∀ selects : Subscription → Bool, (∀ e, selects e = true → e.active = true) →
    governing u q selects = governing s q selects

/-- An orphaning to come brings what it would have brought in `s`. -/
theorem Orphaning.reaches {w : Word} (h : Orphaning s p topics u) (hs : DirectoryHolds present s)
    (hu : Departing present' p topics u) (hw : w ∈ topics) (hq : q ≠ p) (r : PortRecord) :
    orphaningReaches u p q r w = orphaningReaches s p q r w := by
  obtain ⟨i, hi, -, rfl⟩ := (hu.produced w).mp hw
  have same := h.records i hi
  have foundAfter := hu.holds.findTopic_eq hi
  have found : findTopic s (u.topic i).number = some i := by
    rw [same]; exact hs.findTopic_eq (by rw [← same]; exact hi)
  unfold orphaningReaches
  rw [foundAfter, found]; dsimp only
  rw [h.fetches q hq _ hw, h.entries q hq _ fun _ => active_of_matchesNotice, same]

theorem Orphaning.next {w : Word} (h : Orphaning s p (w :: topics) u) (hu : Departing present' p (w :: topics) u) :
    Orphaning s p topics (orphanTopic p u w) := by
  obtain ⟨i, hi, hp, rfl, orphaned, -⟩ := hu.orphaned
  obtain ⟨hnot, -⟩ := List.nodup_cons.mp hu.nodup
  rw [orphaned]
  refine ⟨fun j hj => ?_, fun q hq w hw => ?_, fun q hq selects ha => ?_⟩
  · rw [topic_orphanRecord] at hj ⊢
    split at hj
    · exact absurd hj (TopicRecord.departed_state _)
    · next e => rw [if_neg e]; exact h.records j hj
  · rw [waitingBy_orphanRecord fun e => hnot (e ▸ hw)]
    exact h.fetches q hq w (List.mem_cons_of_mem _ hw)
  · rw [governing_congr (subscriptions_orphanRecord p i u)]; exact h.entries q hq selects ha

/-- The orphanings together bring to another port what each of them would have brought in `s` (R17, R18). -/
theorem Orphaning.lists (h : Orphaning s p topics u) (hs : DirectoryHolds present s)
    (hu : Departing present' p topics u) (hq : q ≠ p) : ((topics.foldl (orphanTopic p) u).port q).lists =
      (topics.foldl (orphaningReaches s p q) (u.port q)).lists := by
  induction topics generalizing u with
  | nil => rfl
  | cons w topics ih =>
    have brought : ((orphanTopic p u w).port q).lists = (orphaningReaches s p q (u.port q) w).lists := by
      rw [← h.reaches hs hu List.mem_cons_self hq]
      obtain ⟨i, hi, -, rfl, orphaned, -⟩ := hu.orphaned
      rw [orphaned]
      exact lists_orphanRecord (hu.holds.findTopic_eq hi) q
    obtain ⟨_, _, _, _, _, next⟩ := hu.orphaned
    exact (ih (h.next hu) next).trans (lists_reachedByAll topics brought)

theorem governing_eq_none {selects : Subscription → Bool} (hu : Unsubscribed s p)
    (ha : ∀ e, selects e = true → e.active = true) : governing s p selects = none := by
  unfold governing
  refine List.find?_eq_none.mpr fun i _ hi => ?_
  obtain ⟨owner, selected⟩ := Bool.and_eq_true_iff.mp hi
  exact hu i (ha _ selected) (beq_iff_eq.mp owner)

/-- The orphanings bring nothing to the departing port, which has neither fetches nor entries. -/
theorem lists_orphanTopics_self (hu : Departing present p topics u) (hn : Unsubscribed u p) :
    ((topics.foldl (orphanTopic p) u).port p).lists = (u.port p).lists := by
  induction topics generalizing u with
  | nil => rfl
  | cons w topics ih =>
    obtain ⟨i, hi, -, rfl, orphaned, next⟩ := hu.orphaned
    have noFetches : waitingBy u p (u.topic i).number = 0 := by
      unfold waitingBy
      refine List.countP_eq_zero.mpr fun j _ hj => ?_
      obtain ⟨-, requested⟩ := Bool.and_eq_true_iff.mp hj
      cases hf : u.fetch j with
      | none => rw [hf] at requested; cases requested
      | some f => rw [hf] at requested; exact hu.noFetches j f hf (beq_iff_eq.mp requested)
    have brought : ((orphanTopic p u (u.topic i).number).port p).lists = (u.port p).lists := by
      rw [orphaned, lists_orphanRecord (hu.holds.findTopic_eq hi)]
      unfold orphaningReaches
      rw [hu.holds.findTopic_eq hi]; dsimp only
      rw [noFetches, PortRecord.withAnswers_zero, governing_eq_none hn fun _ => active_of_matchesNotice]
      split
      · next e => cases e
      · rfl
    refine (ih next (hn.of_eq ?_)).trans brought
    rw [orphaned, subscriptions_orphanRecord]

/-- Each record the port produces has departed (R18). -/
theorem topic_orphanTopics (hu : Departing present p topics u) (i : RecordNo) :
    (topics.foldl (orphanTopic p) u).topic i =
      if (u.topic i).state = .declared ∧ (u.topic i).producer = some p then (u.topic i).departed else u.topic i := by
  induction topics generalizing u with
  | nil =>
    rw [if_neg fun h => ?_]
    · rfl
    · exact List.not_mem_nil ((hu.produced (u.topic i).number).mpr ⟨i, h.1, h.2, rfl⟩)
  | cons w topics ih =>
    obtain ⟨j, hj, hp, rfl, orphaned, next⟩ := hu.orphaned
    rw [List.foldl_cons, ih next, orphaned, topic_orphanRecord]
    by_cases e : j = i
    · subst e
      rw [if_pos rfl, if_neg fun h => TopicRecord.departed_state _ h.1, if_pos ⟨hj, hp⟩]
    · rw [if_neg e]

/-- The fetches that wait on the topics have ended (R18). -/
theorem fetch_orphanTopics (hu : Departing present p topics u) (j : FetchId) :
    (topics.foldl (orphanTopic p) u).fetch j = (u.fetch j).filter fun f => decide (f.topic ∉ topics) := by
  induction topics generalizing u with
  | nil => cases h : u.fetch j <;> simp [h, Option.filter]
  | cons w topics ih =>
    obtain ⟨i, -, -, rfl, orphaned, next⟩ := hu.orphaned
    rw [List.foldl_cons, ih next, orphaned, fetch_orphanRecord]
    cases u.fetch j with
    | none => rfl
    | some f =>
      by_cases e : f.topic = (u.topic i).number
      · simp [waitsOn, e, Option.filter]
      · simp [waitsOn, e, Option.filter]

end departing

/-! ## The LEAVE effects -/

section leave
variable {present : Port → Prop} {s : State} {p q : Port}

theorem subscriptions_unpostedLeave (p : Port) (s : State) :
    (unpostedLeave p s).subscriptions = (freeSubscriptionsOf p s).subscriptions := by
  unfold unpostedLeave
  rw [see_removeFetches subscriptions_solicits subscriptions_fetches]
  exact congrArg (fun v => updateAll v fun e : Subscription => if e.ownedBy p then Subscription.reset else e)
    (see_leaveSlots subscriptions_pool subscriptions_slots p s)

theorem topic_unpostedLeave (p : Port) (s : State) (i : RecordNo) : (unpostedLeave p s).topic i = s.topic i := by
  unfold unpostedLeave
  rw [see_removeFetches (see := fun u => u.topic i) ⟨fun _ _ _ => rfl⟩ ⟨fun _ _ _ => rfl⟩,
    see_freeSubscriptionsOf (see := fun u => u.topic i) ⟨fun _ _ => rfl⟩]
  exact see_leaveSlots (see := fun u => u.topic i) ⟨fun _ _ _ => rfl⟩ ⟨fun _ _ _ => rfl, fun _ _ => rfl⟩ p s

theorem fetch_unpostedLeave (p : Port) (s : State) (j : FetchId) :
    (unpostedLeave p s).fetch j = if requestedBy p (s.fetch j) then none else s.fetch j := by
  have slots : (freeSubscriptionsOf p (leaveSlots p s)).fetch j = s.fetch j := by
    rw [see_freeSubscriptionsOf (see := fun u => u.fetch j) ⟨fun _ _ => rfl⟩]
    exact see_leaveSlots (see := fun u => u.fetch j) ⟨fun _ _ _ => rfl⟩ ⟨fun _ _ _ => rfl, fun _ _ => rfl⟩ p s
  unfold unpostedLeave
  rw [fetch_removeFetches, slots]

theorem lists_unpostedLeave (p : Port) (s : State) (q : Port) : ((unpostedLeave p s).port q).lists = (s.port q).lists := by
  unfold unpostedLeave
  rw [see_removeFetches (lists_solicits q) (lists_fetches q), see_freeSubscriptionsOf (lists_subscriptions q)]
  exact see_leaveSlots (lists_pool q) (lists_slots q) p s

theorem producedTopics_congr {t : State} (h : ∀ i, t.topic i = s.topic i) : producedTopics t p = producedTopics s p := by
  unfold producedTopics; simp only [h]

theorem orphaning_unpostedLeave (topics : List Word) : Orphaning s p topics (unpostedLeave p s) := by
  refine ⟨fun i _ => topic_unpostedLeave p s i, fun q hq w _ => ?_, fun q hq selects ha => ?_⟩
  · unfold waitingBy
    refine List.countP_congr fun j _ => ?_
    rw [fetch_unpostedLeave]
    cases s.fetch j with
    | none => simp [requestedBy]
    | some f =>
      by_cases e : f.requester = p
      · simp [requestedBy, e, Ne.symm hq]
      · simp [requestedBy, e]
  · rw [governing_congr (subscriptions_unpostedLeave p s)]
    unfold governing
    refine congrArg (fun f => (List.finRange 64).find? f) (funext fun i => ?_)
    rw [subscription_freeSubscriptionsOf]
    split
    · next e =>
      obtain ⟨-, owner⟩ := Bool.and_eq_true_iff.mp e
      have reset : selects Subscription.reset = false := Bool.eq_false_iff.mpr fun h => nomatch ha _ h
      have ne : ((s.subscription i).owner == q) = false := by
        rw [beq_iff_eq.mp owner]; exact beq_eq_false_iff_ne.mpr (Ne.symm hq)
      rw [reset, ne, Bool.and_false, Bool.false_and]
    · rfl

/-! ### What the LEAVE effects leave -/

theorem topic_leaveEffects (h : DirectoryHolds present s) (i : RecordNo) : (leaveEffects p s).topic i =
    if (s.topic i).state = .declared ∧ (s.topic i).producer = some p then (s.topic i).departed else s.topic i := by
  have effects : (leaveEffects p s).topic i =
      ((producedTopics (unpostedLeave p s) p).foldl (orphanTopic p) (unpostedLeave p s)).topic i := by
    rw [leaveEffects_eq]; exact see_clearSolicits (see := fun u => u.topic i) ⟨fun _ _ _ => rfl⟩ p _
  rw [effects, topic_orphanTopics (departing_unpostedLeave h), topic_unpostedLeave]

theorem fetch_leaveEffects (h : DirectoryHolds present s) (j : FetchId) : (leaveEffects p s).fetch j =
    (s.fetch j).filter fun f => decide ¬ (f.requester = p ∨ f.topic ∈ producedTopics s p) := by
  have fetched : (leaveEffects p s).fetch j =
      ((unpostedLeave p s).fetch j).filter fun f => decide (f.topic ∉ producedTopics (unpostedLeave p s) p) := by
    rw [leaveEffects_eq, ← fetch_orphanTopics (departing_unpostedLeave h)]
    exact see_clearSolicits (see := fun u => u.fetch j) ⟨fun _ _ _ => rfl⟩ p _
  rw [fetched, fetch_unpostedLeave, producedTopics_congr (topic_unpostedLeave p s)]
  cases s.fetch j with
  | none => rfl
  | some f => by_cases e : f.requester = p <;> simp [requestedBy, e, Option.filter]

/-- Two ascending lists of the same topics are one list. -/
theorem ProducedInOrder.eq_producedTopics {topics : List Word} (h : DirectoryHolds present s)
    (ht : ProducedInOrder s p topics) : topics = producedTopics s p := by
  obtain ⟨ascending, mem⟩ := ht
  have nodup : topics.Nodup := ascending.imp fun lt e => by rw [e] at lt; exact Nat.lt_irrefl _ lt
  have perm : topics.Perm (producedTopics s p) :=
    (List.perm_ext_iff_of_nodup nodup (h.nodup_producedTopics p)).mpr fun w => (mem w).trans mem_producedTopics.symm
  have total : Std.Total fun a b : Word => a.toNat ≤ b.toNat := ⟨fun a b => Nat.le_total a.toNat b.toNat⟩
  have trans : IsTrans Word fun a b => a.toNat ≤ b.toNat := ⟨fun _ _ _ => Nat.le_trans⟩
  have sorted : (producedTopics s p).Pairwise fun a b => a.toNat ≤ b.toNat := List.pairwise_insertionSort _ _
  exact perm.eq_of_pairwise (fun a b _ _ le ge => BitVec.eq_of_toNat_eq (Nat.le_antisymm le ge))
    (ascending.imp Nat.le_of_lt) sorted

theorem lists_leaveEffects {topics : List Word} (h : DirectoryHolds present s) (ht : ProducedInOrder s p topics)
    (hq : q ≠ p) : ((leaveEffects p s).port q).lists = (topics.foldl (orphaningReaches s p q) (s.port q)).lists := by
  have effects : ((leaveEffects p s).port q).lists =
      (((producedTopics (unpostedLeave p s) p).foldl (orphanTopic p) (unpostedLeave p s)).port q).lists := by
    rw [leaveEffects_eq]; exact (lists_solicits q).solicits _ _ _
  rw [effects, (orphaning_unpostedLeave _).lists h (departing_unpostedLeave h) hq,
    producedTopics_congr (topic_unpostedLeave p s), ht.eq_producedTopics h]
  exact lists_reachedByAll _ (lists_unpostedLeave p s q)

theorem lists_leaveEffects_self (h : DirectoryHolds present s) :
    ((leaveEffects p s).port p).lists = (s.port p).lists := by
  have effects : ((leaveEffects p s).port p).lists =
      (((producedTopics (unpostedLeave p s) p).foldl (orphanTopic p) (unpostedLeave p s)).port p).lists := by
    rw [leaveEffects_eq]; exact (lists_solicits p).solicits _ _ _
  have entries : Unsubscribed (unpostedLeave p s) p := by
    have freed : Unsubscribed (freeSubscriptionsOf p s) p := fun i => by
      rw [subscription_freeSubscriptionsOf]
      split
      · exact fun active => nomatch active
      · next e => exact fun active owner => e (Bool.and_eq_true_iff.mpr ⟨active, beq_iff_eq.mpr owner⟩)
    exact freed.of_eq (subscriptions_unpostedLeave p s)
  rw [effects, lists_orphanTopics_self (departing_unpostedLeave h) entries, lists_unpostedLeave]

/-! ### The solicits -/

/-- The port's solicits are those of `s`, without some that no fetch waits behind. -/
def Retains (s : State) (q : Port) (u : State) : Prop :=
  ((u.port q).solicits).Sublist (s.port q).solicits ∧
    ∀ a ∈ (s.port q).solicits, Awaited u a → a ∈ (u.port q).solicits

theorem Retains.of_fewer {u v : State} (h : Retains s q u) (hl : (v.port q).solicits = (u.port q).solicits)
    (hf : ∀ j f, v.fetch j = some f → u.fetch j = some f) : Retains s q v := by
  unfold Retains
  rw [hl]
  refine ⟨h.1, fun a ha hw => h.2 a ha ?_⟩
  obtain ⟨j, f, hj, ht⟩ := hw
  exact ⟨j, f, hf j f hj, ht⟩

theorem Retains.freeSubscriptionsOf {u : State} (h : Retains s q u) : Retains s q (freeSubscriptionsOf p u) :=
  h.of_fewer rfl fun _ _ hj => hj

theorem Retains.clearSolicits {u : State} (hq : q ≠ p) (h : Retains s q u) : Retains s q (clearSolicits p u) := by
  refine h.of_fewer ?_ fun _ _ hj => hj
  unfold Machine.clearSolicits
  rw [port_modPort, if_neg (Ne.symm hq)]

theorem Retains.dropIdleSolicit {u : State} (w : Word) (h : Retains s q u) : Retains s q (dropIdleSolicit w u) := by
  unfold Machine.dropIdleSolicit
  split
  · next idle =>
    split
    · exact h
    · split
      · exact h
      · unfold Retains
        rw [solicits_removeSolicit]
        split
        · refine ⟨List.filter_sublist.trans h.1, fun a ha hw => List.mem_filter.mpr ⟨h.2 a ha hw, ?_⟩⟩
          refine bne_iff_ne.mpr ?_
          rintro rfl
          exact waitingCount_eq_zero.mp idle hw
        · exact h
  · exact h

theorem PortRecord.solicits_of_unslotted {r r' : PortRecord} (h : r.unslotted = r'.unslotted) :
    r.solicits = r'.solicits := (congrArg PortRecord.solicits h :)

theorem solicits_orphanRecord {i : RecordNo} {u : State} (hq : q ≠ p) :
    ((orphanRecord p i u).port q).solicits = (u.port q).solicits := by
  have blind : QueueBlind fun s : State => (s.port q).solicits := by
    constructor <;> intro s r f <;> rw [port_modPort] <;> split <;> rfl
  rw [see_orphanRecord (see := fun s => (s.port q).solicits) blind ⟨fun _ _ _ => rfl⟩]
  have ended (v : State) (f : TopicRecord → TopicRecord) : ((v.modTopic i f).port q).solicits = (v.port q).solicits := rfl
  rw [ended]
  exact (solicits_removeSolicit p q _ _).trans ((if_neg (Ne.symm hq)).trans (solicits_answerAll _ u q))

theorem retains_leaveEffects (hq : q ≠ p) : Retains s q (leaveEffects p s) := by
  have slots : Retains s q (leaveSlots p s) := by
    have unslotted : ((leaveSlots p s).port q).unslotted = (s.port q).unslotted :=
      see_leaveSlots (unslotted_poolBlind q) (unslotted_slotBlind q) p s
    refine Retains.of_fewer (u := s) ⟨List.Sublist.refl _, fun a ha _ => ha⟩
      (PortRecord.solicits_of_unslotted unslotted) fun j f hj => ?_
    rwa [see_leaveSlots (see := fun u => u.fetch j) ⟨fun _ _ _ => rfl⟩ ⟨fun _ _ _ => rfl, fun _ _ => rfl⟩] at hj
  have fetches : Retains s q (removeFetches p (freeSubscriptionsOf p (leaveSlots p s))) := by
    refine removeFetches_keeps (fun u j f _ _ hu => Retains.dropIdleSolicit _ (hu.of_fewer rfl fun k g hk => ?_))
      slots.freeSubscriptionsOf
    rw [fetch_setFetch] at hk
    split at hk <;> [cases hk; exact hk]
  have topics : Retains s q (orphanTopics p (removeFetches p (freeSubscriptionsOf p (leaveSlots p s)))) := by
    refine orphanTopics_keeps (fun u i _ _ hu => hu.of_fewer (solicits_orphanRecord hq) fun j f hj => ?_) fetches
    rw [fetch_orphanRecord] at hj
    split at hj <;> [cases hj; exact hj]
  exact topics.clearSolicits hq

/-- A sublist of a list without repetition keeps what its members say. -/
theorem eq_filter_of_sublist {l l' : List Word} {f : Word → Bool} (h : l'.Sublist l) (hn : l.Nodup)
    (hf : ∀ a ∈ l, a ∈ l' ↔ f a = true) : l' = l.filter f := by
  induction h with
  | slnil => rfl
  | cons a h ih =>
    obtain ⟨hnot, hn⟩ := List.nodup_cons.mp hn
    rw [List.filter_cons_of_neg fun e => hnot (h.subset ((hf a List.mem_cons_self).mpr e))]
    exact ih hn fun b hb => hf b (List.mem_cons_of_mem a hb)
  | cons_cons a h ih =>
    obtain ⟨hnot, hn⟩ := List.nodup_cons.mp hn
    rw [List.filter_cons_of_pos ((hf a List.mem_cons_self).mp List.mem_cons_self)]
    refine congrArg (a :: ·) (ih hn fun b hb => ?_)
    rw [← hf b (List.mem_cons_of_mem a hb), List.mem_cons]
    exact ⟨.inr, fun e => e.resolve_left fun e' => hnot (e' ▸ hb)⟩

theorem awaited_iff {u : State} {a : Word} : Awaited u a ↔
    ((List.finRange 16).any fun j => waitsOn a (u.fetch j)) = true := by
  rw [List.any_eq_true]
  constructor
  · rintro ⟨j, f, hj, rfl⟩
    exact ⟨j, List.mem_finRange j, by rw [hj]; exact beq_self_eq_true _⟩
  · rintro ⟨j, -, hj⟩
    cases hf : u.fetch j with
    | none => rw [hf] at hj; cases hj
    | some f => rw [hf] at hj; exact ⟨j, f, hf, beq_iff_eq.mp hj⟩

/-- The solicits of another port that a fetch still waits behind are those it keeps (R108). -/
theorem solicits_leaveEffects (h : DirectoryHolds present s) (hq : q ≠ p) : ((leaveEffects p s).port q).solicits =
    (s.port q).solicits.filter fun a => (List.finRange 16).any fun j => waitsOn a ((leaveEffects p s).fetch j) := by
  obtain ⟨sub, kept⟩ := retains_leaveEffects (s := s) hq
  refine eq_filter_of_sublist sub (h.solicitsOnce q) fun a ha => ⟨fun hm => ?_, fun hw => kept a ha (awaited_iff.mpr hw)⟩
  exact awaited_iff.mp ((directoryHolds_leaveEffects h).solicits q a hm).2

end leave

end Sys2Proof.Machine
end

