-- ==== Sys2Proof/Proofs/Leave.lean ====
section
/-! The LEAVE as a whole (O18, O19): the orphanings as the LEAVE effects bring them, carried over the teardown and the drains
that may follow; then the two outcomes of the request. -/
namespace Sys2Proof.Machine
set_option Elab.async false

section orphaned
variable {present : Port → Prop} {s t u : State} {p q : Port}

theorem departed_eq (r : TopicRecord) : r.departed = if r.retained.isSome then
    { r with state := .orphaned, producer := none, freshness := .stopped, stale := true } else TopicRecord.reset := rfl

/-- The LEAVE effects orphan the topics (R17, R18). -/
theorem topicsOrphaned_leaveEffects (h : DirectoryHolds present s) :
    TopicsOrphaned s (leaveEffects p s) p fun _ => true where
  records i := by rw [topic_leaveEffects h, departed_eq]
  fetches j := by
    rw [fetch_leaveEffects h]
    cases s.fetch j with
    | none => rfl
    | some f =>
      have produced : f.topic ∈ producedTopics s p ↔ Produces s p f.topic := mem_producedTopics
      by_cases e : f.requester = p ∨ f.topic ∈ producedTopics s p
      · refine Eq.trans ?_ (if_pos (e.imp_right produced.mp)).symm
        simp only [Option.filter, e, not_true_eq_false, decide_false, Bool.false_eq_true, if_false]
      · refine Eq.trans ?_ (if_neg fun e' => e (e'.imp_right produced.mpr)).symm
        simp only [Option.filter, e, not_false_eq_true, decide_true, if_true]
  solicits q hq := solicits_leaveEffects h hq
  lists topics ht q hq _ := by
    obtain ⟨queue, deferral, missed⟩ := PortRecord.lists_iff.mp (lists_leaveEffects h ht hq)
    exact ⟨queue, deferral.trans (List.filter_true _).symm, missed⟩

/-- What the departing port's own record holds is not read of the state before. -/
theorem TopicsOrphaned.of_modPort {f : PortRecord → PortRecord} {kept : DeferralEntry → Bool}
    (h : TopicsOrphaned (s.modPort p f) t p kept) : TopicsOrphaned s t p kept where
  records := h.records
  fetches := h.fetches
  solicits q hq := by rw [h.solicits q hq, port_modPort, if_neg (Ne.symm hq)]
  lists topics ht q hq hs := by
    have same : (s.modPort p f).port q = s.port q := by rw [port_modPort, if_neg (Ne.symm hq)]
    have lists := h.lists topics ht q hq (by rw [same]; exact hs)
    rw [same] at lists
    exact lists

/-- What follows the orphanings keeps them, when it keeps the topics, the fetches and the solicits, and the lists but for
some deferral entries. -/
theorem TopicsOrphaned.carried {kept : DeferralEntry → Bool} (h : TopicsOrphaned s u p fun _ => true)
    (hs : ∀ q, q ≠ p → (u.port q).state = (s.port q).state) (ht : ∀ i, t.topic i = u.topic i)
    (hf : ∀ j, t.fetch j = u.fetch j) (hl : ∀ q, q ≠ p → (t.port q).solicits = (u.port q).solicits)
    (hq : ∀ q, q ≠ p → (u.port q).state ≠ .leaving ∨ (t.port q).state = .leaving →
      (t.port q).queue = (u.port q).queue ∧ (t.port q).deferral = (u.port q).deferral.filter kept ∧
        (t.port q).noticesMissed = (u.port q).noticesMissed) : TopicsOrphaned s t p kept where
  records i := by rw [ht]; exact h.records i
  fetches j := by rw [hf]; exact h.fetches j
  solicits q hne := by rw [hl q hne, h.solicits q hne]; simp only [hf]
  lists topics order q hne hst := by
    obtain ⟨queue, deferral, missed⟩ := hq q hne (by rw [hs q hne]; exact hst)
    obtain ⟨queue', deferral', missed'⟩ := h.lists topics order q hne (by rw [hs q hne]; exact Decidable.not_or_of_imp id)
    rw [List.filter_true] at deferral'
    exact ⟨queue.trans queue', by rw [deferral, deferral'], missed.trans missed'⟩

end orphaned

/-! ## What the drains leave -/

section drains
variable {y : State × List Port} {q : Port}

/-- A port that is not LEAVING before, or is LEAVING still, has not been torn down. -/
theorem unslotted_endDrains_of (h : (y.1.port q).state ≠ .leaving ∨ ((endDrains y).port q).state = .leaving) :
    ((endDrains y).port q).unslotted = (y.1.port q).unslotted := by
  rcases h with h | h
  · exact unslotted_endDrains h
  · refine endDrains_keeps (P := fun u => (u.port q).state = .leaving → (u.port q).unslotted = (y.1.port q).unslotted)
      (fun u r _ hu hq => ?_) (fun _ => rfl) h
    rw [state_teardown] at hq
    by_cases e : r = q
    · rw [if_pos e] at hq; cases hq
    · rw [if_neg e] at hq
      rw [unslotted_teardown, if_neg e]; exact hu hq

theorem solicits_teardown (b : Bool) (p : Port) (s : State) (q : Port) :
    ((teardown b p s).1.port q).solicits = (s.port q).solicits := by
  have unslotted := unslotted_teardown b p q s
  split at unslotted
  · exact (PortRecord.solicits_of_unslotted (r := (teardown b p s).1.port q) (r' := (s.port q).closed b) unslotted :)
  · exact PortRecord.solicits_of_unslotted unslotted

theorem solicits_endDrains (y : State × List Port) (q : Port) :
    ((endDrains y).port q).solicits = (y.1.port q).solicits :=
  endDrains_keeps (P := fun u => (u.port q).solicits = (y.1.port q).solicits)
    (fun u r _ hu => (solicits_teardown false r u q).trans hu) rfl

theorem topics_endDrains (y : State × List Port) : (endDrains y).topics = y.1.topics :=
  endDrains_keeps (P := fun u => u.topics = y.1.topics) (fun u r _ hu => (topics_teardown false r u).trans hu) rfl

theorem fetches_endDrains (y : State × List Port) : (endDrains y).fetches = y.1.fetches :=
  endDrains_keeps (P := fun u => u.fetches = y.1.fetches) (fun u r _ hu => (fetches_teardown false r u).trans hu) rfl

theorem subscriptions_endDrains (y : State × List Port) : (endDrains y).subscriptions = y.1.subscriptions :=
  endDrains_keeps (P := fun u => u.subscriptions = y.1.subscriptions)
    (fun u r _ hu => (subscriptions_teardown false r u).trans hu) rfl

theorem PortRecord.lists_of_unslotted {r r' : PortRecord} (h : r.unslotted = r'.unslotted) : r.lists = r'.lists :=
  (congrArg PortRecord.lists h :)

/-- With no LEAVING port no report brings a teardown. -/
theorem endDrains_still (h : ∀ q, (y.1.port q).state ≠ .leaving) : endDrains y = y.1 := by
  have still (n : Nat) (l : List Port) (s : State) (hs : ∀ q, (s.port q).state ≠ .leaving) : handleReports n l s = s := by
    induction n generalizing l with
    | zero => cases l <;> rfl
    | succ n ih =>
      cases l with
      | nil => rfl
      | cons q l => rw [handleReports, if_neg (by rw [drainEnded_of_state (hs q)]; exact nofun), ih]
  exact still _ _ _ h

/-- A teardown and the drains after it leave the record of another port alone, but for its slots, unless its own drain
ended. -/
theorem unslotted_torn {b : Bool} {p : Port} {s : State} (hne : q ≠ p) (h : (s.port q).state ≠ .leaving ∨
    ((endDrains (teardown b p s)).port q).state = .leaving) :
    ((endDrains (teardown b p s)).port q).unslotted = (s.port q).unslotted := by
  rw [unslotted_endDrains_of, unslotted_teardown, if_neg (Ne.symm hne)]
  rwa [state_teardown, if_neg (Ne.symm hne)]

end drains

/-! ## The request -/

section leave
variable {s : State} {p : Port} {tag : Byte}

theorem exec_leave (hreq : InProgress s p .leave tag []) (ho : (s.port p).state = .online) : exec (.leave p) s =
    .next (complete p tag .ok [((leavePort p s).port p).state.code, numByte (deferredSlots (leavePort p s) p)]
      (leavePort p s)) := by
  have replied : actLeave p [] s = { state := leavePort p s, result := .ok, body :=
      [((leavePort p s).port p).state.code, numByte (deferredSlots (leavePort p s) p)] } := rfl
  generalize leavePort p s = u at replied ⊢
  have completes := exec_completes_of_online (k := .leave p) rfl nofun nofun hreq ho replied
  exact completes

theorem deferredSlots_leaving (p : Port) (s : State) :
    deferredSlots (leaveEffects p (s.modPort p fun r => { r with state := .leaving })) p = deferredSlots s p := by
  unfold deferredSlots
  refine List.countP_congr fun k _ => ?_
  rw [beq_iff_eq, beq_iff_eq, deferred_leaveEffects, slot_modPort _ fun _ => by rfl]

theorem leavePort_draining (h : ∃ k, (s.slot ⟨p, k⟩).state = .deferred) :
    leavePort p s = leaveEffects p (s.modPort p fun r => { r with state := .leaving }) := by
  unfold leavePort; dsimp only
  rw [if_neg]
  rw [deferredSlots_leaving, deferredSlots_eq_zero]
  obtain ⟨k, hk⟩ := h
  exact fun none => none k hk

theorem directoryHolds_left (h : DirectoryLaw s) :
    DirectoryHolds (Online s) (s.modPort p fun r => { r with state := .leaving }) := by
  rw [directoryHolds_modPort_eq s (fun _ => by rfl) fun _ => by rfl]
  exact directoryLaw_iff.mp h

/-- The LEAVE orphans the port's topics, with or without a drain (R17, R120). -/
theorem topicsOrphaned_leavePort (h : DirectoryLaw s) : TopicsOrphaned s (leavePort p s) p fun _ => true := by
  have orphaned : TopicsOrphaned s (leaveEffects p (s.modPort p fun r => { r with state := .leaving })) p fun _ => true :=
    (topicsOrphaned_leaveEffects (directoryHolds_left h)).of_modPort
  have state (q : Port) (hq : q ≠ p) := PortRecord.state_of_standing (beside_leave (s := s) (Ne.symm hq))
  by_cases hd : ∃ k, (s.slot ⟨p, k⟩).state = .deferred
  · rw [leavePort_draining hd]; exact orphaned
  · rw [leavePort_atOnce fun k hk => hd ⟨k, hk⟩]
    generalize leaveEffects p (s.modPort p fun r => { r with state := .leaving }) = u at orphaned state ⊢
    refine orphaned.carried state (fun i => ?_) (fun j => ?_) (fun q _ => ?_) fun q hq hst => ?_
    · unfold State.topic; rw [topics_endDrains, topics_teardown]
    · unfold State.fetch; rw [fetches_endDrains, fetches_teardown]
    · rw [solicits_endDrains, solicits_teardown]
    · obtain ⟨queue, deferral, missed⟩ :=
        PortRecord.lists_iff.mp (PortRecord.lists_of_unslotted (unslotted_torn hq hst))
      exact ⟨queue, deferral.trans (List.filter_true _).symm, missed⟩

/-- Settles O19. -/
theorem leaveOrphansTheTopics : Obligations.LeaveOrphansTheTopics := by
  intro p tag s h hreq ho
  have orphaned := topicsOrphaned_leavePort (p := p) h.directory
  refine ⟨_, exec_leave hreq ho, ?_⟩
  generalize leavePort p s = u at orphaned ⊢
  have port (q : Port) (hq : q ≠ p) (body : List Byte) : (complete p tag .ok body u).port q = u.port q :=
    complete_port_ne _ _ _ _ _ _ (Ne.symm hq)
  refine ⟨orphaned.records, orphaned.fetches, fun q hq => ?_, fun topics order q hq hst => ?_⟩
  · rw [port q hq]; exact orphaned.solicits q hq
  · rw [port q hq] at hst ⊢; exact orphaned.lists topics order q hq hst

/-! ### The two outcomes -/

theorem standing_left (p : Port) (s : State) :
    ((leaveEffects p (s.modPort p fun r => { r with state := .leaving })).port p).standing =
      { (s.port p).standing with state := .leaving } := by
  rw [standing_leaveEffects, port_modPort_same]; rfl

/-- The record of a port that leaves at once (R122). -/
theorem standing_leavePort_atOnce (h : ∀ k, (s.slot ⟨p, k⟩).state ≠ .deferred) : ((leavePort p s).port p).standing =
    PortRecord.closed false { (s.port p).standing with state := .leaving } := by
  rw [leavePort_atOnce h, standing_endDrains (by rw [state_teardown, if_pos rfl]; exact nofun), standing_teardown,
    if_pos rfl, standing_left]

/-- What stands of the ports beside a LEAVE, but for a LEAVING one. -/
theorem keepsStanding_leavePort (p : Port) (s : State) :
    KeepsStanding (fun q => q = p ∨ (s.port q).state = .leaving) s (leavePort p s) := by
  refine keepsStanding_of (fun q hq => ?_) (backdrop_leavePort s p)
  obtain ⟨hne, hst⟩ := not_or.mp hq
  have beside := beside_leave (s := s) (Ne.symm hne)
  by_cases hd : ∃ k, (s.slot ⟨p, k⟩).state = .deferred
  · rw [leavePort_draining hd]; exact beside
  · rw [leavePort_atOnce fun k hk => hd ⟨k, hk⟩]
    generalize leaveEffects p (s.modPort p fun r => { r with state := .leaving }) = u at beside ⊢
    refine (PortRecord.standing_of_unslotted (unslotted_torn hne (.inl ?_))).trans beside
    rw [PortRecord.state_of_standing beside]; exact hst

/-- A post of another port as a LEAVE at once leaves it, when no drain can end (R49). -/
theorem slot_leavePort_atOnce (hx : SlotLaw s) (h : ∀ k, (s.slot ⟨p, k⟩).state ≠ .deferred)
    (hs : ∀ q, (s.port q).state ≠ .leaving) {x : SlotName} (hne : x.owner ≠ p) :
    (leavePort p s).slot x = (s.slot x).outlived p := by
  have laws := slotLaw_leaving (p := p) hx
  have slot : (leaveEffects p (s.modPort p fun r => { r with state := .leaving })).slot x = s.slot x := by
    rw [slot_leaveEffects, if_neg hne, slot_modPort _ fun _ => by rfl]
  have state (q : Port) (hq : q ≠ p) := PortRecord.state_of_standing (beside_leave (s := s) (Ne.symm hq))
  rw [leavePort_atOnce h]
  generalize leaveEffects p (s.modPort p fun r => { r with state := .leaving }) = u at laws slot state ⊢
  rw [endDrains_still fun q => ?_, slot_teardown laws, if_neg hne, slot]
  rw [state_teardown]
  split
  · exact nofun
  · next e => rw [state q (Ne.symm e)]; exact hs q

/-- What a completion adds to a frame: the record of its own port. -/
theorem KeepsStanding.complete {touched : Port → Prop} {t : State} {res : Result} {body : List Byte}
    (h : KeepsStanding touched s t) (hp : touched p) : KeepsStanding touched s (complete p tag res body t) where
  ports q hq := by
    rw [complete_port_ne _ _ _ _ _ _ fun e : p = q => hq (e ▸ hp)]
    exact h.ports q hq
  bytes := h.bytes
  params := h.params
  divider := h.divider
  readySequence := h.readySequence

theorem HoldsNothing.complete {t : State} {q : Port} {res : Result} {body : List Byte} (h : HoldsNothing t q) :
    HoldsNothing (complete p tag res body t) q := by
  unfold Machine.complete
  rw [HoldsNothing.modPort]
  · exact h
  all_goals exact fun _ => rfl

/-- The slots a departing port keeps and ends (R54). -/
theorem Slot.left_of_fitsState {k : Slot} (h : k.fitsState) : k.left = match k.state with
    | .loading => Slot.reset
    | .ready => { k with state := .done, buffer := none, status := some .withdrawn }
    | .empty | .deferred | .done => k := by
  unfold Slot.left
  unfold Slot.fitsState at h
  cases hs : k.state <;> simp only [hs] at h ⊢
  obtain ⟨-, -, pending, -, -, -, deadline⟩ := h
  obtain ⟨⟩ := k
  dsimp only at pending deadline
  subst pending deadline
  rfl

/-- Settles O18. -/
theorem leaveEndsOrDrainsTheSession : Obligations.LeaveEndsOrDrainsTheSession := by
  intro p tag s h hreq ho
  refine ⟨fun hnone => ?_, fun hd => ?_⟩
  · obtain ⟨offline, holds⟩ := offline_leavePort h hnone
    have exec := exec_completes_of_online (k := .leave p) (act := actLeave p) rfl nofun nofun hreq ho
      (actLeave_atOnce [] h hnone)
    have standing := standing_leavePort_atOnce hnone
    have keeps := keepsStanding_leavePort p s
    have slots (hs : ∀ q, (s.port q).state ≠ .leaving) (x : SlotName) (hx : x.owner ≠ p) :=
      slot_leavePort_atOnce h.slots hnone hs hx
    dsimp only at exec
    generalize leavePort p s = u at offline holds exec standing keeps slots
    refine ⟨_, exec, complete_response .., complete_inProgress .., ?_, ?_, holds.complete, ?_, ?_, ?_, fun hs x hx => ?_,
      keeps.complete (.inl rfl)⟩
    · rw [complete_port, if_pos rfl]; exact offline
    · rw [complete_port, if_pos rfl]; exact (congrArg PortRecord.score standing :)
    · rw [complete_port, if_pos rfl]; exact (congrArg PortRecord.mask standing :)
    · rw [complete_port, if_pos rfl]; exact (congrArg PortRecord.lastFault standing :)
    · rw [complete_port, if_pos rfl]; exact (congrArg PortRecord.view standing :)
    · rw [complete_slot, slots hs x hx]
      unfold Slot.outlived Slot.failed
      rfl
  · have directory := directoryHolds_leaveEffects (p := p) (directoryHolds_left (p := p) h.directory)
    have entries : Unsubscribed (leaveEffects p (s.modPort p fun r => { r with state := .leaving })) p :=
      unsubscribed_leaveEffects (.inl rfl)
    have relieved := relieved_of_absent directory (fun e => e.2 rfl) entries
    have standing := standing_left p s
    have lists := (lists_leaveEffects_self (p := p) (directoryHolds_left (p := p) h.directory)).trans
      (lists_modPort p p s fun _ => by rfl)
    have slots (k : SlotNo) : (leaveEffects p (s.modPort p fun r => { r with state := .leaving })).slot ⟨p, k⟩ =
        (s.slot ⟨p, k⟩).left := by
      rw [slot_leaveEffects, if_pos rfl, slot_modPort _ fun _ => by rfl]
    have beside (q : Port) (hq : ¬ q = p) := beside_leave (s := s) (Ne.symm hq)
    have backdrop : (leaveEffects p (s.modPort p fun r => { r with state := .leaving })).backdrop = s.backdrop :=
      backdrop_leaveEffects ..
    have exec := exec_leave hreq ho
    have count := deferredSlots_leaving p s
    rw [leavePort_draining hd] at exec
    generalize leaveEffects p (s.modPort p fun r => { r with state := .leaving }) = u
      at relieved standing lists slots beside backdrop exec count
    have leaving : (u.port p).state = .leaving := (congrArg PortRecord.state standing :)
    rw [leaving, count] at exec
    obtain ⟨queue, deferral, -⟩ := PortRecord.lists_iff.mp lists
    refine ⟨_, exec, complete_response .., complete_inProgress .., ?_, relieved.subscriptions, relieved.fetches, ?_,
      fun k => ?_, ?_, ?_, ?_, (keepsStanding_of beside backdrop).complete rfl⟩
    · rw [complete_port, if_pos rfl]; exact leaving
    · rw [complete_port, if_pos rfl]; exact relieved.solicits
    · rw [complete_slot, slots]
      exact (Slot.left_of_fitsState (h.slots.fields _)).trans rfl
    · rw [complete_port, if_pos rfl]; exact queue
    · rw [complete_port, if_pos rfl]; exact deferral
    · rw [complete_port, if_pos rfl]; exact (congrArg PortRecord.view standing :)

end leave

end Sys2Proof.Machine
end

