-- ==== Sys2Proof/Proofs/QuarantineEnd.lean ====
section
/-! The quarantine of a port in a session (O11): the orphanings of a LEAVE, the deletion of its posts' entries, and its
teardown. -/
namespace Sys2Proof.Machine
set_option Elab.async false

section quarantined
variable {present : Port → Prop} {s u : State} {p q : Port}

/-- A port that has neither topics nor fetches leaves none behind. -/
theorem topicsOrphaned_absent (h : DirectoryHolds present s) (hp : ¬ present p) :
    TopicsOrphaned s s p fun _ => true where
  records i := (if_neg fun e => hp (h.producers i p e.1 e.2)).symm
  fetches j := by
    cases hf : s.fetch j with
    | none => rfl
    | some f =>
      refine (if_neg ?_).symm
      rintro (rfl | ⟨i, declared, producer, -⟩)
      · exact hp (h.fetches j f hf).1
      · exact hp (h.producers i p declared producer)
  solicits q _ := (List.filter_eq_self.mpr fun a ha => awaited_iff.mp (h.solicits q a ha).2).symm
  lists topics order q _ _ := by
    have none : topics = [] := List.eq_nil_iff_forall_not_mem.mpr fun w hw => by
      obtain ⟨i, declared, producer, -⟩ := (order.2 w).mp hw
      exact hp (h.producers i p declared producer)
    subst none
    exact ⟨rfl, (List.filter_true _).symm, rfl⟩

/-- The session of a quarantined port ends with the orphaning of its topics (R127 step 1). -/
theorem topicsOrphaned_departed (h : DirectoryLaw s) : TopicsOrphaned s (departed p s) p fun _ => true := by
  have cut : DirectoryHolds (Online s) (cutRequest p s) := directoryHolds_cutRequest (directoryLaw_iff.mp h)
  have orphaned : TopicsOrphaned (cutRequest p s) (departed p s) p fun _ => true := by
    unfold departed
    split
    · exact topicsOrphaned_leaveEffects cut
    · next hn => exact topicsOrphaned_absent cut hn
  exact orphaned.of_modPort

/-! ## The posts of the quarantined port -/

theorem DeferralEntry.isNotOf_of_standsFor {e : DeferralEntry} {x : SlotName} (hx : x.owner = p)
    (h : e.standsFor x = true) : e.isNotOf p = false := by
  cases e with
  | answer d => cases h
  | slot y i m =>
    have same : y = x := beq_iff_eq.mp h
    subst same
    exact bne_eq_false_iff_eq.mpr hx

theorem filter_isNotOf_deleted (l : List DeferralEntry) {x : SlotName} (hx : x.owner = p) :
    (l.filter fun e => !e.standsFor x).filter (·.isNotOf p) = l.filter (·.isNotOf p) := by
  rw [List.filter_filter]
  refine List.filter_congr fun e _ => ?_
  cases h : e.standsFor x with
  | false => simp
  | true => simp [DeferralEntry.isNotOf_of_standsFor hx h]

/-- The abort of the port's DEFERRED slots takes its entries, and no other, from the deferral lists (R56). -/
theorem lists_abortDeferredSlots (h : SlotLaw u) (p q : Port) :
    ((abortDeferredSlots p u).port q).queue = (u.port q).queue ∧
      ((abortDeferredSlots p u).port q).deferral = (u.port q).deferral.filter (·.isNotOf p) ∧
      ((abortDeferredSlots p u).port q).noticesMissed = (u.port q).noticesMissed := by
  have kept : ((abortDeferredSlots p u).port q).queue = (u.port q).queue ∧
      ((abortDeferredSlots p u).port q).deferral.filter (·.isNotOf p) = (u.port q).deferral.filter (·.isNotOf p) ∧
      ((abortDeferredSlots p u).port q).noticesMissed = (u.port q).noticesMissed := by
    refine abortDeferredSlots_keeps (P := fun v => (v.port q).queue = (u.port q).queue ∧
      (v.port q).deferral.filter (·.isNotOf p) = (u.port q).deferral.filter (·.isNotOf p) ∧
      (v.port q).noticesMissed = (u.port q).noticesMissed) (fun v x hx _ hv => ?_) ⟨rfl, rfl, rfl⟩
    obtain ⟨queue, deferral, missed⟩ := hv
    rw [port_endDeferred]
    refine ⟨queue, ?_, missed⟩
    dsimp only
    split
    · rw [filter_isNotOf_deleted _ hx]; exact deferral
    · exact deferral
  have law : SlotLaw (abortDeferredSlots p u) :=
    abortDeferredSlots_keeps (fun _ x _ _ hv => slotLaw_endDeferred x _ hv) h
  have none := noneDeferred_abortDeferredSlots p u
  generalize abortDeferredSlots p u = v at kept law none ⊢
  obtain ⟨queue, deferral, missed⟩ := kept
  refine ⟨queue, Eq.trans (List.filter_eq_self.mpr fun e he => ?_).symm deferral, missed⟩
  cases e with
  | answer d => rfl
  | slot x i m =>
    refine bne_iff_ne.mpr fun hx => ?_
    have pending := (law.listed_iff q x).mp ⟨_, he, beq_self_eq_true x⟩
    obtain ⟨owner, k⟩ := x
    subst hx
    exact none k (law.deferred_of_pending pending)

/-! ## The quarantine as a whole -/

theorem subscription_departed (h : SessionLaw s) (hp : (s.port p).state = .online ∨ (s.port p).state = .leaving)
    (i : SubIndex) : (departed p s).subscription i =
      if (s.subscription i).active = true ∧ (s.subscription i).owner = p then Subscription.reset
      else s.subscription i := by
  have owned : (s.subscription i).ownedBy p = true ↔ (s.subscription i).active = true ∧ (s.subscription i).owner = p := by
    unfold Subscription.ownedBy; rw [Bool.and_eq_true, beq_iff_eq]
  unfold departed
  split
  · rw [subscription_leaveEffects]
    exact if_congr owned rfl rfl
  · next hn =>
    refine (if_neg fun e => ?_).symm
    exact h.leavingSubscriptions p (hp.resolve_left hn) i e.1 e.2

theorem slotLaw_departed (h : SlotLaw s) : SlotLaw (departed p s) := by
  have cut : SlotLaw (cutRequest p s) := by
    unfold cutRequest
    rw [slotLaw_modPort_eq]
    · exact h
    all_goals exact fun _ => rfl
  unfold departed
  split <;> [exact slotLaw_leaveEffects cut; exact cut]

theorem topics_startHold (p : Port) (s : State) : (startHold p s).topics = s.topics := rfl
theorem fetches_startHold (p : Port) (s : State) : (startHold p s).fetches = s.fetches := rfl
theorem subscriptions_startHold (p : Port) (s : State) : (startHold p s).subscriptions = s.subscriptions := rfl

theorem port_startHold (hq : q ≠ p) (s : State) : (startHold p s).port q = s.port q := by
  unfold startHold; rw [port_modPort, if_neg (Ne.symm hq)]

theorem subscriptions_quarantine (hp : (s.port p).state = .online ∨ (s.port p).state = .leaving) :
    (quarantine p s).subscriptions = (departed p s).subscriptions := by
  rw [quarantine_session hp, subscriptions_startHold, subscriptions_endDrains, subscriptions_teardown]
  exact see_abortDeferredSlots subscriptions_queues subscriptions_pool subscriptions_slots p _

/-- The quarantine orphans the port's topics and takes its posts from the deferral lists (R56, R127). -/
theorem topicsOrphaned_quarantine (hx : SlotLaw s) (hd : DirectoryLaw s)
    (hp : (s.port p).state = .online ∨ (s.port p).state = .leaving) :
    TopicsOrphaned s (quarantine p s) p (·.isNotOf p) := by
  have orphaned := topicsOrphaned_departed (p := p) hd
  have state (q : Port) (_ : q ≠ p) := state_departed p q s
  have law := slotLaw_departed (p := p) hx
  rw [quarantine_session hp]
  generalize departed p s = u at orphaned state law ⊢
  have tables := see_abortDeferredSlots tables_queues tables_pool tables_slots p u
  have solicits (q : Port) : ((abortDeferredSlots p u).port q).solicits = (u.port q).solicits := by
    refine abortDeferredSlots_keeps (P := fun v => (v.port q).solicits = (u.port q).solicits) (fun v x _ _ hv => ?_) rfl
    rw [port_endDeferred]; exact hv
  have lists (q : Port) := lists_abortDeferredSlots law p q
  have standing (q : Port) := standing_abortDeferredSlots q p u
  generalize abortDeferredSlots p u = v at tables solicits lists standing ⊢
  unfold State.tables at tables
  simp only [Prod.mk.injEq] at tables
  obtain ⟨topics, fetches, -⟩ := tables
  refine orphaned.carried state (fun i => ?_) (fun j => ?_) (fun q hq => ?_) fun q hq hst => ?_
  · unfold State.topic; rw [topics_startHold, topics_endDrains, topics_teardown, topics]
  · unfold State.fetch; rw [fetches_startHold, fetches_endDrains, fetches_teardown, fetches]
  · rw [port_startHold hq, solicits_endDrains, solicits_teardown, solicits]
  · rw [port_startHold hq] at hst ⊢
    rw [← PortRecord.state_of_standing (standing q)] at hst
    obtain ⟨queue, deferral, missed⟩ := PortRecord.lists_iff.mp (PortRecord.lists_of_unslotted (unslotted_torn hq hst))
    obtain ⟨queue', deferral', missed'⟩ := lists q
    exact ⟨queue.trans queue', deferral.trans deferral', missed.trans missed'⟩

end quarantined

/-- Settles O11. -/
theorem quarantineEndsTheSession : Obligations.QuarantineEndsTheSession := by
  intro p s transaction bytes h hends hfault hst ht
  have open_ : (s.port p).state ≠ .quarantined := by rcases hst with e | e <;> rw [e] <;> exact nofun
  obtain ⟨f, hf, exec⟩ := exec_quarantiningFrame hends hfault open_ ht
  obtain ⟨slots, directory, sessions⟩ := hf.sessions (c := p) h
  have state := hf.port_state (s := s) (c := p)
  have session : ((s.modPort p f).port p).state = .online ∨ ((s.modPort p f).port p).state = .leaving := by
    rw [state]; exact hst
  have standing := standing_quarantine session
  have law := sessionLaw_quarantine (p := p) (by rw [state]; exact open_) slots directory sessions
  have orphaned := (topicsOrphaned_quarantine slots directory session).of_modPort
  have beside (q : Port) (hq : ¬ (q = p ∨ (s.port q).state = .leaving)) :
      ((quarantine p (s.modPort p f)).port q).standing = (s.port q).standing := by
    obtain ⟨hne, hl⟩ := not_or.mp hq
    rw [standing_quarantine_ne session (Ne.symm hne) (by rw [state]; exact hl), port_modPort, if_neg (Ne.symm hne)]
  have backdrop := (backdrop_quarantine _ session).trans (backdrop_modPort s p f)
  have entries (i : SubIndex) : (quarantine p (s.modPort p f)).subscription i = (departed p (s.modPort p f)).subscription i := by
    unfold State.subscription; rw [subscriptions_quarantine session]
  have freed := subscription_departed sessions session
  rw [port_modPort_same] at standing
  generalize quarantine p (s.modPort p f) = t at exec standing law orphaned beside backdrop entries
  have quarantined : (t.port p).state = .quarantined := (congrArg PortRecord.state standing :)
  refine ⟨t, exec, quarantined, (congrArg PortRecord.hold standing :), law.closed p (.inr quarantined),
    (congrArg PortRecord.score standing).trans (hf.score _), (congrArg PortRecord.mask standing).trans (hf.mask _), ?_,
    fun i => (entries i).trans (freed i), orphaned, keepsStanding_of beside backdrop⟩
  refine (congrArg PortRecord.view standing).trans ?_
  rw [hf.view]
  rfl

end Sys2Proof.Machine
end
